-- ==== Sys2Proof/Word.lean ====
section
/-! DEFINITION. Words of the VTEnc-BCT engine: the register width, bytes and the size of the address space. -/

namespace Sys2Proof

/-- A 64-bit register value (10_state.md R21, R25). -/
abbrev Word := BitVec 64

/-- A byte of memory (00_scope.md R8). -/
abbrev Byte := BitVec 8

/-- A 7-bit counter register: `WR_CNT`, `RD_LOADED`, `RD_CONS`, `STK_HWM`, a `bit_pos` (10_state.md R30, R32, R37, R38). -/
abbrev Count7 := BitVec 7

/-- The natural `v` written to a 64-bit register: reduced mod 2^64 (00_scope.md R7). -/
abbrev toWord (v : Nat) : Word := BitVec.ofNat 64 v

/-- The natural `v` written to a 7-bit register: reduced mod 2^7 (00_scope.md R7). -/
abbrev toCount (v : Nat) : Count7 := BitVec.ofNat 7 v

end Sys2Proof
end

