-- ==== Sys2Proof/Config.lean ====
section
/-! DEFINITION. The implementation parameters of 00_scope.md R6: the fixed ones as constants, the two open ones
(`MemAdmit`, `REG_BASE`) as plain data that a platform supplies, and the one free value of the spec (U9). -/

namespace Sys2Proof.Config

/-- `MAX_FIELD`: the largest `n_bits` of one append, write or read (R6). -/
def maxField : Nat := 57

/-- `MIN_CAP`: the smallest writer capacity in bytes (R6). -/
def minCap : Nat := 8

/-- `STACK_CAP`: the entries of the work stack (R6). -/
def stackCap : Nat := 64

/-- `LIST_MAX`: the largest element count of a list (R6). -/
def listMax : Nat := 2 ^ 57 - 1

/-- `LIST_PREFIX_BITS`: the width of a list's count prefix (R6). -/
def listPrefixBits : Nat := 57

/-- One past the last byte address (20_memory.md R60; 00_scope.md R16). -/
def addressSpace : Nat := 2 ^ 64

/-- The size of the register space in bytes (20_memory.md R70). -/
def regSpaceBytes : Nat := 256

/-- The two OPEN parameters of 92_eei_decisions.md D3 and D8. `refused` lists the address ranges (first address, number of
bytes) that `MemAdmit` refuses; every predicate on the finite address space can be written so. Log 4, log 5. -/
structure Platform where
  /-- `REG_BASE`, the base of the block's register space in the host's register address map (20_memory.md R70, U17). -/
  regBase : Nat
  /-- The ranges in which `MemAdmit` is false (20_memory.md R63, U13). -/
  refused : List (Nat × Nat)
deriving DecidableEq, Repr

/-- FREE VALUE: what a host read of a register other than `STATUS` returns while `BUSY = 1` (10_state.md R26, U9). The `k`-th
such read since power-on returns `busyRead k`; nothing is known of it. Log 6. -/
opaque busyRead : Nat → Word

end Sys2Proof.Config
end

