-- ==== Sys2Proof/Machine/State.lean ====
section
/-! DEFINITION. The state of the block as plain data, the ways a step can stop, and the state after reset
(10_state.md R20 to R44, 20_memory.md R60). -/

namespace Sys2Proof.Machine

/-- Where the model stops although the spec names no such outcome. Neither is reachable from a state that meets the
invariants of 10_state.md R31, R33 and R40 (see Sys2Proof.Safety). -/
inductive Fault where
  /-- Raised by a byte access at or above 2^64, an address that 20_memory.md R60 says does not exist. Safe: the rules refuse such
  operands with `BadArgument` first (00_scope.md R16). Log 14. -/
  | outsideAddressSpace
  /-- Raised by a tree walk that would take more steps than 44_bct_encoder.md R167 and 45_bct_decoder.md R183 allow. Safe: those
  rules say it cannot happen. Log 15. -/
  | walkBoundPassed
deriving DecidableEq, Repr

/-- What the model declines to give a meaning to. -/
inductive Refusal where
  /-- Raised by a dispatch arm whose command has no meaning yet. Safe. No arm answers it. -/
  | notModelled (mnemonic : String)
  /-- Raised by a register-space access by the host that is not an aligned 64-bit access: "only aligned 64-bit accesses are
  defined" (10_state.md R26, U14). Safe. Log 8. -/
  | undefinedRegisterAccess
  /-- Raised by a host access to a byte of the running command's regions while `BUSY = 1` (70_reset_and_hazards.md R238, U10:
  "refuse"). Safe. Log 7. -/
  | bufferTouchedWhileBusy
deriving DecidableEq, Repr

/-- The error kinds of 60_exceptions.md R201, codes 1 to 14. -/
inductive Err where
  | bufferTooSmall | endOfStream | notEnoughBits | inputTooSmall | inputTooBig | outputTooBig | wrongFormat
  | illegalCommand | contractViolation | notOpen | badArgument | badConfig | stackOverflow | busError
deriving DecidableEq, Repr

/-- A *BitCluster*, one entry of the work stack (10_state.md R38). -/
structure BitCluster where
  /-- `from`: offset into the value array. -/
  start : Word
  /-- `length`: element count. -/
  length : Word
  /-- `bit_pos`: the next bit to examine, exclusive. -/
  bitPos : Count7
  /-- `higher_bits`: the value bits already determined; the encoder writes 0. -/
  higherBits : Word
deriving DecidableEq, Repr

/-- Memory: the bytes that differ from what an unlisted address reads as, by rising address (20_memory.md R60; log 3). -/
abbrev Memory := List Host.Cell

/-- The size of one access of the host to its register address map; only `b8` is defined (10_state.md R26). -/
inductive AccessSize where
  | b1 | b2 | b4 | b8
deriving DecidableEq, Repr

/-- What happens to the block from outside, one action at a time (10_state.md R20, R26; 30_encoding.md R90; 20_memory.md R72;
70_reset_and_hazards.md R230). -/
inductive HostAction where
  /-- The host writes `value` at `addr` of its register address map. -/
  | regWrite (addr : Nat) (size : AccessSize) (value : Word)
  /-- The host reads at `addr` of its register address map. -/
  | regRead (addr : Nat) (size : AccessSize)
  /-- The host writes one byte of memory. -/
  | memWrite (addr : Nat) (value : Byte)
  /-- The host reads one byte of memory. -/
  | memRead (addr : Nat)
  /-- The platform's reset input. If a command runs, the first `storesDone` of its byte stores have been performed (U15). -/
  | hwReset (storesDone : Nat)
  /-- The host lets time pass: a running command comes to its completion (30_encoding.md R90). -/
  | elapse
deriving DecidableEq, Repr

/-- The whole state. Every field up to `mem` is architectural; the rest is the platform's parameters and the model's own. -/
structure State where
  /-- `ARG0` (R21). -/
  arg0 : Word
  /-- `ARG1` (R21). -/
  arg1 : Word
  /-- `ARG2` (R21). -/
  arg2 : Word
  /-- `ARG3` (R21). -/
  arg3 : Word
  /-- `RES0` (R21). -/
  res0 : Word
  /-- `STATUS.ERR` (R23). -/
  err : BitVec 8
  /-- `STATUS.FAULT` (R23). -/
  fault : Bool
  /-- `STATUS.WR_OPEN` (R23, R30). -/
  wrOpen : Bool
  /-- `STATUS.RD_OPEN` (R23, R32). -/
  rdOpen : Bool
  /-- `STATUS.SUBERR` (R23). -/
  suberr : BitVec 8
  /-- The command in progress: `STATUS.BUSY = 1` exactly when this is `some w`, where `w` is the value written to `CMD` (R23, R24;
  30_encoding.md R90). -/
  running : Option Word
  /-- The stored bits 10:0 of `CFG` (R27); bits 63:11 are hard-wired to 0. -/
  cfg : BitVec 11
  /-- `MCL` (R28). -/
  mcl : Word
  /-- `WR_ACC` (R30). -/
  wrAcc : Word
  /-- `WR_CNT` (R30). -/
  wrCnt : Count7
  /-- `WR_BASE` (R30). -/
  wrBase : Word
  /-- `WR_PTR` (R30). -/
  wrPtr : Word
  /-- `WR_LIMIT` (R30). -/
  wrLimit : Word
  /-- `RD_LA` (R32). -/
  rdLa : Word
  /-- `RD_LOADED` (R32). -/
  rdLoaded : Count7
  /-- `RD_CONS` (R32). -/
  rdCons : Count7
  /-- `RD_BASE` (R32). -/
  rdBase : Word
  /-- `RD_PTR` (R32). -/
  rdPtr : Word
  /-- `RD_END` (R32). -/
  rdEnd : Word
  /-- The entries `STK[STK_SP - 1]`, ..., `STK[0]` in this order; `STK_SP` is the length (R37, R38; log 10). -/
  stack : List BitCluster
  /-- `STK_HWM` (R37). -/
  stkHwm : Count7
  /-- Memory (20_memory.md R60). -/
  mem : Memory
  /-- The platform's parameters `MemAdmit` and `REG_BASE` (log 4, log 5). No step changes them. -/
  platform : Config.Platform
  /-- The model's own: the actions still to come, the next one first (log 2). -/
  inbox : List HostAction
  /-- The model's own: what the host's last read returned (log 19). -/
  readData : Word
  /-- The model's own: the number of unspecified values handed out so far (U9; log 6). -/
  freeCount : Nat
  /-- The model's own: the byte stores of the command that ran last, newest first (log 20). -/
  storeTrace : List Host.Cell
deriving DecidableEq, Repr

/-- The state after reset (10_state.md R44, 70_reset_and_hazards.md R231). Memory as it is at power-on (log 3), every access admitted
(the default of 00_scope.md R6), no action pending (log 2). -/
def State.reset : State where
  arg0 := 0
  arg1 := 0
  arg2 := 0
  arg3 := 0
  res0 := 0
  err := 0
  fault := false
  wrOpen := false
  rdOpen := false
  suberr := 0
  running := none
  cfg := 0x0C
  mcl := 1
  wrAcc := 0
  wrCnt := 0
  wrBase := 0
  wrPtr := 0
  wrLimit := 0
  rdLa := 0
  rdLoaded := 0
  rdCons := 0
  rdBase := 0
  rdPtr := 0
  rdEnd := 0
  stack := []
  stkHwm := 0
  mem := []
  platform := { regBase := 0, refused := [] }
  inbox := []
  readData := 0
  freeCount := 0
  storeTrace := []

end Sys2Proof.Machine
end

