-- ==== Sys2Proof/Machine/Tables.lean ====
section
/-! DEFINITION. The constant tables and pure functions of 00_scope.md R12 to R15 (40_system_and_tables.md R100). -/

namespace Sys2Proof.Machine

/-- `SizeMask(n)`, the all-ones mask of `n` bits (R12). -/
def sizeMask (n : Nat) : Nat := 2 ^ n - 1

/-- `BitMask(i)`, the single-bit mask of bit `i` (R13). -/
def bitMask (i : Nat) : Nat := 2 ^ i

/-- `BitsLen64(v)`, the index of the highest set bit plus one, 0 for 0 (R14). -/
def bitsLen64 (v : Nat) : Nat := if v = 0 then 0 else Nat.log2 v + 1

/-- `IsFull(length, bit_pos)`: a full subtree; false at `bit_pos = 64` (R15). -/
def isFull (length bitPos : Nat) : Bool := bitPos < 64 && length == 2 ^ bitPos

end Sys2Proof.Machine
end

