-- ==== Sys2Proof/Machine/Operands.lean ====
section
/-! DEFINITION. What a command reads besides its immediate: the argument registers as naturals (30_encoding.md R83), the fields of
`CFG` and the values derived from them (10_state.md R27, R29), and the range checks of 60_exceptions.md R203. -/

namespace Sys2Proof.Machine

/-- `CFG.WSEL`, bits 1:0 (R27). -/
def State.wsel (s : State) : Nat := (s.cfg.extractLsb' 0 2).toNat

/-- `CFG.REP`, bit 2: 1 = list, 0 = set (R27, R29 `KIND`). -/
def State.isList (s : State) : Bool := s.cfg.getLsbD 2

/-- `CFG.SKIP`, bit 3 (R27). -/
def State.skip (s : State) : Bool := s.cfg.getLsbD 3

/-- `CFG.BW`, bits 10:4 (R27). -/
def State.bw (s : State) : Nat := (s.cfg.extractLsb' 4 7).toNat

/-- `W = 8 << CFG.WSEL`, the element width in bits (R29). -/
def State.elemWidth (s : State) : Nat := 8 <<< s.wsel

/-- `W/8`, the bytes of one element (20_memory.md R64). -/
def State.elemBytes (s : State) : Nat := s.elemWidth / 8

/-- `EBW`, the effective bit width: `W` when `CFG.BW = 0`, else `CFG.BW` (R29). -/
def State.ebw (s : State) : Nat := if s.bw = 0 then s.elemWidth else s.bw

/-- `SKIP_EFF`: the full-subtree shortcut applies to sets only (R29). -/
def State.skipEff (s : State) : Bool := s.skip && !s.isList

/-- `CFG.BW > W`, the configuration error of 60_exceptions.md R204. -/
def State.badConfig (s : State) : Bool := s.elemWidth < s.bw

/-- A byte range that reaches or passes 2^64 (00_scope.md R16; 60_exceptions.md R203), in exact natural arithmetic. -/
def rangeTooFar (base bytes : Nat) : Bool := Config.addressSpace ≤ base + bytes

/-- The bytes of a value array of `len` elements (20_memory.md R64). -/
def State.arrayBytes (s : State) (len : Nat) : Nat := len * s.elemBytes

/-- The address of element `i` of the value array at `vbase` (20_memory.md R64, R65). -/
def State.elemAddr (s : State) (vbase i : Nat) : Nat := vbase + i * s.elemBytes

/-- `STK_SP`, the number of stack entries in use (10_state.md R37; log 10). -/
def State.stkSp (s : State) : Nat := s.stack.length

end Sys2Proof.Machine
end

