-- ==== Sys2Proof/Machine/Flags.lean ====
section
/-! DEFINITION. The error codes of 60_exceptions.md R201, the flags of `STATUS` (10_state.md R23) and the packed views that the host
reads (10_state.md R34). The block has no arithmetic flags (R23). -/

namespace Sys2Proof.Machine

/-- The code of an error in `STATUS.ERR` (R201). -/
def Err.code : Err → BitVec 8
  | .bufferTooSmall => 1
  | .endOfStream => 2
  | .notEnoughBits => 3
  | .inputTooSmall => 4
  | .inputTooBig => 5
  | .outputTooBig => 6
  | .wrongFormat => 7
  | .illegalCommand => 8
  | .contractViolation => 9
  | .notOpen => 10
  | .badArgument => 11
  | .badConfig => 12
  | .stackOverflow => 13
  | .busError => 14

/-- `STATUS.BUSY`: a command is in progress (R23; 30_encoding.md R90). -/
def State.busy (s : State) : Bool := s.running.isSome

/-- A flag as the natural at its bit. -/
def flagAt (b : Bool) (bit : Nat) : Nat := if b then bitMask bit else 0

/-- `STATUS` as the host reads it: `ERR` 7:0, `BUSY` 8, `FAULT` 9, `WR_OPEN` 10, `RD_OPEN` 11, `SUBERR` 23:16, all else 0 (R23). -/
def State.statusWord (s : State) : Word :=
  toWord (s.err.toNat + flagAt s.busy 8 + flagAt s.fault 9 + flagAt s.wrOpen 10 + flagAt s.rdOpen 11 + s.suberr.toNat <<< 16)

/-- `RD_BITS`: bits 6:0 `RD_LOADED`, bits 14:8 `RD_CONS` (R34). -/
def State.rdBitsWord (s : State) : Word := toWord (s.rdLoaded.toNat + s.rdCons.toNat <<< 8)

/-- `STK_INFO`: bits 6:0 `STK_SP`, bits 14:8 `STK_HWM` (R34). -/
def State.stkInfoWord (s : State) : Word := toWord ((toCount s.stkSp).toNat + s.stkHwm.toNat <<< 8)

/-- `STATUS.FAULT` after a completion with code `e`: sticky (R23; 60_exceptions.md R206, R244). -/
def faultAfter (fault : Bool) (e : BitVec 8) : Bool := fault || e != 0

end Sys2Proof.Machine
end

