-- ==== Sys2Proof/Machine/Ops.lean ====
section
/-! DEFINITION. The named operations over memory, registers and the work stack, how a rule raises an error, and the completion step that
every command ends in (60_exceptions.md R206): the one operation that takes an exception of this block. There is no handler and no
return from one (60_exceptions.md R209). -/

namespace Sys2Proof.Machine

/-! ### Memory (20_memory.md R60 to R64) -/

/-- What an address reads as that `mem` does not list (log 3). -/
def Memory.unlisted : Byte := 0

/-- The byte at an address (R60). -/
def Memory.read : Memory → Nat → Byte
  | [], _ => Memory.unlisted
  | (a, b) :: m, x => if a = x then b else Memory.read m x

/-- Memory with nothing listed at address `x`. -/
def Memory.erase : Memory → Nat → Memory
  | [], _ => []
  | (a, b) :: m, x => if a = x then Memory.erase m x else (a, b) :: Memory.erase m x

/-- Memory with a cell put in its place by rising address. -/
def Memory.insert : Memory → Host.Cell → Memory
  | [], c => [c]
  | d :: m, c => if c.1 < d.1 then c :: d :: m else d :: Memory.insert m c

/-- The byte at address `x` becomes `b`; a byte equal to what an unlisted address reads as is not listed. -/
def Memory.write (m : Memory) (x : Nat) (b : Byte) : Memory :=
  if b = Memory.unlisted then m.erase x else (m.erase x).insert (x, b)

/-- The canonical form from address `lo` on: addresses strictly rising, below 2^64, and no byte that an unlisted address reads as. -/
def Memory.wfFrom : Nat → Memory → Bool
  | _, [] => true
  | lo, (a, b) :: m => lo ≤ a && a < Config.addressSpace && b != Memory.unlisted && Memory.wfFrom (a + 1) m

/-- The canonical form of memory (log 3). -/
def Memory.wf (m : Memory) : Bool := Memory.wfFrom 0 m

/-- `MemAdmit(addr, 1)` of the platform (R63; log 4). -/
def admitted (p : Config.Platform) (addr : Nat) : Bool :=
  p.refused.all fun r => !(r.1 ≤ addr && addr < r.1 + r.2)

/-! ### Running a rule (00_scope.md R9, R11) -/

/-- Why a rule ends before its last step. -/
inductive Abort where
  /-- `raise e`, with the info that `STATUS.SUBERR` records (R11; 45_bct_decoder.md R185). -/
  | raised (e : Err) (info : BitVec 8)
  /-- The model stops (see `Fault`). -/
  | stopped (f : Fault)
deriving DecidableEq, Repr

/-- A rule in progress: it reads and changes the state step by step and may end early, keeping what it has done (R9, R11). -/
abbrev Rule (α : Type) := EStateM Abort State α

/-- `raise <Error>` (R11). -/
def raise {α : Type} (e : Err) : Rule α := throw (.raised e 0)

/-- One numbered check of a rule: if the condition holds, `raise e` (R11). -/
def raiseIf (c : Bool) (e : Err) : Rule Unit := if c then raise e else pure ()

/-- One byte is read: `MemRead(addr, 1)` (20_memory.md R61). -/
def readByte (addr : Nat) : Rule Byte := fun s =>
  if Config.addressSpace ≤ addr then .error (.stopped .outsideAddressSpace) s
  else if !admitted s.platform addr then .error (.raised .busError 0) s
  else .ok (s.mem.read addr) s

/-- The state after one byte store. -/
def State.storeByte (s : State) (addr : Nat) (b : Byte) : State :=
  { s with mem := s.mem.write addr b, storeTrace := (addr, b) :: s.storeTrace }

/-- One byte is stored: `MemWrite(addr, 1, b)` (20_memory.md R62). -/
def writeByte (addr : Nat) (b : Byte) : Rule Unit := fun s =>
  if Config.addressSpace ≤ addr then .error (.stopped .outsideAddressSpace) s
  else if !admitted s.platform addr then .error (.raised .busError 0) s
  else .ok () (s.storeByte addr b)

/-- `MemRead(addr, n)`: `n` bytes in increasing address order, the first one least significant (20_memory.md R61, R66). -/
def memRead (addr : Nat) : Nat → Rule Nat
  | 0 => pure 0
  | n + 1 => do
    let b ← readByte addr
    let rest ← memRead (addr + 1) n
    pure (b.toNat + 256 * rest)

/-- `MemWrite(addr, n, v)`: `n` bytes in increasing address order, the first one least significant (20_memory.md R62, R66). -/
def memWrite (addr : Nat) : Nat → Nat → Rule Unit
  | 0, _ => pure ()
  | n + 1, v => do
    writeByte addr (BitVec.ofNat 8 v)
    memWrite (addr + 1) n (v / 256)

/-- `Elem(vbase, i)` (20_memory.md R64). -/
def elem (vbase i : Nat) : Rule Nat := do
  let s ← get
  memRead (s.elemAddr vbase i) s.elemBytes

/-- `StoreElem(vbase, i, v)` (20_memory.md R64). -/
def storeElem (vbase i v : Nat) : Rule Unit := do
  let s ← get
  memWrite (s.elemAddr vbase i) s.elemBytes (v % 2 ^ s.elemWidth)

/-! ### The work stack (10_state.md R37 to R41) -/

/-- The state after a push: the entry on top, the high-water mark raised (R39). -/
def State.pushed (s : State) (c : BitCluster) : State :=
  { s with stack := c :: s.stack, stkHwm := toCount (max s.stkHwm.toNat (s.stkSp + 1)) }

/-- The state with the given live entries (R41). -/
def State.withStack (s : State) (k : List BitCluster) : State := { s with stack := k }

/-- `StackPush(e)` (R39). -/
def stackPush (c : BitCluster) : Rule Unit := do
  let s ← get
  raiseIf (Config.stackCap ≤ s.stkSp) .stackOverflow
  set (s.pushed c)

/-- `StackClear()` (R41). -/
def stackClear : Rule Unit := modify fun s => s.withStack []

/-- `StackPop()`, and `none` when `STK_SP = 0` (R41). -/
def stackPop : Rule (Option BitCluster) := do
  let s ← get
  match s.stack with
  | [] => pure none
  | c :: rest => do
    set (s.withStack rest)
    pure (some c)

/-! ### Reset and completion -/

/-- Every register at its reset value; memory, the platform and what belongs to the world outside are not touched
(10_state.md R44, 70_reset_and_hazards.md R230; log 22). -/
def State.registersReset (s : State) : State :=
  { State.reset with
    mem := s.mem, platform := s.platform, inbox := s.inbox, readData := s.readData, freeCount := s.freeCount,
    storeTrace := s.storeTrace }

/-- The completion step with code `e`, info `sub` and result `r`: `STATUS.ERR`, `SUBERR`, the sticky `FAULT`, `RES0`, and `BUSY`
back to 0 (60_exceptions.md R206; 30_encoding.md R90). -/
def State.completed (s : State) (e sub : BitVec 8) (r : Word) : State :=
  { s with err := e, suberr := sub, fault := faultAfter s.fault e, res0 := r, running := none }

/-- The state in which a command starts: as it stands, with no store made yet (log 20). -/
def State.started (s : State) : State := { s with storeTrace := [] }

/-- The outcome of a finished rule: completion without error, completion with the error it raised (the exception is taken), or a stop
(60_exceptions.md R206, R209). -/
def complete : EStateM.Result Abort State Word → Host.Outcome State Fault Refusal
  | .ok r s => .next (s.completed 0 0 r)
  | .error (.raised e info) s => .next (s.completed e.code info 0)
  | .error (.stopped f) _ => .fault f

/-- A command: its rule from the present state to its end or first raise, then the completion step (30_encoding.md R89). The rule
answers the value of `RES0`. -/
def runCommand (rule : Rule Word) (s : State) : Host.Outcome State Fault Refusal := complete (rule s.started)

/-- The completion of a value written to `CMD` that is no command: `IllegalCommand`, nothing else changes (30_encoding.md R85). -/
def illegalCommand (s : State) : Host.Outcome State Fault Refusal := runCommand (raise .illegalCommand) s

end Sys2Proof.Machine
end

