-- ==== Sys2Proof/Machine/Writer.lean ====
section
/-! DEFINITION. The bitstream writer (41_bitstream_writer.md R110 to R117). -/

namespace Sys2Proof.Machine

/-- The writer registers of a freshly initialised writer (R111). -/
def State.writerInitialised (s : State) (base cap : Nat) : State :=
  { s with
    wrAcc := 0, wrCnt := 0, wrBase := toWord base, wrPtr := toWord base, wrLimit := toWord (base + cap - Config.minCap),
    wrOpen := true }

/-- The writer with other pending bits and another place for the next byte. -/
def State.withWriter (s : State) (ptr acc : Word) (cnt : Count7) : State := { s with wrPtr := ptr, wrAcc := acc, wrCnt := cnt }

/-- The accumulator and its count after `n` bits of `value` are merged at the current bit offset (R112, R115). -/
def State.merged (s : State) (value n : Nat) : State :=
  s.withWriter s.wrPtr (s.wrAcc ||| toWord ((value &&& sizeMask n) <<< s.wrCnt.toNat)) (toCount (s.wrCnt.toNat + n))

/-- The number of complete pending bytes, `nb` of R113. -/
def State.wholeBytes (s : State) : Nat := s.wrCnt.toNat >>> 3

/-- The writer after `nb` complete bytes have been stored (R113 step 2). -/
def State.flushed (s : State) (nb : Nat) : State :=
  s.withWriter (toWord (s.wrPtr.toNat + nb)) (s.wrAcc >>> (8 * nb)) (s.wrCnt &&& 7)

/-- A writer command that raises has changed no writer register: the bytes it stored stay, its pointers are not updated
(60_exceptions.md R207; 41_bitstream_writer.md R113 to R116; log 12). -/
def keepWriterOnRaise {α : Type} (r : Rule α) : Rule α := fun s =>
  match r s with
  | .error (.raised e info) t => .error (.raised e info) (t.withWriter s.wrPtr s.wrAcc s.wrCnt)
  | other => other

/-- `FlushBody` (R113): the complete bytes go to memory, then the three registers change together. -/
def flushBody : Rule Unit := do
  let s ← get
  memWrite s.wrPtr.toNat s.wholeBytes s.wrAcc.toNat
  modify fun t => t.flushed s.wholeBytes

/-- The check of `BSW.FLUSH`, `BSW.WRITE` and `BSW.CLOSE` on the pointer: past the capacity boundary (R114). -/
def raiseIfPastLimit : Rule Unit := do
  let s ← get
  raiseIf (s.wrLimit.toNat < s.wrPtr.toNat) .endOfStream

/-- The check of every writer command but `BSW.INIT` (10_state.md R23). -/
def raiseIfWriterClosed : Rule Unit := do
  let s ← get
  raiseIf (!s.wrOpen) .notOpen

/-- `BSW.INIT` on the given operands (R111); also step (4) of `BCT.ENCODE` (44_bct_encoder.md R166). -/
def writerInit (base cap : Nat) : Rule Unit := do
  raiseIf (rangeTooFar base cap) .badArgument
  raiseIf (cap < Config.minCap) .bufferTooSmall
  modify fun s => s.writerInitialised base cap

/-- `BSW.APPEND` on the given operands (R112). -/
def writerAppend (value n : Nat) : Rule Unit := do
  raiseIfWriterClosed
  raiseIf (Config.maxField < n) .contractViolation
  let s ← get
  raiseIf (64 ≤ s.wrCnt.toNat + n) .contractViolation
  modify fun t => t.merged value n

/-- `BSW.WRITE` on the given operands (R115). -/
def writerWrite (value n : Nat) : Rule Unit := do
  raiseIfWriterClosed
  raiseIf (Config.maxField < n) .contractViolation
  let s ← get
  raiseIf (64 < s.wrCnt.toNat + n) .contractViolation
  raiseIfPastLimit
  keepWriterOnRaise do
    modify fun t => t.merged value n
    flushBody

/-- `BSW.FLUSH` (R114). -/
def writerFlush : Rule Unit := do
  raiseIfWriterClosed
  raiseIfPastLimit
  keepWriterOnRaise flushBody

/-- `BSW.CLOSE` (R116): a last flush, the trailing partial byte, the size, and the writer closed. -/
def writerClose : Rule Word := do
  raiseIfWriterClosed
  raiseIfPastLimit
  keepWriterOnRaise do
    flushBody
    let s ← get
    if s.wrCnt = 0 then pure () else memWrite s.wrPtr.toNat 1 (s.wrAcc.toNat % 256)
    modify fun t => { t with wrOpen := false }
    pure (toWord (s.wrPtr.toNat - s.wrBase.toNat + if s.wrCnt = 0 then 0 else 1))

/-- `PutField(v, n)` (R117): one `BSW.WRITE`, or the low 57 bits and then the rest. -/
def putField (v n : Nat) : Rule Unit :=
  if n ≤ Config.maxField then writerWrite v n
  else do
    writerWrite (v &&& sizeMask Config.maxField) Config.maxField
    writerWrite (v >>> Config.maxField) (n - Config.maxField)

/-- `BSW.INIT` (R111): `ARG0` = base, `ARG1` = capacity in bytes. -/
def execBswInit (s : State) : Host.Outcome State Fault Refusal :=
  runCommand (do writerInit s.arg0.toNat s.arg1.toNat; pure 0) s

/-- `BSW.APPEND` (R112): `ARG0` = value, `N` = n. -/
def execBswAppend (n : Nat) (s : State) : Host.Outcome State Fault Refusal :=
  runCommand (do writerAppend s.arg0.toNat n; pure 0) s

/-- `BSW.WRITE` (R115): `ARG0` = value, `N` = n. -/
def execBswWrite (n : Nat) (s : State) : Host.Outcome State Fault Refusal :=
  runCommand (do writerWrite s.arg0.toNat n; pure 0) s

/-- `BSW.FLUSH` (R114). -/
def execBswFlush (s : State) : Host.Outcome State Fault Refusal :=
  runCommand (do writerFlush; pure 0) s

/-- `BSW.CLOSE` (R116): `RES0` = total bytes written. -/
def execBswClose (s : State) : Host.Outcome State Fault Refusal := runCommand writerClose s

end Sys2Proof.Machine
end

