-- ==== Sys2Proof/Machine/ZeroCounter.lean ====
section
/-! DEFINITION. The binary-search zero-counter (43_zero_counter.md R150, R151). -/

namespace Sys2Proof.Machine

/-- The midpoint of the loop of R151. -/
def middle (lo hi : Nat) : Nat := lo + (hi - lo) >>> 1

/-- The loop of R151 on `[lo, hi)` for the array at `sbase` and the tested bit, with at most `fuel` probes; `BitsLen64` of the
interval's length is enough (R154). -/
def zeroCountLoop (sbase bit : Nat) : Nat → Nat → Nat → Rule Nat
  | 0, lo, _ => pure lo
  | fuel + 1, lo, hi =>
    if lo < hi then do
      let v ← elem sbase (middle lo hi)
      if v &&& bitMask bit = 0 then zeroCountLoop sbase bit fuel (middle lo hi + 1) hi
      else zeroCountLoop sbase bit fuel lo (middle lo hi)
    else pure lo

/-- `ZeroCount(sbase, length, bit)` (R151). -/
def zeroCount (sbase length bit : Nat) : Rule Nat := zeroCountLoop sbase bit (bitsLen64 length) 0 length

/-- The rule of `ZC.COUNT` (R150). -/
def zcCountRule (bit : Nat) : Rule Word := do
  let s ← get
  raiseIf (s.elemWidth ≤ bit) .badArgument
  raiseIf (rangeTooFar s.arg0.toNat (s.arrayBytes s.arg1.toNat)) .badArgument
  let z ← zeroCount s.arg0.toNat s.arg1.toNat bit
  pure (toWord z)

/-- `ZC.COUNT` (R150): `ARG0` = address of element 0, `ARG1` = length, `N` = the tested bit. -/
def execZcCount (bit : Nat) (s : State) : Host.Outcome State Fault Refusal := runCommand (zcCountRule bit) s

end Sys2Proof.Machine
end

