-- ==== Sys2Proof/Machine/Encoder.lean ====
section
/-! DEFINITION. The bit-cluster-tree encoder (44_bct_encoder.md R160 to R166). -/

namespace Sys2Proof.Machine

/-- `AddE(from, length, bit_pos)` (R161). -/
def addE (start length bitPos : Nat) : Rule Unit :=
  if length = 0 ∨ bitPos = 0 then pure ()
  else stackPush { start := toWord start, length := toWord length, bitPos := toCount bitPos, higherBits := 0 }

/-- Case 3 of `EncStep`: the low `bitPos` bits of `n` elements from index `i` on, in increasing order (R162). -/
def emitLiterals (vbase bitPos : Nat) : Nat → Nat → Rule Unit
  | 0, _ => pure ()
  | n + 1, i => do
    let v ← elem vbase i
    putField (v &&& sizeMask bitPos) bitPos
    emitLiterals vbase bitPos n (i + 1)

/-- Case 4 of `EncStep`: the count of zeros at `bit_pos − 1`, then the zeros child and the ones child (R162). -/
def encSplit (vbase start length bitPos : Nat) : Rule Unit := do
  let s ← get
  let nZeros ← zeroCount (s.elemAddr vbase start) length (bitPos - 1)
  putField nZeros (bitsLen64 length)
  addE start nZeros (bitPos - 1)
  addE (start + nZeros) (length - nZeros) (bitPos - 1)

/-- `EncStep(vbase, c)`: the four cases in their order (R162). -/
def encStep (vbase : Nat) (c : BitCluster) : Rule Unit := do
  let s ← get
  if c.bitPos = 0 then pure ()
  else if s.skipEff && isFull c.length.toNat c.bitPos.toNat then pure ()
  else if c.length.toNat ≤ s.mcl.toNat then emitLiterals vbase c.bitPos.toNat c.length.toNat c.start.toNat
  else encSplit vbase c.start.toNat c.length.toNat c.bitPos.toNat

/-- The `while` of `ETreeBody`, at most `fuel` steps (R163, R167; log 15). -/
def eTreeLoop (vbase : Nat) : Nat → Rule Unit
  | 0 => do
    let s ← get
    if s.stack = [] then pure () else throw (.stopped .walkBoundPassed)
  | fuel + 1 => do
    match ← stackPop with
    | none => pure ()
    | some c => do
      encStep vbase c
      eTreeLoop vbase fuel

/-- `ETreeBody(vbase, len)` (R163), within the `1 + len*EBW` steps of R167. -/
def eTreeBody (vbase len : Nat) : Rule Unit := do
  stackClear
  let s ← get
  addE 0 len s.ebw
  eTreeLoop vbase (1 + len * s.ebw)

/-- `PutHeader(len)` (R165): 57 bits of `len` for a list, `W` bits of `len − 1` for a set. -/
def putHeader (len : Nat) : Rule Unit := do
  let s ← get
  if s.isList then putField len Config.listPrefixBits else putField (len - 1) s.elemWidth

/-- The rule of `BCT.ETREE` (R164). -/
def bctEtreeRule : Rule Word := do
  let s ← get
  raiseIf s.badConfig .badConfig
  raiseIf (rangeTooFar s.arg0.toNat (s.arrayBytes s.arg1.toNat)) .badArgument
  raiseIfWriterClosed
  raiseIf (7 < s.wrCnt.toNat) .contractViolation
  eTreeBody s.arg0.toNat s.arg1.toNat
  pure 0

/-- `BCT.ETREE` (R164): `ARG0` = value array, `ARG1` = length. -/
def execBctEtree (s : State) : Host.Outcome State Fault Refusal := runCommand bctEtreeRule s

/-- The length limit that a set's width puts on `len` elements: `W < 64` and `len > 2^W` (R166 check 3; 45_bct_decoder.md R186). -/
def State.overSetLimit (s : State) (len : Nat) : Bool := s.elemWidth < 64 && 2 ^ s.elemWidth < len

/-- The kind limits of `BCT.ENCODE` (R166 check 3). -/
def raiseIfInputLength (len : Nat) : Rule Unit := do
  let s ← get
  if s.isList then raiseIf (Config.listMax < len) .inputTooBig
  else do
    raiseIf (len == 0) .inputTooSmall
    raiseIf (s.overSetLimit len) .inputTooBig

/-- The rule of `BCT.ENCODE` (R166). -/
def bctEncodeRule : Rule Word := do
  let s ← get
  raiseIf s.badConfig .badConfig
  raiseIf (rangeTooFar s.arg0.toNat (s.arrayBytes s.arg1.toNat) || rangeTooFar s.arg2.toNat s.arg3.toNat) .badArgument
  raiseIfInputLength s.arg1.toNat
  writerInit s.arg2.toNat s.arg3.toNat
  putHeader s.arg1.toNat
  eTreeBody s.arg0.toNat s.arg1.toNat
  writerClose

/-- `BCT.ENCODE` (R166): `ARG0` = value array, `ARG1` = length, `ARG2` = output buffer, `ARG3` = its capacity. -/
def execBctEncode (s : State) : Host.Outcome State Fault Refusal := runCommand bctEncodeRule s

end Sys2Proof.Machine
end

