-- ==== Sys2Proof/Machine/Reader.lean ====
section
/-! DEFINITION. The bitstream reader (42_bitstream_reader.md R130 to R135). -/

namespace Sys2Proof.Machine

/-- The reader registers of a freshly initialised reader (R131). -/
def State.readerInitialised (s : State) (base len : Nat) : State :=
  { s with
    rdBase := toWord base, rdPtr := toWord base, rdEnd := toWord (base + len), rdLa := 0, rdLoaded := 0, rdCons := 0,
    rdOpen := true }

/-- `p`, the address of the first byte that still has an unconsumed bit (R132). -/
def State.loadAddr (s : State) : Nat := s.rdPtr.toNat + s.rdCons.toNat >>> 3

/-- The reader after a load of `k` bytes at `p` that assemble to `la` (R132 step 3). -/
def State.loaded (s : State) (p k la : Nat) : State :=
  { s with rdLa := toWord la, rdLoaded := toCount (8 * k), rdCons := s.rdCons &&& 7, rdPtr := toWord p }

/-- The reader after `n` more bits are consumed (R133 step 4). -/
def State.consumed (s : State) (n : Nat) : State := { s with rdCons := toCount (s.rdCons.toNat + n) }

/-- `RD_CONS + n > RD_LOADED`: the requested bits exceed what is buffered (R133). -/
def State.lacksBits (s : State) (n : Nat) : Bool := s.rdLoaded.toNat < s.rdCons.toNat + n

/-- `(RD_LA >> RD_CONS) & SizeMask(n)`, the field at the position (R133 step 4). -/
def State.bufferedField (s : State) (n : Nat) : Nat := (s.rdLa.toNat >>> s.rdCons.toNat) &&& sizeMask n

/-- The check of every reader command but `BSR.INIT` (10_state.md R23). -/
def raiseIfReaderClosed : Rule Unit := do
  let s ← get
  raiseIf (!s.rdOpen) .notOpen

/-- `BSR.INIT` on the given operands (R131). -/
def readerInit (base len : Nat) : Rule Unit := do
  raiseIf (rangeTooFar base len) .badArgument
  modify fun s => s.readerInitialised base len

/-- `LoadBody` (R132). `p` past `RD_END`, which the invariants exclude, is taken as no byte remaining (log 13). -/
def loadBody : Rule Unit := do
  let s ← get
  raiseIf (s.rdEnd.toNat ≤ s.loadAddr) .endOfStream
  let k := min 8 (s.rdEnd.toNat - s.loadAddr)
  let la ← memRead s.loadAddr k
  modify fun t => t.loaded s.loadAddr k la

/-- The part of `BSR.READ` that fetches: a load when the lookahead is short, and `NotEnoughBits` when it still is (R133 step 3). -/
def ensureBits (n : Nat) : Rule Unit := do
  let s ← get
  if s.lacksBits n then do
    loadBody
    let t ← get
    raiseIf (t.lacksBits n) .notEnoughBits
  else pure ()

/-- `BSR.READ` with `N = n`; the answer is the value read (R133). -/
def readerRead (n : Nat) : Rule Nat := do
  raiseIfReaderClosed
  raiseIf (Config.maxField < n) .contractViolation
  ensureBits n
  let s ← get
  set (s.consumed n)
  pure (s.bufferedField n)

/-- `BSR.LOAD` (R132). -/
def readerLoad : Rule Unit := do
  raiseIfReaderClosed
  loadBody

/-- The bytes consumed so far, a partial byte rounded up (R134). -/
def State.bytesConsumed (s : State) : Nat := s.rdPtr.toNat - s.rdBase.toNat + (s.rdCons.toNat + 7) >>> 3

/-- `BSR.SIZE`: the bytes consumed so far (R134). -/
def readerSize : Rule Word := do
  raiseIfReaderClosed
  let s ← get
  pure (toWord s.bytesConsumed)

/-- `GetField(n)` (R135): one `BSR.READ`, or 57 bits and then the rest above them. -/
def getField (n : Nat) : Rule Nat :=
  if n ≤ Config.maxField then readerRead n
  else do
    let lo ← readerRead Config.maxField
    let hi ← readerRead (n - Config.maxField)
    pure (lo ||| hi <<< Config.maxField)

/-- `BSR.INIT` (R131): `ARG0` = base, `ARG1` = length in bytes. -/
def execBsrInit (s : State) : Host.Outcome State Fault Refusal :=
  runCommand (do readerInit s.arg0.toNat s.arg1.toNat; pure 0) s

/-- `BSR.READ` (R133): `N` = n, `RES0` = the value read. -/
def execBsrRead (n : Nat) (s : State) : Host.Outcome State Fault Refusal :=
  runCommand (do let v ← readerRead n; pure (toWord v)) s

/-- `BSR.LOAD` (R132). -/
def execBsrLoad (s : State) : Host.Outcome State Fault Refusal :=
  runCommand (do readerLoad; pure 0) s

/-- `BSR.SIZE` (R134): `RES0` = the bytes consumed. -/
def execBsrSize (s : State) : Host.Outcome State Fault Refusal := runCommand readerSize s

end Sys2Proof.Machine
end

