-- ==== Sys2Proof/Machine/Decoder.lean ====
section
/-! DEFINITION. The bit-cluster-tree decoder (45_bct_decoder.md R180 to R188). -/

namespace Sys2Proof.Machine

/-- A reader error inside a decode-class command is reported as `WrongFormat`, its code kept for `STATUS.SUBERR` (R185). -/
def asWrongFormat : Abort → Abort
  | .raised .endOfStream _ => .raised .wrongFormat Err.endOfStream.code
  | .raised .notEnoughBits _ => .raised .wrongFormat Err.notEnoughBits.code
  | other => other

/-- `GetField(n)` inside a decode-class command (R185; 42_bitstream_reader.md R135). -/
def decodeField (n : Nat) : Rule Nat := fun s =>
  match getField n s with
  | .ok v t => .ok v t
  | .error a t => .error (asWrongFormat a) t

/-- `AddD(from, length, bit_pos, higher_bits)` (R181). -/
def addD (start length bitPos higherBits : Nat) : Rule Unit :=
  if length = 0 then pure ()
  else stackPush { start := toWord start, length := toWord length, bitPos := toCount bitPos, higherBits := toWord higherBits }

/-- Case 1 of `DecStep`: the value goes to `n` slots from index `i` on (R182). -/
def fillSlots (obase value : Nat) : Nat → Nat → Rule Unit
  | 0, _ => pure ()
  | n + 1, i => do
    storeElem obase i value
    fillSlots obase value n (i + 1)

/-- Case 2 of `DecStep`: `higher_bits | i` for the rest of the range, `n` slots from element `i` of the cluster on (R182). -/
def fillRange (obase start higherBits : Nat) : Nat → Nat → Rule Unit
  | 0, _ => pure ()
  | n + 1, i => do
    storeElem obase (start + i) (higherBits ||| i)
    fillRange obase start higherBits n (i + 1)

/-- Case 3 of `DecStep`: `bitPos` literal bits for each of `n` slots from index `i` on (R182). -/
def readLiterals (obase bitPos higherBits : Nat) : Nat → Nat → Rule Unit
  | 0, _ => pure ()
  | n + 1, i => do
    let x ← decodeField bitPos
    storeElem obase i (higherBits ||| x)
    readLiterals obase bitPos higherBits n (i + 1)

/-- Case 4 of `DecStep`: the count, its guard, the zeros child and the ones child (R182). -/
def decSplit (start length bitPos higherBits : Nat) : Rule Unit := do
  let nZeros ← decodeField (bitsLen64 length)
  raiseIf (length < nZeros) .wrongFormat
  addD start nZeros (bitPos - 1) higherBits
  addD (start + nZeros) (length - nZeros) (bitPos - 1) (higherBits ||| bitMask (bitPos - 1))

/-- `DecStep(obase, c)`: the four cases in their order (R182). -/
def decStep (obase : Nat) (c : BitCluster) : Rule Unit := do
  let s ← get
  if c.bitPos = 0 then fillSlots obase c.higherBits.toNat c.length.toNat c.start.toNat
  else if s.skipEff && isFull c.length.toNat c.bitPos.toNat then
    fillRange obase c.start.toNat c.higherBits.toNat c.length.toNat 0
  else if c.length.toNat ≤ s.mcl.toNat then
    readLiterals obase c.bitPos.toNat c.higherBits.toNat c.length.toNat c.start.toNat
  else decSplit c.start.toNat c.length.toNat c.bitPos.toNat c.higherBits.toNat

/-- The `while` of `DTreeBody`, at most `fuel` steps (R183; log 15). -/
def dTreeLoop (obase : Nat) : Nat → Rule Unit
  | 0 => do
    let s ← get
    if s.stack = [] then pure () else throw (.stopped .walkBoundPassed)
  | fuel + 1 => do
    match ← stackPop with
    | none => pure ()
    | some c => do
      decStep obase c
      dTreeLoop obase fuel

/-- `DTreeBody(obase, len)` (R183), within its `1 + len*(EBW + 1)` steps. -/
def dTreeBody (obase len : Nat) : Rule Unit := do
  stackClear
  let s ← get
  addD 0 len s.ebw 0
  dTreeLoop obase (1 + len * (s.ebw + 1))

/-- `GetHeader()` (R188): a natural that can be as large as 2^64. -/
def getHeader : Rule Nat := do
  let s ← get
  if s.isList then decodeField Config.listPrefixBits
  else do
    let stored ← decodeField s.elemWidth
    pure (stored + 1)

/-- The rule of `BCT.DTREE` (R184). -/
def bctDtreeRule : Rule Word := do
  let s ← get
  raiseIf s.badConfig .badConfig
  raiseIf (rangeTooFar s.arg0.toNat (s.arrayBytes s.arg1.toNat)) .badArgument
  raiseIfReaderClosed
  dTreeBody s.arg0.toNat s.arg1.toNat
  pure 0

/-- `BCT.DTREE` (R184): `ARG0` = output value array, `ARG1` = length. -/
def execBctDtree (s : State) : Host.Outcome State Fault Refusal := runCommand bctDtreeRule s

/-- The kind limits of `BCT.DECODE` (R186 check 3). -/
def raiseIfOutputLength (len : Nat) : Rule Unit := do
  let s ← get
  if s.isList then raiseIf (Config.listMax < len) .outputTooBig
  else do
    raiseIf (s.overSetLimit len) .outputTooBig
    raiseIf (len == 0) .wrongFormat

/-- The rule of `BCT.DECODE` (R186). -/
def bctDecodeRule : Rule Word := do
  let s ← get
  raiseIf s.badConfig .badConfig
  raiseIf (rangeTooFar s.arg0.toNat s.arg1.toNat || rangeTooFar s.arg2.toNat (s.arrayBytes s.arg3.toNat)) .badArgument
  raiseIfOutputLength s.arg3.toNat
  readerInit s.arg0.toNat s.arg1.toNat
  let c ← getHeader
  raiseIf (c != s.arg3.toNat) .wrongFormat
  dTreeBody s.arg2.toNat s.arg3.toNat
  readerSize

/-- `BCT.DECODE` (R186): `ARG0` = input buffer, `ARG1` = its length, `ARG2` = output value array, `ARG3` = its length. -/
def execBctDecode (s : State) : Host.Outcome State Fault Refusal := runCommand bctDecodeRule s

/-- The rule of `BCT.DSIZE` (R187). -/
def bctDsizeRule : Rule Word := do
  let s ← get
  readerInit s.arg0.toNat s.arg1.toNat
  let c ← getHeader
  raiseIf (2 ^ 64 ≤ c) .wrongFormat
  pure (toWord c)

/-- `BCT.DSIZE` (R187): `ARG0` = input buffer, `ARG1` = its length; `RES0` = the element count. -/
def execBctDsize (s : State) : Host.Outcome State Fault Refusal := runCommand bctDsizeRule s

end Sys2Proof.Machine
end

