-- ==== Sys2Proof/Machine/System.lean ====
section
/-! DEFINITION. The system commands and the bit-length helper (40_system_and_tables.md). -/

namespace Sys2Proof.Machine

/-- `SYS.NOP`: no effect but the completion step (R101). -/
def execSysNop (s : State) : Host.Outcome State Fault Refusal := runCommand (pure 0) s

/-- The rule of `SYS.RESET`: every register takes its reset value; memory is not touched (R102). -/
def sysResetRule : Rule Word := do
  modify State.registersReset
  pure 0

/-- `SYS.RESET` (R102). -/
def execSysReset (s : State) : Host.Outcome State Fault Refusal := runCommand sysResetRule s

/-- The rule of `UTL.BLEN`: `RES0 <- BitsLen64(ARG0)` (R103). -/
def utlBlenRule : Rule Word := do
  let s ← get
  pure (toWord (bitsLen64 s.arg0.toNat))

/-- `UTL.BLEN` (R103). -/
def execUtlBlen (s : State) : Host.Outcome State Fault Refusal := runCommand utlBlenRule s

end Sys2Proof.Machine
end

