-- ==== Sys2Proof/Syntax.lean ====
section
/-! DEFINITION. The 18 commands of 30_encoding.md R84, one constructor per row of spec/opcode_table.json. -/

namespace Sys2Proof

/-- A command of the block. The immediate `N` of a `CN` command is the natural of R82 (`n_bits` or `bit_pos`). -/
inductive Instr where
  /-- `SYS.NOP`, opcode 0x00 (40_system_and_tables.md R101). -/
  | sysNop
  /-- `SYS.RESET`, opcode 0x01 (40_system_and_tables.md R102). -/
  | sysReset
  /-- `UTL.BLEN`, opcode 0x08 (40_system_and_tables.md R103). -/
  | utlBlen
  /-- `BSW.INIT`, opcode 0x10 (41_bitstream_writer.md R111). -/
  | bswInit
  /-- `BSW.APPEND #n`, opcode 0x11 (41_bitstream_writer.md R112). -/
  | bswAppend (n : Nat)
  /-- `BSW.WRITE #n`, opcode 0x12 (41_bitstream_writer.md R115). -/
  | bswWrite (n : Nat)
  /-- `BSW.FLUSH`, opcode 0x13 (41_bitstream_writer.md R114). -/
  | bswFlush
  /-- `BSW.CLOSE`, opcode 0x14 (41_bitstream_writer.md R116). -/
  | bswClose
  /-- `BSR.INIT`, opcode 0x20 (42_bitstream_reader.md R131). -/
  | bsrInit
  /-- `BSR.READ #n`, opcode 0x21 (42_bitstream_reader.md R133). -/
  | bsrRead (n : Nat)
  /-- `BSR.LOAD`, opcode 0x22 (42_bitstream_reader.md R132). -/
  | bsrLoad
  /-- `BSR.SIZE`, opcode 0x23 (42_bitstream_reader.md R134). -/
  | bsrSize
  /-- `ZC.COUNT #bit`, opcode 0x30 (43_zero_counter.md R150). -/
  | zcCount (bit : Nat)
  /-- `BCT.ETREE`, opcode 0x40 (44_bct_encoder.md R164). -/
  | bctEtree
  /-- `BCT.ENCODE`, opcode 0x41 (44_bct_encoder.md R166). -/
  | bctEncode
  /-- `BCT.DTREE`, opcode 0x42 (45_bct_decoder.md R184). -/
  | bctDtree
  /-- `BCT.DECODE`, opcode 0x43 (45_bct_decoder.md R186). -/
  | bctDecode
  /-- `BCT.DSIZE`, opcode 0x44 (45_bct_decoder.md R187). -/
  | bctDsize
deriving DecidableEq, Repr

end Sys2Proof
end

