-- ==== Sys2Proof/Machine/Dispatch.lean ====
section
/-! DEFINITION. One arm per command: `Issue` of a decoded command (30_encoding.md R84, R89). -/

namespace Sys2Proof.Machine

def exec (i : Instr) (s : State) : Host.Outcome State Fault Refusal :=
  match i with
  | .sysNop => Sys2Proof.Machine.execSysNop s
  | .sysReset => Sys2Proof.Machine.execSysReset s
  | .utlBlen => Sys2Proof.Machine.execUtlBlen s
  | .bswInit => Sys2Proof.Machine.execBswInit s
  | .bswAppend n => Sys2Proof.Machine.execBswAppend n s
  | .bswWrite n => Sys2Proof.Machine.execBswWrite n s
  | .bswFlush => Sys2Proof.Machine.execBswFlush s
  | .bswClose => Sys2Proof.Machine.execBswClose s
  | .bsrInit => Sys2Proof.Machine.execBsrInit s
  | .bsrRead n => Sys2Proof.Machine.execBsrRead n s
  | .bsrLoad => Sys2Proof.Machine.execBsrLoad s
  | .bsrSize => Sys2Proof.Machine.execBsrSize s
  | .zcCount bit => Sys2Proof.Machine.execZcCount bit s
  | .bctEtree => Sys2Proof.Machine.execBctEtree s
  | .bctEncode => Sys2Proof.Machine.execBctEncode s
  | .bctDtree => Sys2Proof.Machine.execBctDtree s
  | .bctDecode => Sys2Proof.Machine.execBctDecode s
  | .bctDsize => Sys2Proof.Machine.execBctDsize s

end Sys2Proof.Machine
end

