-- ==== Sys2Proof/WellFormed.lean ====
section
/-! DEFINITION. Which commands have an encoding: the immediate `N` is a 6-bit field (30_encoding.md R80, R82). -/

namespace Sys2Proof

/-- An immediate fits the 6-bit field `N` (30_encoding.md R80). -/
def fitsImmediate (n : Nat) : Bool := n < 64

/-- The check of one command: every `CN` command's immediate fits its field; `C0` commands carry none. -/
def Instr.wellFormed : Instr → Bool
  | .sysNop => true
  | .sysReset => true
  | .utlBlen => true
  | .bswInit => true
  | .bswAppend n => fitsImmediate n
  | .bswWrite n => fitsImmediate n
  | .bswFlush => true
  | .bswClose => true
  | .bsrInit => true
  | .bsrRead n => fitsImmediate n
  | .bsrLoad => true
  | .bsrSize => true
  | .zcCount bit => fitsImmediate bit
  | .bctEtree => true
  | .bctEncode => true
  | .bctDtree => true
  | .bctDecode => true
  | .bctDsize => true

end Sys2Proof
end

