-- ==== Sys2Proof/Decode.lean ====
section
/-! DEFINITION. The decoder and the encoder of command words (30_encoding.md R80 to R85), and the host's question about one row of the
opcode table. -/

namespace Sys2Proof

/-- Why a value written to `CMD` is no command (30_encoding.md R81, R85). Each of them completes with `IllegalCommand`. -/
inductive DecodeReject where
  /-- Bits 63:32 of the written value or bits 31:14 of the word are not 0 (R81 step 1). -/
  | reservedBits
  /-- No row of R84 has the opcode (R81 step 2). -/
  | unknownOpcode
  /-- The row's format is `C0` and `N` is not 0 (R81 step 3). -/
  | immediateNotZero
deriving DecidableEq, Repr

/-- `OPC`, bits 7:0 of the word (R80). -/
def opcField (w : Word) : Nat := (w.extractLsb' 0 8).toNat

/-- `N`, bits 13:8 of the word (R80). -/
def immField (w : Word) : Nat := (w.extractLsb' 8 6).toNat

/-- The row of R84 that an opcode selects, with the immediate for the `CN` rows; `Bool` says whether the row's format is `CN`. -/
def opcodeRow (opc n : Nat) : Option (Bool × Instr) :=
  match opc with
  | 0x00 => some (false, .sysNop)
  | 0x01 => some (false, .sysReset)
  | 0x08 => some (false, .utlBlen)
  | 0x10 => some (false, .bswInit)
  | 0x11 => some (true, .bswAppend n)
  | 0x12 => some (true, .bswWrite n)
  | 0x13 => some (false, .bswFlush)
  | 0x14 => some (false, .bswClose)
  | 0x20 => some (false, .bsrInit)
  | 0x21 => some (true, .bsrRead n)
  | 0x22 => some (false, .bsrLoad)
  | 0x23 => some (false, .bsrSize)
  | 0x30 => some (true, .zcCount n)
  | 0x40 => some (false, .bctEtree)
  | 0x41 => some (false, .bctEncode)
  | 0x42 => some (false, .bctDtree)
  | 0x43 => some (false, .bctDecode)
  | 0x44 => some (false, .bctDsize)
  | _ => none

/-- The decoder of R81, total on every 64-bit value written to `CMD`. -/
def decode (w : Word) : Except DecodeReject Instr :=
  if w.extractLsb' 14 50 ≠ 0 then .error .reservedBits
  else match opcodeRow (opcField w) (immField w) with
    | none => .error .unknownOpcode
    | some (isCN, i) => if !isCN && immField w ≠ 0 then .error .immediateNotZero else .ok i

/-- The `OPC` value of a command (R84). -/
def Instr.opcode : Instr → Nat
  | .sysNop => 0x00
  | .sysReset => 0x01
  | .utlBlen => 0x08
  | .bswInit => 0x10
  | .bswAppend _ => 0x11
  | .bswWrite _ => 0x12
  | .bswFlush => 0x13
  | .bswClose => 0x14
  | .bsrInit => 0x20
  | .bsrRead _ => 0x21
  | .bsrLoad => 0x22
  | .bsrSize => 0x23
  | .zcCount _ => 0x30
  | .bctEtree => 0x40
  | .bctEncode => 0x41
  | .bctDtree => 0x42
  | .bctDecode => 0x43
  | .bctDsize => 0x44

/-- The `N` field of a command: its immediate for the `CN` formats, 0 for `C0` (R80). -/
def Instr.immediate : Instr → Nat
  | .bswAppend n => n
  | .bswWrite n => n
  | .bsrRead n => n
  | .zcCount bit => bit
  | .sysNop | .sysReset | .utlBlen | .bswInit | .bswFlush | .bswClose | .bsrInit | .bsrLoad | .bsrSize
  | .bctEtree | .bctEncode | .bctDtree | .bctDecode | .bctDsize => 0

/-- The 32-bit command word `OPC | (n << 8)` (R80, R87). -/
def encode (i : Instr) : BitVec 32 := BitVec.ofNat 32 (i.opcode ||| (i.immediate <<< 8))

/-- The 64-bit value a host writes to `CMD` to issue a command: the word, zero-extended (R80, R87). -/
def cmdValue (i : Instr) : Word := (encode i).setWidth 64

/-- The value written to `CMD` that stands for the `nbits` bits `w` of an opcode-table row, every higher bit 0 (R24, R80). -/
def tableValue (nbits w : Nat) : Word := BitVec.ofNat 64 (w % 2 ^ nbits)

/-- The host's question: which command the decoder reads from an instruction whose bits are `w`. -/
def decodeTableWord (nbits w : Nat) : Option Instr :=
  match decode (tableValue nbits w) with
  | .ok i => some i
  | .error _ => none

end Sys2Proof
end

