-- ==== Sys2Proof/Machine/Regions.lean ====
section
/-! DEFINITION. Which bytes of memory a command may read and write (20_memory.md R77), given the state at issue. -/

namespace Sys2Proof.Machine

/-- A half-open byte range of memory: its first address and one past its last. -/
structure Region where
  first : Nat
  past : Nat
deriving DecidableEq, Repr

/-- The region that holds no byte. -/
def Region.empty : Region := { first := 0, past := 0 }

/-- Whether an address lies in a region. -/
def Region.holds (r : Region) (a : Nat) : Bool := r.first ≤ a && a < r.past

/-- `[base, base + bytes)`. -/
def Region.ofBytes (base bytes : Nat) : Region := { first := base, past := base + bytes }

/-- The array region of `len` elements at `vbase` (20_memory.md R64). -/
def State.arrayRegion (s : State) (vbase len : Word) : Region := Region.ofBytes vbase.toNat (s.arrayBytes len.toNat)

/-- `[RD_PTR, RD_END)`, what the open reader may read. -/
def State.readerRegion (s : State) : Region := { first := s.rdPtr.toNat, past := s.rdEnd.toNat }

/-- `[WR_PTR, WR_PTR + 8)`, what one flush may write. -/
def State.flushRegion (s : State) : Region := Region.ofBytes s.wrPtr.toNat 8

/-- `[WR_BASE, WR_BASE + capacity)`, what the open writer may write over its session. -/
def State.writerRegion (s : State) : Region := { first := s.wrBase.toNat, past := s.wrLimit.toNat + Config.minCap }

/-- R, the bytes a command may read (R77). -/
def readRegion (i : Instr) (s : State) : Region :=
  match i with
  | .bsrLoad => s.readerRegion
  | .bsrRead _ => s.readerRegion
  | .zcCount _ => s.arrayRegion s.arg0 s.arg1
  | .bctEtree => s.arrayRegion s.arg0 s.arg1
  | .bctEncode => s.arrayRegion s.arg0 s.arg1
  | .bctDtree => s.readerRegion
  | .bctDecode => Region.ofBytes s.arg0.toNat s.arg1.toNat
  | .bctDsize => Region.ofBytes s.arg0.toNat (min s.arg1.toNat 8)
  | .sysNop | .sysReset | .utlBlen | .bswInit | .bswAppend _ | .bswWrite _ | .bswFlush | .bswClose | .bsrInit | .bsrSize =>
    Region.empty

/-- W, the bytes a command may write (R77). -/
def writeRegion (i : Instr) (s : State) : Region :=
  match i with
  | .bswWrite _ => s.flushRegion
  | .bswFlush => s.flushRegion
  | .bswClose => s.flushRegion
  | .bctEtree => s.writerRegion
  | .bctEncode => Region.ofBytes s.arg2.toNat s.arg3.toNat
  | .bctDtree => s.arrayRegion s.arg0 s.arg1
  | .bctDecode => s.arrayRegion s.arg2 s.arg3
  | .sysNop | .sysReset | .utlBlen | .bswInit | .bswAppend _ | .bsrInit | .bsrRead _ | .bsrLoad | .bsrSize | .zcCount _
  | .bctDsize => Region.empty

/-- The command that a value written to `CMD` stands for, if it is one. -/
def commandOf (w : Word) : Option Instr :=
  match decode w with
  | .ok i => some i
  | .error _ => none

/-- The read region of the running command; an illegal one touches no memory (30_encoding.md R85). -/
def runningReads (w : Word) (s : State) : Region :=
  match commandOf w with
  | some i => readRegion i s
  | none => Region.empty

/-- The write region of the running command. -/
def runningWrites (w : Word) (s : State) : Region :=
  match commandOf w with
  | some i => writeRegion i s
  | none => Region.empty

end Sys2Proof.Machine
end

