-- ==== Sys2Proof/Machine/HostPort.lean ====
section
/-! DEFINITION. The register space and what the host and the platform do to the block: the register map (10_state.md R24 to R28, R34),
the issue of a command (30_encoding.md R89, R90), accesses while the block is idle and while it is busy (10_state.md R26), memory accesses
of the host (20_memory.md R72, 70_reset_and_hazards.md R238) and the reset input (70_reset_and_hazards.md R230). -/

namespace Sys2Proof.Machine

/-- `Issue(w)`: decode, run the command, complete; a value that is no command completes with `IllegalCommand` (30_encoding.md R81, R85,
R89). -/
def issue (w : Word) (s : State) : Host.Outcome State Fault Refusal :=
  match decode w with
  | .ok i => exec i s
  | .error _ => illegalCommand s

/-- The offset of a host address inside the block's register space, if it lies there (20_memory.md R70). -/
def regOffset (p : Config.Platform) (addr : Nat) : Option Nat :=
  if p.regBase ≤ addr ∧ addr < p.regBase + Config.regSpaceBytes then some (addr - p.regBase) else none

/-- Only aligned 64-bit accesses of the register space are defined (10_state.md R26, 20_memory.md R68). -/
def accessDefined (off : Nat) (size : AccessSize) : Bool := off % 8 == 0 && size == .b8

/-- What the host reads at an offset while the block is idle (10_state.md R25, R26, R34). -/
def State.readRegister (s : State) (off : Nat) : Word :=
  match off with
  | 0x00 => 0
  | 0x08 => s.arg0
  | 0x10 => s.arg1
  | 0x18 => s.arg2
  | 0x20 => s.arg3
  | 0x28 => s.res0
  | 0x30 => s.statusWord
  | 0x38 => s.cfg.setWidth 64
  | 0x40 => s.mcl
  | 0x48 => s.wrAcc
  | 0x50 => s.wrCnt.setWidth 64
  | 0x58 => s.wrBase
  | 0x60 => s.wrPtr
  | 0x68 => s.wrLimit
  | 0x70 => s.rdLa
  | 0x78 => s.rdBitsWord
  | 0x80 => s.rdBase
  | 0x88 => s.rdPtr
  | 0x90 => s.rdEnd
  | 0x98 => s.stkInfoWord
  | _ => 0

/-- A host write while the block is idle: `CMD` issues a command, five registers and `CFG` take the value (reserved bits of `CFG`
are not stored), everything else ignores it (10_state.md R21, R24 to R28; 30_encoding.md R90). -/
def State.writeRegister (s : State) (off : Nat) (v : Word) : State :=
  match off with
  | 0x00 => { s with running := some v }
  | 0x08 => { s with arg0 := v }
  | 0x10 => { s with arg1 := v }
  | 0x18 => { s with arg2 := v }
  | 0x20 => { s with arg3 := v }
  | 0x38 => { s with cfg := v.setWidth 11 }
  | 0x40 => { s with mcl := v }
  | _ => s

/-- The offsets of a register: 0x00 to 0x98; above them the space is reserved (10_state.md R25). -/
def isReserved (off : Nat) : Bool := 0xA0 ≤ off

/-- The state after the host has read the value `v`. -/
def State.answered (s : State) (v : Word) : State := { s with readData := v }

/-- The state after the host has read an unspecified value (U9; log 6). -/
def State.answeredFree (s : State) : State := { s with readData := Config.busyRead s.freeCount, freeCount := s.freeCount + 1 }

/-- A host read while `BUSY = 1`: `STATUS` has its value, a reserved offset reads 0, every other register an unspecified value
(10_state.md R26). -/
def State.readWhileBusy (s : State) (off : Nat) : State :=
  if off = 0x30 then s.answered s.statusWord
  else if isReserved off then s.answered 0
  else s.answeredFree

/-- An access at a host address: none of the block's business outside its register space (log 31); inside it, the access must be
defined (log 8). -/
def atRegister (addr : Nat) (size : AccessSize) (s : State) (access : Nat → State) : Host.Outcome State Fault Refusal :=
  match regOffset s.platform addr with
  | none => .next s
  | some off => if accessDefined off size then .next (access off) else .refused .undefinedRegisterAccess

/-- A host access to a byte of memory, which must be an address of the space (20_memory.md R60; log 14). `MemAdmit` is not asked:
DESIGN CHOICE, R63 leaves open whether it also governs the host's own accesses (log 23). -/
def atMemory (addr : Nat) (t : State) : Host.Outcome State Fault Refusal :=
  if Config.addressSpace ≤ addr then .fault .outsideAddressSpace else .next t

/-- Memory after the given stores, the first one first. -/
def applyStores (m : Memory) : List Host.Cell → Memory
  | [] => m
  | c :: rest => applyStores (m.write c.1 c.2) rest

/-- A reset while the command `w` runs: the command is abandoned, the registers take their reset values, and the stores it had
performed stay (70_reset_and_hazards.md R230); which ones, the action says (U15; log 9). -/
def abandon (w : Word) (storesDone : Nat) (s : State) : Host.Outcome State Fault Refusal :=
  match issue w s with
  | .next t =>
    let done := t.storeTrace.reverse.take storesDone
    .next { s.registersReset with mem := applyStores s.mem done, storeTrace := done.reverse }
  | .fault f => .fault f
  | .refused r => .refused r

/-- An action while the block is idle. -/
def actIdle (a : HostAction) (s : State) : Host.Outcome State Fault Refusal :=
  match a with
  | .regWrite addr size v => atRegister addr size s fun off => s.writeRegister off v
  | .regRead addr size => atRegister addr size s fun off => s.answered (s.readRegister off)
  | .memWrite addr b => atMemory addr { s with mem := s.mem.write addr b }
  | .memRead addr => atMemory addr (s.answered ((s.mem.read addr).setWidth 64))
  | .hwReset _ => .next s.registersReset
  | .elapse => .next s

/-- An action while the command `w` runs: register writes are ignored, also those to `CMD` (10_state.md R26), and the host leaves the
command's buffers alone (70_reset_and_hazards.md R238). -/
def actBusy (w : Word) (a : HostAction) (s : State) : Host.Outcome State Fault Refusal :=
  match a with
  | .regWrite addr size _ => atRegister addr size s fun _ => s
  | .regRead addr size => atRegister addr size s fun off => s.readWhileBusy off
  | .memWrite addr b =>
    if (runningReads w s).holds addr || (runningWrites w s).holds addr then .refused .bufferTouchedWhileBusy
    else atMemory addr { s with mem := s.mem.write addr b }
  | .memRead addr =>
    if (runningWrites w s).holds addr then .refused .bufferTouchedWhileBusy
    else atMemory addr (s.answered ((s.mem.read addr).setWidth 64))
  | .hwReset storesDone => abandon w storesDone s
  | .elapse => issue w s

/-- The state with the given actions still to come. -/
def State.withInbox (s : State) (k : List HostAction) : State := { s with inbox := k }

/-- One step of the block: the next action if there is one; with none to come, a running command completes and an idle block stays as
it is (30_encoding.md R90; log 1, log 2). -/
def stepOnce (s : State) : Host.Outcome State Fault Refusal :=
  match s.running, s.inbox with
  | none, [] => .next s
  | none, a :: rest => actIdle a (s.withInbox rest)
  | some w, [] => issue w s
  | some w, a :: rest => actBusy w a (s.withInbox rest)

end Sys2Proof.Machine
end

