-- ==== Sys2Proof/Machine/Step.lean ====
section
/-! DEFINITION. The step function, and the placing of a command where the next step runs it. -/

namespace Sys2Proof.Machine

/-- One step of the machine (see `stepOnce`). -/
def step (s : State) : Host.Outcome State Fault Refusal := stepOnce s

/-- The block fetches nothing from memory (20_memory.md R75): a command is the value last written to `CMD`. This places one there as
the command in progress, with the passing of time as the next action, so that the very next step runs it (log 2). -/
def State.withFetchWord (s : State) (nbits w : Nat) : State :=
  { s with running := some (tableValue nbits w), inbox := .elapse :: s.inbox }

end Sys2Proof.Machine
end

