-- ==== Sys2Proof/Safety/Format.lean ====
section
/-! DEFINITION. The wire format as pure functions, independent of the machine: what memory bytes assemble to, what a sequence of fields
is as a stream (20_memory.md R67, 41_bitstream_writer.md R118), the tree of an ascending array as fields (44_bct_encoder.md R167, R168),
and how a stream is read back as a tree (45_bct_decoder.md R182, R183). Statements about the encoder and the decoder are phrased with
them. -/

namespace Sys2Proof.Format
open Sys2Proof.Machine

/-- `byte(addr) + byte(addr+1)*2^8 + ...`, `n` bytes (00_scope.md R10, 20_memory.md R61). -/
def memNat (m : Memory) (addr : Nat) : Nat → Nat
  | 0 => 0
  | n + 1 => (m.read addr).toNat + 256 * memNat m (addr + 1) n

/-- Byte `i` of a natural, `(v >> 8i) & 0xFF`. -/
def byteAt (v i : Nat) : Byte := BitVec.ofNat 8 (v >>> (8 * i))

/-- Element `i` of the value array at `vbase` (20_memory.md R64). -/
def elemValue (s : State) (vbase i : Nat) : Nat := memNat s.mem (s.elemAddr vbase i) s.elemBytes

/-- The `len` elements of the value array at `vbase`, the first one first. -/
def arrayValues (s : State) (vbase len : Nat) : List Nat := (List.range len).map (elemValue s vbase)

/-- A field of the bitstream: its value and its width in bits (00_scope.md R19). -/
structure BitField where
  value : Nat
  width : Nat
deriving DecidableEq, Repr

/-- `T`, the number of bits of a sequence of fields (R118). -/
def streamBits : List BitField → Nat
  | [] => 0
  | f :: fs => f.width + streamBits fs

/-- `S`, the stream of a sequence of fields as one natural: each field directly after the one before it, its bit 0 lowest (R67, R118). -/
def streamValue : List BitField → Nat
  | [] => 0
  | f :: fs => (f.value &&& sizeMask f.width) + streamValue fs <<< f.width

/-- The bytes a stream of `bits` bits takes, a partial last byte counted (R118). -/
def bytesFor (bits : Nat) : Nat := (bits + 7) / 8

/-- The element-count prefix (44_bct_encoder.md R165). -/
def headerField (isList : Bool) (width len : Nat) : BitField :=
  if isList then { value := len, width := 57 } else { value := len - 1, width := width }

/-- The fields of the tree over an ascending array whose elements share every bit at and above `bitPos` (R162, R167, R168): nothing for
an empty cluster, at bit 0 or for a full subtree; the low bits of a short cluster; otherwise the count of the elements whose next bit is
clear, then the ones child, then the zeros child. -/
def treeFields (skipEff : Bool) (mcl : Nat) : (bitPos : Nat) → List Nat → List BitField
  | 0, _ => []
  | p + 1, vs =>
    if vs = [] then []
    else if skipEff && isFull vs.length (p + 1) then []
    else if vs.length ≤ mcl then vs.map fun v => { value := v &&& sizeMask (p + 1), width := p + 1 }
    else
      let zeros := vs.filter fun v => !v.testBit p
      let ones := vs.filter fun v => v.testBit p
      { value := zeros.length, width := bitsLen64 vs.length } :: (treeFields skipEff mcl p ones ++ treeFields skipEff mcl p zeros)

/-- The fields of a whole encoding (44_bct_encoder.md R165, R166). -/
def encodingFields (isList : Bool) (width : Nat) (skipEff : Bool) (mcl ebw : Nat) (vs : List Nat) : List BitField :=
  headerField isList width vs.length :: treeFields skipEff mcl ebw vs

/-- A field of `n` bits at stream position `pos` of a stream of `total` bits `S`, if it is there (42_bitstream_reader.md R136). -/
def fieldAt (S total pos n : Nat) : Option Nat :=
  if pos + n ≤ total then some ((S >>> pos) &&& sizeMask n) else none

/-- `n` fields of `w` bits from position `pos` on. -/
def fieldsAt (S total w : Nat) : (n pos : Nat) → Option (List Nat)
  | 0, _ => some []
  | n + 1, pos =>
    match fieldAt S total pos w with
    | none => none
    | some x => (fieldsAt S total w n (pos + w)).map (x :: ·)

/-- Reading a tree of `len` elements with the determined bits `hb` from position `pos` on: the elements in index order and the position
after the tree; `none` if the stream ends early or a count exceeds its cluster (45_bct_decoder.md R182, R183). -/
def parseTree (skipEff : Bool) (mcl S total : Nat) : (bitPos len hb pos : Nat) → Option (List Nat × Nat)
  | 0, len, hb, pos => some (List.replicate len hb, pos)
  | p + 1, len, hb, pos =>
    if len = 0 then some ([], pos)
    else if skipEff && isFull len (p + 1) then some ((List.range len).map (hb ||| ·), pos)
    else if len ≤ mcl then
      match fieldsAt S total (p + 1) len pos with
      | none => none
      | some xs => some (xs.map (hb ||| ·), pos + len * (p + 1))
    else
      match fieldAt S total pos (bitsLen64 len) with
      | none => none
      | some z =>
        if len < z then none
        else match parseTree skipEff mcl S total p (len - z) (hb ||| bitMask p) (pos + bitsLen64 len) with
          | none => none
          | some (ones, pos1) =>
            match parseTree skipEff mcl S total p z hb pos1 with
            | none => none
            | some (zeros, pos2) => some (zeros ++ ones, pos2)

/-- The width of the element-count prefix (45_bct_decoder.md R188). -/
def headerBits (isList : Bool) (width : Nat) : Nat := if isList then 57 else width

/-- The element count that a stream's prefix holds, if the stream is long enough (R188). -/
def parseHeader (isList : Bool) (width S total : Nat) : Option Nat :=
  (fieldAt S total 0 (headerBits isList width)).map fun c => if isList then c else c + 1

end Sys2Proof.Format
end

