-- ==== Sys2Proof/Safety.lean ====
section
/-! DEFINITION. What statements about the machine are phrased in: how a command has ended, the invariants of the spec, and when a platform
admits what a command touches. -/

namespace Sys2Proof.Machine
open Sys2Proof.Format

/-! ### How a command ends (60_exceptions.md R206) -/

/-- `s` after a command that completed without error and returned `r`, nothing else changed. -/
def State.succeeded (s : State) (r : Word) : State :=
  { s with err := 0, suberr := 0, res0 := r, running := none, storeTrace := [] }

/-- `s` after a command that completed with error code `e` and info `sub`, nothing else changed. -/
def State.failed (s : State) (e sub : BitVec 8) : State :=
  { s with err := e, suberr := sub, fault := true, res0 := 0, running := none, storeTrace := [] }

/-- `t` is `s` but for memory and the trace of the stores made. -/
def State.sameButMemory (t s : State) : Prop := { t with mem := s.mem, storeTrace := s.storeTrace } = s

/-! ### Invariants -/

/-- The writer invariants (10_state.md R31). -/
abbrev State.writerInv (s : State) : Prop :=
  s.wrOpen = true → s.wrAcc.toNat < 2 ^ s.wrCnt.toNat ∧ s.wrCnt.toNat ≤ 63 ∧ s.wrBase.toNat ≤ s.wrPtr.toNat ∧
    s.wrPtr.toNat ≤ s.wrLimit.toNat + 8 ∧ s.wrLimit.toNat + 8 < Config.addressSpace

/-- `POS`, the stream position of the reader (10_state.md R33e). -/
def State.readerPos (s : State) : Nat := 8 * (s.rdPtr.toNat - s.rdBase.toNat) + s.rdCons.toNat

/-- The reader invariants (10_state.md R33). -/
abbrev State.readerInv (s : State) : Prop :=
  s.rdOpen = true → s.rdCons.toNat ≤ s.rdLoaded.toNat ∧ s.rdLoaded.toNat ≤ 64 ∧
    (s.rdLoaded.toNat = 8 * min 8 (s.rdEnd.toNat - s.rdPtr.toNat) ∨ s.rdLoaded.toNat = 0) ∧
    s.rdBase.toNat ≤ s.rdPtr.toNat ∧ s.rdPtr.toNat ≤ s.rdEnd.toNat ∧ s.rdLa.toNat < 2 ^ s.rdLoaded.toNat ∧
    s.readerPos ≤ 8 * (s.rdEnd.toNat - s.rdBase.toNat)

/-- The work stack: at most 64 entries, the high-water mark at least as high, every entry with `length ≥ 1` and `bit_pos ≤ 64`
(10_state.md R37, R38, R40). -/
abbrev State.stackInv (s : State) : Prop :=
  s.stkSp ≤ s.stkHwm.toNat ∧ s.stkHwm.toNat ≤ Config.stackCap ∧ ∀ c ∈ s.stack, c.length ≠ 0 ∧ c.bitPos.toNat ≤ 64

/-- `STATUS`: a code of 60_exceptions.md R201, `SUBERR` 0, 2 or 3 and non-zero only beside `WrongFormat`, `FAULT` set whenever `ERR` is
not 0 (10_state.md R23; 45_bct_decoder.md R185; 60_exceptions.md R206). -/
abbrev State.statusInv (s : State) : Prop :=
  s.err.toNat ≤ 14 ∧ (s.suberr = 0 ∨ s.err = 7 ∧ (s.suberr = 2 ∨ s.suberr = 3)) ∧ (s.err ≠ 0 → s.fault = true)

/-- The invariants of the machine between commands. -/
abbrev State.Inv (s : State) : Prop := s.mem.wf = true ∧ s.writerInv ∧ s.readerInv ∧ s.stackInv ∧ s.statusInv

/-! ### Premises about the platform and the buffers -/

/-- The platform admits every access in a region (20_memory.md R63). -/
def State.admitsRegion (s : State) (r : Region) : Prop := ∀ a, r.holds a = true → admitted s.platform a = true

/-- Two regions share no byte (20_memory.md R78, 70_reset_and_hazards.md R241). -/
def Region.disjoint (r q : Region) : Prop := ∀ a, r.holds a = true → q.holds a = false

/-- The lookahead agrees with memory: no input byte it holds has changed since the last load (70_reset_and_hazards.md R239). -/
def State.lookaheadFresh (s : State) : Prop := s.rdLa.toNat = memNat s.mem s.rdPtr.toNat (s.rdLoaded.toNat / 8)

/-- The reader's input as one natural and its number of bits (42_bitstream_reader.md R136). -/
def State.inputStream (s : State) : Nat := memNat s.mem s.rdBase.toNat (s.rdEnd.toNat - s.rdBase.toNat)

/-- The number of bits of the reader's input. -/
def State.inputBits (s : State) : Nat := 8 * (s.rdEnd.toNat - s.rdBase.toNat)

/-- The elements at `vbase` are what the encoder expects: ascending, strictly for a set, and below `2^EBW` (70_reset_and_hazards.md R240,
45_bct_decoder.md R190). -/
def State.encodable (s : State) (vs : List Nat) : Prop :=
  (∀ v ∈ vs, v < 2 ^ s.ebw) ∧ if s.isList then vs.Pairwise (· ≤ ·) else vs.Pairwise (· < ·)

/-- The bit `bit` runs 0…0,1…1 over the slice with `z` zeros first (43_zero_counter.md R152). -/
def State.bitSplitsAt (s : State) (vbase length bit z : Nat) : Prop :=
  z ≤ length ∧ ∀ i < length, (elemValue s vbase i).testBit bit = decide (z ≤ i)

/-- Memory of `t` is memory of `s` with the `n` low bytes of `v` stored from `base` on, and nothing else changed. -/
def State.storedBytes (t s : State) (base n v : Nat) : Prop :=
  ∀ a, t.mem.read a = if base ≤ a ∧ a < base + n then byteAt v (a - base) else s.mem.read a

/-! ### The numbered checks of the composite commands, the first that fails -/


/-- Checks (1) to (4) of `BCT.ETREE` (44_bct_encoder.md R164). -/
def State.etreeCheck (s : State) : Option Err :=
  if s.elemWidth < s.bw then some .badConfig
  else if 2 ^ 64 ≤ s.arg0.toNat + s.arg1.toNat * (s.elemWidth / 8) then some .badArgument
  else if s.wrOpen = false then some .notOpen
  else if 7 < s.wrCnt.toNat then some .contractViolation
  else none

/-- Checks (1) to (4) of `BCT.ENCODE` (44_bct_encoder.md R166). -/
def State.encodeCheck (s : State) : Option Err :=
  if s.elemWidth < s.bw then some .badConfig
  else if 2 ^ 64 ≤ s.arg0.toNat + s.arg1.toNat * (s.elemWidth / 8) ∨ 2 ^ 64 ≤ s.arg2.toNat + s.arg3.toNat then some .badArgument
  else if s.isList = false ∧ s.arg1.toNat = 0 then some .inputTooSmall
  else if s.isList = false ∧ s.elemWidth < 64 ∧ 2 ^ s.elemWidth < s.arg1.toNat then some .inputTooBig
  else if s.isList = true ∧ 2 ^ 57 - 1 < s.arg1.toNat then some .inputTooBig
  else if s.arg3.toNat < 8 then some .bufferTooSmall
  else none

/-- Checks (1) to (3) of `BCT.DTREE` (45_bct_decoder.md R184). -/
def State.dtreeCheck (s : State) : Option Err :=
  if s.elemWidth < s.bw then some .badConfig
  else if 2 ^ 64 ≤ s.arg0.toNat + s.arg1.toNat * (s.elemWidth / 8) then some .badArgument
  else if s.rdOpen = false then some .notOpen
  else none

/-- Checks (1) to (3) of `BCT.DECODE` (45_bct_decoder.md R186). -/
def State.decodeCheck (s : State) : Option Err :=
  if s.elemWidth < s.bw then some .badConfig
  else if 2 ^ 64 ≤ s.arg0.toNat + s.arg1.toNat ∨ 2 ^ 64 ≤ s.arg2.toNat + s.arg3.toNat * (s.elemWidth / 8) then some .badArgument
  else if s.isList = true ∧ 2 ^ 57 - 1 < s.arg3.toNat then some .outputTooBig
  else if s.isList = false ∧ s.elemWidth < 64 ∧ 2 ^ s.elemWidth < s.arg3.toNat then some .outputTooBig
  else if s.isList = false ∧ s.arg3.toNat = 0 then some .wrongFormat
  else none

/-! ### What the composite commands are held against -/

/-- The elements `BCT.ETREE` and `BCT.ENCODE` read: `ARG1` elements at `ARG0`. -/
def State.inputValues (s : State) : List Nat := arrayValues s s.arg0.toNat s.arg1.toNat

/-- The fields of the tree over the command's input array (44_bct_encoder.md R168). -/
def State.treeOfInput (s : State) : List BitField := treeFields s.skipEff s.mcl.toNat s.ebw s.inputValues

/-- The fields of the encoding of the command's input array (44_bct_encoder.md R165, R168). -/
def State.encodingOfInput (s : State) : List BitField :=
  encodingFields s.isList s.elemWidth s.skipEff s.mcl.toNat s.ebw s.inputValues

/-- The input buffer of `BCT.DECODE` and `BCT.DSIZE` as one stream: `ARG1` bytes at `ARG0` (42_bitstream_reader.md R136). -/
def State.bufferStream (s : State) : Nat := memNat s.mem s.arg0.toNat s.arg1.toNat

/-- The element count in the prefix of that stream (45_bct_decoder.md R188). -/
def State.bufferHeader (s : State) : Option Nat := parseHeader s.isList s.elemWidth s.bufferStream (8 * s.arg1.toNat)

/-- The tree of `len` elements at position `pos` of a stream under the present configuration (45_bct_decoder.md R182, R183). -/
def State.parsedTree (s : State) (S total len pos : Nat) : Option (List Nat × Nat) :=
  parseTree s.skipEff s.mcl.toNat S total s.ebw len 0 pos

/-- The commands that 60_exceptions.md R207 calls primitive: `SYS.*`, `UTL.*`, `BSW.*`, `BSR.*`, `ZC.*`. -/
def isPrimitive : Instr → Bool
  | .bctEtree | .bctEncode | .bctDtree | .bctDecode | .bctDsize => false
  | .sysNop | .sysReset | .utlBlen | .bswInit | .bswAppend _ | .bswWrite _ | .bswFlush | .bswClose | .bsrInit | .bsrRead _
  | .bsrLoad | .bsrSize | .zcCount _ => true

/-- The commands that write the writer registers (10_state.md R30, and `SYS.RESET`). -/
def writesWriter : Instr → Bool
  | .sysReset | .bswInit | .bswAppend _ | .bswWrite _ | .bswFlush | .bswClose | .bctEtree | .bctEncode => true
  | .sysNop | .utlBlen | .bsrInit | .bsrRead _ | .bsrLoad | .bsrSize | .zcCount _ | .bctDtree | .bctDecode | .bctDsize => false

/-- The commands that write the reader registers (10_state.md R32, and `SYS.RESET`). -/
def writesReader : Instr → Bool
  | .sysReset | .bsrInit | .bsrRead _ | .bsrLoad | .bctDtree | .bctDecode | .bctDsize => true
  | .sysNop | .utlBlen | .bswInit | .bswAppend _ | .bswWrite _ | .bswFlush | .bswClose | .bsrSize | .zcCount _ | .bctEtree
  | .bctEncode => false

/-- The commands that write the work stack (10_state.md R41, and `SYS.RESET`). -/
def writesStack : Instr → Bool
  | .sysReset | .bctEtree | .bctEncode | .bctDtree | .bctDecode => true
  | .sysNop | .utlBlen | .bswInit | .bswAppend _ | .bswWrite _ | .bswFlush | .bswClose | .bsrInit | .bsrRead _ | .bsrLoad
  | .bsrSize | .zcCount _ | .bctDsize => false

/-! ### Writer sessions (41_bitstream_writer.md R118) -/

/-- One command of a writer session, with the value the host puts into `ARG0` for it. -/
inductive WriterAction where
  | append (value : Word) (n : Nat)
  | write (value : Word) (n : Nat)
  | flush
deriving DecidableEq, Repr

/-- The fields an action puts into the stream. -/
def WriterAction.fields : WriterAction → List BitField
  | .append v n => [{ value := v.toNat, width := n }]
  | .write v n => [{ value := v.toNat, width := n }]
  | .flush => []

/-- The action carried out: the argument written, the command run. -/
def WriterAction.run (a : WriterAction) (s : State) : Host.Outcome State Fault Refusal :=
  match a with
  | .append v n => exec (.bswAppend n) { s with arg0 := v }
  | .write v n => exec (.bswWrite n) { s with arg0 := v }
  | .flush => exec .bswFlush s

/-- The state after the actions, if every one of them completes without error. -/
def runWriter : List WriterAction → State → Option State
  | [], s => some s
  | a :: rest, s =>
    match a.run s with
    | .next t => if t.err = 0 then runWriter rest t else none
    | .fault _ => none
    | .refused _ => none

end Sys2Proof.Machine
end

