-- ==== Sys2Proof/Certificates/Slice0/Obligations.lean ====
section
/-! DEFINITION. The statements for the provers. In them `t.sameButMemory u` says that `t` is `u` in every field but memory and the trace of
stores, and `t.storedBytes s base n v` says what memory reads at every address; the two together are the frame of a storing command. A
conclusion `exec i s = .next (s.succeeded r)` or `... (s.failed e sub)` is itself the whole frame: nothing but `STATUS` and `RES0` has
changed (the trace, the model's own field, holds the stores of this command, here none: log 20). -/

open Sys2Proof Sys2Proof.Machine Sys2Proof.Format

/-! ### Encoding -/

/-- 30_encoding.md R81 with R80, R84, R87: a value written to `CMD` is a command exactly when it is that command's word, every immediate at
every value its field admits. -/
def Obligations.DecodeEncodeAgree : Prop :=
  ∀ (w : Word) (i : Instr), decode w = .ok i ↔ i.wellFormed = true ∧ w = cmdValue i

/-- 30_encoding.md R84, R87: words written out from the table decode to the command of their row. -/
def Obligations.DecodeSampleWords : Prop :=
  decode 0x00000001 = .ok .sysReset ∧ decode 0x00000008 = .ok .utlBlen ∧ decode 0x00003911 = .ok (.bswAppend 57) ∧
  decode 0x00000812 = .ok (.bswWrite 8) ∧ decode 0x00000022 = .ok .bsrLoad ∧ decode 0x00003F21 = .ok (.bsrRead 63) ∧
  decode 0x00000730 = .ok (.zcCount 7) ∧ decode 0x00000041 = .ok .bctEncode ∧ decode 0x00000044 = .ok .bctDsize

/-- 30_encoding.md R81, R85: what is not one of the 18 commands (a reserved bit, an opcode without a row, a `C0` row with `N ≠ 0`)
completes with `IllegalCommand` and changes nothing else; everything else is a command. -/
def Obligations.IllegalCommandCompletes : Prop :=
  ∀ (w : Word) (s : State),
    let illegal := w.extractLsb' 14 50 ≠ 0 ∨ (∀ i : Instr, i.opcode ≠ opcField w) ∨
      (opcField w ∉ [0x11, 0x12, 0x21, 0x30] ∧ immField w ≠ 0)
    (illegal → issue w s = .next (s.failed 8 0)) ∧
    (¬ illegal → ∃ i : Instr, i.opcode = opcField w ∧ i.immediate = immField w ∧ issue w s = exec i s)

/-! ### Running a command -/

/-- 30_encoding.md R89, R90 (with log 2 for `inbox`): with a command's word in progress and time passing, the step runs exactly that
command; `withFetchWord` places it. -/
def Obligations.StepRunsDecoded : Prop :=
  (∀ (s : State) (w : Word) (i : Instr) (rest : List HostAction), s.running = some w → decode w = .ok i →
    (s.inbox = [] → step s = exec i s) ∧ (s.inbox = .elapse :: rest → step s = exec i { s with inbox := rest })) ∧
  (∀ (s : State) (nbits w : Nat) (i : Instr), decodeTableWord nbits w = some i →
    step (s.withFetchWord nbits w) = exec i { s with running := some (tableValue nbits w) })

/-- 60_exceptions.md R206, R244, 10_state.md R21: every completion clears `BUSY`, leaves a code of the table, `RES0 = 0` beside an error,
`SUBERR` only beside `WrongFormat`, and the sticky `FAULT`. -/
def Obligations.CompletionStep : Prop :=
  ∀ (i : Instr) (s t : State), exec i s = .next t →
    t.running = none ∧ t.err.toNat ≤ 14 ∧ (t.err ≠ 0 → t.res0 = 0) ∧
    (t.suberr ≠ 0 → t.err = 7 ∧ (t.suberr = 2 ∨ t.suberr = 3) ∧ (i = .bctDtree ∨ i = .bctDecode ∨ i = .bctDsize)) ∧
    (t.fault = true ↔ (s.fault = true ∧ i ≠ .sysReset) ∨ t.err ≠ 0)

/-- 44_bct_encoder.md R167, 45_bct_decoder.md R183, R192, 60_exceptions.md R209: from every state that meets the invariants every command
completes, whatever memory holds. -/
def Obligations.EveryCommandCompletes : Prop :=
  ∀ (i : Instr) (s : State), s.Inv → ∃ t, exec i s = .next t

/-- 10_state.md R21, R27, R28, R36: no command but `SYS.RESET` writes an argument register, `CFG` or `MCL`; no command at all changes the
platform or what belongs to the world outside. -/
def Obligations.ArgumentsAndConfigurationKept : Prop :=
  ∀ (i : Instr) (s t : State), exec i s = .next t →
    (i ≠ .sysReset → t.arg0 = s.arg0 ∧ t.arg1 = s.arg1 ∧ t.arg2 = s.arg2 ∧ t.arg3 = s.arg3 ∧ t.cfg = s.cfg ∧ t.mcl = s.mcl) ∧
    t.platform = s.platform ∧ t.inbox = s.inbox ∧ t.readData = s.readData ∧ t.freeCount = s.freeCount

/-- 10_state.md R30, R32, R36, R41: the writer registers are written only by writer commands, the reader registers only by reader
commands, the stack only by the tree walks (and all of them by `SYS.RESET`). -/
def Obligations.RegisterOwnership : Prop :=
  ∀ (i : Instr) (s t : State), exec i s = .next t →
    (writesWriter i = false → t.wrAcc = s.wrAcc ∧ t.wrCnt = s.wrCnt ∧ t.wrBase = s.wrBase ∧ t.wrPtr = s.wrPtr ∧
      t.wrLimit = s.wrLimit ∧ t.wrOpen = s.wrOpen) ∧
    (writesReader i = false → t.rdLa = s.rdLa ∧ t.rdLoaded = s.rdLoaded ∧ t.rdCons = s.rdCons ∧ t.rdBase = s.rdBase ∧
      t.rdPtr = s.rdPtr ∧ t.rdEnd = s.rdEnd ∧ t.rdOpen = s.rdOpen) ∧
    (writesStack i = false → t.stack = s.stack ∧ t.stkHwm = s.stkHwm)

/-- 60_exceptions.md R207 (for `BSW.WRITE` and `BSW.CLOSE` after a `BusError` the choice of log 12): a primitive command that fails has
changed no register but `STATUS` and `RES0`, and no byte of memory unless the error is `BusError`; `BSR.READ` with `NotEnoughBits` keeps
the lookahead its reload produced and the stream position. -/
def Obligations.PrimitiveCommandsPrecise : Prop :=
  ∀ (i : Instr) (s t : State), s.Inv → isPrimitive i = true → exec i s = .next t → t.err ≠ 0 →
    (t.err ≠ 14 → t.mem = s.mem) ∧
    (t.sameButMemory (s.failed t.err 0) ∨
      t.err = 3 ∧ (∃ n, i = .bsrRead n) ∧ t.readerPos = s.readerPos ∧ t.lookaheadFresh ∧
        t.sameButMemory { s.failed 3 0 with rdLa := t.rdLa, rdLoaded := t.rdLoaded, rdCons := t.rdCons, rdPtr := t.rdPtr })

/-! ### Memory -/

/-- 20_memory.md R77, 44_bct_encoder.md R170, 45_bct_decoder.md R192: no command changes a byte outside its write region, whatever its
input. -/
def Obligations.WritesInsideRegion : Prop :=
  ∀ (i : Instr) (s t : State), s.Inv → exec i s = .next t →
    ∀ a, (writeRegion i s).holds a = false → t.mem.read a = s.mem.read a

/-- 20_memory.md R77: no command depends on a byte outside its read region. With the same bytes there, and any others elsewhere, it ends
in the same registers and stores the same bytes in the same order. -/
def Obligations.ReadsInsideRegion : Prop :=
  ∀ (i : Instr) (s t : State) (m : Memory), s.Inv →
    (∀ a, (readRegion i s).holds a = true → m.read a = s.mem.read a) → exec i s = .next t →
    ∃ u, exec i { s with mem := m } = .next u ∧ { u with mem := t.mem } = t ∧
      ∀ a, u.mem.read a = if a ∈ t.storeTrace.map Prod.fst then t.mem.read a else m.read a

/-- 20_memory.md R62, R72 (the trace is the model's own, log 20): memory after a command is memory before it with the command's byte
stores performed in their order. -/
def Obligations.MemoryFollowsTrace : Prop :=
  ∀ (i : Instr) (s t : State), exec i s = .next t → t.mem = applyStores s.mem t.storeTrace.reverse

/-! ### System commands -/

/-- 40_system_and_tables.md R101. -/
def Obligations.NopOnlyCompletes : Prop :=
  encode .sysNop = 0x00000000 ∧ ∀ s : State, exec .sysNop s = .next (s.succeeded 0)

/-- 40_system_and_tables.md R102: every register takes its reset value, memory is not touched; nothing but this command and the reset input
clears `FAULT`. (The fields that are no register are left open here; `ArgumentsAndConfigurationKept` says what becomes of them.) -/
def Obligations.ResetCommand : Prop :=
  encode .sysReset = 0x00000001 ∧
  (∀ s : State, ∃ t, exec .sysReset s = .next t ∧
    t = { State.reset with
      mem := s.mem, platform := t.platform, inbox := t.inbox, readData := t.readData, freeCount := t.freeCount,
      storeTrace := t.storeTrace }) ∧
  ∀ s t : State, step s = .next t → s.fault = true → t.fault = false →
    (∃ w, s.running = some w ∧ decode w = .ok .sysReset) ∨ ∃ k rest, s.inbox = .hwReset k :: rest

/-- 10_state.md R44, 70_reset_and_hazards.md R231. -/
def Obligations.ResetValues : Prop :=
  let s := State.reset
  s.arg0 = 0 ∧ s.arg1 = 0 ∧ s.arg2 = 0 ∧ s.arg3 = 0 ∧ s.res0 = 0 ∧ s.statusWord = 0 ∧ s.err = 0 ∧ s.busy = false ∧ s.fault = false ∧
  s.wrOpen = false ∧ s.rdOpen = false ∧ s.suberr = 0 ∧ s.cfg = 0x0C ∧ s.wsel = 0 ∧ s.isList = true ∧ s.skip = true ∧ s.bw = 0 ∧
  s.mcl = 1 ∧ s.wrAcc = 0 ∧ s.wrCnt = 0 ∧ s.wrBase = 0 ∧ s.wrPtr = 0 ∧ s.wrLimit = 0 ∧ s.rdLa = 0 ∧ s.rdLoaded = 0 ∧ s.rdCons = 0 ∧
  s.rdBase = 0 ∧ s.rdPtr = 0 ∧ s.rdEnd = 0 ∧ s.stkSp = 0 ∧ s.stkHwm = 0

/-- 40_system_and_tables.md R103, 00_scope.md R14: `RES0` is 0 for 0 and otherwise the number of bits of the value. -/
def Obligations.BitLengthCommand : Prop :=
  encode .utlBlen = 0x00000008 ∧
  ∀ s : State, ∃ r : Word, exec .utlBlen s = .next (s.succeeded r) ∧ r.toNat ≤ 64 ∧ (s.arg0 = 0 → r = 0) ∧
    (s.arg0 ≠ 0 → 1 ≤ r.toNat ∧ 2 ^ (r.toNat - 1) ≤ s.arg0.toNat ∧ s.arg0.toNat < 2 ^ r.toNat)

/-! ### The bitstream writer -/

/-- 41_bitstream_writer.md R111. -/
def Obligations.WriterInit : Prop :=
  encode .bswInit = 0x00000010 ∧
  ∀ s : State, exec .bswInit s =
    if 2 ^ 64 ≤ s.arg0.toNat + s.arg1.toNat then .next (s.failed 11 0)
    else if s.arg1.toNat < 8 then .next (s.failed 1 0)
    else .next { s.succeeded 0 with
      wrAcc := 0, wrCnt := 0, wrBase := s.arg0, wrPtr := s.arg0, wrLimit := toWord (s.arg0.toNat + s.arg1.toNat - 8), wrOpen := true }

/-- 41_bitstream_writer.md R112: the three checks in their order; the masked value above the pending bits, nothing lost; no memory
access. -/
def Obligations.WriterAppend : Prop :=
  (∀ n < 64, encode (.bswAppend n) = BitVec.ofNat 32 (0x11 + n * 256)) ∧
  ∀ (n : Nat) (s : State),
    if s.wrOpen = false then exec (.bswAppend n) s = .next (s.failed 10 0)
    else if 57 < n ∨ 64 ≤ s.wrCnt.toNat + n then exec (.bswAppend n) s = .next (s.failed 9 0)
    else ∃ t, exec (.bswAppend n) s = .next t ∧ t = { s.succeeded 0 with wrAcc := t.wrAcc, wrCnt := t.wrCnt } ∧
      t.wrAcc.toNat = s.wrAcc.toNat ||| ((s.arg0.toNat &&& sizeMask n) <<< s.wrCnt.toNat) ∧ t.wrCnt.toNat = s.wrCnt.toNat + n

/-- 41_bitstream_writer.md R114 with R113: the two checks; the complete pending bytes stored, the rest kept; or, where the `k`-th of them is
refused, the bytes before it stored and no register changed. -/
def Obligations.WriterFlush : Prop :=
  encode .bswFlush = 0x00000013 ∧
  ∀ s : State, s.writerInv →
    if s.wrOpen = false then exec .bswFlush s = .next (s.failed 10 0)
    else if s.wrLimit.toNat < s.wrPtr.toNat then exec .bswFlush s = .next (s.failed 2 0)
    else
      (s.admitsRegion (Region.ofBytes s.wrPtr.toNat (s.wrCnt.toNat / 8)) →
        ∃ t, exec .bswFlush s = .next t ∧
          t.sameButMemory { s.succeeded 0 with
            wrPtr := toWord (s.wrPtr.toNat + s.wrCnt.toNat / 8), wrAcc := s.wrAcc >>> (8 * (s.wrCnt.toNat / 8)),
            wrCnt := toCount (s.wrCnt.toNat % 8) } ∧
          t.storedBytes s s.wrPtr.toNat (s.wrCnt.toNat / 8) s.wrAcc.toNat) ∧
      ∀ k < s.wrCnt.toNat / 8, s.admitsRegion (Region.ofBytes s.wrPtr.toNat k) → admitted s.platform (s.wrPtr.toNat + k) = false →
        ∃ t, exec .bswFlush s = .next t ∧ t.sameButMemory (s.failed 14 0) ∧ t.storedBytes s s.wrPtr.toNat k s.wrAcc.toNat

/-- 41_bitstream_writer.md R115 with R113: the four checks; the masked value appended, then the complete bytes stored. -/
def Obligations.WriterWrite : Prop :=
  (∀ n < 64, encode (.bswWrite n) = BitVec.ofNat 32 (0x12 + n * 256)) ∧
  ∀ (n : Nat) (s : State), s.writerInv →
    let acc := s.wrAcc.toNat ||| ((s.arg0.toNat &&& sizeMask n) <<< s.wrCnt.toNat)
    let cnt := s.wrCnt.toNat + n
    if s.wrOpen = false then exec (.bswWrite n) s = .next (s.failed 10 0)
    else if 57 < n ∨ 64 < cnt then exec (.bswWrite n) s = .next (s.failed 9 0)
    else if s.wrLimit.toNat < s.wrPtr.toNat then exec (.bswWrite n) s = .next (s.failed 2 0)
    else s.admitsRegion (Region.ofBytes s.wrPtr.toNat (cnt / 8)) →
      ∃ t, exec (.bswWrite n) s = .next t ∧
        t.sameButMemory { s.succeeded 0 with
          wrPtr := toWord (s.wrPtr.toNat + cnt / 8), wrAcc := toWord (acc >>> (8 * (cnt / 8))), wrCnt := toCount (cnt % 8) } ∧
        t.storedBytes s s.wrPtr.toNat (cnt / 8) acc

/-- 41_bitstream_writer.md R116 with R113: the two checks; every pending bit stored, a partial last byte padded with zeros; the size; the
writer closed. -/
def Obligations.WriterClose : Prop :=
  encode .bswClose = 0x00000014 ∧
  ∀ s : State, s.writerInv →
    if s.wrOpen = false then exec .bswClose s = .next (s.failed 10 0)
    else if s.wrLimit.toNat < s.wrPtr.toNat then exec .bswClose s = .next (s.failed 2 0)
    else s.admitsRegion (Region.ofBytes s.wrPtr.toNat (bytesFor s.wrCnt.toNat)) →
      ∃ t, exec .bswClose s = .next t ∧
        t.sameButMemory { s.succeeded (toWord (s.wrPtr.toNat - s.wrBase.toNat + bytesFor s.wrCnt.toNat)) with
          wrPtr := toWord (s.wrPtr.toNat + s.wrCnt.toNat / 8), wrAcc := s.wrAcc >>> (8 * (s.wrCnt.toNat / 8)),
          wrCnt := toCount (s.wrCnt.toNat % 8), wrOpen := false } ∧
        t.storedBytes s s.wrPtr.toNat (bytesFor s.wrCnt.toNat) s.wrAcc.toNat

/-- 60_exceptions.md R207, 20_memory.md R62 (that the accumulator of `BSW.WRITE` and the pointer of `BSW.CLOSE` are not updated is the model's
reading, log 12): the `k`-th byte of a write or close is refused; the `k` bytes before it stay stored, no register but `STATUS` and
`RES0` has changed. -/
def Obligations.WriterBusError : Prop :=
  ∀ (s : State) (k n : Nat), s.writerInv → s.wrOpen = true → s.wrPtr.toNat ≤ s.wrLimit.toNat →
    s.admitsRegion (Region.ofBytes s.wrPtr.toNat k) → admitted s.platform (s.wrPtr.toNat + k) = false →
    (k < bytesFor s.wrCnt.toNat → ∃ t, exec .bswClose s = .next t ∧ t.sameButMemory (s.failed 14 0) ∧
      t.storedBytes s s.wrPtr.toNat k s.wrAcc.toNat) ∧
    (n ≤ 57 → s.wrCnt.toNat + n ≤ 64 → k < (s.wrCnt.toNat + n) / 8 →
      ∃ t, exec (.bswWrite n) s = .next t ∧ t.sameButMemory (s.failed 14 0) ∧
        t.storedBytes s s.wrPtr.toNat k (s.wrAcc.toNat ||| ((s.arg0.toNat &&& sizeMask n) <<< s.wrCnt.toNat)))

/-- 41_bitstream_writer.md R118, the stream law of a writer session. -/
def Obligations.StreamLaw : Prop :=
  ∀ (s t u v : State) (acts : List WriterAction),
    exec .bswInit s = .next t → t.err = 0 → runWriter acts t = some u → exec .bswClose u = .next v → v.err = 0 →
    let fs := acts.flatMap WriterAction.fields
    v.res0.toNat = bytesFor (streamBits fs) ∧ v.storedBytes s s.arg0.toNat (bytesFor (streamBits fs)) (streamValue fs)

/-! ### The bitstream reader -/

/-- 42_bitstream_reader.md R131: the check; the registers; a reader over no bytes opens and its first read of a bit fails; no command but
`SYS.RESET` closes a reader. -/
def Obligations.ReaderInit : Prop :=
  encode .bsrInit = 0x00000020 ∧
  (∀ s : State, exec .bsrInit s =
    if 2 ^ 64 ≤ s.arg0.toNat + s.arg1.toNat then .next (s.failed 11 0)
    else .next { s.succeeded 0 with
      rdBase := s.arg0, rdPtr := s.arg0, rdEnd := toWord (s.arg0.toNat + s.arg1.toNat), rdLa := 0, rdLoaded := 0, rdCons := 0,
      rdOpen := true }) ∧
  (∀ (n : Nat) (s t : State), s.arg1 = 0 → exec .bsrInit s = .next t → 1 ≤ n → n ≤ 57 → exec (.bsrRead n) t = .next (t.failed 2 0)) ∧
  ∀ (i : Instr) (s t : State), i ≠ .sysReset → s.rdOpen = true → exec i s = .next t → t.rdOpen = true

/-- 42_bitstream_reader.md R132. -/
def Obligations.ReaderLoad : Prop :=
  encode .bsrLoad = 0x00000022 ∧
  ∀ s : State, s.readerInv →
    let p := s.rdPtr.toNat + s.rdCons.toNat / 8
    let k := min 8 (s.rdEnd.toNat - p)
    if s.rdOpen = false then exec .bsrLoad s = .next (s.failed 10 0)
    else p ≤ s.rdEnd.toNat ∧
      if p = s.rdEnd.toNat then exec .bsrLoad s = .next (s.failed 2 0)
      else
        (s.admitsRegion (Region.ofBytes p k) → exec .bsrLoad s = .next { s.succeeded 0 with
          rdLa := toWord (memNat s.mem p k), rdLoaded := toCount (8 * k), rdCons := toCount (s.rdCons.toNat % 8), rdPtr := toWord p }) ∧
        (¬ s.admitsRegion (Region.ofBytes p k) → exec .bsrLoad s = .next (s.failed 14 0))

/-- 42_bitstream_reader.md R133: the two checks; a read served from the lookahead; a read after a reload; the three ways it fails. -/
def Obligations.ReaderRead : Prop :=
  (∀ n < 64, encode (.bsrRead n) = BitVec.ofNat 32 (0x21 + n * 256)) ∧
  ∀ (n : Nat) (s : State), s.readerInv →
    let p := s.rdPtr.toNat + s.rdCons.toNat / 8
    let k := min 8 (s.rdEnd.toNat - p)
    let la := memNat s.mem p k
    let c := s.rdCons.toNat % 8
    if s.rdOpen = false then exec (.bsrRead n) s = .next (s.failed 10 0)
    else if 57 < n then exec (.bsrRead n) s = .next (s.failed 9 0)
    else if s.rdCons.toNat + n ≤ s.rdLoaded.toNat then
      exec (.bsrRead n) s = .next { s.succeeded (toWord ((s.rdLa.toNat >>> s.rdCons.toNat) &&& sizeMask n)) with
        rdCons := toCount (s.rdCons.toNat + n) }
    else if p = s.rdEnd.toNat then exec (.bsrRead n) s = .next (s.failed 2 0)
    else
      (¬ s.admitsRegion (Region.ofBytes p k) → exec (.bsrRead n) s = .next (s.failed 14 0)) ∧
      (s.admitsRegion (Region.ofBytes p k) →
        if c + n ≤ 8 * k then
          exec (.bsrRead n) s = .next { s.succeeded (toWord ((la >>> c) &&& sizeMask n)) with
            rdLa := toWord la, rdLoaded := toCount (8 * k), rdCons := toCount (c + n), rdPtr := toWord p }
        else
          exec (.bsrRead n) s = .next { s.failed 3 0 with
            rdLa := toWord la, rdLoaded := toCount (8 * k), rdCons := toCount c, rdPtr := toWord p })

/-- 42_bitstream_reader.md R136 for one `BSR.READ`, with the choice of error of R133: over input bytes that have not changed since the last
load (70_reset_and_hazards.md R239), a read returns the field of the input stream at the position and moves the position past it, or
leaves the position and reports which end of the stream it met. -/
def Obligations.ReadLaw : Prop :=
  ∀ (n : Nat) (s : State), s.rdOpen = true → s.readerInv → s.lookaheadFresh → n ≤ 57 →
    s.admitsRegion s.readerRegion →
    ∃ t, exec (.bsrRead n) s = .next t ∧ t.readerInv ∧ t.lookaheadFresh ∧ t.mem = s.mem ∧
      t = { s with
        rdLa := t.rdLa, rdLoaded := t.rdLoaded, rdCons := t.rdCons, rdPtr := t.rdPtr, err := t.err, suberr := 0,
        fault := s.fault || t.err != 0, res0 := t.res0, running := none, storeTrace := [] } ∧
      if s.readerPos + n ≤ s.inputBits then
        t.err = 0 ∧ t.res0.toNat = (s.inputStream >>> s.readerPos) &&& sizeMask n ∧ t.readerPos = s.readerPos + n
      else t.err = (if s.readerPos = s.inputBits then 2 else 3) ∧ t.res0 = 0 ∧ t.readerPos = s.readerPos

/-- 42_bitstream_reader.md R134. -/
def Obligations.ReaderSize : Prop :=
  encode .bsrSize = 0x00000023 ∧
  ∀ s : State, s.readerInv →
    if s.rdOpen = false then exec .bsrSize s = .next (s.failed 10 0)
    else ∃ r : Word, exec .bsrSize s = .next (s.succeeded r) ∧
      r.toNat = s.rdPtr.toNat - s.rdBase.toNat + (s.rdCons.toNat + 7) >>> 3 ∧ r.toNat = (s.readerPos + 7) / 8

/-! ### The zero-counter -/

/-- 43_zero_counter.md R150, R153: the two checks in their order; over any memory contents an index with the bit clear before it and set at
it; `BusError` only if a byte of the slice is refused. Memory is only read. -/
def Obligations.ZeroCountCommand : Prop :=
  (∀ n < 64, encode (.zcCount n) = BitVec.ofNat 32 (0x30 + n * 256)) ∧
  ∀ (bit : Nat) (s : State),
    if s.elemWidth ≤ bit ∨ 2 ^ 64 ≤ s.arg0.toNat + s.arg1.toNat * (s.elemWidth / 8) then exec (.zcCount bit) s = .next (s.failed 11 0)
    else
      (exec (.zcCount bit) s = .next (s.failed 14 0) ∧ ¬ s.admitsRegion (s.arrayRegion s.arg0 s.arg1)) ∨
      ∃ z ≤ s.arg1.toNat, exec (.zcCount bit) s = .next (s.succeeded (toWord z)) ∧
        (0 < z → (elemValue s s.arg0.toNat (z - 1)).testBit bit = false) ∧
        (z < s.arg1.toNat → (elemValue s s.arg0.toNat z).testBit bit = true)

/-- 43_zero_counter.md R152 (with R150): over a slice whose tested bit runs 0…0,1…1 the answer is the number of elements with the bit
clear. -/
def Obligations.ZeroCountMonotonic : Prop :=
  ∀ (bit z : Nat) (s : State), bit < s.elemWidth → s.arg0.toNat + s.arg1.toNat * (s.elemWidth / 8) < 2 ^ 64 →
    s.admitsRegion (s.arrayRegion s.arg0 s.arg1) → s.bitSplitsAt s.arg0.toNat s.arg1.toNat bit z →
    exec (.zcCount bit) s = .next (s.succeeded (toWord z))

/-! ### The encoder -/

/-- 44_bct_encoder.md R164, R166, 60_exceptions.md R203, R204, R208: the first numbered check that fails decides the error, and nothing but
`STATUS` and `RES0` has changed. -/
def Obligations.EncoderChecks : Prop :=
  encode .bctEtree = 0x00000040 ∧ encode .bctEncode = 0x00000041 ∧
  ∀ (s : State) (e : Err),
    (s.etreeCheck = some e → exec .bctEtree s = .next (s.failed e.code 0)) ∧
    (s.encodeCheck = some e → exec .bctEncode s = .next (s.failed e.code 0))

/-- 44_bct_encoder.md R165, R166, R168 with 41_bitstream_writer.md R118, R120 and 10_state.md R42: on an array such as the encoder expects,
`BCT.ENCODE` writes the stream of the format and returns its size when the buffer has room for it, and ends with `EndOfStream`, the writer
left open, when it has not. -/
def Obligations.EncodeMeetsFormat : Prop :=
  ∀ s : State, s.encodeCheck = none → s.encodable s.inputValues →
    s.admitsRegion (readRegion .bctEncode s) → s.admitsRegion (writeRegion .bctEncode s) →
    (readRegion .bctEncode s).disjoint (writeRegion .bctEncode s) →
    let T := streamBits s.encodingOfInput
    let S := streamValue s.encodingOfInput
    ∃ t, exec .bctEncode s = .next t ∧
      if T / 8 + 8 ≤ s.arg3.toNat then
        t.sameButMemory { s.succeeded (toWord (bytesFor T)) with
          wrAcc := toWord (S >>> (8 * (T / 8))), wrCnt := toCount (T % 8), wrBase := s.arg2, wrPtr := toWord (s.arg2.toNat + T / 8),
          wrLimit := toWord (s.arg2.toNat + s.arg3.toNat - 8), wrOpen := false, stack := [], stkHwm := t.stkHwm } ∧
        s.stkHwm.toNat ≤ t.stkHwm.toNat ∧ t.stkHwm.toNat ≤ max s.stkHwm.toNat s.ebw ∧
        t.storedBytes s s.arg2.toNat (bytesFor T) S
      else t.err = 2 ∧ t.suberr = 0 ∧ t.fault = true ∧ t.res0 = 0 ∧ t.wrOpen = true

/-- 44_bct_encoder.md R164, R168 with 41_bitstream_writer.md R120: on an array such as the encoder expects, with room in the open writer,
`BCT.ETREE` puts the tree after the bits the writer holds, stores the complete bytes and keeps the rest pending. -/
def Obligations.TreeMeetsFormat : Prop :=
  ∀ s : State, s.etreeCheck = none → s.writerInv → s.encodable s.inputValues →
    s.admitsRegion (readRegion .bctEtree s) → s.admitsRegion (writeRegion .bctEtree s) →
    (readRegion .bctEtree s).disjoint (writeRegion .bctEtree s) →
    let T := s.wrCnt.toNat + streamBits s.treeOfInput
    let S := s.wrAcc.toNat + streamValue s.treeOfInput <<< s.wrCnt.toNat
    s.wrPtr.toNat + T / 8 ≤ s.wrLimit.toNat →
    ∃ t, exec .bctEtree s = .next t ∧
      t.sameButMemory { s.succeeded 0 with
        wrAcc := toWord (S >>> (8 * (T / 8))), wrCnt := toCount (T % 8), wrPtr := toWord (s.wrPtr.toNat + T / 8), stack := [],
        stkHwm := t.stkHwm } ∧
      s.stkHwm.toNat ≤ t.stkHwm.toNat ∧ t.stkHwm.toNat ≤ max s.stkHwm.toNat s.ebw ∧
      t.storedBytes s s.wrPtr.toNat (T / 8) S

/-- 44_bct_encoder.md R169, R170, 10_state.md R42: whatever the input, past its checks an encoder command ends without error, with
`EndOfStream` or, if a byte of its regions is refused, with `BusError`: no `ContractViolation`, no `StackOverflow`, no `BadArgument`. -/
def Obligations.EncoderErrors : Prop :=
  ∀ s : State, s.Inv →
    (s.etreeCheck = none → ∃ t, exec .bctEtree s = .next t ∧ (t.err = 0 ∨ t.err = 2 ∨ t.err = 14 ∧
      ¬ (s.admitsRegion (readRegion .bctEtree s) ∧ s.admitsRegion (writeRegion .bctEtree s)))) ∧
    (s.encodeCheck = none → ∃ t, exec .bctEncode s = .next t ∧ (t.err = 0 ∨ t.err = 2 ∨ t.err = 14 ∧
      ¬ (s.admitsRegion (readRegion .bctEncode s) ∧ s.admitsRegion (writeRegion .bctEncode s))))

/-- 70_reset_and_hazards.md R236: a capacity of `floor((P + 2*len*EBW)/8) + 8` bytes always suffices, also for an array that is not
sorted. -/
def Obligations.CapacityAlwaysSuffices : Prop :=
  ∀ s : State, s.stkHwm.toNat ≤ 64 → s.encodeCheck = none →
    s.admitsRegion (readRegion .bctEncode s) → s.admitsRegion (writeRegion .bctEncode s) →
    (headerBits s.isList s.elemWidth + 2 * s.arg1.toNat * s.ebw) / 8 + 8 ≤ s.arg3.toNat →
    ∃ t, exec .bctEncode s = .next t ∧ t.err = 0 ∧ t.wrOpen = false ∧
      t.res0.toNat ≤ bytesFor (headerBits s.isList s.elemWidth + 2 * s.arg1.toNat * s.ebw)

/-! ### The decoder -/

/-- 45_bct_decoder.md R184, R186, 60_exceptions.md R203, R204, R208: the first numbered check that fails decides the error, and nothing but
`STATUS` and `RES0` has changed. -/
def Obligations.DecoderChecks : Prop :=
  encode .bctDtree = 0x00000042 ∧ encode .bctDecode = 0x00000043 ∧
  ∀ (s : State) (e : Err),
    (s.dtreeCheck = some e → exec .bctDtree s = .next (s.failed e.code 0)) ∧
    (s.decodeCheck = some e → exec .bctDecode s = .next (s.failed e.code 0))

/-- 45_bct_decoder.md R186 with R185, R188, R189, R191: what `BCT.DECODE` does on any input bytes. A missing prefix and a wrong count are
`WrongFormat`; a tree that the stream does not hold is `WrongFormat`; a tree that it holds is stored, element by element; only a full
64-bit tree can end in `StackOverflow` instead. -/
def Obligations.DecodeMeetsFormat : Prop :=
  ∀ s : State, s.decodeCheck = none → s.admitsRegion (readRegion .bctDecode s) → s.admitsRegion (writeRegion .bctDecode s) →
    (readRegion .bctDecode s).disjoint (writeRegion .bctDecode s) →
    ∃ t, exec .bctDecode s = .next t ∧
      match s.bufferHeader with
      | none => t.err = 7 ∧ t.suberr = (if s.arg1 = 0 then 2 else 3) ∧ t.mem = s.mem
      | some c =>
        if c ≠ s.arg3.toNat then t.err = 7 ∧ t.suberr = 0 ∧ t.mem = s.mem
        else
          (s.ebw = 64 ∧ t.err = 13) ∨
          match s.parsedTree s.bufferStream (8 * s.arg1.toNat) s.arg3.toNat (headerBits s.isList s.elemWidth) with
          | none => t.err = 7
          | some (vs, pos) =>
            t.sameButMemory { s.succeeded (toWord (bytesFor pos)) with
              rdBase := s.arg0, rdEnd := toWord (s.arg0.toNat + s.arg1.toNat), rdPtr := t.rdPtr, rdLa := t.rdLa,
              rdLoaded := t.rdLoaded, rdCons := t.rdCons, rdOpen := true, stack := [], stkHwm := t.stkHwm } ∧
            t.readerPos = pos ∧ s.stkHwm.toNat ≤ t.stkHwm.toNat ∧ t.stkHwm.toNat ≤ max s.stkHwm.toNat (s.ebw + 1) ∧
            arrayValues t s.arg2.toNat s.arg3.toNat = vs ∧
            ∀ a, (writeRegion .bctDecode s).holds a = false → t.mem.read a = s.mem.read a

/-- 45_bct_decoder.md R184 with R185, R189, R191: what `BCT.DTREE` does from the open reader's position, over input bytes that have not
changed since the last load. -/
def Obligations.TreeDecodeMeetsFormat : Prop :=
  ∀ s : State, s.dtreeCheck = none → s.readerInv → s.lookaheadFresh →
    s.admitsRegion (readRegion .bctDtree s) → s.admitsRegion (writeRegion .bctDtree s) →
    (readRegion .bctDtree s).disjoint (writeRegion .bctDtree s) →
    ∃ t, exec .bctDtree s = .next t ∧
      ((s.ebw = 64 ∧ t.err = 13) ∨
        match s.parsedTree s.inputStream s.inputBits s.arg1.toNat s.readerPos with
        | none => t.err = 7
        | some (vs, pos) =>
          t.sameButMemory { s.succeeded 0 with
            rdPtr := t.rdPtr, rdLa := t.rdLa, rdLoaded := t.rdLoaded, rdCons := t.rdCons, stack := [], stkHwm := t.stkHwm } ∧
          t.readerPos = pos ∧ s.stkHwm.toNat ≤ t.stkHwm.toNat ∧ t.stkHwm.toNat ≤ max s.stkHwm.toNat (s.ebw + 1) ∧
          arrayValues t s.arg0.toNat s.arg1.toNat = vs ∧
          ∀ a, (writeRegion .bctDtree s).holds a = false → t.mem.read a = s.mem.read a)

/-- 45_bct_decoder.md R187 with R185, R188: what `BCT.DSIZE` does on any input bytes. -/
def Obligations.DecodedSize : Prop :=
  encode .bctDsize = 0x00000044 ∧
  ∀ s : State,
    if 2 ^ 64 ≤ s.arg0.toNat + s.arg1.toNat then exec .bctDsize s = .next (s.failed 11 0)
    else s.admitsRegion (readRegion .bctDsize s) →
      ∃ t, exec .bctDsize s = .next t ∧
        t = { s with
          rdBase := s.arg0, rdEnd := toWord (s.arg0.toNat + s.arg1.toNat), rdPtr := t.rdPtr, rdLa := t.rdLa, rdLoaded := t.rdLoaded,
          rdCons := t.rdCons, rdOpen := true, err := t.err, suberr := t.suberr, fault := s.fault || t.err != 0, res0 := t.res0,
          running := none, storeTrace := [] } ∧
        match s.bufferHeader with
        | none => t.err = 7 ∧ t.suberr = (if s.arg1 = 0 then 2 else 3) ∧ t.res0 = 0
        | some c =>
          t.readerPos = headerBits s.isList s.elemWidth ∧
          if c < 2 ^ 64 then t.err = 0 ∧ t.suberr = 0 ∧ t.res0.toNat = c else t.err = 7 ∧ t.suberr = 0 ∧ t.res0 = 0

/-- 45_bct_decoder.md R190, the round trip: what `BCT.ENCODE` wrote, `BCT.DECODE` under the same configuration gives back, from those bytes
or any longer buffer that starts with them, unless a full 64-bit tree overflows the stack. -/
def Obligations.RoundTrip : Prop :=
  ∀ (s t : State) (ilen dst : Word), s.encodable s.inputValues → exec .bctEncode s = .next t → t.err = 0 →
    (readRegion .bctEncode s).disjoint (writeRegion .bctEncode s) →
    let u := { t with arg0 := s.arg2, arg1 := ilen, arg2 := dst, arg3 := s.arg1 }
    t.res0.toNat ≤ ilen.toNat → s.arg2.toNat + ilen.toNat < 2 ^ 64 → dst.toNat + s.arg1.toNat * (s.elemWidth / 8) < 2 ^ 64 →
    u.admitsRegion (readRegion .bctDecode u) → u.admitsRegion (writeRegion .bctDecode u) →
    (readRegion .bctDecode u).disjoint (writeRegion .bctDecode u) →
    ∃ v, exec .bctDecode u = .next v ∧
      ((v.err = 0 ∧ v.res0 = t.res0 ∧ arrayValues v dst.toNat s.arg1.toNat = s.inputValues) ∨ (s.ebw = 64 ∧ v.err = 13))

/-- 45_bct_decoder.md R189: a successful decode stores every byte of its output array exactly once and no other byte, and every decoded
element is below `2^EBW`. -/
def Obligations.EverySlotStoredOnce : Prop :=
  ∀ (s t : State), s.Inv →
    (exec .bctDecode s = .next t → t.err = 0 →
      (t.storeTrace.map Prod.fst).Perm ((List.range (s.arrayBytes s.arg3.toNat)).map (s.arg2.toNat + ·)) ∧
      ∀ v ∈ arrayValues t s.arg2.toNat s.arg3.toNat, v < 2 ^ s.ebw) ∧
    (exec .bctDtree s = .next t → t.err = 0 →
      (t.storeTrace.map Prod.fst).Perm ((List.range (s.arrayBytes s.arg1.toNat)).map (s.arg0.toNat + ·)) ∧
      ∀ v ∈ arrayValues t s.arg0.toNat s.arg1.toNat, v < 2 ^ s.ebw)

/-- 45_bct_decoder.md R191, 10_state.md R42: `StackOverflow` ends no command but a decode of a full 64-bit tree, and the stack never holds
more entries than its capacity. -/
def Obligations.OverflowOnlyInFullWidthDecode : Prop :=
  ∀ (i : Instr) (s t : State), s.Inv → exec i s = .next t →
    t.stkSp ≤ 64 ∧ (t.err = 13 → (i = .bctDtree ∨ i = .bctDecode) ∧ s.ebw = 64)

/-! ### The invariants -/

/-- 10_state.md R44: the state after reset meets the invariants. -/
def Obligations.ResetMeetsInvariants : Prop := State.reset.Inv

/-- 10_state.md R31, R33, R37, R38, R40 and the canonical form of memory (log 3): every step keeps them, whatever the host does. -/
def Obligations.EveryStepKeepsInvariants : Prop :=
  ∀ s t : State, s.Inv → step s = .next t → t.Inv

/-- 10_state.md R31: after a successful `BSW.WRITE`, `BSW.FLUSH` or `BCT.ETREE` at most 7 bits are pending. -/
def Obligations.FewBitsPending : Prop :=
  ∀ (i : Instr) (s t : State), s.Inv → exec i s = .next t → t.err = 0 → (∃ n, i = .bswWrite n) ∨ i = .bswFlush ∨ i = .bctEtree →
    t.wrOpen = true ∧ t.wrCnt.toNat ≤ 7

/-! ### The host port -/

/-- 60_exceptions.md R213 ("all state survives idling"; log 2): an idle block to which nothing happens stays as it is. -/
def Obligations.IdleBlockWaits : Prop :=
  ∀ (s : State) (rest : List HostAction), s.running = none →
    (s.inbox = [] → step s = .next s) ∧ (s.inbox = .elapse :: rest → step s = .next { s with inbox := rest })

/-- 10_state.md R21, R24 to R28, 30_encoding.md R90: what an aligned 64-bit host write does while the block is idle. -/
def Obligations.HostWritesRegister : Prop :=
  ∀ (s : State) (off : Nat) (v : Word) (rest : List HostAction), s.running = none → off < 256 → off % 8 = 0 →
    s.inbox = .regWrite (s.platform.regBase + off) .b8 v :: rest →
    let u := { s with inbox := rest }
    step s = .next (
      if off = 0x00 then { u with running := some v }
      else if off = 0x08 then { u with arg0 := v }
      else if off = 0x10 then { u with arg1 := v }
      else if off = 0x18 then { u with arg2 := v }
      else if off = 0x20 then { u with arg3 := v }
      else if off = 0x38 then { u with cfg := v.extractLsb' 0 11 }
      else if off = 0x40 then { u with mcl := v }
      else u)

/-- 10_state.md R21, R24 to R28, R30, R32, R34: what an aligned 64-bit host read returns while the block is idle (the place the value goes
to is the model's own, log 19). -/
def Obligations.HostReadsRegister : Prop :=
  ∀ (s : State) (off : Nat) (rest : List HostAction), s.running = none → off < 256 → off % 8 = 0 →
    s.inbox = .regRead (s.platform.regBase + off) .b8 :: rest →
    step s = .next { s with
      inbox := rest
      readData :=
        if off = 0x08 then s.arg0 else if off = 0x10 then s.arg1 else if off = 0x18 then s.arg2 else if off = 0x20 then s.arg3
        else if off = 0x28 then s.res0 else if off = 0x30 then s.statusWord else if off = 0x38 then s.cfg.setWidth 64
        else if off = 0x40 then s.mcl else if off = 0x48 then s.wrAcc else if off = 0x50 then s.wrCnt.setWidth 64
        else if off = 0x58 then s.wrBase else if off = 0x60 then s.wrPtr else if off = 0x68 then s.wrLimit
        else if off = 0x70 then s.rdLa else if off = 0x78 then s.rdBitsWord else if off = 0x80 then s.rdBase
        else if off = 0x88 then s.rdPtr else if off = 0x90 then s.rdEnd else if off = 0x98 then s.stkInfoWord else 0 }

/-- 10_state.md R34, R23: the bits of `STATUS`, `RD_BITS` and `STK_INFO`, and that the two views are read at their offsets and not written
there. -/
def Obligations.PackedViews : Prop :=
  ∀ s : State,
    s.readRegister 0x78 = s.rdBitsWord ∧ s.readRegister 0x98 = s.stkInfoWord ∧
    (∀ v, s.writeRegister 0x78 v = s ∧ s.writeRegister 0x98 v = s) ∧
    (s.statusWord.extractLsb' 0 8 = s.err ∧ s.statusWord.getLsbD 8 = s.busy ∧ s.statusWord.getLsbD 9 = s.fault ∧
      s.statusWord.getLsbD 10 = s.wrOpen ∧ s.statusWord.getLsbD 11 = s.rdOpen ∧ s.statusWord.extractLsb' 12 4 = 0 ∧
      s.statusWord.extractLsb' 16 8 = s.suberr ∧ s.statusWord.extractLsb' 24 40 = 0) ∧
    (s.rdBitsWord.extractLsb' 0 7 = s.rdLoaded ∧ s.rdBitsWord.getLsbD 7 = false ∧ s.rdBitsWord.extractLsb' 8 7 = s.rdCons ∧
      s.rdBitsWord.extractLsb' 15 49 = 0) ∧
    (s.stackInv → (s.stkInfoWord.extractLsb' 0 7).toNat = s.stkSp ∧ s.stkInfoWord.getLsbD 7 = false ∧
      s.stkInfoWord.extractLsb' 8 7 = s.stkHwm ∧ s.stkInfoWord.extractLsb' 15 49 = 0)

/-- 10_state.md R26: while a command runs, a host write to any register is ignored, and a host read changes nothing but what it returns,
which is `STATUS` at its offset, 0 at a reserved one and anything elsewhere (U9; log 6 for how the unspecified value is drawn). -/
def Obligations.BusyAccesses : Prop :=
  ∀ (s : State) (w : Word) (off : Nat) (rest : List HostAction), s.running = some w → off < 256 → off % 8 = 0 →
    (∀ v, s.inbox = .regWrite (s.platform.regBase + off) .b8 v :: rest → step s = .next { s with inbox := rest }) ∧
    (s.inbox = .regRead (s.platform.regBase + off) .b8 :: rest →
      ∃ t, step s = .next t ∧ t = { s with inbox := rest, readData := t.readData, freeCount := t.freeCount } ∧
        (off = 0x30 → t.readData = s.statusWord) ∧ (0xA0 ≤ off → t.readData = 0))

/-- 70_reset_and_hazards.md R230, 10_state.md R44: the reset input gives every register its reset value, at any time. While the block is
idle memory is not changed; while a command runs the command is abandoned and a prefix of its byte stores, in their order, stays stored
(the prefix is the action's, log 9). -/
def Obligations.ResetInput : Prop :=
  ∀ (s : State) (k : Nat) (rest : List HostAction), s.Inv → s.inbox = .hwReset k :: rest →
    ∃ t, step s = .next t ∧
      t.sameButMemory { State.reset with
        platform := s.platform, inbox := rest, readData := s.readData, freeCount := s.freeCount } ∧
      (s.running = none → t.mem = s.mem) ∧
      ∀ w u, s.running = some w → issue w { s with inbox := rest } = .next u →
        ∃ stores, stores <+: u.storeTrace.reverse ∧ stores.length = min k u.storeTrace.length ∧ t.mem = applyStores s.mem stores

/-- 20_memory.md R60, R72, 70_reset_and_hazards.md R238: a host access to a byte of memory while the block is idle reads or writes exactly
that byte; while a command runs, an access to its buffers is refused (the model's answer to U10, log 7) and any other one is as while
idle. That a byte `MemAdmit` refuses is no exception is the model's choice (R63 is silent on the host's accesses; log 23). -/
def Obligations.HostMemoryAccess : Prop :=
  ∀ (s : State) (a : Nat) (rest : List HostAction), a < 2 ^ 64 →
    let read := ∃ w, s.running = some w ∧ (runningReads w s).holds a = true
    let written := ∃ w, s.running = some w ∧ (runningWrites w s).holds a = true
    (∀ b, s.inbox = .memWrite a b :: rest →
      (read ∨ written → step s = .refused .bufferTouchedWhileBusy) ∧
      (¬ (read ∨ written) → ∃ t, step s = .next t ∧ { t with mem := s.mem } = { s with inbox := rest } ∧
        ∀ x, t.mem.read x = if x = a then b else s.mem.read x)) ∧
    (s.inbox = .memRead a :: rest →
      (written → step s = .refused .bufferTouchedWhileBusy) ∧
      (¬ written → step s = .next { s with inbox := rest, readData := (s.mem.read a).setWidth 64 }))

/-- 10_state.md R26 with U14: an access of the register space that is not an aligned 64-bit access has no defined effect; the model refuses
it (log 8), also while a command runs. -/
def Obligations.UndefinedAccessRefused : Prop :=
  ∀ (s : State) (off : Nat) (size : AccessSize) (v : Word) (rest : List HostAction), off < 256 → off % 8 ≠ 0 ∨ size ≠ .b8 →
    (s.inbox = .regWrite (s.platform.regBase + off) size v :: rest ∨ s.inbox = .regRead (s.platform.regBase + off) size :: rest) →
    step s = .refused .undefinedRegisterAccess
end

