-- ==== Sys2Proof/Laws/Memory.lean ====
section
/-! SUPPORT. Memory: what a read gives after a write, that every operation keeps the canonical form, and that memories with the same
bytes are the same data (20_memory.md R60 to R62; log 3). -/

namespace Sys2Proof.Laws
open Sys2Proof.Machine

/-! ### Reading -/

theorem read_erase (m : Memory) (x y : Nat) :
    (Memory.erase m x).read y = if y = x then Memory.unlisted else m.read y := by
  induction m with
  | nil => simp [Memory.erase, Memory.read]
  | cons c m ih =>
    obtain ⟨a, b⟩ := c
    by_cases h : a = x
    · subst h
      rw [Memory.erase, if_pos rfl, ih, Memory.read]
      by_cases hy : y = a
      · simp [hy]
      · simp [hy, Ne.symm hy]
    · rw [Memory.erase, if_neg h, Memory.read, Memory.read, ih]
      by_cases hy : y = x
      · subst hy; simp [h]
      · simp [hy]

theorem read_insert (m : Memory) (x : Nat) (b : Byte) (hm : ∀ c ∈ m, c.1 ≠ x) (y : Nat) :
    (Memory.insert m (x, b)).read y = if y = x then b else m.read y := by
  induction m with
  | nil => by_cases h : x = y <;> simp [Memory.insert, Memory.read, h, eq_comm]
  | cons d m ih =>
    obtain ⟨a, e⟩ := d
    have hax : a ≠ x := hm (a, e) (by simp)
    rw [Memory.insert]
    by_cases hlt : x < a
    · rw [if_pos hlt, Memory.read]
      by_cases h : x = y <;> simp [h, eq_comm]
    · rw [if_neg hlt, Memory.read, ih (fun c hc => hm c (by simp [hc]))]
      by_cases h : a = y
      · subst h; simp [hax, Memory.read]
      · simp [h, Memory.read]

theorem mem_erase_ne (m : Memory) (x : Nat) : ∀ c ∈ Memory.erase m x, c.1 ≠ x := by
  induction m with
  | nil => simp [Memory.erase]
  | cons d m ih =>
    obtain ⟨a, e⟩ := d
    by_cases h : a = x
    · simpa [Memory.erase, h] using ih
    · intro c hc
      simp only [Memory.erase, if_neg h, List.mem_cons] at hc
      rcases hc with rfl | hc
      · exact h
      · exact ih c hc

/-- A read after a write gives the written byte at that address and what was there at every other. -/
@[simp] theorem read_write (m : Memory) (x : Nat) (b : Byte) (y : Nat) :
    (Memory.write m x b).read y = if y = x then b else m.read y := by
  unfold Memory.write
  split
  · next h => subst h; exact read_erase m x y
  · rw [read_insert _ _ _ (mem_erase_ne m x)]
    by_cases hy : y = x
    · simp [hy]
    · simp [hy, read_erase]

theorem read_write_same (m : Memory) (x : Nat) (b : Byte) : (Memory.write m x b).read x = b := by simp

theorem read_write_other (m : Memory) (x : Nat) (b : Byte) {y : Nat} (h : y ≠ x) :
    (Memory.write m x b).read y = m.read y := by simp [h]

/-! ### The canonical form -/

theorem wfFrom_cons (lo a : Nat) (b : Byte) (m : Memory) :
    Memory.wfFrom lo ((a, b) :: m) = true ↔
      lo ≤ a ∧ a < Config.addressSpace ∧ b ≠ Memory.unlisted ∧ Memory.wfFrom (a + 1) m = true := by
  simp [Memory.wfFrom, and_assoc]

theorem wfFrom_mono {lo lo' : Nat} (h : lo' ≤ lo) : ∀ {m : Memory}, Memory.wfFrom lo m = true → Memory.wfFrom lo' m = true
  | [], _ => rfl
  | (a, b) :: m, hm => by
    rw [wfFrom_cons] at hm ⊢
    exact ⟨h.trans hm.1, hm.2⟩

theorem wfFrom_erase (x : Nat) : ∀ {lo : Nat} {m : Memory}, Memory.wfFrom lo m = true → Memory.wfFrom lo (m.erase x) = true
  | _, [], _ => rfl
  | lo, (a, b) :: m, hm => by
    rw [wfFrom_cons] at hm
    obtain ⟨h1, h2, h3, h4⟩ := hm
    rw [Memory.erase]
    split
    · exact wfFrom_mono (by omega) (wfFrom_erase x h4)
    · rw [wfFrom_cons]; exact ⟨h1, h2, h3, wfFrom_erase x h4⟩

theorem wfFrom_insert {x : Nat} {b : Byte} (hx : x < Config.addressSpace) (hb : b ≠ Memory.unlisted) :
    ∀ {lo : Nat} {m : Memory}, Memory.wfFrom lo m = true → lo ≤ x → (∀ c ∈ m, c.1 ≠ x) →
      Memory.wfFrom lo (m.insert (x, b)) = true
  | lo, [], _, hlo, _ => by simp [Memory.insert, hlo, hx, hb, Memory.wfFrom]
  | lo, (a, e) :: m, hm, hlo, hne => by
    rw [wfFrom_cons] at hm
    obtain ⟨h1, h2, h3, h4⟩ := hm
    have hax : a ≠ x := hne (a, e) (by simp)
    rw [Memory.insert]
    split
    · next hlt =>
      rw [wfFrom_cons, wfFrom_cons]
      exact ⟨hlo, hx, hb, hlt, h2, h3, h4⟩
    · next hlt =>
      have hlt' : ¬ x < a := hlt
      rw [wfFrom_cons]
      exact ⟨h1, h2, h3, wfFrom_insert hx hb h4 (by omega) (fun c hc => hne c (by simp [hc]))⟩

theorem wf_write {m : Memory} (h : Memory.wf m = true) {x : Nat} (hx : x < Config.addressSpace) (b : Byte) :
    Memory.wf (m.write x b) = true := by
  unfold Memory.write
  split
  · exact wfFrom_erase x h
  · next hb => exact wfFrom_insert hx hb (wfFrom_erase x h) (Nat.zero_le _) (mem_erase_ne m x)

theorem wf_reset : Memory.wf State.reset.mem = true := rfl

/-- Below its first possible address a canonical memory lists nothing. -/
theorem read_of_wfFrom : ∀ {lo : Nat} {m : Memory}, Memory.wfFrom lo m = true → ∀ {x : Nat}, x < lo → m.read x = Memory.unlisted
  | _, [], _, _, _ => rfl
  | lo, (a, b) :: m, hm, x, hx => by
    rw [wfFrom_cons] at hm
    obtain ⟨h1, -, -, h4⟩ := hm
    rw [Memory.read, if_neg (by omega)]
    exact read_of_wfFrom h4 (by omega)

theorem ext_of_wfFrom : ∀ {lo : Nat} {m n : Memory}, Memory.wfFrom lo m = true → Memory.wfFrom lo n = true →
    (∀ x, m.read x = n.read x) → m = n
  | _, [], [], _, _, _ => rfl
  | _, [], (a, b) :: n, _, hn, h => by
    rw [wfFrom_cons] at hn
    have := h a
    simp only [Memory.read, if_pos] at this
    exact absurd this.symm hn.2.2.1
  | _, (a, b) :: m, [], hm, _, h => by
    rw [wfFrom_cons] at hm
    have := h a
    simp only [Memory.read, if_pos] at this
    exact absurd this hm.2.2.1
  | lo, (a, b) :: m, (a', b') :: n, hm, hn, h => by
    rw [wfFrom_cons] at hm hn
    obtain ⟨-, -, hb, hm⟩ := hm
    obtain ⟨-, -, hb', hn⟩ := hn
    have haa : a = a' := by
      rcases Nat.lt_trichotomy a a' with hlt | heq | hgt
      · have := h a
        rw [Memory.read, if_pos rfl, Memory.read, if_neg (by omega), read_of_wfFrom hn (by omega)] at this
        exact absurd this hb
      · exact heq
      · have := h a'
        rw [Memory.read, if_neg (by omega), read_of_wfFrom hm (by omega), Memory.read, if_pos rfl] at this
        exact absurd this.symm hb'
    subst haa
    have hbb : b = b' := by simpa [Memory.read] using h a
    subst hbb
    have : m = n := by
      refine ext_of_wfFrom hm hn fun x => ?_
      by_cases hx : a = x
      · subst hx; rw [read_of_wfFrom hm (by omega), read_of_wfFrom hn (by omega)]
      · simpa [Memory.read, hx] using h x
    rw [this]

/-- Equal memories are equal data. -/
theorem memory_ext {m n : Memory} (hm : Memory.wf m = true) (hn : Memory.wf n = true) (h : ∀ x, m.read x = n.read x) : m = n :=
  ext_of_wfFrom hm hn h

/-! ### Many stores -/

@[simp] theorem applyStores_nil (m : Memory) : applyStores m [] = m := rfl

@[simp] theorem applyStores_cons (m : Memory) (c : Host.Cell) (l : List Host.Cell) :
    applyStores m (c :: l) = applyStores (m.write c.1 c.2) l := rfl

theorem applyStores_append (m : Memory) (k l : List Host.Cell) : applyStores m (k ++ l) = applyStores (applyStores m k) l := by
  induction k generalizing m with
  | nil => rfl
  | cons c k ih => simp [ih]

theorem read_applyStores_of_not_mem (l : List Host.Cell) (x : Nat) (h : ∀ c ∈ l, c.1 ≠ x) (m : Memory) :
    (applyStores m l).read x = m.read x := by
  induction l generalizing m with
  | nil => rfl
  | cons c l ih =>
    rw [applyStores_cons, ih (fun d hd => h d (by simp [hd])), read_write_other _ _ _ (Ne.symm (h c (by simp)))]

theorem wf_applyStores (l : List Host.Cell) (h : ∀ c ∈ l, c.1 < Config.addressSpace) {m : Memory} (hm : Memory.wf m = true) :
    Memory.wf (applyStores m l) = true := by
  induction l generalizing m with
  | nil => exact hm
  | cons c l ih => exact ih (fun d hd => h d (by simp [hd])) (wf_write hm (h c (by simp)) c.2)

end Sys2Proof.Laws
end

