-- ==== Sys2Proof/Laws/State.lean ====
section
/-! SUPPORT. What each named update of the state does to each field and to each value derived from the configuration: one lemma per field
per update, true by `rfl`, so that no later proof unfolds a record update. -/

namespace Sys2Proof.Laws
open Sys2Proof.Machine

variable (s : State)

/-! ### `State.storeByte` -/

@[simp] theorem storeByte_arg0 (a : Nat) (b : Byte) : (s.storeByte a b).arg0 = s.arg0 := rfl
@[simp] theorem storeByte_arg1 (a : Nat) (b : Byte) : (s.storeByte a b).arg1 = s.arg1 := rfl
@[simp] theorem storeByte_arg2 (a : Nat) (b : Byte) : (s.storeByte a b).arg2 = s.arg2 := rfl
@[simp] theorem storeByte_arg3 (a : Nat) (b : Byte) : (s.storeByte a b).arg3 = s.arg3 := rfl
@[simp] theorem storeByte_res0 (a : Nat) (b : Byte) : (s.storeByte a b).res0 = s.res0 := rfl
@[simp] theorem storeByte_err (a : Nat) (b : Byte) : (s.storeByte a b).err = s.err := rfl
@[simp] theorem storeByte_fault (a : Nat) (b : Byte) : (s.storeByte a b).fault = s.fault := rfl
@[simp] theorem storeByte_wrOpen (a : Nat) (b : Byte) : (s.storeByte a b).wrOpen = s.wrOpen := rfl
@[simp] theorem storeByte_rdOpen (a : Nat) (b : Byte) : (s.storeByte a b).rdOpen = s.rdOpen := rfl
@[simp] theorem storeByte_suberr (a : Nat) (b : Byte) : (s.storeByte a b).suberr = s.suberr := rfl
@[simp] theorem storeByte_running (a : Nat) (b : Byte) : (s.storeByte a b).running = s.running := rfl
@[simp] theorem storeByte_cfg (a : Nat) (b : Byte) : (s.storeByte a b).cfg = s.cfg := rfl
@[simp] theorem storeByte_mcl (a : Nat) (b : Byte) : (s.storeByte a b).mcl = s.mcl := rfl
@[simp] theorem storeByte_wrAcc (a : Nat) (b : Byte) : (s.storeByte a b).wrAcc = s.wrAcc := rfl
@[simp] theorem storeByte_wrCnt (a : Nat) (b : Byte) : (s.storeByte a b).wrCnt = s.wrCnt := rfl
@[simp] theorem storeByte_wrBase (a : Nat) (b : Byte) : (s.storeByte a b).wrBase = s.wrBase := rfl
@[simp] theorem storeByte_wrPtr (a : Nat) (b : Byte) : (s.storeByte a b).wrPtr = s.wrPtr := rfl
@[simp] theorem storeByte_wrLimit (a : Nat) (b : Byte) : (s.storeByte a b).wrLimit = s.wrLimit := rfl
@[simp] theorem storeByte_rdLa (a : Nat) (b : Byte) : (s.storeByte a b).rdLa = s.rdLa := rfl
@[simp] theorem storeByte_rdLoaded (a : Nat) (b : Byte) : (s.storeByte a b).rdLoaded = s.rdLoaded := rfl
@[simp] theorem storeByte_rdCons (a : Nat) (b : Byte) : (s.storeByte a b).rdCons = s.rdCons := rfl
@[simp] theorem storeByte_rdBase (a : Nat) (b : Byte) : (s.storeByte a b).rdBase = s.rdBase := rfl
@[simp] theorem storeByte_rdPtr (a : Nat) (b : Byte) : (s.storeByte a b).rdPtr = s.rdPtr := rfl
@[simp] theorem storeByte_rdEnd (a : Nat) (b : Byte) : (s.storeByte a b).rdEnd = s.rdEnd := rfl
@[simp] theorem storeByte_stack (a : Nat) (b : Byte) : (s.storeByte a b).stack = s.stack := rfl
@[simp] theorem storeByte_stkHwm (a : Nat) (b : Byte) : (s.storeByte a b).stkHwm = s.stkHwm := rfl
@[simp] theorem storeByte_mem (a : Nat) (b : Byte) : (s.storeByte a b).mem = s.mem.write a b := rfl
@[simp] theorem storeByte_platform (a : Nat) (b : Byte) : (s.storeByte a b).platform = s.platform := rfl
@[simp] theorem storeByte_inbox (a : Nat) (b : Byte) : (s.storeByte a b).inbox = s.inbox := rfl
@[simp] theorem storeByte_readData (a : Nat) (b : Byte) : (s.storeByte a b).readData = s.readData := rfl
@[simp] theorem storeByte_freeCount (a : Nat) (b : Byte) : (s.storeByte a b).freeCount = s.freeCount := rfl
@[simp] theorem storeByte_storeTrace (a : Nat) (b : Byte) : (s.storeByte a b).storeTrace = (a, b) :: s.storeTrace := rfl
@[simp] theorem storeByte_isList (a : Nat) (b : Byte) : (s.storeByte a b).isList = s.isList := rfl
@[simp] theorem storeByte_elemWidth (a : Nat) (b : Byte) : (s.storeByte a b).elemWidth = s.elemWidth := rfl
@[simp] theorem storeByte_elemBytes (a : Nat) (b : Byte) : (s.storeByte a b).elemBytes = s.elemBytes := rfl
@[simp] theorem storeByte_ebw (a : Nat) (b : Byte) : (s.storeByte a b).ebw = s.ebw := rfl
@[simp] theorem storeByte_skipEff (a : Nat) (b : Byte) : (s.storeByte a b).skipEff = s.skipEff := rfl
@[simp] theorem storeByte_badConfig (a : Nat) (b : Byte) : (s.storeByte a b).badConfig = s.badConfig := rfl
@[simp] theorem storeByte_elemAddr (a : Nat) (b : Byte) (vbase idx : Nat) : (s.storeByte a b).elemAddr vbase idx = s.elemAddr vbase idx := rfl

/-! ### `State.pushed` -/

@[simp] theorem pushed_arg0 (c : BitCluster) : (s.pushed c).arg0 = s.arg0 := rfl
@[simp] theorem pushed_arg1 (c : BitCluster) : (s.pushed c).arg1 = s.arg1 := rfl
@[simp] theorem pushed_arg2 (c : BitCluster) : (s.pushed c).arg2 = s.arg2 := rfl
@[simp] theorem pushed_arg3 (c : BitCluster) : (s.pushed c).arg3 = s.arg3 := rfl
@[simp] theorem pushed_res0 (c : BitCluster) : (s.pushed c).res0 = s.res0 := rfl
@[simp] theorem pushed_err (c : BitCluster) : (s.pushed c).err = s.err := rfl
@[simp] theorem pushed_fault (c : BitCluster) : (s.pushed c).fault = s.fault := rfl
@[simp] theorem pushed_wrOpen (c : BitCluster) : (s.pushed c).wrOpen = s.wrOpen := rfl
@[simp] theorem pushed_rdOpen (c : BitCluster) : (s.pushed c).rdOpen = s.rdOpen := rfl
@[simp] theorem pushed_suberr (c : BitCluster) : (s.pushed c).suberr = s.suberr := rfl
@[simp] theorem pushed_running (c : BitCluster) : (s.pushed c).running = s.running := rfl
@[simp] theorem pushed_cfg (c : BitCluster) : (s.pushed c).cfg = s.cfg := rfl
@[simp] theorem pushed_mcl (c : BitCluster) : (s.pushed c).mcl = s.mcl := rfl
@[simp] theorem pushed_wrAcc (c : BitCluster) : (s.pushed c).wrAcc = s.wrAcc := rfl
@[simp] theorem pushed_wrCnt (c : BitCluster) : (s.pushed c).wrCnt = s.wrCnt := rfl
@[simp] theorem pushed_wrBase (c : BitCluster) : (s.pushed c).wrBase = s.wrBase := rfl
@[simp] theorem pushed_wrPtr (c : BitCluster) : (s.pushed c).wrPtr = s.wrPtr := rfl
@[simp] theorem pushed_wrLimit (c : BitCluster) : (s.pushed c).wrLimit = s.wrLimit := rfl
@[simp] theorem pushed_rdLa (c : BitCluster) : (s.pushed c).rdLa = s.rdLa := rfl
@[simp] theorem pushed_rdLoaded (c : BitCluster) : (s.pushed c).rdLoaded = s.rdLoaded := rfl
@[simp] theorem pushed_rdCons (c : BitCluster) : (s.pushed c).rdCons = s.rdCons := rfl
@[simp] theorem pushed_rdBase (c : BitCluster) : (s.pushed c).rdBase = s.rdBase := rfl
@[simp] theorem pushed_rdPtr (c : BitCluster) : (s.pushed c).rdPtr = s.rdPtr := rfl
@[simp] theorem pushed_rdEnd (c : BitCluster) : (s.pushed c).rdEnd = s.rdEnd := rfl
@[simp] theorem pushed_stack (c : BitCluster) : (s.pushed c).stack = c :: s.stack := rfl
@[simp] theorem pushed_stkHwm (c : BitCluster) : (s.pushed c).stkHwm = toCount (max s.stkHwm.toNat (s.stkSp + 1)) := rfl
@[simp] theorem pushed_mem (c : BitCluster) : (s.pushed c).mem = s.mem := rfl
@[simp] theorem pushed_platform (c : BitCluster) : (s.pushed c).platform = s.platform := rfl
@[simp] theorem pushed_inbox (c : BitCluster) : (s.pushed c).inbox = s.inbox := rfl
@[simp] theorem pushed_readData (c : BitCluster) : (s.pushed c).readData = s.readData := rfl
@[simp] theorem pushed_freeCount (c : BitCluster) : (s.pushed c).freeCount = s.freeCount := rfl
@[simp] theorem pushed_storeTrace (c : BitCluster) : (s.pushed c).storeTrace = s.storeTrace := rfl
@[simp] theorem pushed_isList (c : BitCluster) : (s.pushed c).isList = s.isList := rfl
@[simp] theorem pushed_elemWidth (c : BitCluster) : (s.pushed c).elemWidth = s.elemWidth := rfl
@[simp] theorem pushed_elemBytes (c : BitCluster) : (s.pushed c).elemBytes = s.elemBytes := rfl
@[simp] theorem pushed_ebw (c : BitCluster) : (s.pushed c).ebw = s.ebw := rfl
@[simp] theorem pushed_skipEff (c : BitCluster) : (s.pushed c).skipEff = s.skipEff := rfl
@[simp] theorem pushed_badConfig (c : BitCluster) : (s.pushed c).badConfig = s.badConfig := rfl
@[simp] theorem pushed_elemAddr (c : BitCluster) (vbase idx : Nat) : (s.pushed c).elemAddr vbase idx = s.elemAddr vbase idx := rfl

/-! ### `State.withStack` -/

@[simp] theorem withStack_arg0 (k : List BitCluster) : (s.withStack k).arg0 = s.arg0 := rfl
@[simp] theorem withStack_arg1 (k : List BitCluster) : (s.withStack k).arg1 = s.arg1 := rfl
@[simp] theorem withStack_arg2 (k : List BitCluster) : (s.withStack k).arg2 = s.arg2 := rfl
@[simp] theorem withStack_arg3 (k : List BitCluster) : (s.withStack k).arg3 = s.arg3 := rfl
@[simp] theorem withStack_res0 (k : List BitCluster) : (s.withStack k).res0 = s.res0 := rfl
@[simp] theorem withStack_err (k : List BitCluster) : (s.withStack k).err = s.err := rfl
@[simp] theorem withStack_fault (k : List BitCluster) : (s.withStack k).fault = s.fault := rfl
@[simp] theorem withStack_wrOpen (k : List BitCluster) : (s.withStack k).wrOpen = s.wrOpen := rfl
@[simp] theorem withStack_rdOpen (k : List BitCluster) : (s.withStack k).rdOpen = s.rdOpen := rfl
@[simp] theorem withStack_suberr (k : List BitCluster) : (s.withStack k).suberr = s.suberr := rfl
@[simp] theorem withStack_running (k : List BitCluster) : (s.withStack k).running = s.running := rfl
@[simp] theorem withStack_cfg (k : List BitCluster) : (s.withStack k).cfg = s.cfg := rfl
@[simp] theorem withStack_mcl (k : List BitCluster) : (s.withStack k).mcl = s.mcl := rfl
@[simp] theorem withStack_wrAcc (k : List BitCluster) : (s.withStack k).wrAcc = s.wrAcc := rfl
@[simp] theorem withStack_wrCnt (k : List BitCluster) : (s.withStack k).wrCnt = s.wrCnt := rfl
@[simp] theorem withStack_wrBase (k : List BitCluster) : (s.withStack k).wrBase = s.wrBase := rfl
@[simp] theorem withStack_wrPtr (k : List BitCluster) : (s.withStack k).wrPtr = s.wrPtr := rfl
@[simp] theorem withStack_wrLimit (k : List BitCluster) : (s.withStack k).wrLimit = s.wrLimit := rfl
@[simp] theorem withStack_rdLa (k : List BitCluster) : (s.withStack k).rdLa = s.rdLa := rfl
@[simp] theorem withStack_rdLoaded (k : List BitCluster) : (s.withStack k).rdLoaded = s.rdLoaded := rfl
@[simp] theorem withStack_rdCons (k : List BitCluster) : (s.withStack k).rdCons = s.rdCons := rfl
@[simp] theorem withStack_rdBase (k : List BitCluster) : (s.withStack k).rdBase = s.rdBase := rfl
@[simp] theorem withStack_rdPtr (k : List BitCluster) : (s.withStack k).rdPtr = s.rdPtr := rfl
@[simp] theorem withStack_rdEnd (k : List BitCluster) : (s.withStack k).rdEnd = s.rdEnd := rfl
@[simp] theorem withStack_stack (k : List BitCluster) : (s.withStack k).stack = k := rfl
@[simp] theorem withStack_stkHwm (k : List BitCluster) : (s.withStack k).stkHwm = s.stkHwm := rfl
@[simp] theorem withStack_mem (k : List BitCluster) : (s.withStack k).mem = s.mem := rfl
@[simp] theorem withStack_platform (k : List BitCluster) : (s.withStack k).platform = s.platform := rfl
@[simp] theorem withStack_inbox (k : List BitCluster) : (s.withStack k).inbox = s.inbox := rfl
@[simp] theorem withStack_readData (k : List BitCluster) : (s.withStack k).readData = s.readData := rfl
@[simp] theorem withStack_freeCount (k : List BitCluster) : (s.withStack k).freeCount = s.freeCount := rfl
@[simp] theorem withStack_storeTrace (k : List BitCluster) : (s.withStack k).storeTrace = s.storeTrace := rfl
@[simp] theorem withStack_isList (k : List BitCluster) : (s.withStack k).isList = s.isList := rfl
@[simp] theorem withStack_elemWidth (k : List BitCluster) : (s.withStack k).elemWidth = s.elemWidth := rfl
@[simp] theorem withStack_elemBytes (k : List BitCluster) : (s.withStack k).elemBytes = s.elemBytes := rfl
@[simp] theorem withStack_ebw (k : List BitCluster) : (s.withStack k).ebw = s.ebw := rfl
@[simp] theorem withStack_skipEff (k : List BitCluster) : (s.withStack k).skipEff = s.skipEff := rfl
@[simp] theorem withStack_badConfig (k : List BitCluster) : (s.withStack k).badConfig = s.badConfig := rfl
@[simp] theorem withStack_elemAddr (k : List BitCluster) (vbase idx : Nat) : (s.withStack k).elemAddr vbase idx = s.elemAddr vbase idx := rfl

/-! ### `State.withWriter` -/

@[simp] theorem withWriter_arg0 (p a : Word) (c : Count7) : (s.withWriter p a c).arg0 = s.arg0 := rfl
@[simp] theorem withWriter_arg1 (p a : Word) (c : Count7) : (s.withWriter p a c).arg1 = s.arg1 := rfl
@[simp] theorem withWriter_arg2 (p a : Word) (c : Count7) : (s.withWriter p a c).arg2 = s.arg2 := rfl
@[simp] theorem withWriter_arg3 (p a : Word) (c : Count7) : (s.withWriter p a c).arg3 = s.arg3 := rfl
@[simp] theorem withWriter_res0 (p a : Word) (c : Count7) : (s.withWriter p a c).res0 = s.res0 := rfl
@[simp] theorem withWriter_err (p a : Word) (c : Count7) : (s.withWriter p a c).err = s.err := rfl
@[simp] theorem withWriter_fault (p a : Word) (c : Count7) : (s.withWriter p a c).fault = s.fault := rfl
@[simp] theorem withWriter_wrOpen (p a : Word) (c : Count7) : (s.withWriter p a c).wrOpen = s.wrOpen := rfl
@[simp] theorem withWriter_rdOpen (p a : Word) (c : Count7) : (s.withWriter p a c).rdOpen = s.rdOpen := rfl
@[simp] theorem withWriter_suberr (p a : Word) (c : Count7) : (s.withWriter p a c).suberr = s.suberr := rfl
@[simp] theorem withWriter_running (p a : Word) (c : Count7) : (s.withWriter p a c).running = s.running := rfl
@[simp] theorem withWriter_cfg (p a : Word) (c : Count7) : (s.withWriter p a c).cfg = s.cfg := rfl
@[simp] theorem withWriter_mcl (p a : Word) (c : Count7) : (s.withWriter p a c).mcl = s.mcl := rfl
@[simp] theorem withWriter_wrAcc (p a : Word) (c : Count7) : (s.withWriter p a c).wrAcc = a := rfl
@[simp] theorem withWriter_wrCnt (p a : Word) (c : Count7) : (s.withWriter p a c).wrCnt = c := rfl
@[simp] theorem withWriter_wrBase (p a : Word) (c : Count7) : (s.withWriter p a c).wrBase = s.wrBase := rfl
@[simp] theorem withWriter_wrPtr (p a : Word) (c : Count7) : (s.withWriter p a c).wrPtr = p := rfl
@[simp] theorem withWriter_wrLimit (p a : Word) (c : Count7) : (s.withWriter p a c).wrLimit = s.wrLimit := rfl
@[simp] theorem withWriter_rdLa (p a : Word) (c : Count7) : (s.withWriter p a c).rdLa = s.rdLa := rfl
@[simp] theorem withWriter_rdLoaded (p a : Word) (c : Count7) : (s.withWriter p a c).rdLoaded = s.rdLoaded := rfl
@[simp] theorem withWriter_rdCons (p a : Word) (c : Count7) : (s.withWriter p a c).rdCons = s.rdCons := rfl
@[simp] theorem withWriter_rdBase (p a : Word) (c : Count7) : (s.withWriter p a c).rdBase = s.rdBase := rfl
@[simp] theorem withWriter_rdPtr (p a : Word) (c : Count7) : (s.withWriter p a c).rdPtr = s.rdPtr := rfl
@[simp] theorem withWriter_rdEnd (p a : Word) (c : Count7) : (s.withWriter p a c).rdEnd = s.rdEnd := rfl
@[simp] theorem withWriter_stack (p a : Word) (c : Count7) : (s.withWriter p a c).stack = s.stack := rfl
@[simp] theorem withWriter_stkHwm (p a : Word) (c : Count7) : (s.withWriter p a c).stkHwm = s.stkHwm := rfl
@[simp] theorem withWriter_mem (p a : Word) (c : Count7) : (s.withWriter p a c).mem = s.mem := rfl
@[simp] theorem withWriter_platform (p a : Word) (c : Count7) : (s.withWriter p a c).platform = s.platform := rfl
@[simp] theorem withWriter_inbox (p a : Word) (c : Count7) : (s.withWriter p a c).inbox = s.inbox := rfl
@[simp] theorem withWriter_readData (p a : Word) (c : Count7) : (s.withWriter p a c).readData = s.readData := rfl
@[simp] theorem withWriter_freeCount (p a : Word) (c : Count7) : (s.withWriter p a c).freeCount = s.freeCount := rfl
@[simp] theorem withWriter_storeTrace (p a : Word) (c : Count7) : (s.withWriter p a c).storeTrace = s.storeTrace := rfl
@[simp] theorem withWriter_isList (p a : Word) (c : Count7) : (s.withWriter p a c).isList = s.isList := rfl
@[simp] theorem withWriter_elemWidth (p a : Word) (c : Count7) : (s.withWriter p a c).elemWidth = s.elemWidth := rfl
@[simp] theorem withWriter_elemBytes (p a : Word) (c : Count7) : (s.withWriter p a c).elemBytes = s.elemBytes := rfl
@[simp] theorem withWriter_ebw (p a : Word) (c : Count7) : (s.withWriter p a c).ebw = s.ebw := rfl
@[simp] theorem withWriter_skipEff (p a : Word) (c : Count7) : (s.withWriter p a c).skipEff = s.skipEff := rfl
@[simp] theorem withWriter_badConfig (p a : Word) (c : Count7) : (s.withWriter p a c).badConfig = s.badConfig := rfl
@[simp] theorem withWriter_elemAddr (p a : Word) (c : Count7) (vbase idx : Nat) : (s.withWriter p a c).elemAddr vbase idx = s.elemAddr vbase idx := rfl

/-! ### `State.merged` -/

@[simp] theorem merged_arg0 (v n : Nat) : (s.merged v n).arg0 = s.arg0 := rfl
@[simp] theorem merged_arg1 (v n : Nat) : (s.merged v n).arg1 = s.arg1 := rfl
@[simp] theorem merged_arg2 (v n : Nat) : (s.merged v n).arg2 = s.arg2 := rfl
@[simp] theorem merged_arg3 (v n : Nat) : (s.merged v n).arg3 = s.arg3 := rfl
@[simp] theorem merged_res0 (v n : Nat) : (s.merged v n).res0 = s.res0 := rfl
@[simp] theorem merged_err (v n : Nat) : (s.merged v n).err = s.err := rfl
@[simp] theorem merged_fault (v n : Nat) : (s.merged v n).fault = s.fault := rfl
@[simp] theorem merged_wrOpen (v n : Nat) : (s.merged v n).wrOpen = s.wrOpen := rfl
@[simp] theorem merged_rdOpen (v n : Nat) : (s.merged v n).rdOpen = s.rdOpen := rfl
@[simp] theorem merged_suberr (v n : Nat) : (s.merged v n).suberr = s.suberr := rfl
@[simp] theorem merged_running (v n : Nat) : (s.merged v n).running = s.running := rfl
@[simp] theorem merged_cfg (v n : Nat) : (s.merged v n).cfg = s.cfg := rfl
@[simp] theorem merged_mcl (v n : Nat) : (s.merged v n).mcl = s.mcl := rfl
@[simp] theorem merged_wrAcc (v n : Nat) : (s.merged v n).wrAcc = (s.wrAcc ||| toWord ((v &&& sizeMask n) <<< s.wrCnt.toNat)) := rfl
@[simp] theorem merged_wrCnt (v n : Nat) : (s.merged v n).wrCnt = toCount (s.wrCnt.toNat + n) := rfl
@[simp] theorem merged_wrBase (v n : Nat) : (s.merged v n).wrBase = s.wrBase := rfl
@[simp] theorem merged_wrPtr (v n : Nat) : (s.merged v n).wrPtr = s.wrPtr := rfl
@[simp] theorem merged_wrLimit (v n : Nat) : (s.merged v n).wrLimit = s.wrLimit := rfl
@[simp] theorem merged_rdLa (v n : Nat) : (s.merged v n).rdLa = s.rdLa := rfl
@[simp] theorem merged_rdLoaded (v n : Nat) : (s.merged v n).rdLoaded = s.rdLoaded := rfl
@[simp] theorem merged_rdCons (v n : Nat) : (s.merged v n).rdCons = s.rdCons := rfl
@[simp] theorem merged_rdBase (v n : Nat) : (s.merged v n).rdBase = s.rdBase := rfl
@[simp] theorem merged_rdPtr (v n : Nat) : (s.merged v n).rdPtr = s.rdPtr := rfl
@[simp] theorem merged_rdEnd (v n : Nat) : (s.merged v n).rdEnd = s.rdEnd := rfl
@[simp] theorem merged_stack (v n : Nat) : (s.merged v n).stack = s.stack := rfl
@[simp] theorem merged_stkHwm (v n : Nat) : (s.merged v n).stkHwm = s.stkHwm := rfl
@[simp] theorem merged_mem (v n : Nat) : (s.merged v n).mem = s.mem := rfl
@[simp] theorem merged_platform (v n : Nat) : (s.merged v n).platform = s.platform := rfl
@[simp] theorem merged_inbox (v n : Nat) : (s.merged v n).inbox = s.inbox := rfl
@[simp] theorem merged_readData (v n : Nat) : (s.merged v n).readData = s.readData := rfl
@[simp] theorem merged_freeCount (v n : Nat) : (s.merged v n).freeCount = s.freeCount := rfl
@[simp] theorem merged_storeTrace (v n : Nat) : (s.merged v n).storeTrace = s.storeTrace := rfl
@[simp] theorem merged_isList (v n : Nat) : (s.merged v n).isList = s.isList := rfl
@[simp] theorem merged_elemWidth (v n : Nat) : (s.merged v n).elemWidth = s.elemWidth := rfl
@[simp] theorem merged_elemBytes (v n : Nat) : (s.merged v n).elemBytes = s.elemBytes := rfl
@[simp] theorem merged_ebw (v n : Nat) : (s.merged v n).ebw = s.ebw := rfl
@[simp] theorem merged_skipEff (v n : Nat) : (s.merged v n).skipEff = s.skipEff := rfl
@[simp] theorem merged_badConfig (v n : Nat) : (s.merged v n).badConfig = s.badConfig := rfl
@[simp] theorem merged_elemAddr (v n : Nat) (vbase idx : Nat) : (s.merged v n).elemAddr vbase idx = s.elemAddr vbase idx := rfl

/-! ### `State.flushed` -/

@[simp] theorem flushed_arg0 (nb : Nat) : (s.flushed nb).arg0 = s.arg0 := rfl
@[simp] theorem flushed_arg1 (nb : Nat) : (s.flushed nb).arg1 = s.arg1 := rfl
@[simp] theorem flushed_arg2 (nb : Nat) : (s.flushed nb).arg2 = s.arg2 := rfl
@[simp] theorem flushed_arg3 (nb : Nat) : (s.flushed nb).arg3 = s.arg3 := rfl
@[simp] theorem flushed_res0 (nb : Nat) : (s.flushed nb).res0 = s.res0 := rfl
@[simp] theorem flushed_err (nb : Nat) : (s.flushed nb).err = s.err := rfl
@[simp] theorem flushed_fault (nb : Nat) : (s.flushed nb).fault = s.fault := rfl
@[simp] theorem flushed_wrOpen (nb : Nat) : (s.flushed nb).wrOpen = s.wrOpen := rfl
@[simp] theorem flushed_rdOpen (nb : Nat) : (s.flushed nb).rdOpen = s.rdOpen := rfl
@[simp] theorem flushed_suberr (nb : Nat) : (s.flushed nb).suberr = s.suberr := rfl
@[simp] theorem flushed_running (nb : Nat) : (s.flushed nb).running = s.running := rfl
@[simp] theorem flushed_cfg (nb : Nat) : (s.flushed nb).cfg = s.cfg := rfl
@[simp] theorem flushed_mcl (nb : Nat) : (s.flushed nb).mcl = s.mcl := rfl
@[simp] theorem flushed_wrAcc (nb : Nat) : (s.flushed nb).wrAcc = s.wrAcc >>> (8 * nb) := rfl
@[simp] theorem flushed_wrCnt (nb : Nat) : (s.flushed nb).wrCnt = s.wrCnt &&& 7 := rfl
@[simp] theorem flushed_wrBase (nb : Nat) : (s.flushed nb).wrBase = s.wrBase := rfl
@[simp] theorem flushed_wrPtr (nb : Nat) : (s.flushed nb).wrPtr = toWord (s.wrPtr.toNat + nb) := rfl
@[simp] theorem flushed_wrLimit (nb : Nat) : (s.flushed nb).wrLimit = s.wrLimit := rfl
@[simp] theorem flushed_rdLa (nb : Nat) : (s.flushed nb).rdLa = s.rdLa := rfl
@[simp] theorem flushed_rdLoaded (nb : Nat) : (s.flushed nb).rdLoaded = s.rdLoaded := rfl
@[simp] theorem flushed_rdCons (nb : Nat) : (s.flushed nb).rdCons = s.rdCons := rfl
@[simp] theorem flushed_rdBase (nb : Nat) : (s.flushed nb).rdBase = s.rdBase := rfl
@[simp] theorem flushed_rdPtr (nb : Nat) : (s.flushed nb).rdPtr = s.rdPtr := rfl
@[simp] theorem flushed_rdEnd (nb : Nat) : (s.flushed nb).rdEnd = s.rdEnd := rfl
@[simp] theorem flushed_stack (nb : Nat) : (s.flushed nb).stack = s.stack := rfl
@[simp] theorem flushed_stkHwm (nb : Nat) : (s.flushed nb).stkHwm = s.stkHwm := rfl
@[simp] theorem flushed_mem (nb : Nat) : (s.flushed nb).mem = s.mem := rfl
@[simp] theorem flushed_platform (nb : Nat) : (s.flushed nb).platform = s.platform := rfl
@[simp] theorem flushed_inbox (nb : Nat) : (s.flushed nb).inbox = s.inbox := rfl
@[simp] theorem flushed_readData (nb : Nat) : (s.flushed nb).readData = s.readData := rfl
@[simp] theorem flushed_freeCount (nb : Nat) : (s.flushed nb).freeCount = s.freeCount := rfl
@[simp] theorem flushed_storeTrace (nb : Nat) : (s.flushed nb).storeTrace = s.storeTrace := rfl
@[simp] theorem flushed_isList (nb : Nat) : (s.flushed nb).isList = s.isList := rfl
@[simp] theorem flushed_elemWidth (nb : Nat) : (s.flushed nb).elemWidth = s.elemWidth := rfl
@[simp] theorem flushed_elemBytes (nb : Nat) : (s.flushed nb).elemBytes = s.elemBytes := rfl
@[simp] theorem flushed_ebw (nb : Nat) : (s.flushed nb).ebw = s.ebw := rfl
@[simp] theorem flushed_skipEff (nb : Nat) : (s.flushed nb).skipEff = s.skipEff := rfl
@[simp] theorem flushed_badConfig (nb : Nat) : (s.flushed nb).badConfig = s.badConfig := rfl
@[simp] theorem flushed_elemAddr (nb : Nat) (vbase idx : Nat) : (s.flushed nb).elemAddr vbase idx = s.elemAddr vbase idx := rfl

/-! ### `State.writerInitialised` -/

@[simp] theorem writerInitialised_arg0 (b c : Nat) : (s.writerInitialised b c).arg0 = s.arg0 := rfl
@[simp] theorem writerInitialised_arg1 (b c : Nat) : (s.writerInitialised b c).arg1 = s.arg1 := rfl
@[simp] theorem writerInitialised_arg2 (b c : Nat) : (s.writerInitialised b c).arg2 = s.arg2 := rfl
@[simp] theorem writerInitialised_arg3 (b c : Nat) : (s.writerInitialised b c).arg3 = s.arg3 := rfl
@[simp] theorem writerInitialised_res0 (b c : Nat) : (s.writerInitialised b c).res0 = s.res0 := rfl
@[simp] theorem writerInitialised_err (b c : Nat) : (s.writerInitialised b c).err = s.err := rfl
@[simp] theorem writerInitialised_fault (b c : Nat) : (s.writerInitialised b c).fault = s.fault := rfl
@[simp] theorem writerInitialised_wrOpen (b c : Nat) : (s.writerInitialised b c).wrOpen = true := rfl
@[simp] theorem writerInitialised_rdOpen (b c : Nat) : (s.writerInitialised b c).rdOpen = s.rdOpen := rfl
@[simp] theorem writerInitialised_suberr (b c : Nat) : (s.writerInitialised b c).suberr = s.suberr := rfl
@[simp] theorem writerInitialised_running (b c : Nat) : (s.writerInitialised b c).running = s.running := rfl
@[simp] theorem writerInitialised_cfg (b c : Nat) : (s.writerInitialised b c).cfg = s.cfg := rfl
@[simp] theorem writerInitialised_mcl (b c : Nat) : (s.writerInitialised b c).mcl = s.mcl := rfl
@[simp] theorem writerInitialised_wrAcc (b c : Nat) : (s.writerInitialised b c).wrAcc = 0 := rfl
@[simp] theorem writerInitialised_wrCnt (b c : Nat) : (s.writerInitialised b c).wrCnt = 0 := rfl
@[simp] theorem writerInitialised_wrBase (b c : Nat) : (s.writerInitialised b c).wrBase = toWord b := rfl
@[simp] theorem writerInitialised_wrPtr (b c : Nat) : (s.writerInitialised b c).wrPtr = toWord b := rfl
@[simp] theorem writerInitialised_wrLimit (b c : Nat) : (s.writerInitialised b c).wrLimit = toWord (b + c - Config.minCap) := rfl
@[simp] theorem writerInitialised_rdLa (b c : Nat) : (s.writerInitialised b c).rdLa = s.rdLa := rfl
@[simp] theorem writerInitialised_rdLoaded (b c : Nat) : (s.writerInitialised b c).rdLoaded = s.rdLoaded := rfl
@[simp] theorem writerInitialised_rdCons (b c : Nat) : (s.writerInitialised b c).rdCons = s.rdCons := rfl
@[simp] theorem writerInitialised_rdBase (b c : Nat) : (s.writerInitialised b c).rdBase = s.rdBase := rfl
@[simp] theorem writerInitialised_rdPtr (b c : Nat) : (s.writerInitialised b c).rdPtr = s.rdPtr := rfl
@[simp] theorem writerInitialised_rdEnd (b c : Nat) : (s.writerInitialised b c).rdEnd = s.rdEnd := rfl
@[simp] theorem writerInitialised_stack (b c : Nat) : (s.writerInitialised b c).stack = s.stack := rfl
@[simp] theorem writerInitialised_stkHwm (b c : Nat) : (s.writerInitialised b c).stkHwm = s.stkHwm := rfl
@[simp] theorem writerInitialised_mem (b c : Nat) : (s.writerInitialised b c).mem = s.mem := rfl
@[simp] theorem writerInitialised_platform (b c : Nat) : (s.writerInitialised b c).platform = s.platform := rfl
@[simp] theorem writerInitialised_inbox (b c : Nat) : (s.writerInitialised b c).inbox = s.inbox := rfl
@[simp] theorem writerInitialised_readData (b c : Nat) : (s.writerInitialised b c).readData = s.readData := rfl
@[simp] theorem writerInitialised_freeCount (b c : Nat) : (s.writerInitialised b c).freeCount = s.freeCount := rfl
@[simp] theorem writerInitialised_storeTrace (b c : Nat) : (s.writerInitialised b c).storeTrace = s.storeTrace := rfl
@[simp] theorem writerInitialised_isList (b c : Nat) : (s.writerInitialised b c).isList = s.isList := rfl
@[simp] theorem writerInitialised_elemWidth (b c : Nat) : (s.writerInitialised b c).elemWidth = s.elemWidth := rfl
@[simp] theorem writerInitialised_elemBytes (b c : Nat) : (s.writerInitialised b c).elemBytes = s.elemBytes := rfl
@[simp] theorem writerInitialised_ebw (b c : Nat) : (s.writerInitialised b c).ebw = s.ebw := rfl
@[simp] theorem writerInitialised_skipEff (b c : Nat) : (s.writerInitialised b c).skipEff = s.skipEff := rfl
@[simp] theorem writerInitialised_badConfig (b c : Nat) : (s.writerInitialised b c).badConfig = s.badConfig := rfl
@[simp] theorem writerInitialised_elemAddr (b c : Nat) (vbase idx : Nat) : (s.writerInitialised b c).elemAddr vbase idx = s.elemAddr vbase idx := rfl

/-! ### `State.readerInitialised` -/

@[simp] theorem readerInitialised_arg0 (b l : Nat) : (s.readerInitialised b l).arg0 = s.arg0 := rfl
@[simp] theorem readerInitialised_arg1 (b l : Nat) : (s.readerInitialised b l).arg1 = s.arg1 := rfl
@[simp] theorem readerInitialised_arg2 (b l : Nat) : (s.readerInitialised b l).arg2 = s.arg2 := rfl
@[simp] theorem readerInitialised_arg3 (b l : Nat) : (s.readerInitialised b l).arg3 = s.arg3 := rfl
@[simp] theorem readerInitialised_res0 (b l : Nat) : (s.readerInitialised b l).res0 = s.res0 := rfl
@[simp] theorem readerInitialised_err (b l : Nat) : (s.readerInitialised b l).err = s.err := rfl
@[simp] theorem readerInitialised_fault (b l : Nat) : (s.readerInitialised b l).fault = s.fault := rfl
@[simp] theorem readerInitialised_wrOpen (b l : Nat) : (s.readerInitialised b l).wrOpen = s.wrOpen := rfl
@[simp] theorem readerInitialised_rdOpen (b l : Nat) : (s.readerInitialised b l).rdOpen = true := rfl
@[simp] theorem readerInitialised_suberr (b l : Nat) : (s.readerInitialised b l).suberr = s.suberr := rfl
@[simp] theorem readerInitialised_running (b l : Nat) : (s.readerInitialised b l).running = s.running := rfl
@[simp] theorem readerInitialised_cfg (b l : Nat) : (s.readerInitialised b l).cfg = s.cfg := rfl
@[simp] theorem readerInitialised_mcl (b l : Nat) : (s.readerInitialised b l).mcl = s.mcl := rfl
@[simp] theorem readerInitialised_wrAcc (b l : Nat) : (s.readerInitialised b l).wrAcc = s.wrAcc := rfl
@[simp] theorem readerInitialised_wrCnt (b l : Nat) : (s.readerInitialised b l).wrCnt = s.wrCnt := rfl
@[simp] theorem readerInitialised_wrBase (b l : Nat) : (s.readerInitialised b l).wrBase = s.wrBase := rfl
@[simp] theorem readerInitialised_wrPtr (b l : Nat) : (s.readerInitialised b l).wrPtr = s.wrPtr := rfl
@[simp] theorem readerInitialised_wrLimit (b l : Nat) : (s.readerInitialised b l).wrLimit = s.wrLimit := rfl
@[simp] theorem readerInitialised_rdLa (b l : Nat) : (s.readerInitialised b l).rdLa = 0 := rfl
@[simp] theorem readerInitialised_rdLoaded (b l : Nat) : (s.readerInitialised b l).rdLoaded = 0 := rfl
@[simp] theorem readerInitialised_rdCons (b l : Nat) : (s.readerInitialised b l).rdCons = 0 := rfl
@[simp] theorem readerInitialised_rdBase (b l : Nat) : (s.readerInitialised b l).rdBase = toWord b := rfl
@[simp] theorem readerInitialised_rdPtr (b l : Nat) : (s.readerInitialised b l).rdPtr = toWord b := rfl
@[simp] theorem readerInitialised_rdEnd (b l : Nat) : (s.readerInitialised b l).rdEnd = toWord (b + l) := rfl
@[simp] theorem readerInitialised_stack (b l : Nat) : (s.readerInitialised b l).stack = s.stack := rfl
@[simp] theorem readerInitialised_stkHwm (b l : Nat) : (s.readerInitialised b l).stkHwm = s.stkHwm := rfl
@[simp] theorem readerInitialised_mem (b l : Nat) : (s.readerInitialised b l).mem = s.mem := rfl
@[simp] theorem readerInitialised_platform (b l : Nat) : (s.readerInitialised b l).platform = s.platform := rfl
@[simp] theorem readerInitialised_inbox (b l : Nat) : (s.readerInitialised b l).inbox = s.inbox := rfl
@[simp] theorem readerInitialised_readData (b l : Nat) : (s.readerInitialised b l).readData = s.readData := rfl
@[simp] theorem readerInitialised_freeCount (b l : Nat) : (s.readerInitialised b l).freeCount = s.freeCount := rfl
@[simp] theorem readerInitialised_storeTrace (b l : Nat) : (s.readerInitialised b l).storeTrace = s.storeTrace := rfl
@[simp] theorem readerInitialised_isList (b l : Nat) : (s.readerInitialised b l).isList = s.isList := rfl
@[simp] theorem readerInitialised_elemWidth (b l : Nat) : (s.readerInitialised b l).elemWidth = s.elemWidth := rfl
@[simp] theorem readerInitialised_elemBytes (b l : Nat) : (s.readerInitialised b l).elemBytes = s.elemBytes := rfl
@[simp] theorem readerInitialised_ebw (b l : Nat) : (s.readerInitialised b l).ebw = s.ebw := rfl
@[simp] theorem readerInitialised_skipEff (b l : Nat) : (s.readerInitialised b l).skipEff = s.skipEff := rfl
@[simp] theorem readerInitialised_badConfig (b l : Nat) : (s.readerInitialised b l).badConfig = s.badConfig := rfl
@[simp] theorem readerInitialised_elemAddr (b l : Nat) (vbase idx : Nat) : (s.readerInitialised b l).elemAddr vbase idx = s.elemAddr vbase idx := rfl

/-! ### `State.loaded` -/

@[simp] theorem loaded_arg0 (p k la : Nat) : (s.loaded p k la).arg0 = s.arg0 := rfl
@[simp] theorem loaded_arg1 (p k la : Nat) : (s.loaded p k la).arg1 = s.arg1 := rfl
@[simp] theorem loaded_arg2 (p k la : Nat) : (s.loaded p k la).arg2 = s.arg2 := rfl
@[simp] theorem loaded_arg3 (p k la : Nat) : (s.loaded p k la).arg3 = s.arg3 := rfl
@[simp] theorem loaded_res0 (p k la : Nat) : (s.loaded p k la).res0 = s.res0 := rfl
@[simp] theorem loaded_err (p k la : Nat) : (s.loaded p k la).err = s.err := rfl
@[simp] theorem loaded_fault (p k la : Nat) : (s.loaded p k la).fault = s.fault := rfl
@[simp] theorem loaded_wrOpen (p k la : Nat) : (s.loaded p k la).wrOpen = s.wrOpen := rfl
@[simp] theorem loaded_rdOpen (p k la : Nat) : (s.loaded p k la).rdOpen = s.rdOpen := rfl
@[simp] theorem loaded_suberr (p k la : Nat) : (s.loaded p k la).suberr = s.suberr := rfl
@[simp] theorem loaded_running (p k la : Nat) : (s.loaded p k la).running = s.running := rfl
@[simp] theorem loaded_cfg (p k la : Nat) : (s.loaded p k la).cfg = s.cfg := rfl
@[simp] theorem loaded_mcl (p k la : Nat) : (s.loaded p k la).mcl = s.mcl := rfl
@[simp] theorem loaded_wrAcc (p k la : Nat) : (s.loaded p k la).wrAcc = s.wrAcc := rfl
@[simp] theorem loaded_wrCnt (p k la : Nat) : (s.loaded p k la).wrCnt = s.wrCnt := rfl
@[simp] theorem loaded_wrBase (p k la : Nat) : (s.loaded p k la).wrBase = s.wrBase := rfl
@[simp] theorem loaded_wrPtr (p k la : Nat) : (s.loaded p k la).wrPtr = s.wrPtr := rfl
@[simp] theorem loaded_wrLimit (p k la : Nat) : (s.loaded p k la).wrLimit = s.wrLimit := rfl
@[simp] theorem loaded_rdLa (p k la : Nat) : (s.loaded p k la).rdLa = toWord la := rfl
@[simp] theorem loaded_rdLoaded (p k la : Nat) : (s.loaded p k la).rdLoaded = toCount (8 * k) := rfl
@[simp] theorem loaded_rdCons (p k la : Nat) : (s.loaded p k la).rdCons = s.rdCons &&& 7 := rfl
@[simp] theorem loaded_rdBase (p k la : Nat) : (s.loaded p k la).rdBase = s.rdBase := rfl
@[simp] theorem loaded_rdPtr (p k la : Nat) : (s.loaded p k la).rdPtr = toWord p := rfl
@[simp] theorem loaded_rdEnd (p k la : Nat) : (s.loaded p k la).rdEnd = s.rdEnd := rfl
@[simp] theorem loaded_stack (p k la : Nat) : (s.loaded p k la).stack = s.stack := rfl
@[simp] theorem loaded_stkHwm (p k la : Nat) : (s.loaded p k la).stkHwm = s.stkHwm := rfl
@[simp] theorem loaded_mem (p k la : Nat) : (s.loaded p k la).mem = s.mem := rfl
@[simp] theorem loaded_platform (p k la : Nat) : (s.loaded p k la).platform = s.platform := rfl
@[simp] theorem loaded_inbox (p k la : Nat) : (s.loaded p k la).inbox = s.inbox := rfl
@[simp] theorem loaded_readData (p k la : Nat) : (s.loaded p k la).readData = s.readData := rfl
@[simp] theorem loaded_freeCount (p k la : Nat) : (s.loaded p k la).freeCount = s.freeCount := rfl
@[simp] theorem loaded_storeTrace (p k la : Nat) : (s.loaded p k la).storeTrace = s.storeTrace := rfl
@[simp] theorem loaded_isList (p k la : Nat) : (s.loaded p k la).isList = s.isList := rfl
@[simp] theorem loaded_elemWidth (p k la : Nat) : (s.loaded p k la).elemWidth = s.elemWidth := rfl
@[simp] theorem loaded_elemBytes (p k la : Nat) : (s.loaded p k la).elemBytes = s.elemBytes := rfl
@[simp] theorem loaded_ebw (p k la : Nat) : (s.loaded p k la).ebw = s.ebw := rfl
@[simp] theorem loaded_skipEff (p k la : Nat) : (s.loaded p k la).skipEff = s.skipEff := rfl
@[simp] theorem loaded_badConfig (p k la : Nat) : (s.loaded p k la).badConfig = s.badConfig := rfl
@[simp] theorem loaded_elemAddr (p k la : Nat) (vbase idx : Nat) : (s.loaded p k la).elemAddr vbase idx = s.elemAddr vbase idx := rfl

/-! ### `State.consumed` -/

@[simp] theorem consumed_arg0 (n : Nat) : (s.consumed n).arg0 = s.arg0 := rfl
@[simp] theorem consumed_arg1 (n : Nat) : (s.consumed n).arg1 = s.arg1 := rfl
@[simp] theorem consumed_arg2 (n : Nat) : (s.consumed n).arg2 = s.arg2 := rfl
@[simp] theorem consumed_arg3 (n : Nat) : (s.consumed n).arg3 = s.arg3 := rfl
@[simp] theorem consumed_res0 (n : Nat) : (s.consumed n).res0 = s.res0 := rfl
@[simp] theorem consumed_err (n : Nat) : (s.consumed n).err = s.err := rfl
@[simp] theorem consumed_fault (n : Nat) : (s.consumed n).fault = s.fault := rfl
@[simp] theorem consumed_wrOpen (n : Nat) : (s.consumed n).wrOpen = s.wrOpen := rfl
@[simp] theorem consumed_rdOpen (n : Nat) : (s.consumed n).rdOpen = s.rdOpen := rfl
@[simp] theorem consumed_suberr (n : Nat) : (s.consumed n).suberr = s.suberr := rfl
@[simp] theorem consumed_running (n : Nat) : (s.consumed n).running = s.running := rfl
@[simp] theorem consumed_cfg (n : Nat) : (s.consumed n).cfg = s.cfg := rfl
@[simp] theorem consumed_mcl (n : Nat) : (s.consumed n).mcl = s.mcl := rfl
@[simp] theorem consumed_wrAcc (n : Nat) : (s.consumed n).wrAcc = s.wrAcc := rfl
@[simp] theorem consumed_wrCnt (n : Nat) : (s.consumed n).wrCnt = s.wrCnt := rfl
@[simp] theorem consumed_wrBase (n : Nat) : (s.consumed n).wrBase = s.wrBase := rfl
@[simp] theorem consumed_wrPtr (n : Nat) : (s.consumed n).wrPtr = s.wrPtr := rfl
@[simp] theorem consumed_wrLimit (n : Nat) : (s.consumed n).wrLimit = s.wrLimit := rfl
@[simp] theorem consumed_rdLa (n : Nat) : (s.consumed n).rdLa = s.rdLa := rfl
@[simp] theorem consumed_rdLoaded (n : Nat) : (s.consumed n).rdLoaded = s.rdLoaded := rfl
@[simp] theorem consumed_rdCons (n : Nat) : (s.consumed n).rdCons = toCount (s.rdCons.toNat + n) := rfl
@[simp] theorem consumed_rdBase (n : Nat) : (s.consumed n).rdBase = s.rdBase := rfl
@[simp] theorem consumed_rdPtr (n : Nat) : (s.consumed n).rdPtr = s.rdPtr := rfl
@[simp] theorem consumed_rdEnd (n : Nat) : (s.consumed n).rdEnd = s.rdEnd := rfl
@[simp] theorem consumed_stack (n : Nat) : (s.consumed n).stack = s.stack := rfl
@[simp] theorem consumed_stkHwm (n : Nat) : (s.consumed n).stkHwm = s.stkHwm := rfl
@[simp] theorem consumed_mem (n : Nat) : (s.consumed n).mem = s.mem := rfl
@[simp] theorem consumed_platform (n : Nat) : (s.consumed n).platform = s.platform := rfl
@[simp] theorem consumed_inbox (n : Nat) : (s.consumed n).inbox = s.inbox := rfl
@[simp] theorem consumed_readData (n : Nat) : (s.consumed n).readData = s.readData := rfl
@[simp] theorem consumed_freeCount (n : Nat) : (s.consumed n).freeCount = s.freeCount := rfl
@[simp] theorem consumed_storeTrace (n : Nat) : (s.consumed n).storeTrace = s.storeTrace := rfl
@[simp] theorem consumed_isList (n : Nat) : (s.consumed n).isList = s.isList := rfl
@[simp] theorem consumed_elemWidth (n : Nat) : (s.consumed n).elemWidth = s.elemWidth := rfl
@[simp] theorem consumed_elemBytes (n : Nat) : (s.consumed n).elemBytes = s.elemBytes := rfl
@[simp] theorem consumed_ebw (n : Nat) : (s.consumed n).ebw = s.ebw := rfl
@[simp] theorem consumed_skipEff (n : Nat) : (s.consumed n).skipEff = s.skipEff := rfl
@[simp] theorem consumed_badConfig (n : Nat) : (s.consumed n).badConfig = s.badConfig := rfl
@[simp] theorem consumed_elemAddr (n : Nat) (vbase idx : Nat) : (s.consumed n).elemAddr vbase idx = s.elemAddr vbase idx := rfl

/-! ### `State.started` -/

@[simp] theorem started_arg0 : s.started.arg0 = s.arg0 := rfl
@[simp] theorem started_arg1 : s.started.arg1 = s.arg1 := rfl
@[simp] theorem started_arg2 : s.started.arg2 = s.arg2 := rfl
@[simp] theorem started_arg3 : s.started.arg3 = s.arg3 := rfl
@[simp] theorem started_res0 : s.started.res0 = s.res0 := rfl
@[simp] theorem started_err : s.started.err = s.err := rfl
@[simp] theorem started_fault : s.started.fault = s.fault := rfl
@[simp] theorem started_wrOpen : s.started.wrOpen = s.wrOpen := rfl
@[simp] theorem started_rdOpen : s.started.rdOpen = s.rdOpen := rfl
@[simp] theorem started_suberr : s.started.suberr = s.suberr := rfl
@[simp] theorem started_running : s.started.running = s.running := rfl
@[simp] theorem started_cfg : s.started.cfg = s.cfg := rfl
@[simp] theorem started_mcl : s.started.mcl = s.mcl := rfl
@[simp] theorem started_wrAcc : s.started.wrAcc = s.wrAcc := rfl
@[simp] theorem started_wrCnt : s.started.wrCnt = s.wrCnt := rfl
@[simp] theorem started_wrBase : s.started.wrBase = s.wrBase := rfl
@[simp] theorem started_wrPtr : s.started.wrPtr = s.wrPtr := rfl
@[simp] theorem started_wrLimit : s.started.wrLimit = s.wrLimit := rfl
@[simp] theorem started_rdLa : s.started.rdLa = s.rdLa := rfl
@[simp] theorem started_rdLoaded : s.started.rdLoaded = s.rdLoaded := rfl
@[simp] theorem started_rdCons : s.started.rdCons = s.rdCons := rfl
@[simp] theorem started_rdBase : s.started.rdBase = s.rdBase := rfl
@[simp] theorem started_rdPtr : s.started.rdPtr = s.rdPtr := rfl
@[simp] theorem started_rdEnd : s.started.rdEnd = s.rdEnd := rfl
@[simp] theorem started_stack : s.started.stack = s.stack := rfl
@[simp] theorem started_stkHwm : s.started.stkHwm = s.stkHwm := rfl
@[simp] theorem started_mem : s.started.mem = s.mem := rfl
@[simp] theorem started_platform : s.started.platform = s.platform := rfl
@[simp] theorem started_inbox : s.started.inbox = s.inbox := rfl
@[simp] theorem started_readData : s.started.readData = s.readData := rfl
@[simp] theorem started_freeCount : s.started.freeCount = s.freeCount := rfl
@[simp] theorem started_storeTrace : s.started.storeTrace = [] := rfl
@[simp] theorem started_isList : s.started.isList = s.isList := rfl
@[simp] theorem started_elemWidth : s.started.elemWidth = s.elemWidth := rfl
@[simp] theorem started_elemBytes : s.started.elemBytes = s.elemBytes := rfl
@[simp] theorem started_ebw : s.started.ebw = s.ebw := rfl
@[simp] theorem started_skipEff : s.started.skipEff = s.skipEff := rfl
@[simp] theorem started_badConfig : s.started.badConfig = s.badConfig := rfl
@[simp] theorem started_elemAddr (vbase idx : Nat) : s.started.elemAddr vbase idx = s.elemAddr vbase idx := rfl

/-! ### `State.completed` -/

@[simp] theorem completed_arg0 (e i : BitVec 8) (r : Word) : (s.completed e i r).arg0 = s.arg0 := rfl
@[simp] theorem completed_arg1 (e i : BitVec 8) (r : Word) : (s.completed e i r).arg1 = s.arg1 := rfl
@[simp] theorem completed_arg2 (e i : BitVec 8) (r : Word) : (s.completed e i r).arg2 = s.arg2 := rfl
@[simp] theorem completed_arg3 (e i : BitVec 8) (r : Word) : (s.completed e i r).arg3 = s.arg3 := rfl
@[simp] theorem completed_res0 (e i : BitVec 8) (r : Word) : (s.completed e i r).res0 = r := rfl
@[simp] theorem completed_err (e i : BitVec 8) (r : Word) : (s.completed e i r).err = e := rfl
@[simp] theorem completed_fault (e i : BitVec 8) (r : Word) : (s.completed e i r).fault = faultAfter s.fault e := rfl
@[simp] theorem completed_wrOpen (e i : BitVec 8) (r : Word) : (s.completed e i r).wrOpen = s.wrOpen := rfl
@[simp] theorem completed_rdOpen (e i : BitVec 8) (r : Word) : (s.completed e i r).rdOpen = s.rdOpen := rfl
@[simp] theorem completed_suberr (e i : BitVec 8) (r : Word) : (s.completed e i r).suberr = i := rfl
@[simp] theorem completed_running (e i : BitVec 8) (r : Word) : (s.completed e i r).running = none := rfl
@[simp] theorem completed_cfg (e i : BitVec 8) (r : Word) : (s.completed e i r).cfg = s.cfg := rfl
@[simp] theorem completed_mcl (e i : BitVec 8) (r : Word) : (s.completed e i r).mcl = s.mcl := rfl
@[simp] theorem completed_wrAcc (e i : BitVec 8) (r : Word) : (s.completed e i r).wrAcc = s.wrAcc := rfl
@[simp] theorem completed_wrCnt (e i : BitVec 8) (r : Word) : (s.completed e i r).wrCnt = s.wrCnt := rfl
@[simp] theorem completed_wrBase (e i : BitVec 8) (r : Word) : (s.completed e i r).wrBase = s.wrBase := rfl
@[simp] theorem completed_wrPtr (e i : BitVec 8) (r : Word) : (s.completed e i r).wrPtr = s.wrPtr := rfl
@[simp] theorem completed_wrLimit (e i : BitVec 8) (r : Word) : (s.completed e i r).wrLimit = s.wrLimit := rfl
@[simp] theorem completed_rdLa (e i : BitVec 8) (r : Word) : (s.completed e i r).rdLa = s.rdLa := rfl
@[simp] theorem completed_rdLoaded (e i : BitVec 8) (r : Word) : (s.completed e i r).rdLoaded = s.rdLoaded := rfl
@[simp] theorem completed_rdCons (e i : BitVec 8) (r : Word) : (s.completed e i r).rdCons = s.rdCons := rfl
@[simp] theorem completed_rdBase (e i : BitVec 8) (r : Word) : (s.completed e i r).rdBase = s.rdBase := rfl
@[simp] theorem completed_rdPtr (e i : BitVec 8) (r : Word) : (s.completed e i r).rdPtr = s.rdPtr := rfl
@[simp] theorem completed_rdEnd (e i : BitVec 8) (r : Word) : (s.completed e i r).rdEnd = s.rdEnd := rfl
@[simp] theorem completed_stack (e i : BitVec 8) (r : Word) : (s.completed e i r).stack = s.stack := rfl
@[simp] theorem completed_stkHwm (e i : BitVec 8) (r : Word) : (s.completed e i r).stkHwm = s.stkHwm := rfl
@[simp] theorem completed_mem (e i : BitVec 8) (r : Word) : (s.completed e i r).mem = s.mem := rfl
@[simp] theorem completed_platform (e i : BitVec 8) (r : Word) : (s.completed e i r).platform = s.platform := rfl
@[simp] theorem completed_inbox (e i : BitVec 8) (r : Word) : (s.completed e i r).inbox = s.inbox := rfl
@[simp] theorem completed_readData (e i : BitVec 8) (r : Word) : (s.completed e i r).readData = s.readData := rfl
@[simp] theorem completed_freeCount (e i : BitVec 8) (r : Word) : (s.completed e i r).freeCount = s.freeCount := rfl
@[simp] theorem completed_storeTrace (e i : BitVec 8) (r : Word) : (s.completed e i r).storeTrace = s.storeTrace := rfl
@[simp] theorem completed_isList (e i : BitVec 8) (r : Word) : (s.completed e i r).isList = s.isList := rfl
@[simp] theorem completed_elemWidth (e i : BitVec 8) (r : Word) : (s.completed e i r).elemWidth = s.elemWidth := rfl
@[simp] theorem completed_elemBytes (e i : BitVec 8) (r : Word) : (s.completed e i r).elemBytes = s.elemBytes := rfl
@[simp] theorem completed_ebw (e i : BitVec 8) (r : Word) : (s.completed e i r).ebw = s.ebw := rfl
@[simp] theorem completed_skipEff (e i : BitVec 8) (r : Word) : (s.completed e i r).skipEff = s.skipEff := rfl
@[simp] theorem completed_badConfig (e i : BitVec 8) (r : Word) : (s.completed e i r).badConfig = s.badConfig := rfl
@[simp] theorem completed_elemAddr (e i : BitVec 8) (r : Word) (vbase idx : Nat) : (s.completed e i r).elemAddr vbase idx = s.elemAddr vbase idx := rfl

/-! ### `State.registersReset` -/

@[simp] theorem registersReset_arg0 : s.registersReset.arg0 = State.reset.arg0 := rfl
@[simp] theorem registersReset_arg1 : s.registersReset.arg1 = State.reset.arg1 := rfl
@[simp] theorem registersReset_arg2 : s.registersReset.arg2 = State.reset.arg2 := rfl
@[simp] theorem registersReset_arg3 : s.registersReset.arg3 = State.reset.arg3 := rfl
@[simp] theorem registersReset_res0 : s.registersReset.res0 = State.reset.res0 := rfl
@[simp] theorem registersReset_err : s.registersReset.err = State.reset.err := rfl
@[simp] theorem registersReset_fault : s.registersReset.fault = State.reset.fault := rfl
@[simp] theorem registersReset_wrOpen : s.registersReset.wrOpen = State.reset.wrOpen := rfl
@[simp] theorem registersReset_rdOpen : s.registersReset.rdOpen = State.reset.rdOpen := rfl
@[simp] theorem registersReset_suberr : s.registersReset.suberr = State.reset.suberr := rfl
@[simp] theorem registersReset_running : s.registersReset.running = State.reset.running := rfl
@[simp] theorem registersReset_cfg : s.registersReset.cfg = State.reset.cfg := rfl
@[simp] theorem registersReset_mcl : s.registersReset.mcl = State.reset.mcl := rfl
@[simp] theorem registersReset_wrAcc : s.registersReset.wrAcc = State.reset.wrAcc := rfl
@[simp] theorem registersReset_wrCnt : s.registersReset.wrCnt = State.reset.wrCnt := rfl
@[simp] theorem registersReset_wrBase : s.registersReset.wrBase = State.reset.wrBase := rfl
@[simp] theorem registersReset_wrPtr : s.registersReset.wrPtr = State.reset.wrPtr := rfl
@[simp] theorem registersReset_wrLimit : s.registersReset.wrLimit = State.reset.wrLimit := rfl
@[simp] theorem registersReset_rdLa : s.registersReset.rdLa = State.reset.rdLa := rfl
@[simp] theorem registersReset_rdLoaded : s.registersReset.rdLoaded = State.reset.rdLoaded := rfl
@[simp] theorem registersReset_rdCons : s.registersReset.rdCons = State.reset.rdCons := rfl
@[simp] theorem registersReset_rdBase : s.registersReset.rdBase = State.reset.rdBase := rfl
@[simp] theorem registersReset_rdPtr : s.registersReset.rdPtr = State.reset.rdPtr := rfl
@[simp] theorem registersReset_rdEnd : s.registersReset.rdEnd = State.reset.rdEnd := rfl
@[simp] theorem registersReset_stack : s.registersReset.stack = State.reset.stack := rfl
@[simp] theorem registersReset_stkHwm : s.registersReset.stkHwm = State.reset.stkHwm := rfl
@[simp] theorem registersReset_mem : s.registersReset.mem = s.mem := rfl
@[simp] theorem registersReset_platform : s.registersReset.platform = s.platform := rfl
@[simp] theorem registersReset_inbox : s.registersReset.inbox = s.inbox := rfl
@[simp] theorem registersReset_readData : s.registersReset.readData = s.readData := rfl
@[simp] theorem registersReset_freeCount : s.registersReset.freeCount = s.freeCount := rfl
@[simp] theorem registersReset_storeTrace : s.registersReset.storeTrace = s.storeTrace := rfl

/-! ### `State.succeeded` -/

@[simp] theorem succeeded_arg0 (r : Word) : (s.succeeded r).arg0 = s.arg0 := rfl
@[simp] theorem succeeded_arg1 (r : Word) : (s.succeeded r).arg1 = s.arg1 := rfl
@[simp] theorem succeeded_arg2 (r : Word) : (s.succeeded r).arg2 = s.arg2 := rfl
@[simp] theorem succeeded_arg3 (r : Word) : (s.succeeded r).arg3 = s.arg3 := rfl
@[simp] theorem succeeded_res0 (r : Word) : (s.succeeded r).res0 = r := rfl
@[simp] theorem succeeded_err (r : Word) : (s.succeeded r).err = 0 := rfl
@[simp] theorem succeeded_fault (r : Word) : (s.succeeded r).fault = s.fault := rfl
@[simp] theorem succeeded_wrOpen (r : Word) : (s.succeeded r).wrOpen = s.wrOpen := rfl
@[simp] theorem succeeded_rdOpen (r : Word) : (s.succeeded r).rdOpen = s.rdOpen := rfl
@[simp] theorem succeeded_suberr (r : Word) : (s.succeeded r).suberr = 0 := rfl
@[simp] theorem succeeded_running (r : Word) : (s.succeeded r).running = none := rfl
@[simp] theorem succeeded_cfg (r : Word) : (s.succeeded r).cfg = s.cfg := rfl
@[simp] theorem succeeded_mcl (r : Word) : (s.succeeded r).mcl = s.mcl := rfl
@[simp] theorem succeeded_wrAcc (r : Word) : (s.succeeded r).wrAcc = s.wrAcc := rfl
@[simp] theorem succeeded_wrCnt (r : Word) : (s.succeeded r).wrCnt = s.wrCnt := rfl
@[simp] theorem succeeded_wrBase (r : Word) : (s.succeeded r).wrBase = s.wrBase := rfl
@[simp] theorem succeeded_wrPtr (r : Word) : (s.succeeded r).wrPtr = s.wrPtr := rfl
@[simp] theorem succeeded_wrLimit (r : Word) : (s.succeeded r).wrLimit = s.wrLimit := rfl
@[simp] theorem succeeded_rdLa (r : Word) : (s.succeeded r).rdLa = s.rdLa := rfl
@[simp] theorem succeeded_rdLoaded (r : Word) : (s.succeeded r).rdLoaded = s.rdLoaded := rfl
@[simp] theorem succeeded_rdCons (r : Word) : (s.succeeded r).rdCons = s.rdCons := rfl
@[simp] theorem succeeded_rdBase (r : Word) : (s.succeeded r).rdBase = s.rdBase := rfl
@[simp] theorem succeeded_rdPtr (r : Word) : (s.succeeded r).rdPtr = s.rdPtr := rfl
@[simp] theorem succeeded_rdEnd (r : Word) : (s.succeeded r).rdEnd = s.rdEnd := rfl
@[simp] theorem succeeded_stack (r : Word) : (s.succeeded r).stack = s.stack := rfl
@[simp] theorem succeeded_stkHwm (r : Word) : (s.succeeded r).stkHwm = s.stkHwm := rfl
@[simp] theorem succeeded_mem (r : Word) : (s.succeeded r).mem = s.mem := rfl
@[simp] theorem succeeded_platform (r : Word) : (s.succeeded r).platform = s.platform := rfl
@[simp] theorem succeeded_inbox (r : Word) : (s.succeeded r).inbox = s.inbox := rfl
@[simp] theorem succeeded_readData (r : Word) : (s.succeeded r).readData = s.readData := rfl
@[simp] theorem succeeded_freeCount (r : Word) : (s.succeeded r).freeCount = s.freeCount := rfl
@[simp] theorem succeeded_storeTrace (r : Word) : (s.succeeded r).storeTrace = [] := rfl
@[simp] theorem succeeded_isList (r : Word) : (s.succeeded r).isList = s.isList := rfl
@[simp] theorem succeeded_elemWidth (r : Word) : (s.succeeded r).elemWidth = s.elemWidth := rfl
@[simp] theorem succeeded_elemBytes (r : Word) : (s.succeeded r).elemBytes = s.elemBytes := rfl
@[simp] theorem succeeded_ebw (r : Word) : (s.succeeded r).ebw = s.ebw := rfl
@[simp] theorem succeeded_skipEff (r : Word) : (s.succeeded r).skipEff = s.skipEff := rfl
@[simp] theorem succeeded_badConfig (r : Word) : (s.succeeded r).badConfig = s.badConfig := rfl
@[simp] theorem succeeded_elemAddr (r : Word) (vbase idx : Nat) : (s.succeeded r).elemAddr vbase idx = s.elemAddr vbase idx := rfl

/-! ### `State.failed` -/

@[simp] theorem failed_arg0 (e i : BitVec 8) : (s.failed e i).arg0 = s.arg0 := rfl
@[simp] theorem failed_arg1 (e i : BitVec 8) : (s.failed e i).arg1 = s.arg1 := rfl
@[simp] theorem failed_arg2 (e i : BitVec 8) : (s.failed e i).arg2 = s.arg2 := rfl
@[simp] theorem failed_arg3 (e i : BitVec 8) : (s.failed e i).arg3 = s.arg3 := rfl
@[simp] theorem failed_res0 (e i : BitVec 8) : (s.failed e i).res0 = 0 := rfl
@[simp] theorem failed_err (e i : BitVec 8) : (s.failed e i).err = e := rfl
@[simp] theorem failed_fault (e i : BitVec 8) : (s.failed e i).fault = true := rfl
@[simp] theorem failed_wrOpen (e i : BitVec 8) : (s.failed e i).wrOpen = s.wrOpen := rfl
@[simp] theorem failed_rdOpen (e i : BitVec 8) : (s.failed e i).rdOpen = s.rdOpen := rfl
@[simp] theorem failed_suberr (e i : BitVec 8) : (s.failed e i).suberr = i := rfl
@[simp] theorem failed_running (e i : BitVec 8) : (s.failed e i).running = none := rfl
@[simp] theorem failed_cfg (e i : BitVec 8) : (s.failed e i).cfg = s.cfg := rfl
@[simp] theorem failed_mcl (e i : BitVec 8) : (s.failed e i).mcl = s.mcl := rfl
@[simp] theorem failed_wrAcc (e i : BitVec 8) : (s.failed e i).wrAcc = s.wrAcc := rfl
@[simp] theorem failed_wrCnt (e i : BitVec 8) : (s.failed e i).wrCnt = s.wrCnt := rfl
@[simp] theorem failed_wrBase (e i : BitVec 8) : (s.failed e i).wrBase = s.wrBase := rfl
@[simp] theorem failed_wrPtr (e i : BitVec 8) : (s.failed e i).wrPtr = s.wrPtr := rfl
@[simp] theorem failed_wrLimit (e i : BitVec 8) : (s.failed e i).wrLimit = s.wrLimit := rfl
@[simp] theorem failed_rdLa (e i : BitVec 8) : (s.failed e i).rdLa = s.rdLa := rfl
@[simp] theorem failed_rdLoaded (e i : BitVec 8) : (s.failed e i).rdLoaded = s.rdLoaded := rfl
@[simp] theorem failed_rdCons (e i : BitVec 8) : (s.failed e i).rdCons = s.rdCons := rfl
@[simp] theorem failed_rdBase (e i : BitVec 8) : (s.failed e i).rdBase = s.rdBase := rfl
@[simp] theorem failed_rdPtr (e i : BitVec 8) : (s.failed e i).rdPtr = s.rdPtr := rfl
@[simp] theorem failed_rdEnd (e i : BitVec 8) : (s.failed e i).rdEnd = s.rdEnd := rfl
@[simp] theorem failed_stack (e i : BitVec 8) : (s.failed e i).stack = s.stack := rfl
@[simp] theorem failed_stkHwm (e i : BitVec 8) : (s.failed e i).stkHwm = s.stkHwm := rfl
@[simp] theorem failed_mem (e i : BitVec 8) : (s.failed e i).mem = s.mem := rfl
@[simp] theorem failed_platform (e i : BitVec 8) : (s.failed e i).platform = s.platform := rfl
@[simp] theorem failed_inbox (e i : BitVec 8) : (s.failed e i).inbox = s.inbox := rfl
@[simp] theorem failed_readData (e i : BitVec 8) : (s.failed e i).readData = s.readData := rfl
@[simp] theorem failed_freeCount (e i : BitVec 8) : (s.failed e i).freeCount = s.freeCount := rfl
@[simp] theorem failed_storeTrace (e i : BitVec 8) : (s.failed e i).storeTrace = [] := rfl
@[simp] theorem failed_isList (e i : BitVec 8) : (s.failed e i).isList = s.isList := rfl
@[simp] theorem failed_elemWidth (e i : BitVec 8) : (s.failed e i).elemWidth = s.elemWidth := rfl
@[simp] theorem failed_elemBytes (e i : BitVec 8) : (s.failed e i).elemBytes = s.elemBytes := rfl
@[simp] theorem failed_ebw (e i : BitVec 8) : (s.failed e i).ebw = s.ebw := rfl
@[simp] theorem failed_skipEff (e i : BitVec 8) : (s.failed e i).skipEff = s.skipEff := rfl
@[simp] theorem failed_badConfig (e i : BitVec 8) : (s.failed e i).badConfig = s.badConfig := rfl
@[simp] theorem failed_elemAddr (e i : BitVec 8) (vbase idx : Nat) : (s.failed e i).elemAddr vbase idx = s.elemAddr vbase idx := rfl

/-! ### `State.withInbox` -/

@[simp] theorem withInbox_arg0 (k : List HostAction) : (s.withInbox k).arg0 = s.arg0 := rfl
@[simp] theorem withInbox_arg1 (k : List HostAction) : (s.withInbox k).arg1 = s.arg1 := rfl
@[simp] theorem withInbox_arg2 (k : List HostAction) : (s.withInbox k).arg2 = s.arg2 := rfl
@[simp] theorem withInbox_arg3 (k : List HostAction) : (s.withInbox k).arg3 = s.arg3 := rfl
@[simp] theorem withInbox_res0 (k : List HostAction) : (s.withInbox k).res0 = s.res0 := rfl
@[simp] theorem withInbox_err (k : List HostAction) : (s.withInbox k).err = s.err := rfl
@[simp] theorem withInbox_fault (k : List HostAction) : (s.withInbox k).fault = s.fault := rfl
@[simp] theorem withInbox_wrOpen (k : List HostAction) : (s.withInbox k).wrOpen = s.wrOpen := rfl
@[simp] theorem withInbox_rdOpen (k : List HostAction) : (s.withInbox k).rdOpen = s.rdOpen := rfl
@[simp] theorem withInbox_suberr (k : List HostAction) : (s.withInbox k).suberr = s.suberr := rfl
@[simp] theorem withInbox_running (k : List HostAction) : (s.withInbox k).running = s.running := rfl
@[simp] theorem withInbox_cfg (k : List HostAction) : (s.withInbox k).cfg = s.cfg := rfl
@[simp] theorem withInbox_mcl (k : List HostAction) : (s.withInbox k).mcl = s.mcl := rfl
@[simp] theorem withInbox_wrAcc (k : List HostAction) : (s.withInbox k).wrAcc = s.wrAcc := rfl
@[simp] theorem withInbox_wrCnt (k : List HostAction) : (s.withInbox k).wrCnt = s.wrCnt := rfl
@[simp] theorem withInbox_wrBase (k : List HostAction) : (s.withInbox k).wrBase = s.wrBase := rfl
@[simp] theorem withInbox_wrPtr (k : List HostAction) : (s.withInbox k).wrPtr = s.wrPtr := rfl
@[simp] theorem withInbox_wrLimit (k : List HostAction) : (s.withInbox k).wrLimit = s.wrLimit := rfl
@[simp] theorem withInbox_rdLa (k : List HostAction) : (s.withInbox k).rdLa = s.rdLa := rfl
@[simp] theorem withInbox_rdLoaded (k : List HostAction) : (s.withInbox k).rdLoaded = s.rdLoaded := rfl
@[simp] theorem withInbox_rdCons (k : List HostAction) : (s.withInbox k).rdCons = s.rdCons := rfl
@[simp] theorem withInbox_rdBase (k : List HostAction) : (s.withInbox k).rdBase = s.rdBase := rfl
@[simp] theorem withInbox_rdPtr (k : List HostAction) : (s.withInbox k).rdPtr = s.rdPtr := rfl
@[simp] theorem withInbox_rdEnd (k : List HostAction) : (s.withInbox k).rdEnd = s.rdEnd := rfl
@[simp] theorem withInbox_stack (k : List HostAction) : (s.withInbox k).stack = s.stack := rfl
@[simp] theorem withInbox_stkHwm (k : List HostAction) : (s.withInbox k).stkHwm = s.stkHwm := rfl
@[simp] theorem withInbox_mem (k : List HostAction) : (s.withInbox k).mem = s.mem := rfl
@[simp] theorem withInbox_platform (k : List HostAction) : (s.withInbox k).platform = s.platform := rfl
@[simp] theorem withInbox_inbox (k : List HostAction) : (s.withInbox k).inbox = k := rfl
@[simp] theorem withInbox_readData (k : List HostAction) : (s.withInbox k).readData = s.readData := rfl
@[simp] theorem withInbox_freeCount (k : List HostAction) : (s.withInbox k).freeCount = s.freeCount := rfl
@[simp] theorem withInbox_storeTrace (k : List HostAction) : (s.withInbox k).storeTrace = s.storeTrace := rfl
@[simp] theorem withInbox_isList (k : List HostAction) : (s.withInbox k).isList = s.isList := rfl
@[simp] theorem withInbox_elemWidth (k : List HostAction) : (s.withInbox k).elemWidth = s.elemWidth := rfl
@[simp] theorem withInbox_elemBytes (k : List HostAction) : (s.withInbox k).elemBytes = s.elemBytes := rfl
@[simp] theorem withInbox_ebw (k : List HostAction) : (s.withInbox k).ebw = s.ebw := rfl
@[simp] theorem withInbox_skipEff (k : List HostAction) : (s.withInbox k).skipEff = s.skipEff := rfl
@[simp] theorem withInbox_badConfig (k : List HostAction) : (s.withInbox k).badConfig = s.badConfig := rfl
@[simp] theorem withInbox_elemAddr (k : List HostAction) (vbase idx : Nat) : (s.withInbox k).elemAddr vbase idx = s.elemAddr vbase idx := rfl

/-! ### `State.answered` -/

@[simp] theorem answered_arg0 (v : Word) : (s.answered v).arg0 = s.arg0 := rfl
@[simp] theorem answered_arg1 (v : Word) : (s.answered v).arg1 = s.arg1 := rfl
@[simp] theorem answered_arg2 (v : Word) : (s.answered v).arg2 = s.arg2 := rfl
@[simp] theorem answered_arg3 (v : Word) : (s.answered v).arg3 = s.arg3 := rfl
@[simp] theorem answered_res0 (v : Word) : (s.answered v).res0 = s.res0 := rfl
@[simp] theorem answered_err (v : Word) : (s.answered v).err = s.err := rfl
@[simp] theorem answered_fault (v : Word) : (s.answered v).fault = s.fault := rfl
@[simp] theorem answered_wrOpen (v : Word) : (s.answered v).wrOpen = s.wrOpen := rfl
@[simp] theorem answered_rdOpen (v : Word) : (s.answered v).rdOpen = s.rdOpen := rfl
@[simp] theorem answered_suberr (v : Word) : (s.answered v).suberr = s.suberr := rfl
@[simp] theorem answered_running (v : Word) : (s.answered v).running = s.running := rfl
@[simp] theorem answered_cfg (v : Word) : (s.answered v).cfg = s.cfg := rfl
@[simp] theorem answered_mcl (v : Word) : (s.answered v).mcl = s.mcl := rfl
@[simp] theorem answered_wrAcc (v : Word) : (s.answered v).wrAcc = s.wrAcc := rfl
@[simp] theorem answered_wrCnt (v : Word) : (s.answered v).wrCnt = s.wrCnt := rfl
@[simp] theorem answered_wrBase (v : Word) : (s.answered v).wrBase = s.wrBase := rfl
@[simp] theorem answered_wrPtr (v : Word) : (s.answered v).wrPtr = s.wrPtr := rfl
@[simp] theorem answered_wrLimit (v : Word) : (s.answered v).wrLimit = s.wrLimit := rfl
@[simp] theorem answered_rdLa (v : Word) : (s.answered v).rdLa = s.rdLa := rfl
@[simp] theorem answered_rdLoaded (v : Word) : (s.answered v).rdLoaded = s.rdLoaded := rfl
@[simp] theorem answered_rdCons (v : Word) : (s.answered v).rdCons = s.rdCons := rfl
@[simp] theorem answered_rdBase (v : Word) : (s.answered v).rdBase = s.rdBase := rfl
@[simp] theorem answered_rdPtr (v : Word) : (s.answered v).rdPtr = s.rdPtr := rfl
@[simp] theorem answered_rdEnd (v : Word) : (s.answered v).rdEnd = s.rdEnd := rfl
@[simp] theorem answered_stack (v : Word) : (s.answered v).stack = s.stack := rfl
@[simp] theorem answered_stkHwm (v : Word) : (s.answered v).stkHwm = s.stkHwm := rfl
@[simp] theorem answered_mem (v : Word) : (s.answered v).mem = s.mem := rfl
@[simp] theorem answered_platform (v : Word) : (s.answered v).platform = s.platform := rfl
@[simp] theorem answered_inbox (v : Word) : (s.answered v).inbox = s.inbox := rfl
@[simp] theorem answered_readData (v : Word) : (s.answered v).readData = v := rfl
@[simp] theorem answered_freeCount (v : Word) : (s.answered v).freeCount = s.freeCount := rfl
@[simp] theorem answered_storeTrace (v : Word) : (s.answered v).storeTrace = s.storeTrace := rfl
@[simp] theorem answered_isList (v : Word) : (s.answered v).isList = s.isList := rfl
@[simp] theorem answered_elemWidth (v : Word) : (s.answered v).elemWidth = s.elemWidth := rfl
@[simp] theorem answered_elemBytes (v : Word) : (s.answered v).elemBytes = s.elemBytes := rfl
@[simp] theorem answered_ebw (v : Word) : (s.answered v).ebw = s.ebw := rfl
@[simp] theorem answered_skipEff (v : Word) : (s.answered v).skipEff = s.skipEff := rfl
@[simp] theorem answered_badConfig (v : Word) : (s.answered v).badConfig = s.badConfig := rfl
@[simp] theorem answered_elemAddr (v : Word) (vbase idx : Nat) : (s.answered v).elemAddr vbase idx = s.elemAddr vbase idx := rfl

/-! ### `State.answeredFree` -/

@[simp] theorem answeredFree_arg0 : s.answeredFree.arg0 = s.arg0 := rfl
@[simp] theorem answeredFree_arg1 : s.answeredFree.arg1 = s.arg1 := rfl
@[simp] theorem answeredFree_arg2 : s.answeredFree.arg2 = s.arg2 := rfl
@[simp] theorem answeredFree_arg3 : s.answeredFree.arg3 = s.arg3 := rfl
@[simp] theorem answeredFree_res0 : s.answeredFree.res0 = s.res0 := rfl
@[simp] theorem answeredFree_err : s.answeredFree.err = s.err := rfl
@[simp] theorem answeredFree_fault : s.answeredFree.fault = s.fault := rfl
@[simp] theorem answeredFree_wrOpen : s.answeredFree.wrOpen = s.wrOpen := rfl
@[simp] theorem answeredFree_rdOpen : s.answeredFree.rdOpen = s.rdOpen := rfl
@[simp] theorem answeredFree_suberr : s.answeredFree.suberr = s.suberr := rfl
@[simp] theorem answeredFree_running : s.answeredFree.running = s.running := rfl
@[simp] theorem answeredFree_cfg : s.answeredFree.cfg = s.cfg := rfl
@[simp] theorem answeredFree_mcl : s.answeredFree.mcl = s.mcl := rfl
@[simp] theorem answeredFree_wrAcc : s.answeredFree.wrAcc = s.wrAcc := rfl
@[simp] theorem answeredFree_wrCnt : s.answeredFree.wrCnt = s.wrCnt := rfl
@[simp] theorem answeredFree_wrBase : s.answeredFree.wrBase = s.wrBase := rfl
@[simp] theorem answeredFree_wrPtr : s.answeredFree.wrPtr = s.wrPtr := rfl
@[simp] theorem answeredFree_wrLimit : s.answeredFree.wrLimit = s.wrLimit := rfl
@[simp] theorem answeredFree_rdLa : s.answeredFree.rdLa = s.rdLa := rfl
@[simp] theorem answeredFree_rdLoaded : s.answeredFree.rdLoaded = s.rdLoaded := rfl
@[simp] theorem answeredFree_rdCons : s.answeredFree.rdCons = s.rdCons := rfl
@[simp] theorem answeredFree_rdBase : s.answeredFree.rdBase = s.rdBase := rfl
@[simp] theorem answeredFree_rdPtr : s.answeredFree.rdPtr = s.rdPtr := rfl
@[simp] theorem answeredFree_rdEnd : s.answeredFree.rdEnd = s.rdEnd := rfl
@[simp] theorem answeredFree_stack : s.answeredFree.stack = s.stack := rfl
@[simp] theorem answeredFree_stkHwm : s.answeredFree.stkHwm = s.stkHwm := rfl
@[simp] theorem answeredFree_mem : s.answeredFree.mem = s.mem := rfl
@[simp] theorem answeredFree_platform : s.answeredFree.platform = s.platform := rfl
@[simp] theorem answeredFree_inbox : s.answeredFree.inbox = s.inbox := rfl
@[simp] theorem answeredFree_readData : s.answeredFree.readData = Config.busyRead s.freeCount := rfl
@[simp] theorem answeredFree_freeCount : s.answeredFree.freeCount = s.freeCount + 1 := rfl
@[simp] theorem answeredFree_storeTrace : s.answeredFree.storeTrace = s.storeTrace := rfl
@[simp] theorem answeredFree_isList : s.answeredFree.isList = s.isList := rfl
@[simp] theorem answeredFree_elemWidth : s.answeredFree.elemWidth = s.elemWidth := rfl
@[simp] theorem answeredFree_elemBytes : s.answeredFree.elemBytes = s.elemBytes := rfl
@[simp] theorem answeredFree_ebw : s.answeredFree.ebw = s.ebw := rfl
@[simp] theorem answeredFree_skipEff : s.answeredFree.skipEff = s.skipEff := rfl
@[simp] theorem answeredFree_badConfig : s.answeredFree.badConfig = s.badConfig := rfl
@[simp] theorem answeredFree_elemAddr (vbase idx : Nat) : s.answeredFree.elemAddr vbase idx = s.elemAddr vbase idx := rfl

end Sys2Proof.Laws
end

