-- ==== Sys2Proof/Laws/Rule.lean ====
section
/-! SUPPORT. How rules run: what each building block does to a state, how a sequence of two rules ends, and two ways to say once what a
rule can do: `Keeps` (a relation between the state before and the state after, however the rule ends) and `Meets` (a precondition, what
holds if it ends normally and what holds if it aborts). -/

namespace Sys2Proof.Laws
open Sys2Proof.Machine

variable {α β : Type}

/-! ### Running one building block -/

theorem bind_run (r : Rule α) (f : α → Rule β) (s : State) :
    (r >>= f) s = match r s with | .ok a t => f a t | .error e t => .error e t := by
  show EStateM.bind r f s = _
  unfold EStateM.bind
  cases r s <;> rfl

theorem bind_run_ok {r : Rule α} {f : α → Rule β} {s t : State} {a : α} (h : r s = .ok a t) : (r >>= f) s = f a t := by
  rw [bind_run, h]

theorem bind_run_error {r : Rule α} {f : α → Rule β} {s t : State} {e : Abort} (h : r s = .error e t) :
    (r >>= f) s = .error e t := by rw [bind_run, h]

@[simp] theorem pure_run (a : α) (s : State) : (pure a : Rule α) s = .ok a s := rfl
@[simp] theorem get_run (s : State) : (get : Rule State) s = .ok s s := rfl
@[simp] theorem set_run (s t : State) : (set t : Rule PUnit) s = .ok ⟨⟩ t := rfl
@[simp] theorem modify_run (f : State → State) (s : State) : (modify f : Rule PUnit) s = .ok ⟨⟩ (f s) := rfl
@[simp] theorem throw_run (a : Abort) (s : State) : (throw a : Rule α) s = .error a s := rfl
@[simp] theorem raise_run (e : Err) (s : State) : (raise e : Rule α) s = .error (.raised e 0) s := rfl

theorem raiseIf_run (c : Bool) (e : Err) (s : State) :
    raiseIf c e s = if c then .error (.raised e 0) s else .ok () s := by cases c <;> rfl

@[simp] theorem raiseIf_true (e : Err) (s : State) : raiseIf true e s = .error (.raised e 0) s := rfl
@[simp] theorem raiseIf_false (e : Err) (s : State) : raiseIf false e s = .ok () s := rfl

/-- A sequence ends normally exactly when both of its parts do. -/
theorem bind_eq_ok {r : Rule α} {f : α → Rule β} {s u : State} {b : β} :
    (r >>= f) s = .ok b u ↔ ∃ a t, r s = .ok a t ∧ f a t = .ok b u := by
  rw [bind_run]
  cases h : r s <;> simp

/-- A sequence aborts exactly when its first part does, or its second after the first has ended normally. -/
theorem bind_eq_error {r : Rule α} {f : α → Rule β} {s u : State} {e : Abort} :
    (r >>= f) s = .error e u ↔ r s = .error e u ∨ ∃ a t, r s = .ok a t ∧ f a t = .error e u := by
  rw [bind_run]
  cases h : r s <;> simp

/-- The outcome of a command is a next state exactly when its rule ends or raises (60_exceptions.md R206). -/
theorem complete_eq_next {x : EStateM.Result Abort State Word} {t : State} :
    complete x = .next t ↔
      (∃ r u, x = .ok r u ∧ t = u.completed 0 0 r) ∨ (∃ e i u, x = .error (.raised e i) u ∧ t = u.completed e.code i 0) := by
  cases x with
  | ok r u => simp [complete, eq_comm]
  | error a u => cases a <;> simp [complete, eq_comm]

theorem complete_ne_refused {x : EStateM.Result Abort State Word} {r : Refusal} : complete x ≠ .refused r := by
  cases x with
  | ok r u => simp [complete]
  | error a u => cases a <;> simp [complete]

/-! ### The state in which a rule ends -/

/-- The state a result holds. -/
def endState : EStateM.Result Abort State α → State
  | .ok _ t => t
  | .error _ t => t

@[simp] theorem endState_ok (a : α) (t : State) : endState (.ok a t : EStateM.Result Abort State α) = t := rfl
@[simp] theorem endState_error (e : Abort) (t : State) : endState (.error e t : EStateM.Result Abort State α) = t := rfl

/-- However the rule ends, the state before and the state after stand in the relation. -/
def Keeps (R : State → State → Prop) (r : Rule α) : Prop := ∀ s, R s (endState (r s))

theorem Keeps.bind {R : State → State → Prop} (trans : ∀ a b c, R a b → R b c → R a c) {r : Rule α} {f : α → Rule β}
    (hr : Keeps R r) (hf : ∀ a, Keeps R (f a)) : Keeps R (r >>= f) := by
  intro s
  have h := hr s
  rw [bind_run]
  cases hs : r s with
  | ok a t => rw [hs] at h; exact trans _ _ _ h (hf a t)
  | error e t => rw [hs] at h; exact h

/-- Reading the state and going on with it keeps the relation if going on from each state does. -/
theorem Keeps.getBind {R : State → State → Prop} {f : State → Rule β} (hf : ∀ s, R s (endState (f s s))) :
    Keeps R ((get : Rule State) >>= f) := fun s => by
  rw [bind_run_ok (get_run s)]; exact hf s

theorem Keeps.mono {R R' : State → State → Prop} (h : ∀ a b, R a b → R' a b) {r : Rule α} (hr : Keeps R r) : Keeps R' r :=
  fun s => h _ _ (hr s)

theorem Keeps.of_pure {R : State → State → Prop} (refl : ∀ a, R a a) (a : α) : Keeps R (pure a : Rule α) := fun s => refl s

theorem Keeps.of_raiseIf {R : State → State → Prop} (refl : ∀ a, R a a) (c : Bool) (e : Err) : Keeps R (raiseIf c e) := fun s => by
  rw [raiseIf_run]; split <;> exact refl s

theorem Keeps.of_modify {R : State → State → Prop} {f : State → State} (h : ∀ s, R s (f s)) : Keeps R (modify f : Rule PUnit) :=
  fun s => h s

/-! ### Pre- and postconditions -/

/-- From every state that meets `P` the rule ends normally in a state that meets `Q`, or aborts with a reason and a state that meet
`E`. -/
def Meets (P : State → Prop) (r : Rule α) (Q : α → State → Prop) (E : Abort → State → Prop) : Prop :=
  ∀ s, P s → match r s with
    | .ok a t => Q a t
    | .error e t => E e t

theorem Meets.bind {P : State → Prop} {r : Rule α} {M : α → State → Prop} {f : α → Rule β} {Q : β → State → Prop}
    {E : Abort → State → Prop} (hr : Meets P r M E) (hf : ∀ a, Meets (M a) (f a) Q E) : Meets P (r >>= f) Q E := by
  intro s hs
  have h := hr s hs
  rw [bind_run]
  cases hc : r s with
  | ok a t => rw [hc] at h; exact hf a t h
  | error e t => rw [hc] at h; exact h

theorem Meets.mono {P P' : State → Prop} {r : Rule α} {Q Q' : α → State → Prop} {E E' : Abort → State → Prop}
    (h : Meets P r Q E) (hP : ∀ s, P' s → P s) (hQ : ∀ a s, Q a s → Q' a s) (hE : ∀ e s, E e s → E' e s) : Meets P' r Q' E' := by
  intro s hs
  have h := h s (hP s hs)
  cases hc : r s with
  | ok a t => rw [hc] at h; exact hQ _ _ h
  | error e t => rw [hc] at h; exact hE _ _ h

theorem Meets.getBind {P : State → Prop} {f : State → Rule β} {Q : β → State → Prop} {E : Abort → State → Prop}
    (hf : ∀ s, P s → Meets (fun t => t = s) (f s) Q E) : Meets P ((get : Rule State) >>= f) Q E := by
  intro s hs
  rw [bind_run_ok (get_run s)]
  exact hf s hs s rfl

theorem Meets.of_pure {P : State → Prop} {a : α} {Q : α → State → Prop} {E : Abort → State → Prop} (h : ∀ s, P s → Q a s) :
    Meets P (pure a : Rule α) Q E := fun s hs => h s hs

theorem Meets.of_modify {P : State → Prop} {f : State → State} {Q : PUnit → State → Prop} {E : Abort → State → Prop}
    (h : ∀ s, P s → Q ⟨⟩ (f s)) : Meets P (modify f : Rule PUnit) Q E := fun s hs => h s hs

theorem Meets.of_raiseIf {P : State → Prop} {c : Bool} {e : Err} {Q : PUnit → State → Prop} {E : Abort → State → Prop}
    (hok : c = false → ∀ s, P s → Q ⟨⟩ s) (herr : c = true → ∀ s, P s → E (.raised e 0) s) : Meets P (raiseIf c e) Q E := by
  intro s hs
  cases c with
  | true => exact herr rfl s hs
  | false => exact hok rfl s hs

end Sys2Proof.Laws
end

