-- ==== Sys2Proof/Laws/Ops.lean ====
section
/-! SUPPORT. What the shared operations over memory and the work stack can do, said once for each: byte accesses, `MemRead`, `MemWrite`,
elements of value arrays, and the stack (20_memory.md R61 to R64, 10_state.md R39, R41). -/

namespace Sys2Proof.Laws
open Sys2Proof.Machine Sys2Proof.Format

/-! ### Ranges -/

/-- Every byte of `[addr, addr + n)` is admitted by the platform. -/
def AllAdmitted (p : Config.Platform) (addr n : Nat) : Prop := ∀ a, addr ≤ a → a < addr + n → admitted p a = true

theorem AllAdmitted.mono {p : Config.Platform} {a n b k : Nat} (h : AllAdmitted p a n) (hb : a ≤ b) (hk : b + k ≤ a + n) :
    AllAdmitted p b k := fun x h1 h2 => h x (hb.trans h1) (by omega)

theorem AllAdmitted.zero (p : Config.Platform) (a : Nat) : AllAdmitted p a 0 := fun x h1 h2 => by omega

theorem allAdmitted_succ {p : Config.Platform} {a n : Nat} :
    AllAdmitted p a (n + 1) ↔ admitted p a = true ∧ AllAdmitted p (a + 1) n := by
  constructor
  · intro h
    exact ⟨h a le_rfl (by omega), fun x h1 h2 => h x (by omega) (by omega)⟩
  · rintro ⟨h0, h⟩ x h1 h2
    rcases Nat.eq_or_lt_of_le h1 with rfl | hlt
    · exact h0
    · exact h x hlt (by omega)

/-- The platform that refuses nothing admits everything (the default of 20_memory.md R63). -/
theorem admitted_of_refuses_nothing (base a : Nat) : admitted { regBase := base, refused := [] } a = true := rfl

theorem holds_iff {r : Region} {a : Nat} : r.holds a = true ↔ r.first ≤ a ∧ a < r.past := by
  simp [Region.holds]

theorem holds_ofBytes {base n a : Nat} : (Region.ofBytes base n).holds a = true ↔ base ≤ a ∧ a < base + n := holds_iff

/-- A platform admits a byte range as a region exactly when it admits all its bytes. -/
theorem admitsRegion_ofBytes {s : State} {base n : Nat} :
    s.admitsRegion (Region.ofBytes base n) ↔ AllAdmitted s.platform base n :=
  ⟨fun h a h1 h2 => h a (holds_ofBytes.2 ⟨h1, h2⟩), fun h a ha => h a (holds_ofBytes.1 ha).1 (holds_ofBytes.1 ha).2⟩

/-- A region that ends before another begins shares no byte with it, in either order. -/
theorem disjoint_of_le {r q : Region} (h : r.past ≤ q.first ∨ q.past ≤ r.first) : r.disjoint q := by
  intro a ha
  rw [holds_iff] at ha
  by_contra hc
  rw [Bool.not_eq_false, holds_iff] at hc
  omega

/-- A platform that refuses nothing admits every region. -/
theorem admitsRegion_of_refuses_nothing {s : State} (h : s.platform.refused = []) (r : Region) : s.admitsRegion r := by
  intro a _
  simp [admitted, h]

/-! ### What memory bytes assemble to -/

@[simp] theorem memNat_zero (m : Memory) (a : Nat) : memNat m a 0 = 0 := rfl
theorem memNat_succ (m : Memory) (a n : Nat) : memNat m a (n + 1) = (m.read a).toNat + 256 * memNat m (a + 1) n := rfl

theorem memNat_congr {m m' : Memory} : ∀ {a n : Nat}, (∀ x, a ≤ x → x < a + n → m.read x = m'.read x) →
    memNat m a n = memNat m' a n
  | _, 0, _ => rfl
  | a, n + 1, h => by
    rw [memNat_succ, memNat_succ, h a le_rfl (by omega), memNat_congr fun x h1 h2 => h x (by omega) (by omega)]

theorem memNat_lt (m : Memory) : ∀ a n : Nat, memNat m a n < 2 ^ (8 * n)
  | _, 0 => by simp
  | a, n + 1 => by
    have h := memNat_lt m (a + 1) n
    have hb := (m.read a).isLt
    rw [memNat_succ, Nat.mul_succ, Nat.pow_add]
    omega

theorem memNat_add (m : Memory) : ∀ a n k : Nat, memNat m a (n + k) = memNat m a n + 2 ^ (8 * n) * memNat m (a + n) k
  | a, 0, k => by simp
  | a, n + 1, k => by
    rw [Nat.add_right_comm, memNat_succ, memNat_add m (a + 1) n k, memNat_succ, Nat.mul_succ, Nat.pow_add,
      show a + 1 + n = a + (n + 1) by omega]
    ring

/-! ### The stores of a little-endian write -/

/-- The byte stores of `MemWrite(addr, n, v)` in order (20_memory.md R62). -/
def cells (addr : Nat) : Nat → Nat → List Host.Cell
  | 0, _ => []
  | n + 1, v => (addr, BitVec.ofNat 8 v) :: cells (addr + 1) n (v / 256)

/-- The state after the given byte stores, the first one first. -/
def withStores (s : State) (l : List Host.Cell) : State :=
  { s with mem := applyStores s.mem l, storeTrace := l.reverse ++ s.storeTrace }

@[simp] theorem withStores_nil (s : State) : withStores s [] = s := rfl

theorem withStores_cons (s : State) (c : Host.Cell) (l : List Host.Cell) :
    withStores s (c :: l) = withStores (s.storeByte c.1 c.2) l := by
  simp [withStores, State.storeByte]

theorem withStores_append (s : State) (k l : List Host.Cell) :
    withStores s (k ++ l) = withStores (withStores s k) l := by
  simp [withStores, applyStores_append]

@[simp] theorem withStores_mem (s : State) (l : List Host.Cell) : (withStores s l).mem = applyStores s.mem l := rfl
@[simp] theorem withStores_storeTrace (s : State) (l : List Host.Cell) :
    (withStores s l).storeTrace = l.reverse ++ s.storeTrace := rfl
@[simp] theorem withStores_platform (s : State) (l : List Host.Cell) : (withStores s l).platform = s.platform := rfl
@[simp] theorem withStores_arg0 (s : State) (l : List Host.Cell) : (withStores s l).arg0 = s.arg0 := rfl
@[simp] theorem withStores_arg1 (s : State) (l : List Host.Cell) : (withStores s l).arg1 = s.arg1 := rfl
@[simp] theorem withStores_arg2 (s : State) (l : List Host.Cell) : (withStores s l).arg2 = s.arg2 := rfl
@[simp] theorem withStores_arg3 (s : State) (l : List Host.Cell) : (withStores s l).arg3 = s.arg3 := rfl
@[simp] theorem withStores_res0 (s : State) (l : List Host.Cell) : (withStores s l).res0 = s.res0 := rfl
@[simp] theorem withStores_err (s : State) (l : List Host.Cell) : (withStores s l).err = s.err := rfl
@[simp] theorem withStores_fault (s : State) (l : List Host.Cell) : (withStores s l).fault = s.fault := rfl
@[simp] theorem withStores_wrOpen (s : State) (l : List Host.Cell) : (withStores s l).wrOpen = s.wrOpen := rfl
@[simp] theorem withStores_rdOpen (s : State) (l : List Host.Cell) : (withStores s l).rdOpen = s.rdOpen := rfl
@[simp] theorem withStores_suberr (s : State) (l : List Host.Cell) : (withStores s l).suberr = s.suberr := rfl
@[simp] theorem withStores_running (s : State) (l : List Host.Cell) : (withStores s l).running = s.running := rfl
@[simp] theorem withStores_cfg (s : State) (l : List Host.Cell) : (withStores s l).cfg = s.cfg := rfl
@[simp] theorem withStores_mcl (s : State) (l : List Host.Cell) : (withStores s l).mcl = s.mcl := rfl
@[simp] theorem withStores_wrAcc (s : State) (l : List Host.Cell) : (withStores s l).wrAcc = s.wrAcc := rfl
@[simp] theorem withStores_wrCnt (s : State) (l : List Host.Cell) : (withStores s l).wrCnt = s.wrCnt := rfl
@[simp] theorem withStores_wrBase (s : State) (l : List Host.Cell) : (withStores s l).wrBase = s.wrBase := rfl
@[simp] theorem withStores_wrPtr (s : State) (l : List Host.Cell) : (withStores s l).wrPtr = s.wrPtr := rfl
@[simp] theorem withStores_wrLimit (s : State) (l : List Host.Cell) : (withStores s l).wrLimit = s.wrLimit := rfl
@[simp] theorem withStores_rdLa (s : State) (l : List Host.Cell) : (withStores s l).rdLa = s.rdLa := rfl
@[simp] theorem withStores_rdLoaded (s : State) (l : List Host.Cell) : (withStores s l).rdLoaded = s.rdLoaded := rfl
@[simp] theorem withStores_rdCons (s : State) (l : List Host.Cell) : (withStores s l).rdCons = s.rdCons := rfl
@[simp] theorem withStores_rdBase (s : State) (l : List Host.Cell) : (withStores s l).rdBase = s.rdBase := rfl
@[simp] theorem withStores_rdPtr (s : State) (l : List Host.Cell) : (withStores s l).rdPtr = s.rdPtr := rfl
@[simp] theorem withStores_rdEnd (s : State) (l : List Host.Cell) : (withStores s l).rdEnd = s.rdEnd := rfl
@[simp] theorem withStores_stack (s : State) (l : List Host.Cell) : (withStores s l).stack = s.stack := rfl
@[simp] theorem withStores_stkHwm (s : State) (l : List Host.Cell) : (withStores s l).stkHwm = s.stkHwm := rfl
@[simp] theorem withStores_inbox (s : State) (l : List Host.Cell) : (withStores s l).inbox = s.inbox := rfl
@[simp] theorem withStores_readData (s : State) (l : List Host.Cell) : (withStores s l).readData = s.readData := rfl
@[simp] theorem withStores_freeCount (s : State) (l : List Host.Cell) : (withStores s l).freeCount = s.freeCount := rfl
@[simp] theorem withStores_isList (s : State) (l : List Host.Cell) : (withStores s l).isList = s.isList := rfl
@[simp] theorem withStores_elemWidth (s : State) (l : List Host.Cell) : (withStores s l).elemWidth = s.elemWidth := rfl
@[simp] theorem withStores_elemBytes (s : State) (l : List Host.Cell) : (withStores s l).elemBytes = s.elemBytes := rfl
@[simp] theorem withStores_ebw (s : State) (l : List Host.Cell) : (withStores s l).ebw = s.ebw := rfl
@[simp] theorem withStores_skipEff (s : State) (l : List Host.Cell) : (withStores s l).skipEff = s.skipEff := rfl
@[simp] theorem withStores_badConfig (s : State) (l : List Host.Cell) : (withStores s l).badConfig = s.badConfig := rfl
@[simp] theorem withStores_stkSp (s : State) (l : List Host.Cell) : (withStores s l).stkSp = s.stkSp := rfl
@[simp] theorem withStores_elemAddr (s : State) (l : List Host.Cell) (vbase idx : Nat) :
    (withStores s l).elemAddr vbase idx = s.elemAddr vbase idx := rfl

theorem cells_take : ∀ (a n k v : Nat), k ≤ n → (cells a n v).take k = cells a k v
  | _, _, 0, _, _ => rfl
  | _, 0, k + 1, _, h => absurd h (by omega)
  | a, n + 1, k + 1, v, h => by simp [cells, cells_take (a + 1) n k (v / 256) (by omega)]

theorem cells_addr : ∀ (a n v : Nat), ∀ c ∈ cells a n v, a ≤ c.1 ∧ c.1 < a + n
  | _, 0, _, c, h => by simp [cells] at h
  | a, n + 1, v, c, h => by
    simp only [cells, List.mem_cons] at h
    rcases h with rfl | h
    · simp
    · have := cells_addr (a + 1) n (v / 256) c h
      omega

@[simp] theorem cells_length : ∀ a n v : Nat, (cells a n v).length = n
  | _, 0, _ => rfl
  | a, n + 1, v => by rw [cells, List.length_cons, cells_length]

theorem byteAt_succ (v i : Nat) : byteAt v (i + 1) = byteAt (v / 256) i := by
  simp only [byteAt]
  rw [Nat.mul_succ, Nat.add_comm, Nat.shiftRight_add]
  simp [Nat.shiftRight_eq_div_pow]

@[simp] theorem byteAt_zero (v : Nat) : byteAt v 0 = BitVec.ofNat 8 v := rfl

theorem cells_getElem? : ∀ a n v k : Nat, k < n → (cells a n v)[k]? = some (a + k, byteAt v k)
  | _, 0, _, _, h => absurd h (by omega)
  | a, n + 1, v, 0, _ => rfl
  | a, n + 1, v, k + 1, h => by
    rw [cells, List.getElem?_cons_succ, cells_getElem? (a + 1) n (v / 256) k (by omega), byteAt_succ,
      show a + 1 + k = a + (k + 1) by omega]

/-- What memory holds after a little-endian write of `n` bytes of `v`. -/
theorem read_applyStores_cells : ∀ (a n v : Nat) (m : Memory) (x : Nat),
    (applyStores m (cells a n v)).read x = if a ≤ x ∧ x < a + n then byteAt v (x - a) else m.read x
  | a, 0, v, m, x => by rw [if_neg (by omega)]; rfl
  | a, n + 1, v, m, x => by
    rw [cells, applyStores_cons, read_applyStores_cells (a + 1) n (v / 256)]
    rcases Nat.lt_trichotomy x a with h | h | h
    · rw [if_neg (by omega), if_neg (by omega), read_write_other _ _ _ (by omega)]
    · subst h; simp
    · by_cases h2 : x < a + (n + 1)
      · rw [if_pos (by omega), if_pos (by omega), show x - a = (x - (a + 1)) + 1 by omega, byteAt_succ]
      · rw [if_neg (by omega), if_neg (by omega), read_write_other _ _ _ (by omega)]

/-! ### Byte accesses -/

theorem readByte_run {s : State} {a : Nat} (ha : a < Config.addressSpace) (hp : admitted s.platform a = true) :
    readByte a s = .ok (s.mem.read a) s := by
  rw [readByte, if_neg (by omega), if_neg (by simp [hp])]

theorem writeByte_run {s : State} {a : Nat} (b : Byte) (ha : a < Config.addressSpace) (hp : admitted s.platform a = true) :
    writeByte a b s = .ok () (s.storeByte a b) := by
  rw [writeByte, if_neg (by omega), if_neg (by simp [hp])]

/-! ### `MemRead` (20_memory.md R61) -/

/-- `MemRead` changes nothing; it answers the assembled bytes, or meets a refused byte, or leaves the address space. -/
theorem memRead_cases (s : State) : ∀ a n : Nat,
    (memRead a n s = .ok (memNat s.mem a n) s ∧ AllAdmitted s.platform a n ∧ (n = 0 ∨ a + n ≤ Config.addressSpace)) ∨
    (memRead a n s = .error (.raised .busError 0) s ∧ ¬ AllAdmitted s.platform a n) ∨
    (memRead a n s = .error (.stopped .outsideAddressSpace) s ∧ Config.addressSpace < a + n)
  | a, 0 => .inl ⟨rfl, .zero _ _, .inl rfl⟩
  | a, n + 1 => by
    by_cases hs : Config.addressSpace ≤ a
    · refine .inr (.inr ⟨?_, by omega⟩)
      rw [memRead, bind_run_error (r := readByte a) (e := .stopped .outsideAddressSpace) (t := s)]
      rw [readByte, if_pos hs]
    · by_cases hp : admitted s.platform a = true
      · have hb := readByte_run (s := s) (by omega) hp
        rcases memRead_cases s (a + 1) n with ⟨h, hall, hsp⟩ | ⟨h, hall⟩ | ⟨h, hsp⟩
        · refine .inl ⟨?_, allAdmitted_succ.2 ⟨hp, hall⟩, .inr (by omega)⟩
          rw [memRead, bind_run_ok hb, bind_run_ok h, pure_run, memNat_succ]
        · refine .inr (.inl ⟨?_, fun hc => hall (allAdmitted_succ.1 hc).2⟩)
          rw [memRead, bind_run_ok hb, bind_run_error h]
        · refine .inr (.inr ⟨?_, by omega⟩)
          rw [memRead, bind_run_ok hb, bind_run_error h]
      · refine .inr (.inl ⟨?_, fun hc => hp (allAdmitted_succ.1 hc).1⟩)
        rw [memRead, bind_run_error (r := readByte a) (e := .raised .busError 0) (t := s)]
        rw [readByte, if_neg hs, if_pos (by simpa using hp)]

theorem memRead_run {s : State} {a n : Nat} (ha : a + n ≤ Config.addressSpace) (hp : AllAdmitted s.platform a n) :
    memRead a n s = .ok (memNat s.mem a n) s := by
  rcases memRead_cases s a n with ⟨h, -⟩ | ⟨-, h⟩ | ⟨-, h⟩
  · exact h
  · exact absurd hp h
  · omega

/-- `Elem` answers the element's value if its bytes exist and are admitted (20_memory.md R64). -/
theorem elem_run {s : State} {vbase i : Nat} (ha : s.elemAddr vbase i + s.elemBytes ≤ Config.addressSpace)
    (hp : AllAdmitted s.platform (s.elemAddr vbase i) s.elemBytes) : elem vbase i s = .ok (elemValue s vbase i) s := by
  rw [elem, bind_run_ok (get_run s), memRead_run ha hp]; rfl

/-- `Elem` changes nothing; its one error is `BusError`. -/
theorem elem_cases (s : State) (vbase i : Nat) :
    (elem vbase i s = .ok (elemValue s vbase i) s ∧ AllAdmitted s.platform (s.elemAddr vbase i) s.elemBytes) ∨
    (elem vbase i s = .error (.raised .busError 0) s ∧ ¬ AllAdmitted s.platform (s.elemAddr vbase i) s.elemBytes) ∨
    (elem vbase i s = .error (.stopped .outsideAddressSpace) s ∧ Config.addressSpace < s.elemAddr vbase i + s.elemBytes) := by
  rw [elem, bind_run_ok (get_run s)]
  rcases memRead_cases s (s.elemAddr vbase i) s.elemBytes with ⟨h, h'⟩ | h | h
  · exact .inl ⟨h, h'.1⟩
  · exact .inr (.inl h)
  · exact .inr (.inr h)

/-! ### `MemWrite` (20_memory.md R62) -/

/-- `MemWrite` stores its bytes in order: all of them, or the first `k` before a refused byte (they stay), or before the end of the
address space. -/
theorem memWrite_cases : ∀ (s : State) (a n v : Nat),
    (memWrite a n v s = .ok () (withStores s (cells a n v)) ∧ AllAdmitted s.platform a n ∧
      (n = 0 ∨ a + n ≤ Config.addressSpace)) ∨
    (∃ k < n, memWrite a n v s = .error (.raised .busError 0) (withStores s (cells a k v)) ∧
      AllAdmitted s.platform a k ∧ admitted s.platform (a + k) = false ∧ a + k < Config.addressSpace) ∨
    (∃ k < n, memWrite a n v s = .error (.stopped .outsideAddressSpace) (withStores s (cells a k v)) ∧
      (k = 0 ∨ a + k ≤ Config.addressSpace) ∧ Config.addressSpace ≤ a + k)
  | s, a, 0, v => .inl ⟨rfl, .zero _ _, .inl rfl⟩
  | s, a, n + 1, v => by
    by_cases hs : Config.addressSpace ≤ a
    · refine .inr (.inr ⟨0, by omega, ?_, .inl rfl, by omega⟩)
      rw [memWrite, bind_run_error (r := writeByte a (BitVec.ofNat 8 v)) (e := .stopped .outsideAddressSpace) (t := s)]
      · rfl
      · rw [writeByte, if_pos hs]
    · by_cases hp : admitted s.platform a = true
      · have hb := writeByte_run (s := s) (BitVec.ofNat 8 v) (by omega) hp
        have hw : ∀ k, withStores (s.storeByte a (BitVec.ofNat 8 v)) (cells (a + 1) k (v / 256)) =
            withStores s (cells a (k + 1) v) := fun k =>
          (withStores_cons s (a, BitVec.ofNat 8 v) (cells (a + 1) k (v / 256))).symm
        rcases memWrite_cases (s.storeByte a (BitVec.ofNat 8 v)) (a + 1) n (v / 256) with
          ⟨h, hall, hsp⟩ | ⟨k, hk, h, hall, hr, hsp⟩ | ⟨k, hk, h, h1, h2⟩
        · refine .inl ⟨?_, allAdmitted_succ.2 ⟨hp, hall⟩, .inr (by omega)⟩
          rw [memWrite, bind_run_ok hb, h, hw]
        · refine .inr (.inl ⟨k + 1, by omega, ?_, allAdmitted_succ.2 ⟨hp, hall⟩, ?_, by omega⟩)
          · rw [memWrite, bind_run_ok hb, h, hw]
          · rw [show a + (k + 1) = a + 1 + k by omega]; exact hr
        · refine .inr (.inr ⟨k + 1, by omega, ?_, .inr (by omega), by omega⟩)
          rw [memWrite, bind_run_ok hb, h, hw]
      · refine .inr (.inl ⟨0, by omega, ?_, .zero _ _, by simpa using hp, by omega⟩)
        rw [memWrite, bind_run_error (r := writeByte a (BitVec.ofNat 8 v)) (e := .raised .busError 0) (t := s)]
        · rfl
        · rw [writeByte, if_neg hs, if_pos (by simpa using hp)]

theorem memWrite_run {s : State} {a n : Nat} (v : Nat) (ha : a + n ≤ Config.addressSpace) (hp : AllAdmitted s.platform a n) :
    memWrite a n v s = .ok () (withStores s (cells a n v)) := by
  rcases memWrite_cases s a n v with ⟨h, -⟩ | ⟨k, hk, -, -, hr, -⟩ | ⟨k, hk, -, -, hs⟩
  · exact h
  · rw [hp (a + k) (by omega) (by omega)] at hr; cases hr
  · omega

/-- The stores of `StoreElem(vbase, i, v)` in order (20_memory.md R64). -/
def elemCells (s : State) (vbase i v : Nat) : List Host.Cell := cells (s.elemAddr vbase i) s.elemBytes (v % 2 ^ s.elemWidth)

theorem storeElem_run {s : State} {vbase i : Nat} (v : Nat) (ha : s.elemAddr vbase i + s.elemBytes ≤ Config.addressSpace)
    (hp : AllAdmitted s.platform (s.elemAddr vbase i) s.elemBytes) :
    storeElem vbase i v s = .ok () (withStores s (elemCells s vbase i v)) := by
  rw [storeElem, bind_run_ok (get_run s), memWrite_run _ ha hp]; rfl

/-- `StoreElem` stores the element's bytes in order, or the first `k` of them before a refused byte or the end of the address space. -/
theorem storeElem_cases (s : State) (vbase i v : Nat) :
    (storeElem vbase i v s = .ok () (withStores s (elemCells s vbase i v))) ∨
    (∃ k < s.elemBytes,
      storeElem vbase i v s = .error (.raised .busError 0) (withStores s ((elemCells s vbase i v).take k))) ∨
    (∃ k < s.elemBytes,
      storeElem vbase i v s = .error (.stopped .outsideAddressSpace) (withStores s ((elemCells s vbase i v).take k)) ∧
      Config.addressSpace < s.elemAddr vbase i + s.elemBytes) := by
  rw [storeElem, bind_run_ok (get_run s)]
  rcases memWrite_cases s (s.elemAddr vbase i) s.elemBytes (v % 2 ^ s.elemWidth) with
    ⟨h, -⟩ | ⟨k, hk, h, -⟩ | ⟨k, hk, h, -, hs⟩
  · exact .inl h
  · exact .inr (.inl ⟨k, hk, by rw [h, elemCells, cells_take _ _ _ _ hk.le]⟩)
  · exact .inr (.inr ⟨k, hk, by rw [h, elemCells, cells_take _ _ _ _ hk.le], by omega⟩)

/-! ### The work stack (10_state.md R39, R41) -/

theorem stackPush_run (s : State) (c : BitCluster) :
    stackPush c s = if Config.stackCap ≤ s.stkSp then .error (.raised .stackOverflow 0) s else .ok ⟨⟩ (s.pushed c) := by
  rw [stackPush, bind_run_ok (get_run s), bind_run, raiseIf_run]
  by_cases h : Config.stackCap ≤ s.stkSp <;> simp [h]

@[simp] theorem stackClear_run (s : State) : stackClear s = .ok ⟨⟩ (s.withStack []) := rfl

theorem stackPop_run (s : State) :
    stackPop s = match s.stack with
      | [] => .ok none s
      | c :: rest => .ok (some c) (s.withStack rest) := by
  rw [stackPop, bind_run_ok (get_run s)]
  cases s.stack <;> rfl

@[simp] theorem stkSp_withStack (s : State) (k : List BitCluster) : (s.withStack k).stkSp = k.length := rfl
@[simp] theorem stkSp_pushed (s : State) (c : BitCluster) : (s.pushed c).stkSp = s.stkSp + 1 := rfl

end Sys2Proof.Laws
end

