-- ==== Sys2Proof/Laws/Tables.lean ====
section
/-! SUPPORT. The tables and the configuration: masks, bit lengths, element widths (00_scope.md R12 to R15, 10_state.md R29). -/

namespace Sys2Proof.Laws
open Sys2Proof.Machine Sys2Proof.Format

theorem and_sizeMask (v n : Nat) : v &&& sizeMask n = v % 2 ^ n := Nat.and_two_pow_sub_one_eq_mod v n

theorem and_sizeMask_lt (v n : Nat) : v &&& sizeMask n < 2 ^ n := by
  rw [and_sizeMask]; exact Nat.mod_lt _ (Nat.two_pow_pos n)

@[simp] theorem sizeMask_zero : sizeMask 0 = 0 := rfl

theorem bitsLen64_zero : bitsLen64 0 = 0 := rfl

/-- `v` fits in `BitsLen64(v)` bits (R14). -/
theorem lt_two_pow_bitsLen64 (v : Nat) : v < 2 ^ bitsLen64 v := by
  unfold bitsLen64
  split
  · next h => simp [h]
  · exact Nat.lt_log2_self

/-- A value below `2^k` has at most `k` bits (R14). -/
theorem bitsLen64_le {v k : Nat} (h : v < 2 ^ k) : bitsLen64 v ≤ k := by
  unfold bitsLen64
  split
  · exact Nat.zero_le _
  · next h0 => exact (Nat.log2_lt h0).2 h

theorem bitsLen64_pos {v : Nat} (h : 0 < v) : 0 < bitsLen64 v := by
  unfold bitsLen64
  rw [if_neg (by omega)]; omega

/-- A count field is never wider than the length it counts (70_reset_and_hazards.md R236). -/
theorem bitsLen64_le_self (v : Nat) : bitsLen64 v ≤ v := bitsLen64_le Nat.lt_two_pow_self

theorem and_bitMask_eq_zero (v i : Nat) : v &&& bitMask i = 0 ↔ v.testBit i = false := by
  unfold bitMask
  rw [Nat.and_two_pow]
  cases v.testBit i <;> simp

/-! ### The element width -/

theorem wsel_lt (s : State) : s.wsel < 4 := (s.cfg.extractLsb' 0 2).isLt

/-- `W` is 8, 16, 32 or 64 (10_state.md R29). -/
theorem elemWidth_cases (s : State) : s.elemWidth = 8 ∨ s.elemWidth = 16 ∨ s.elemWidth = 32 ∨ s.elemWidth = 64 := by
  have h := wsel_lt s
  unfold State.elemWidth
  interval_cases s.wsel <;> simp

theorem elemWidth_eq (s : State) : s.elemWidth = 8 * s.elemBytes := by
  unfold State.elemBytes
  rcases elemWidth_cases s with h | h | h | h <;> rw [h]

theorem elemBytes_pos (s : State) : 0 < s.elemBytes := by
  unfold State.elemBytes
  rcases elemWidth_cases s with h | h | h | h <;> rw [h] <;> decide

theorem elemBytes_le (s : State) : s.elemBytes ≤ 8 := by
  unfold State.elemBytes
  rcases elemWidth_cases s with h | h | h | h <;> rw [h] <;> decide

theorem elemWidth_le (s : State) : s.elemWidth ≤ 64 := by
  rcases elemWidth_cases s with h | h | h | h <;> omega

/-- With a legal `CFG.BW`, `1 ≤ EBW ≤ W` (10_state.md R29). -/
theorem ebw_le (s : State) (h : s.badConfig = false) : s.ebw ≤ s.elemWidth := by
  unfold State.badConfig at h
  unfold State.ebw
  split
  · exact le_rfl
  · simpa using h

theorem ebw_pos (s : State) : 0 < s.ebw := by
  unfold State.ebw
  split
  · rcases elemWidth_cases s with h | h | h | h <;> omega
  · omega

/-- Every element below the length lies inside the array's bytes (20_memory.md R64, R65). -/
theorem elemAddr_add_le (s : State) {vbase len i : Nat} (h : i < len) :
    s.elemAddr vbase i + s.elemBytes ≤ vbase + s.arrayBytes len := by
  unfold State.elemAddr State.arrayBytes
  have : (i + 1) * s.elemBytes ≤ len * s.elemBytes := Nat.mul_le_mul_right _ h
  rw [Nat.add_mul, Nat.one_mul] at this
  omega

theorem le_elemAddr (s : State) (vbase i : Nat) : vbase ≤ s.elemAddr vbase i := Nat.le_add_right _ _

theorem elemValue_lt (s : State) (vbase i : Nat) : elemValue s vbase i < 2 ^ s.elemWidth := by
  rw [elemWidth_eq]; exact memNat_lt _ _ _

/-- A range check that passes keeps the range inside the address space (00_scope.md R16). -/
theorem lt_of_rangeTooFar {base bytes : Nat} (h : rangeTooFar base bytes = false) : base + bytes < Config.addressSpace := by
  simpa [rangeTooFar] using h

end Sys2Proof.Laws
end

