-- ==== Sys2Proof/Laws/Walk.lean ====
section
/-! SUPPORT. The work stack during a tree walk: which clusters it holds, why it stays within its bound, and the weights that make the walks
end (10_state.md R40, R42, R43; 44_bct_encoder.md R167; 45_bct_decoder.md R183). -/

namespace Sys2Proof.Laws
open Sys2Proof.Machine Sys2Proof.Format

/-! ### Register round trips -/

theorem toWord_toNat {n : Nat} (h : n < 2 ^ 64) : (toWord n).toNat = n := by
  rw [BitVec.toNat_ofNat]; exact Nat.mod_eq_of_lt h

theorem toCount_toNat {n : Nat} (h : n < 128) : (toCount n).toNat = n := by
  rw [BitVec.toNat_ofNat]; exact Nat.mod_eq_of_lt h

/-! ### Clusters -/

/-- A cluster of an array of `len` elements under a tree of `E` bits (10_state.md R43). -/
structure ClusterIn (len E : Nat) (c : BitCluster) : Prop where
  inside : c.start.toNat + c.length.toNat ≤ len
  length_pos : 0 < c.length.toNat
  bitPos_le : c.bitPos.toNat ≤ E

/-- The shape of the stack of a walk: below the top entry the bit positions strictly rise, none of them reaches the root's (R42). -/
def Ladder (E : Nat) : List BitCluster → Prop
  | [] => True
  | c :: rest => c.bitPos.toNat ≤ E ∧ (∀ r ∈ rest, c.bitPos.toNat ≤ r.bitPos.toNat ∧ r.bitPos.toNat < E) ∧
      rest.Pairwise fun a b => a.bitPos.toNat < b.bitPos.toNat

theorem rising_length {f : BitCluster → Nat} {p E : Nat} : ∀ {k : List BitCluster}, (∀ r ∈ k, p ≤ f r ∧ f r < E) →
    k.Pairwise (fun a b => f a < f b) → k.length ≤ E - p
  | [], _, _ => Nat.zero_le _
  | c :: k, h, hp => by
    rw [List.pairwise_cons] at hp
    have hc := h c (by simp)
    have := rising_length (f := f) (p := f c + 1) (E := E) (k := k)
      (fun r hr => ⟨hp.1 r hr, (h r (by simp [hr])).2⟩) hp.2
    rw [List.length_cons]; omega

/-- When a cluster of bit position `p` is popped, at most `E - p` entries wait below it (R42). -/
theorem Ladder.length_rest {E : Nat} {c : BitCluster} {rest : List BitCluster} (h : Ladder E (c :: rest)) :
    rest.length ≤ E - c.bitPos.toNat := rising_length h.2.1 h.2.2

theorem Ladder.tail {E : Nat} {c : BitCluster} {rest : List BitCluster} (h : Ladder E (c :: rest)) : Ladder E rest := by
  obtain ⟨-, hr, hp⟩ := h
  cases rest with
  | nil => trivial
  | cons d rest =>
    rw [List.pairwise_cons] at hp
    exact ⟨(hr d (by simp)).2.le, fun r hrr => ⟨(hp.1 r hrr).le, (hr r (by simp [hrr])).2⟩, hp.2⟩

theorem Ladder.push_one {E : Nat} {c x : BitCluster} {rest : List BitCluster} (h : Ladder E (c :: rest))
    (hp : 0 < c.bitPos.toNat) (hx : x.bitPos.toNat = c.bitPos.toNat - 1) : Ladder E (x :: rest) := by
  obtain ⟨h1, h2, h3⟩ := h
  exact ⟨by omega, fun r hr => ⟨by have := (h2 r hr).1; omega, (h2 r hr).2⟩, h3⟩

theorem Ladder.push_two {E : Nat} {c x y : BitCluster} {rest : List BitCluster} (h : Ladder E (c :: rest))
    (hp : 0 < c.bitPos.toNat) (hx : x.bitPos.toNat = c.bitPos.toNat - 1) (hy : y.bitPos.toNat = c.bitPos.toNat - 1) :
    Ladder E (x :: y :: rest) := by
  obtain ⟨h1, h2, h3⟩ := h
  refine ⟨by omega, fun r hr => ?_, ?_⟩
  · rcases List.mem_cons.1 hr with rfl | hr
    · omega
    · have := h2 r hr; omega
  · rw [List.pairwise_cons]
    exact ⟨fun r hr => by have := (h2 r hr).1; omega, h3⟩

/-! ### Weights -/

/-- Every pop of the encoder takes at least one from this sum; the children of a cluster weigh less than it (R167). -/
def encWeight : List BitCluster → Nat
  | [] => 0
  | c :: k => c.length.toNat * c.bitPos.toNat + encWeight k

/-- The same for the decoder, whose clusters at bit position 0 still have work to do (45_bct_decoder.md R183). -/
def decWeight : List BitCluster → Nat
  | [] => 0
  | c :: k => c.length.toNat * (c.bitPos.toNat + 1) + decWeight k

theorem encWeight_pos {c : BitCluster} {k : List BitCluster} (hl : 0 < c.length.toNat) (hp : 0 < c.bitPos.toNat) :
    0 < encWeight (c :: k) := by
  have := Nat.mul_pos hl hp
  simp only [encWeight]; omega

theorem decWeight_pos {c : BitCluster} {k : List BitCluster} (hl : 0 < c.length.toNat) : 0 < decWeight (c :: k) := by
  have := Nat.mul_pos hl (show 0 < c.bitPos.toNat + 1 by omega)
  simp only [decWeight]; omega

/-! ### The high-water mark -/

/-- The stack is within its capacity and the high-water mark (10_state.md R37). -/
structure StackBounded (s : State) : Prop where
  sp_le_hwm : s.stkSp ≤ s.stkHwm.toNat
  hwm_le : s.stkHwm.toNat ≤ 64

theorem StackBounded.withStack {s : State} (h : StackBounded s) {k : List BitCluster} (hk : k.length ≤ s.stkSp) :
    StackBounded (s.withStack k) :=
  ⟨by rw [stkSp_withStack, withStack_stkHwm]; exact hk.trans h.sp_le_hwm, h.hwm_le⟩

theorem StackBounded.pushed {s : State} (h : StackBounded s) (c : BitCluster) (hs : s.stkSp < 64) : StackBounded (s.pushed c) := by
  have h1 := h.sp_le_hwm
  have h2 := h.hwm_le
  have : (s.pushed c).stkHwm.toNat = max s.stkHwm.toNat (s.stkSp + 1) := by
    rw [pushed_stkHwm, toCount_toNat (by omega)]
  exact ⟨by rw [this, stkSp_pushed]; omega, by rw [this]; omega⟩

theorem stackPush_ok {s : State} (c : BitCluster) (hs : s.stkSp < 64) : stackPush c s = .ok ⟨⟩ (s.pushed c) := by
  rw [stackPush_run, if_neg (by simp [Config.stackCap]; omega)]

end Sys2Proof.Laws
end

