-- ==== Sys2Proof/Laws/Writer.lean ====
section
/-! SUPPORT. What the writer's operations can do, said once for each (41_bitstream_writer.md R111 to R118), and the stream that the
writer's registers and buffer hold together. -/

namespace Sys2Proof.Laws
open Sys2Proof.Machine Sys2Proof.Format

/-! ### The registers -/

theorem merged_zero (s : State) (v : Nat) : s.merged v 0 = s := by
  simp [State.merged, State.withWriter]

theorem merged_wrCnt_toNat {s : State} {v n : Nat} (h : s.wrCnt.toNat + n ≤ 64) :
    (s.merged v n).wrCnt.toNat = s.wrCnt.toNat + n := by
  rw [merged_wrCnt, BitVec.toNat_ofNat]; exact Nat.mod_eq_of_lt (by omega)

/-- Merging a field adds it above the pending bits; nothing is lost (R112). -/
theorem merged_wrAcc_toNat {s : State} {v n : Nat} (ha : s.wrAcc.toNat < 2 ^ s.wrCnt.toNat) (h : s.wrCnt.toNat + n ≤ 64) :
    (s.merged v n).wrAcc.toNat = s.wrAcc.toNat + (v &&& sizeMask n) * 2 ^ s.wrCnt.toNat := by
  have hm := and_sizeMask_lt v n
  have hlt : (v &&& sizeMask n) <<< s.wrCnt.toNat < 2 ^ 64 := by
    rw [Nat.shiftLeft_eq]
    calc (v &&& sizeMask n) * 2 ^ s.wrCnt.toNat < 2 ^ n * 2 ^ s.wrCnt.toNat :=
          Nat.mul_lt_mul_of_pos_right hm (Nat.two_pow_pos _)
      _ = 2 ^ (n + s.wrCnt.toNat) := (Nat.pow_add _ _ _).symm
      _ ≤ 2 ^ 64 := Nat.pow_le_pow_right (by decide) (by omega)
  rw [merged_wrAcc, BitVec.toNat_or, BitVec.toNat_ofNat, Nat.mod_eq_of_lt hlt, Nat.or_comm,
    ← Nat.shiftLeft_add_eq_or_of_lt ha, Nat.shiftLeft_eq, Nat.add_comm]

theorem merged_wrAcc_lt {s : State} {v n : Nat} (ha : s.wrAcc.toNat < 2 ^ s.wrCnt.toNat) (h : s.wrCnt.toNat + n ≤ 64) :
    (s.merged v n).wrAcc.toNat < 2 ^ (s.wrCnt.toNat + n) := by
  rw [merged_wrAcc_toNat ha h, Nat.pow_add]
  have hm := and_sizeMask_lt v n
  have : ((v &&& sizeMask n) + 1) * 2 ^ s.wrCnt.toNat ≤ 2 ^ n * 2 ^ s.wrCnt.toNat := Nat.mul_le_mul_right _ hm
  rw [Nat.mul_comm (2 ^ s.wrCnt.toNat)]
  nlinarith

theorem wholeBytes_eq (s : State) : s.wholeBytes = s.wrCnt.toNat / 8 := by
  simp [State.wholeBytes, Nat.shiftRight_eq_div_pow]

theorem and_seven (c : Count7) : (c &&& 7).toNat = c.toNat % 8 := by
  rw [BitVec.toNat_and]; exact Nat.and_two_pow_sub_one_eq_mod c.toNat 3

theorem flushed_wrCnt_toNat (s : State) (nb : Nat) : (s.flushed nb).wrCnt.toNat = s.wrCnt.toNat % 8 := by
  rw [flushed_wrCnt, and_seven]

theorem flushed_wrAcc_toNat (s : State) (nb : Nat) : (s.flushed nb).wrAcc.toNat = s.wrAcc.toNat / 2 ^ (8 * nb) := by
  rw [flushed_wrAcc, BitVec.toNat_ushiftRight, Nat.shiftRight_eq_div_pow]

theorem flushed_wrPtr_toNat {s : State} {nb : Nat} (h : s.wrPtr.toNat + nb < Config.addressSpace) :
    (s.flushed nb).wrPtr.toNat = s.wrPtr.toNat + nb := by
  rw [flushed_wrPtr, BitVec.toNat_ofNat]; exact Nat.mod_eq_of_lt h

/-! ### `FlushBody`, `BSW.WRITE`, `BSW.FLUSH` (R113 to R115) -/

/-- The byte stores of `FlushBody` in order (R113). -/
def flushCells (s : State) : List Host.Cell := cells s.wrPtr.toNat s.wholeBytes s.wrAcc.toNat

/-- The state after `FlushBody` (R113). -/
def afterFlush (s : State) : State := (withStores s (flushCells s)).flushed s.wholeBytes

/-- `FlushBody` stores the complete bytes and updates its registers together, or stores a part and updates none (R113). -/
theorem flushBody_cases (s : State) :
    (flushBody s = .ok ⟨⟩ (afterFlush s) ∧ AllAdmitted s.platform s.wrPtr.toNat s.wholeBytes) ∨
    (∃ k < s.wholeBytes, flushBody s = .error (.raised .busError 0) (withStores s ((flushCells s).take k)) ∧
      admitted s.platform (s.wrPtr.toNat + k) = false ∧ AllAdmitted s.platform s.wrPtr.toNat k) ∨
    (∃ k < s.wholeBytes, flushBody s = .error (.stopped .outsideAddressSpace) (withStores s ((flushCells s).take k)) ∧
      Config.addressSpace < s.wrPtr.toNat + s.wholeBytes) := by
  rw [flushBody, bind_run_ok (get_run s)]
  rcases memWrite_cases s s.wrPtr.toNat s.wholeBytes s.wrAcc.toNat with
    ⟨h, hall, -⟩ | ⟨k, hk, h, hall, hr, -⟩ | ⟨k, hk, h, -, hs⟩
  · exact .inl ⟨by rw [bind_run_ok h]; rfl, hall⟩
  · exact .inr (.inl ⟨k, hk, by rw [bind_run_error h, flushCells, cells_take _ _ _ _ hk.le], hr, hall⟩)
  · exact .inr (.inr ⟨k, hk, by rw [bind_run_error h, flushCells, cells_take _ _ _ _ hk.le], by omega⟩)

theorem keepWriterOnRaise_ok {α : Type} {r : Rule α} {s t : State} {a : α} (h : r s = .ok a t) :
    keepWriterOnRaise r s = .ok a t := by rw [keepWriterOnRaise, h]

theorem keepWriterOnRaise_raised {α : Type} {r : Rule α} {s t : State} {e : Err} {i : BitVec 8}
    (h : r s = .error (.raised e i) t) :
    keepWriterOnRaise r s = .error (.raised e i) (t.withWriter s.wrPtr s.wrAcc s.wrCnt) := by rw [keepWriterOnRaise, h]

theorem keepWriterOnRaise_stopped {α : Type} {r : Rule α} {s t : State} {f : Fault} (h : r s = .error (.stopped f) t) :
    keepWriterOnRaise r s = .error (.stopped f) t := by rw [keepWriterOnRaise, h]

theorem raiseIfWriterClosed_run (s : State) :
    raiseIfWriterClosed s = if s.wrOpen then .ok () s else .error (.raised .notOpen 0) s := by
  rw [raiseIfWriterClosed, bind_run_ok (get_run s), raiseIf_run]
  cases s.wrOpen <;> rfl

theorem raiseIfPastLimit_run (s : State) :
    raiseIfPastLimit s = if s.wrLimit.toNat < s.wrPtr.toNat then .error (.raised .endOfStream 0) s else .ok () s := by
  rw [raiseIfPastLimit, bind_run_ok (get_run s), raiseIf_run]
  by_cases h : s.wrLimit.toNat < s.wrPtr.toNat <;> simp [h]

/-- The state after `BSW.WRITE` of `n` bits of `v` (R115). -/
def afterWrite (s : State) (v n : Nat) : State := afterFlush (s.merged v n)

theorem mergeFlush_cases (s : State) (v n : Nat) :
    (keepWriterOnRaise (do modify fun t => t.merged v n; flushBody) s = .ok ⟨⟩ (afterWrite s v n) ∧
      AllAdmitted s.platform s.wrPtr.toNat (s.merged v n).wholeBytes) ∨
    (∃ k < (s.merged v n).wholeBytes,
      keepWriterOnRaise (do modify fun t => t.merged v n; flushBody) s =
        .error (.raised .busError 0) (withStores s ((flushCells (s.merged v n)).take k)) ∧
      admitted s.platform (s.wrPtr.toNat + k) = false ∧ AllAdmitted s.platform s.wrPtr.toNat k) ∨
    (∃ k < (s.merged v n).wholeBytes,
      keepWriterOnRaise (do modify fun t => t.merged v n; flushBody) s =
        .error (.stopped .outsideAddressSpace) (withStores (s.merged v n) ((flushCells (s.merged v n)).take k)) ∧
      Config.addressSpace < s.wrPtr.toNat + (s.merged v n).wholeBytes) := by
  have hm : ∀ x, flushBody (s.merged v n) = x → (do modify fun t => t.merged v n; flushBody : Rule Unit) s = x := by
    intro x hx
    rw [bind_run_ok (modify_run _ s), hx]
  rcases flushBody_cases (s.merged v n) with ⟨h, hall⟩ | ⟨k, hk, h, hr⟩ | ⟨k, hk, h, hs⟩
  · exact .inl ⟨keepWriterOnRaise_ok (hm _ h), by simpa using hall⟩
  · exact .inr (.inl ⟨k, hk, by rw [keepWriterOnRaise_raised (hm _ h)]; rfl, by simpa using hr⟩)
  · exact .inr (.inr ⟨k, hk, keepWriterOnRaise_stopped (hm _ h), by simpa using hs⟩)

/-- All that `BSW.WRITE` can do, its checks in their order (R115, R207). -/
theorem writerWrite_cases (s : State) (v n : Nat) :
    (s.wrOpen = false ∧ writerWrite v n s = .error (.raised .notOpen 0) s) ∨
    (s.wrOpen = true ∧ (57 < n ∨ 64 < s.wrCnt.toNat + n) ∧ writerWrite v n s = .error (.raised .contractViolation 0) s) ∨
    (s.wrOpen = true ∧ n ≤ 57 ∧ s.wrCnt.toNat + n ≤ 64 ∧ s.wrLimit.toNat < s.wrPtr.toNat ∧
      writerWrite v n s = .error (.raised .endOfStream 0) s) ∨
    (s.wrOpen = true ∧ n ≤ 57 ∧ s.wrCnt.toNat + n ≤ 64 ∧ s.wrPtr.toNat ≤ s.wrLimit.toNat ∧
      ((writerWrite v n s = .ok ⟨⟩ (afterWrite s v n) ∧ AllAdmitted s.platform s.wrPtr.toNat (s.merged v n).wholeBytes) ∨
       (∃ k < (s.merged v n).wholeBytes,
         writerWrite v n s = .error (.raised .busError 0) (withStores s ((flushCells (s.merged v n)).take k)) ∧
         admitted s.platform (s.wrPtr.toNat + k) = false ∧ AllAdmitted s.platform s.wrPtr.toNat k) ∨
       (∃ k < (s.merged v n).wholeBytes,
         writerWrite v n s =
           .error (.stopped .outsideAddressSpace) (withStores (s.merged v n) ((flushCells (s.merged v n)).take k)) ∧
         Config.addressSpace < s.wrPtr.toNat + (s.merged v n).wholeBytes))) := by
  unfold writerWrite
  cases ho : s.wrOpen with
  | false =>
    refine .inl ⟨rfl, ?_⟩
    rw [bind_run_error (e := .raised .notOpen 0) (t := s)]
    rw [raiseIfWriterClosed_run, ho]; rfl
  | true =>
    refine .inr ?_
    have h1 : raiseIfWriterClosed s = .ok () s := by rw [raiseIfWriterClosed_run, ho]; rfl
    rw [bind_run_ok h1]
    by_cases hn : 57 < n
    · refine .inl ⟨rfl, .inl hn, ?_⟩
      rw [bind_run_error (e := .raised .contractViolation 0) (t := s)]
      simp [Config.maxField, hn]
    rw [bind_run_ok (a := ()) (t := s) (by simp [Config.maxField, hn]), bind_run_ok (get_run s)]
    by_cases hc : 64 < s.wrCnt.toNat + n
    · refine .inl ⟨rfl, .inr hc, ?_⟩
      rw [bind_run_error (e := .raised .contractViolation 0) (t := s)]
      simp [hc]
    rw [bind_run_ok (a := ()) (t := s) (by simp [hc])]
    by_cases hl : s.wrLimit.toNat < s.wrPtr.toNat
    · refine .inr (.inl ⟨rfl, by omega, by omega, hl, ?_⟩)
      rw [bind_run_error (e := .raised .endOfStream 0) (t := s)]
      rw [raiseIfPastLimit_run, if_pos hl]
    refine .inr (.inr ⟨rfl, by omega, by omega, by omega, ?_⟩)
    rw [bind_run_ok (a := ()) (t := s) (by rw [raiseIfPastLimit_run, if_neg hl])]
    exact mergeFlush_cases s v n

/-- All that `BSW.FLUSH` can do (R114, R207). -/
theorem writerFlush_cases (s : State) :
    (s.wrOpen = false ∧ writerFlush s = .error (.raised .notOpen 0) s) ∨
    (s.wrOpen = true ∧ s.wrLimit.toNat < s.wrPtr.toNat ∧ writerFlush s = .error (.raised .endOfStream 0) s) ∨
    (s.wrOpen = true ∧ s.wrPtr.toNat ≤ s.wrLimit.toNat ∧
      ((writerFlush s = .ok ⟨⟩ (afterFlush s) ∧ AllAdmitted s.platform s.wrPtr.toNat s.wholeBytes) ∨
       (∃ k < s.wholeBytes, writerFlush s = .error (.raised .busError 0) (withStores s ((flushCells s).take k)) ∧
         admitted s.platform (s.wrPtr.toNat + k) = false ∧ AllAdmitted s.platform s.wrPtr.toNat k) ∨
       (∃ k < s.wholeBytes, writerFlush s = .error (.stopped .outsideAddressSpace) (withStores s ((flushCells s).take k)) ∧
         Config.addressSpace < s.wrPtr.toNat + s.wholeBytes))) := by
  unfold writerFlush
  cases ho : s.wrOpen with
  | false =>
    refine .inl ⟨rfl, ?_⟩
    rw [bind_run_error (e := .raised .notOpen 0) (t := s)]
    rw [raiseIfWriterClosed_run, ho]; rfl
  | true =>
    refine .inr ?_
    have h1 : raiseIfWriterClosed s = .ok () s := by rw [raiseIfWriterClosed_run, ho]; rfl
    rw [bind_run_ok h1]
    by_cases hl : s.wrLimit.toNat < s.wrPtr.toNat
    · refine .inl ⟨rfl, hl, ?_⟩
      rw [bind_run_error (e := .raised .endOfStream 0) (t := s)]
      rw [raiseIfPastLimit_run, if_pos hl]
    refine .inr ⟨rfl, by omega, ?_⟩
    rw [bind_run_ok (a := ()) (t := s) (by rw [raiseIfPastLimit_run, if_neg hl])]
    rcases flushBody_cases s with ⟨h, hall⟩ | ⟨k, hk, h, hr⟩ | ⟨k, hk, h, hs⟩
    · exact .inl ⟨keepWriterOnRaise_ok h, hall⟩
    · exact .inr (.inl ⟨k, hk, by rw [keepWriterOnRaise_raised h]; rfl, hr⟩)
    · exact .inr (.inr ⟨k, hk, keepWriterOnRaise_stopped h, hs⟩)

/-! ### What the writer holds: the stream so far -/

/-- The number of bits put into the open writer since it was initialised. -/
def streamPos (s : State) : Nat := 8 * (s.wrPtr.toNat - s.wrBase.toNat) + s.wrCnt.toNat

/-- The stream put into the open writer: the bytes stored and the pending bits above them (R118). -/
def streamSoFar (s : State) : Nat :=
  memNat s.mem s.wrBase.toNat (s.wrPtr.toNat - s.wrBase.toNat) + 2 ^ (8 * (s.wrPtr.toNat - s.wrBase.toNat)) * s.wrAcc.toNat

/-- The writer is open, its invariants hold and at most 7 bits are pending: what every `BSW.WRITE` leaves (10_state.md R31). -/
structure WriterReady (s : State) : Prop where
  isOpen : s.wrOpen = true
  acc_lt : s.wrAcc.toNat < 2 ^ s.wrCnt.toNat
  cnt_le : s.wrCnt.toNat ≤ 7
  base_le : s.wrBase.toNat ≤ s.wrPtr.toNat
  ptr_le : s.wrPtr.toNat ≤ s.wrLimit.toNat + 8
  limit_lt : s.wrLimit.toNat + 8 < Config.addressSpace

theorem WriterReady.writerInv {s : State} (h : WriterReady s) : s.writerInv := fun _ =>
  ⟨h.acc_lt, by have := h.cnt_le; omega, h.base_le, h.ptr_le, h.limit_lt⟩

/-- A state whose memory below the write pointer and writer registers are the same holds the same stream. -/
theorem streamSoFar_congr {s t : State} (hb : t.wrBase = s.wrBase) (hp : t.wrPtr = s.wrPtr) (ha : t.wrAcc = s.wrAcc)
    (hm : ∀ x, s.wrBase.toNat ≤ x → x < s.wrPtr.toNat → t.mem.read x = s.mem.read x) : streamSoFar t = streamSoFar s := by
  unfold streamSoFar
  rw [hb, hp, ha, memNat_congr fun x h1 h2 => hm x h1 (by omega)]

/-- The bytes of a natural assemble to it again. -/
theorem memNat_cells (m : Memory) : ∀ a n v : Nat, memNat (applyStores m (cells a n v)) a n = v % 2 ^ (8 * n)
  | _, 0, _ => by simp [Nat.mod_one]
  | a, n + 1, v => by
    have h1 : (applyStores m (cells a (n + 1) v)).read a = BitVec.ofNat 8 v := by
      rw [read_applyStores_cells, if_pos (by omega)]; simp
    have h2 : memNat (applyStores m (cells a (n + 1) v)) (a + 1) n =
        memNat (applyStores (m.write a (BitVec.ofNat 8 v)) (cells (a + 1) n (v / 256))) (a + 1) n := rfl
    rw [memNat_succ, h1, h2, memNat_cells _ (a + 1) n (v / 256), BitVec.toNat_ofNat]
    have : (2 : Nat) ^ (8 * (n + 1)) = 256 * 2 ^ (8 * n) := by rw [Nat.mul_succ, Nat.pow_add]; ring
    rw [this, Nat.mod_mul]

/-- The flush of a writer whose pending bits are below `2^cnt` moves whole bytes to memory; the stream stays what it is, and at most 7
bits stay pending (R113). -/
theorem afterFlush_ready {s : State} (ho : s.wrOpen = true) (ha : s.wrAcc.toNat < 2 ^ s.wrCnt.toNat) (hc : s.wrCnt.toNat ≤ 64)
    (hb : s.wrBase.toNat ≤ s.wrPtr.toNat) (hp : s.wrPtr.toNat ≤ s.wrLimit.toNat)
    (hl : s.wrLimit.toNat + 8 < Config.addressSpace) :
    WriterReady (afterFlush s) ∧ streamPos (afterFlush s) = streamPos s ∧ streamSoFar (afterFlush s) = streamSoFar s ∧
      (afterFlush s).wrPtr.toNat = s.wrPtr.toNat + s.wrCnt.toNat / 8 ∧ (afterFlush s).wrCnt.toNat = s.wrCnt.toNat % 8 ∧
      (afterFlush s).wrAcc.toNat = s.wrAcc.toNat / 2 ^ (8 * (s.wrCnt.toNat / 8)) := by
  have hwb := wholeBytes_eq s
  have hptr : (afterFlush s).wrPtr.toNat = s.wrPtr.toNat + s.wrCnt.toNat / 8 := by
    unfold afterFlush
    rw [flushed_wrPtr_toNat (by simp only [withStores_wrPtr]; omega), withStores_wrPtr, hwb]
  have hcnt : (afterFlush s).wrCnt.toNat = s.wrCnt.toNat % 8 := by
    unfold afterFlush
    rw [flushed_wrCnt_toNat, withStores_wrCnt]
  have hacc : (afterFlush s).wrAcc.toNat = s.wrAcc.toNat / 2 ^ (8 * (s.wrCnt.toNat / 8)) := by
    unfold afterFlush
    rw [flushed_wrAcc_toNat, withStores_wrAcc, hwb]
  have hbase : (afterFlush s).wrBase = s.wrBase := rfl
  have hlim : (afterFlush s).wrLimit = s.wrLimit := rfl
  refine ⟨⟨ho, ?_, ?_, ?_, ?_, ?_⟩, ?_, ?_, hptr, hcnt, hacc⟩
  · rw [hacc, hcnt]
    refine Nat.div_lt_of_lt_mul ?_
    rw [← Nat.pow_add]
    rwa [show 8 * (s.wrCnt.toNat / 8) + s.wrCnt.toNat % 8 = s.wrCnt.toNat by omega]
  · rw [hcnt]; omega
  · rw [hbase, hptr]; omega
  · rw [hptr, hlim]; omega
  · rw [hlim]; exact hl
  · unfold streamPos; rw [hptr, hcnt, hbase]; omega
  · unfold streamSoFar
    have hd : (afterFlush s).wrPtr.toNat - s.wrBase.toNat = (s.wrPtr.toNat - s.wrBase.toNat) + s.wrCnt.toNat / 8 := by
      rw [hptr]; omega
    have hmem : (afterFlush s).mem = applyStores s.mem (cells s.wrPtr.toNat (s.wrCnt.toNat / 8) s.wrAcc.toNat) := by
      show applyStores s.mem (flushCells s) = _
      rw [flushCells, hwb]
    rw [hbase, hd, memNat_add, hmem]
    have h1 : memNat (applyStores s.mem (cells s.wrPtr.toNat (s.wrCnt.toNat / 8) s.wrAcc.toNat)) s.wrBase.toNat
        (s.wrPtr.toNat - s.wrBase.toNat) = memNat s.mem s.wrBase.toNat (s.wrPtr.toNat - s.wrBase.toNat) :=
      memNat_congr fun x hx1 hx2 => by rw [read_applyStores_cells, if_neg (by omega)]
    rw [h1, show s.wrBase.toNat + (s.wrPtr.toNat - s.wrBase.toNat) = s.wrPtr.toNat by omega, memNat_cells, hacc, Nat.mul_add,
      Nat.pow_add]
    generalize 2 ^ (8 * (s.wrPtr.toNat - s.wrBase.toNat)) = P
    generalize 2 ^ (8 * (s.wrCnt.toNat / 8)) = Q
    have := Nat.mod_add_div s.wrAcc.toNat Q
    calc _ = memNat s.mem s.wrBase.toNat (s.wrPtr.toNat - s.wrBase.toNat) + P * (s.wrAcc.toNat % Q + Q * (s.wrAcc.toNat / Q)) := by
          ring
      _ = _ := by rw [this]

/-- A successful `BSW.WRITE` of a ready writer: `n` more bits in the stream, the field at the stream's end (R115, R118). -/
theorem afterWrite_ready {s : State} (h : WriterReady s) {v n : Nat} (hn : n ≤ 57) (hp : s.wrPtr.toNat ≤ s.wrLimit.toNat) :
    WriterReady (afterWrite s v n) ∧ streamPos (afterWrite s v n) = streamPos s + n ∧
      streamSoFar (afterWrite s v n) = streamSoFar s + (v &&& sizeMask n) * 2 ^ streamPos s ∧
      (afterWrite s v n).wrPtr.toNat = s.wrPtr.toNat + (s.wrCnt.toNat + n) / 8 := by
  have hc : s.wrCnt.toNat + n ≤ 64 := by have := h.cnt_le; omega
  have hcnt := merged_wrCnt_toNat (v := v) hc
  have hacc := merged_wrAcc_toNat (v := v) h.acc_lt hc
  obtain ⟨h1, h2, h3, h4, -, -⟩ := afterFlush_ready (s := s.merged v n) h.isOpen
    (by rw [hcnt]; exact merged_wrAcc_lt h.acc_lt hc) (by omega) h.base_le hp h.limit_lt
  refine ⟨h1, ?_, ?_, ?_⟩
  · show streamPos (afterFlush (s.merged v n)) = _
    rw [h2]; unfold streamPos; rw [hcnt]; simp; omega
  · show streamSoFar (afterFlush (s.merged v n)) = _
    rw [h3]; unfold streamSoFar streamPos; rw [hacc]
    simp only [merged_mem, merged_wrBase, merged_wrPtr]
    rw [Nat.pow_add]; ring
  · show (afterFlush (s.merged v n)).wrPtr.toNat = _
    rw [h4, hcnt]; rfl

/-! ### `BSW.INIT`, `BSW.APPEND`, `BSW.CLOSE` (R111, R112, R116) -/

/-- All that `BSW.INIT` can do, its checks in their order (R111). -/
theorem writerInit_run (s : State) (base cap : Nat) :
    writerInit base cap s =
      if Config.addressSpace ≤ base + cap then .error (.raised .badArgument 0) s
      else if cap < 8 then .error (.raised .bufferTooSmall 0) s
      else .ok ⟨⟩ (s.writerInitialised base cap) := by
  unfold writerInit
  rw [bind_run, raiseIf_run]
  by_cases h1 : Config.addressSpace ≤ base + cap
  · simp [rangeTooFar, h1]
  · rw [if_neg h1, if_neg (by simpa [rangeTooFar] using h1)]
    simp only [bind_run, raiseIf_run]
    by_cases h2 : cap < 8 <;> simp [h2, Config.minCap]

/-- A fresh writer is ready and holds the empty stream (R111). -/
theorem writerInitialised_ready (s : State) {base cap : Nat} (h : base + cap < Config.addressSpace) (hc : 8 ≤ cap) :
    WriterReady (s.writerInitialised base cap) ∧ (s.writerInitialised base cap).wrBase.toNat = base ∧
      (s.writerInitialised base cap).wrLimit.toNat = base + cap - 8 ∧ streamPos (s.writerInitialised base cap) = 0 ∧
      streamSoFar (s.writerInitialised base cap) = 0 := by
  have hb : (toWord base).toNat = base := by
    rw [BitVec.toNat_ofNat]; exact Nat.mod_eq_of_lt (by simp only [Config.addressSpace] at h; omega)
  have hl : (toWord (base + cap - 8)).toNat = base + cap - 8 := by
    rw [BitVec.toNat_ofNat]; exact Nat.mod_eq_of_lt (by simp only [Config.addressSpace] at h; omega)
  refine ⟨⟨rfl, by simp, by simp, by simp, ?_, ?_⟩, hb, hl, by simp [streamPos], by simp [streamSoFar]⟩
  · simp only [writerInitialised_wrPtr, writerInitialised_wrLimit, Config.minCap, hb, hl]; omega
  · simp only [writerInitialised_wrLimit, Config.minCap, hl]; omega

/-- All that `BSW.APPEND` can do, its checks in their order (R112). -/
theorem writerAppend_run (s : State) (v n : Nat) :
    writerAppend v n s =
      if s.wrOpen = false then .error (.raised .notOpen 0) s
      else if 57 < n ∨ 64 ≤ s.wrCnt.toNat + n then .error (.raised .contractViolation 0) s
      else .ok ⟨⟩ (s.merged v n) := by
  unfold writerAppend
  rw [bind_run, raiseIfWriterClosed_run]
  cases ho : s.wrOpen with
  | false => simp
  | true =>
    simp only [if_true, bind_run, raiseIf_run, get_run]
    by_cases hn : 57 < n
    · simp [hn, Config.maxField]
    · by_cases hc : 64 ≤ s.wrCnt.toNat + n <;> simp [hn, hc, Config.maxField]

/-- The store of the trailing partial byte of a flushed writer, if there is one (R116 step b). -/
def tailCells (s : State) : List Host.Cell :=
  if s.wrCnt = 0 then [] else [(s.wrPtr.toNat, BitVec.ofNat 8 s.wrAcc.toNat)]

/-- The byte stores of `BSW.CLOSE` in order (R116). -/
def closeCells (s : State) : List Host.Cell := flushCells s ++ tailCells (afterFlush s)

/-- The state after `BSW.CLOSE` (R116). -/
def afterClose (s : State) : State := { withStores (afterFlush s) (tailCells (afterFlush s)) with wrOpen := false }

/-- The result of `BSW.CLOSE`, the total of bytes written (R116 step c). -/
def closeResult (s : State) : Nat :=
  (afterFlush s).wrPtr.toNat - s.wrBase.toNat + if (afterFlush s).wrCnt = 0 then 0 else 1

theorem afterClose_eq (s : State) :
    afterClose s = { (withStores s (closeCells s)).flushed s.wholeBytes with wrOpen := false } := by
  unfold afterClose closeCells
  rw [withStores_append]
  rfl

/-- All that `BSW.CLOSE` can do from an open writer (R116, R207): it closes; or it is past the limit; or a byte of its stores is refused,
the stores before it made and no register changed; or it leaves the address space. -/
theorem writerClose_cases (s : State) :
    (s.wrOpen = false ∧ writerClose s = .error (.raised .notOpen 0) s) ∨
    (s.wrOpen = true ∧ s.wrLimit.toNat < s.wrPtr.toNat ∧ writerClose s = .error (.raised .endOfStream 0) s) ∨
    (s.wrOpen = true ∧ s.wrPtr.toNat ≤ s.wrLimit.toNat ∧
      (writerClose s = .ok (toWord (closeResult s)) (afterClose s) ∨
       (∃ k < (closeCells s).length, writerClose s = .error (.raised .busError 0) (withStores s ((closeCells s).take k)) ∧
         ∃ a b, (closeCells s)[k]? = some (a, b) ∧ admitted s.platform a = false) ∨
       (∃ t, writerClose s = .error (.stopped .outsideAddressSpace) t ∧
         Config.addressSpace < s.wrPtr.toNat + s.wholeBytes + 1))) := by
  unfold writerClose
  cases ho : s.wrOpen with
  | false =>
    refine .inl ⟨rfl, ?_⟩
    rw [bind_run_error (e := .raised .notOpen 0) (t := s)]
    rw [raiseIfWriterClosed_run, ho]; rfl
  | true =>
    refine .inr ?_
    have h1 : raiseIfWriterClosed s = .ok () s := by rw [raiseIfWriterClosed_run, ho]; rfl
    rw [bind_run_ok h1]
    by_cases hl : s.wrLimit.toNat < s.wrPtr.toNat
    · refine .inl ⟨rfl, hl, ?_⟩
      rw [bind_run_error (e := .raised .endOfStream 0) (t := s)]
      rw [raiseIfPastLimit_run, if_pos hl]
    refine .inr ⟨rfl, by omega, ?_⟩
    rw [bind_run_ok (a := ()) (t := s) (by rw [raiseIfPastLimit_run, if_neg hl])]
    have hlen : (flushCells s).length = s.wholeBytes := cells_length _ _ _
    rcases flushBody_cases s with ⟨h, hall⟩ | ⟨k, hk, h, hr, -⟩ | ⟨k, hk, h, hs⟩
    · by_cases hc : (afterFlush s).wrCnt = 0
      · refine .inl ?_
        rw [keepWriterOnRaise_ok]
        rw [bind_run_ok h, bind_run_ok (get_run _)]
        simp only [hc, if_true]
        rw [bind_run_ok (modify_run _ _), pure_run, closeResult, afterClose, tailCells]
        simp only [hc, if_true, withStores_nil]
        rfl
      · have htail : tailCells (afterFlush s) = cells (afterFlush s).wrPtr.toNat 1 ((afterFlush s).wrAcc.toNat % 256) := by
          rw [tailCells, if_neg hc]
          simp only [cells, List.cons.injEq, Prod.mk.injEq, true_and, and_true]
          apply BitVec.eq_of_toNat_eq
          simp
        rcases memWrite_cases (afterFlush s) (afterFlush s).wrPtr.toNat 1 ((afterFlush s).wrAcc.toNat % 256) with
          ⟨g, -⟩ | ⟨k, hk, g, -, hr, -⟩ | ⟨k, hk, g, hs1, hs2⟩
        · refine .inl ?_
          rw [keepWriterOnRaise_ok]
          rw [bind_run_ok h, bind_run_ok (get_run _)]
          simp only [hc, if_false]
          rw [bind_run_ok g, bind_run_ok (modify_run _ _), pure_run, closeResult, afterClose, htail]
          simp only [hc, if_false]
          rfl
        · obtain rfl : k = 0 := by omega
          have hcc : closeCells s = flushCells s ++ [((afterFlush s).wrPtr.toNat, BitVec.ofNat 8 (afterFlush s).wrAcc.toNat)] := by
            rw [closeCells, tailCells, if_neg hc]
          refine .inr (.inl ⟨(flushCells s).length, by rw [hcc]; simp, ?_, (afterFlush s).wrPtr.toNat,
            BitVec.ofNat 8 (afterFlush s).wrAcc.toNat, by rw [hcc]; simp, hr⟩)
          rw [keepWriterOnRaise_raised (e := .busError) (i := 0) (t := afterFlush s)]
          · rw [hcc]; simp; rfl
          · rw [bind_run_ok h, bind_run_ok (get_run _)]
            simp only [hc, if_false]
            rw [bind_run_error g]; rfl
        · obtain rfl : k = 0 := by omega
          refine .inr (.inr ⟨afterFlush s, keepWriterOnRaise_stopped ?_, ?_⟩)
          · rw [bind_run_ok h, bind_run_ok (get_run _)]
            simp only [hc, if_false]
            rw [bind_run_error g]; rfl
          · have : (afterFlush s).wrPtr.toNat ≤ s.wrPtr.toNat + s.wholeBytes := by
              show (toWord (s.wrPtr.toNat + s.wholeBytes)).toNat ≤ _
              rw [BitVec.toNat_ofNat]; exact Nat.mod_le _ _
            omega
    · refine .inr (.inl ⟨k, ?_, ?_, s.wrPtr.toNat + k, byteAt s.wrAcc.toNat k, ?_, hr⟩)
      · rw [closeCells, List.length_append, hlen]; omega
      · rw [keepWriterOnRaise_raised (bind_run_error h), closeCells, List.take_append_of_le_length (by omega)]; rfl
      · rw [closeCells, List.getElem?_append_left (by omega)]
        exact cells_getElem? _ _ _ _ hk
    · refine .inr (.inr ⟨_, keepWriterOnRaise_stopped (bind_run_error h), by omega⟩)

end Sys2Proof.Laws
end

