-- ==== Sys2Proof/Laws/ZeroCounter.lean ====
section
/-! SUPPORT. What the zero-counter can do (43_zero_counter.md R151 to R154). -/

namespace Sys2Proof.Laws
open Sys2Proof.Machine Sys2Proof.Format

theorem midpoint_eq (lo hi : Nat) : middle lo hi = lo + (hi - lo) / 2 := by
  simp [middle, Nat.shiftRight_eq_div_pow]

/-- The loop of R151 on `[lo, hi)` with enough probes: the state is untouched; it answers a place in the interval with the bit clear in
the element before it and set in the element at it, or meets a refused byte of the array. -/
theorem zeroCountLoop_cases (s : State) (sbase bit len : Nat) (hsp : sbase + s.arrayBytes len ≤ Config.addressSpace) :
    ∀ fuel lo hi : Nat, lo ≤ hi → hi ≤ len → hi - lo < 2 ^ fuel →
      (∃ z, zeroCountLoop sbase bit fuel lo hi s = .ok z s ∧ lo ≤ z ∧ z ≤ hi ∧
        (lo < z → (elemValue s sbase (z - 1)).testBit bit = false) ∧
        (z < hi → (elemValue s sbase z).testBit bit = true)) ∨
      (zeroCountLoop sbase bit fuel lo hi s = .error (.raised .busError 0) s ∧
        ¬ AllAdmitted s.platform sbase (s.arrayBytes len))
  | 0, lo, hi, h1, h2, h3 => by
    have : lo = hi := by simp at h3; omega
    exact .inl ⟨lo, rfl, le_rfl, by omega, by omega, by omega⟩
  | fuel + 1, lo, hi, h1, h2, h3 => by
    rw [zeroCountLoop]
    by_cases hlt : lo < hi
    · rw [if_pos hlt]
      have hmid := midpoint_eq lo hi
      have hm : middle lo hi < hi := by omega
      have hin := elemAddr_add_le s (vbase := sbase) (len := len) (i := middle lo hi) (by omega)
      have hpow : (2 : Nat) ^ (fuel + 1) = 2 * 2 ^ fuel := by rw [Nat.pow_succ]; ring
      rcases elem_cases s sbase (middle lo hi) with ⟨h, -⟩ | ⟨h, hna⟩ | ⟨-, hs⟩
      · rw [bind_run_ok h]
        by_cases hz : elemValue s sbase (middle lo hi) &&& bitMask bit = 0
        · rw [if_pos hz]
          rw [and_bitMask_eq_zero] at hz
          rcases zeroCountLoop_cases s sbase bit len hsp fuel (middle lo hi + 1) hi (by omega) h2 (by omega) with
            ⟨z, hr, g1, g2, g3, g4⟩ | hr
          · refine .inl ⟨z, hr, by omega, g2, fun _ => ?_, g4⟩
            rcases Nat.eq_or_lt_of_le g1 with he | hl
            · rw [show z - 1 = middle lo hi by omega]; exact hz
            · exact g3 hl
          · exact .inr hr
        · rw [if_neg hz]
          rw [and_bitMask_eq_zero, Bool.not_eq_false] at hz
          rcases zeroCountLoop_cases s sbase bit len hsp fuel lo (middle lo hi) (by omega) (by omega) (by omega) with
            ⟨z, hr, g1, g2, g3, g4⟩ | hr
          · refine .inl ⟨z, hr, g1, by omega, g3, fun _ => ?_⟩
            rcases Nat.eq_or_lt_of_le g2 with he | hl
            · rw [he]; exact hz
            · exact g4 hl
          · exact .inr hr
      · refine .inr ⟨by rw [bind_run_error h], fun hc => hna (hc.mono (le_elemAddr _ _ _) hin)⟩
      · exact absurd hs (by omega)
    · rw [if_neg hlt]
      exact .inl ⟨lo, rfl, le_rfl, h1, by omega, by omega⟩

/-- All that `ZeroCount` can do on an array inside the address space (R151, R153). -/
theorem zeroCount_cases (s : State) (sbase len bit : Nat) (hsp : sbase + s.arrayBytes len ≤ Config.addressSpace) :
    (∃ z ≤ len, zeroCount sbase len bit s = .ok z s ∧ (0 < z → (elemValue s sbase (z - 1)).testBit bit = false) ∧
      (z < len → (elemValue s sbase z).testBit bit = true)) ∨
    (zeroCount sbase len bit s = .error (.raised .busError 0) s ∧ ¬ AllAdmitted s.platform sbase (s.arrayBytes len)) := by
  rcases zeroCountLoop_cases s sbase bit len hsp (bitsLen64 len) 0 len (Nat.zero_le _) le_rfl
    (by simpa using lt_two_pow_bitsLen64 len) with ⟨z, h, -, h2, h3, h4⟩ | h
  · exact .inl ⟨z, h2, h, h3, h4⟩
  · exact .inr h

/-- A place between clear and set bits is the place where a monotonic run changes (R152). -/
theorem bitSplitsAt_unique {s : State} {sbase len bit z y : Nat} (hz : s.bitSplitsAt sbase len bit z) (hy : y ≤ len)
    (h1 : 0 < y → (elemValue s sbase (y - 1)).testBit bit = false) (h2 : y < len → (elemValue s sbase y).testBit bit = true) :
    y = z := by
  obtain ⟨hzl, hb⟩ := hz
  rcases Nat.lt_trichotomy y z with h | h | h
  · have := h2 (by omega)
    rw [hb y (by omega)] at this
    simp at this; omega
  · exact h
  · have := h1 (by omega)
    rw [hb (y - 1) (by omega)] at this
    simp at this; omega

end Sys2Proof.Laws
end

