-- ==== Sys2Proof/Laws/Encoder.lean ====
section
/-! SUPPORT. What the encoder's operations can do from a ready writer, said once for each (41_bitstream_writer.md R117,
44_bct_encoder.md R161 to R163, R167, R169): which fields of the state they change, where they store, how many bits they emit, and the
only errors they raise. -/

namespace Sys2Proof.Laws
open Sys2Proof.Machine Sys2Proof.Format

/-! ### What an encoder operation may change -/

/-- From `s` to `t` only the writer's position, the stack, memory and the trace changed, and every store lies in the writer's buffer
`[WR_BASE, WR_LIMIT + 8)` (20_memory.md R77). -/
structure EncFrame (s t : State) : Prop where
  same : t = { s with
    wrPtr := t.wrPtr, wrAcc := t.wrAcc, wrCnt := t.wrCnt, stack := t.stack, stkHwm := t.stkHwm, mem := t.mem,
    storeTrace := t.storeTrace }
  stores : ∃ l : List Host.Cell, t.mem = applyStores s.mem l ∧ t.storeTrace = l.reverse ++ s.storeTrace ∧
    ∀ c ∈ l, s.wrBase.toNat ≤ c.1 ∧ c.1 < s.wrLimit.toNat + 8

theorem EncFrame.refl (s : State) : EncFrame s s := ⟨rfl, [], rfl, rfl, by simp⟩

theorem EncFrame.wrBase {s t : State} (h : EncFrame s t) : t.wrBase = s.wrBase := by rw [h.same]
theorem EncFrame.wrLimit {s t : State} (h : EncFrame s t) : t.wrLimit = s.wrLimit := by rw [h.same]
theorem EncFrame.wrOpen {s t : State} (h : EncFrame s t) : t.wrOpen = s.wrOpen := by rw [h.same]
theorem EncFrame.platform {s t : State} (h : EncFrame s t) : t.platform = s.platform := by rw [h.same]
theorem EncFrame.mcl {s t : State} (h : EncFrame s t) : t.mcl = s.mcl := by rw [h.same]
theorem EncFrame.cfg {s t : State} (h : EncFrame s t) : t.cfg = s.cfg := by rw [h.same]
theorem EncFrame.arrayBytes {s t : State} (h : EncFrame s t) (n : Nat) : t.arrayBytes n = s.arrayBytes n := by rw [h.same]; rfl
theorem EncFrame.ebw {s t : State} (h : EncFrame s t) : t.ebw = s.ebw := by rw [h.same]; rfl
theorem EncFrame.elemWidth {s t : State} (h : EncFrame s t) : t.elemWidth = s.elemWidth := by rw [h.same]; rfl

theorem EncFrame.trans {s t u : State} (h : EncFrame s t) (k : EncFrame t u) : EncFrame s u := by
  refine ⟨?_, ?_⟩
  · have hk := k.same
    rw [h.same] at hk
    exact hk
  · obtain ⟨l, h1, h2, h3⟩ := h.stores
    obtain ⟨m, k1, k2, k3⟩ := k.stores
    refine ⟨l ++ m, by rw [k1, h1, applyStores_append], by rw [k2, h2, List.reverse_append, List.append_assoc], fun c hc => ?_⟩
    rcases List.mem_append.1 hc with hc | hc
    · exact h3 c hc
    · have := k3 c hc
      rwa [h.wrBase, h.wrLimit] at this

theorem EncFrame.withStack (s : State) (k : List BitCluster) : EncFrame s (s.withStack k) := ⟨rfl, [], rfl, rfl, by simp⟩

theorem EncFrame.pushed (s : State) (c : BitCluster) : EncFrame s (s.pushed c) := ⟨rfl, [], rfl, rfl, by simp⟩

/-! ### Emitting a field -/

/-- The write pointer of a ready writer is the whole part of its stream position. -/
theorem WriterReady.wrPtr_eq {s : State} (h : WriterReady s) : s.wrPtr.toNat = s.wrBase.toNat + streamPos s / 8 := by
  have h1 := h.cnt_le
  have h2 := h.base_le
  unfold streamPos; omega

theorem WriterReady.congr {s t : State} (h : WriterReady s) (ho : t.wrOpen = s.wrOpen) (ha : t.wrAcc = s.wrAcc)
    (hc : t.wrCnt = s.wrCnt) (hb : t.wrBase = s.wrBase) (hp : t.wrPtr = s.wrPtr) (hl : t.wrLimit = s.wrLimit) : WriterReady t := by
  constructor
  · rw [ho]; exact h.isOpen
  · rw [ha, hc]; exact h.acc_lt
  · rw [hc]; exact h.cnt_le
  · rw [hb, hp]; exact h.base_le
  · rw [hp, hl]; exact h.ptr_le
  · rw [hl]; exact h.limit_lt

/-- The buffer of the open writer is admitted as a whole. -/
def BufferAdmitted (s : State) : Prop :=
  AllAdmitted s.platform s.wrBase.toNat (s.wrLimit.toNat + 8 - s.wrBase.toNat)

/-- An encoder operation that emits `bits` bits has ended normally. -/
structure Emitted (bits : Nat) (s t : State) : Prop where
  ready : WriterReady t
  frame : EncFrame s t
  pos : streamPos t = streamPos s + bits

/-- An encoder operation that would emit at most `bits` bits has failed: the buffer is too small for them (R120), or a byte of the
buffer or of the array at `vbase` is refused. -/
structure EmitFailed (bits vbase len : Nat) (e : Err) (s t : State) : Prop where
  ready : WriterReady t
  frame : EncFrame s t
  cause : (e = .endOfStream ∧ s.wrLimit.toNat < s.wrBase.toNat + (streamPos s + bits) / 8) ∨
    (e = .busError ∧ (¬ BufferAdmitted s ∨ ¬ AllAdmitted s.platform vbase (s.arrayBytes len)))

theorem BufferAdmitted.of_frame {s t : State} (h : EncFrame s t) : BufferAdmitted t ↔ BufferAdmitted s := by
  unfold BufferAdmitted; rw [h.wrBase, h.wrLimit, h.platform]

theorem EmitFailed.weaken {b b' vbase len : Nat} {e : Err} {s t : State} (h : EmitFailed b vbase len e s t) (hb : b ≤ b') :
    EmitFailed b' vbase len e s t := by
  refine ⟨h.ready, h.frame, ?_⟩
  rcases h.cause with ⟨he, hl⟩ | hc
  · exact .inl ⟨he, by have : (streamPos s + b) / 8 ≤ (streamPos s + b') / 8 := Nat.div_le_div_right (by omega); omega⟩
  · exact .inr hc

theorem EmitFailed.after {b b' vbase len : Nat} {e : Err} {s t u : State} (h : Emitted b s t) (k : EmitFailed b' vbase len e t u) :
    EmitFailed (b + b') vbase len e s u := by
  refine ⟨k.ready, h.frame.trans k.frame, ?_⟩
  rcases k.cause with ⟨he, hl⟩ | ⟨he, hc⟩
  · rw [h.frame.wrLimit, h.frame.wrBase, h.pos, Nat.add_assoc] at hl
    exact .inl ⟨he, hl⟩
  · rw [BufferAdmitted.of_frame h.frame, h.frame.platform, h.frame.arrayBytes] at hc
    exact .inr ⟨he, hc⟩

/-- `BSW.WRITE` of a ready writer (R115): it succeeds, or changes no register because the pointer is past the limit or a byte of the
buffer is refused. -/
theorem writerWrite_ready_cases {s : State} (h : WriterReady s) (v : Nat) {n : Nat} (hn : n ≤ 57) (vbase len : Nat) :
    (∃ t, writerWrite v n s = .ok ⟨⟩ t ∧ Emitted n s t ∧ t.stack = s.stack ∧ t.stkHwm = s.stkHwm ∧
      streamSoFar t = streamSoFar s + (v &&& sizeMask n) * 2 ^ streamPos s) ∨
    (∃ t e, writerWrite v n s = .error (.raised e 0) t ∧ EmitFailed n vbase len e s t ∧ t.stack = s.stack ∧
      t.stkHwm = s.stkHwm) := by
  have hc : s.wrCnt.toNat + n ≤ 64 := by have := h.cnt_le; omega
  have hcnt := merged_wrCnt_toNat (v := v) hc
  have hwb : (s.merged v n).wholeBytes ≤ 8 := by rw [wholeBytes_eq, hcnt]; omega
  have hb := h.base_le
  have hl := h.limit_lt
  rcases writerWrite_cases s v n with ⟨ho, -⟩ | ⟨-, hbad, -⟩ | ⟨-, -, -, hlt, hr⟩ | ⟨-, -, -, hp, hr⟩
  · exact absurd h.isOpen (by simp [ho])
  · omega
  · refine .inr ⟨s, _, hr, ⟨h, .refl s, .inl ⟨rfl, ?_⟩⟩, rfl, rfl⟩
    have := h.wrPtr_eq
    have : streamPos s / 8 ≤ (streamPos s + n) / 8 := Nat.div_le_div_right (by omega)
    omega
  · have hcell : ∀ k ≤ 8, ∀ c ∈ cells s.wrPtr.toNat k (s.merged v n).wrAcc.toNat,
        s.wrBase.toNat ≤ c.1 ∧ c.1 < s.wrLimit.toNat + 8 := fun k hk c hcc => by
      have := cells_addr _ _ _ c hcc; omega
    rcases hr with ⟨hr, -⟩ | ⟨k, hk, hr, href, -⟩ | ⟨k, hk, -, hs⟩
    · obtain ⟨g1, g2, g3, -⟩ := afterWrite_ready h (v := v) hn hp
      refine .inl ⟨_, hr, ⟨g1, ⟨rfl, _, rfl, rfl, hcell _ hwb⟩, g2⟩, rfl, rfl, g3⟩
    · refine .inr ⟨_, _, hr, ⟨h.congr rfl rfl rfl rfl rfl rfl, ⟨rfl, _, rfl, rfl, ?_⟩, .inr ⟨rfl, .inl fun hall => ?_⟩⟩, rfl, rfl⟩
      · intro c hcc
        exact hcell _ hwb c (List.mem_of_mem_take hcc)
      · rw [hall (s.wrPtr.toNat + k) (by omega) (by omega)] at href
        cases href
    · omega

/-- `PutField(v, n)` of a ready writer (R117): `n` more bits in the stream, the field at its end; or an error. -/
theorem putField_cases {s : State} (h : WriterReady s) (v : Nat) {n : Nat} (hn : n ≤ 64) (vbase len : Nat) :
    (∃ t, putField v n s = .ok ⟨⟩ t ∧ Emitted n s t ∧ t.stack = s.stack ∧ t.stkHwm = s.stkHwm ∧
      streamSoFar t = streamSoFar s + (v &&& sizeMask n) * 2 ^ streamPos s) ∨
    (∃ t e, putField v n s = .error (.raised e 0) t ∧ EmitFailed n vbase len e s t ∧ t.stack = s.stack ∧
      t.stkHwm = s.stkHwm) := by
  unfold putField
  by_cases h57 : n ≤ 57
  · rw [if_pos (show n ≤ Config.maxField from h57)]
    exact writerWrite_ready_cases h v h57 vbase len
  · rw [if_neg (show ¬ n ≤ Config.maxField from h57)]
    rcases writerWrite_ready_cases h (v &&& sizeMask 57) (n := 57) le_rfl vbase len with
      ⟨t, ht, g, gs, gh, gv⟩ | ⟨t, e, ht, g, gs, gh⟩
    · rw [bind_run_ok (show writerWrite (v &&& sizeMask Config.maxField) Config.maxField s = .ok ⟨⟩ t from ht)]
      rcases writerWrite_ready_cases g.ready (v >>> 57) (n := n - 57) (by omega) vbase len with
        ⟨u, hu, k, ks, kh, kv⟩ | ⟨u, e, hu, k, ks, kh⟩
      · refine .inl ⟨u, hu, ⟨k.ready, g.frame.trans k.frame, by rw [k.pos, g.pos]; omega⟩, by rw [ks, gs], by rw [kh, gh], ?_⟩
        rw [kv, gv, g.pos, and_sizeMask, and_sizeMask, and_sizeMask, and_sizeMask, Nat.mod_mod, Nat.shiftRight_eq_div_pow,
          Nat.pow_add]
        have : v % 2 ^ n = v % 2 ^ 57 + 2 ^ 57 * (v / 2 ^ 57 % 2 ^ (n - 57)) := by
          rw [← Nat.mod_mul, ← Nat.pow_add, show 57 + (n - 57) = n by omega]
        rw [this]; ring
      · exact .inr ⟨u, e, hu, by simpa [show 57 + (n - 57) = n by omega] using EmitFailed.after g k, by rw [ks, gs], by rw [kh, gh]⟩
    · rw [bind_run_error (show writerWrite (v &&& sizeMask Config.maxField) Config.maxField s = .error _ t from ht)]
      exact .inr ⟨t, e, rfl, g.weaken (by omega), gs, gh⟩

/-- The literals of case 3 (R162): `n` fields of `bitPos` bits. -/
theorem emitLiterals_cases {vbase len bitPos : Nat} (hb : bitPos ≤ 64) :
    ∀ (n i : Nat) {s : State}, WriterReady s → vbase + s.arrayBytes len ≤ Config.addressSpace → i + n ≤ len →
      (∃ t, emitLiterals vbase bitPos n i s = .ok ⟨⟩ t ∧ Emitted (n * bitPos) s t ∧ t.stack = s.stack ∧ t.stkHwm = s.stkHwm) ∨
      (∃ t e, emitLiterals vbase bitPos n i s = .error (.raised e 0) t ∧ EmitFailed (n * bitPos) vbase len e s t ∧
        t.stack = s.stack ∧ t.stkHwm = s.stkHwm)
  | 0, i, s, h, _, _ => .inl ⟨s, rfl, ⟨h, .refl s, by simp⟩, rfl, rfl⟩
  | n + 1, i, s, h, hsp, hi => by
    have hin := elemAddr_add_le s (vbase := vbase) (len := len) (i := i) (by omega)
    have hmul : (n + 1) * bitPos = bitPos + n * bitPos := by ring
    rw [emitLiterals]
    rcases elem_cases s vbase i with ⟨he, -⟩ | ⟨he, hna⟩ | ⟨-, hs⟩
    · rw [bind_run_ok he]
      rcases putField_cases h (elemValue s vbase i &&& sizeMask bitPos) hb vbase len with
        ⟨t, ht, g, gs, gh, -⟩ | ⟨t, e, ht, g, gs, gh⟩
      · rw [bind_run_ok ht]
        rcases emitLiterals_cases hb n (i + 1) g.ready (by rw [g.frame.arrayBytes]; exact hsp) (by omega) with
          ⟨u, hu, k, ks, kh⟩ | ⟨u, e, hu, k, ks, kh⟩
        · exact .inl ⟨u, hu, ⟨k.ready, g.frame.trans k.frame, by rw [k.pos, g.pos, hmul]; omega⟩, by rw [ks, gs], by rw [kh, gh]⟩
        · exact .inr ⟨u, e, hu, by rw [hmul]; exact EmitFailed.after g k, by rw [ks, gs], by rw [kh, gh]⟩
      · exact .inr ⟨t, e, by rw [bind_run_error ht], g.weaken (by rw [hmul]; omega), gs, gh⟩
    · refine .inr ⟨s, _, by rw [bind_run_error he], ⟨h, .refl s, .inr ⟨rfl, .inr fun hc => hna ?_⟩⟩, rfl, rfl⟩
      exact hc.mono (le_elemAddr _ _ _) hin
    · omega

/-! ### One step of the walk -/

/-- The state of an encoder walk over `len` elements at `vbase`, between steps. -/
structure EncWalk (vbase len : Nat) (s : State) : Prop where
  ready : WriterReady s
  ladder : Ladder s.ebw s.stack
  clusters : ∀ c ∈ s.stack, ClusterIn len s.ebw c ∧ 0 < c.bitPos.toNat
  bounded : StackBounded s
  ebw_le : s.ebw ≤ 64
  array : vbase + s.arrayBytes len < Config.addressSpace
  len_lt : len < 2 ^ 64

theorem addE_drop {start length bitPos : Nat} (h : length = 0 ∨ bitPos = 0) (s : State) :
    addE start length bitPos s = .ok ⟨⟩ s := by rw [addE, if_pos h]; rfl

theorem addE_push {start length bitPos : Nat} (h : length ≠ 0) (hb : bitPos ≠ 0) {s : State} (hs : s.stkSp < 64) :
    addE start length bitPos s =
      .ok ⟨⟩ (s.pushed { start := toWord start, length := toWord length, bitPos := toCount bitPos, higherBits := 0 }) := by
  rw [addE, if_neg (by simp [h, hb]), stackPush_ok _ hs]

/-- Pushing the two children of a popped cluster (R161, R162): the walk goes on, and the children weigh its length less than it did. -/
theorem addChildren_run {vbase len z : Nat} {c : BitCluster} {rest : List BitCluster} {s : State} (hr : WriterReady s)
    (hst : s.stack = rest) (hlad : Ladder s.ebw (c :: rest))
    (hcl : ∀ d ∈ c :: rest, ClusterIn len s.ebw d ∧ 0 < d.bitPos.toNat) (hbd : StackBounded s) (hE : s.ebw ≤ 64)
    (harr : vbase + s.arrayBytes len < Config.addressSpace) (hlen : len < 2 ^ 64) (hz : z ≤ c.length.toNat) :
    ∃ t, (do addE c.start.toNat z (c.bitPos.toNat - 1)
             addE (c.start.toNat + z) (c.length.toNat - z) (c.bitPos.toNat - 1) : Rule Unit) s = .ok ⟨⟩ t ∧
      EncWalk vbase len t ∧ EncFrame s t ∧ t.wrPtr = s.wrPtr ∧ t.wrAcc = s.wrAcc ∧ t.wrCnt = s.wrCnt ∧
      encWeight t.stack + c.length.toNat ≤ encWeight (c :: rest) := by
  obtain ⟨hc, hp⟩ := hcl c (by simp)
  have hcl' : ∀ d ∈ rest, ClusterIn len s.ebw d ∧ 0 < d.bitPos.toNat := fun d hd => hcl d (by simp [hd])
  have hrest := hlad.length_rest
  have hin := hc.inside
  have hpos := hc.length_pos
  have hble := hc.bitPos_le
  have hsp : s.stkSp = rest.length := by rw [State.stkSp, hst]
  have hp7 : c.bitPos.toNat < 128 := c.bitPos.isLt
  -- the two possible children
  let zc : BitCluster := { start := toWord c.start.toNat, length := toWord z, bitPos := toCount (c.bitPos.toNat - 1), higherBits := 0 }
  let oc : BitCluster := { start := toWord (c.start.toNat + z), length := toWord (c.length.toNat - z),
                           bitPos := toCount (c.bitPos.toNat - 1), higherBits := 0 }
  have hzs : zc.start.toNat = c.start.toNat := toWord_toNat (by omega)
  have hzl : zc.length.toNat = z := toWord_toNat (by omega)
  have hzb : zc.bitPos.toNat = c.bitPos.toNat - 1 := toCount_toNat (by omega)
  have hos : oc.start.toNat = c.start.toNat + z := toWord_toNat (by omega)
  have hol : oc.length.toNat = c.length.toNat - z := toWord_toNat (by omega)
  have hob : oc.bitPos.toNat = c.bitPos.toNat - 1 := toCount_toNat (by omega)
  have hw : c.length.toNat * c.bitPos.toNat = c.length.toNat * (c.bitPos.toNat - 1) + c.length.toNat := by
    obtain ⟨q, hq⟩ : ∃ q, c.bitPos.toNat = q + 1 := ⟨c.bitPos.toNat - 1, by omega⟩
    rw [hq, Nat.add_sub_cancel]; ring
  have hsplit : z * (c.bitPos.toNat - 1) + (c.length.toNat - z) * (c.bitPos.toNat - 1) =
      c.length.toNat * (c.bitPos.toNat - 1) := by rw [← Nat.add_mul]; congr 1; omega
  have base : EncWalk vbase len s :=
    ⟨hr, by rw [hst]; exact hlad.tail, by rw [hst]; exact hcl', hbd, hE, harr, hlen⟩
  by_cases hb0 : c.bitPos.toNat - 1 = 0
  · refine ⟨s, ?_, base, .refl s, rfl, rfl, rfl, ?_⟩
    · rw [bind_run_ok (addE_drop (.inr hb0) s), addE_drop (.inr hb0)]
    · rw [hst, encWeight]; omega
  have hzin : 0 < z → ClusterIn len s.ebw zc ∧ 0 < zc.bitPos.toNat := fun h =>
    ⟨⟨by rw [hzs, hzl]; omega, by rw [hzl]; exact h, by rw [hzb]; omega⟩, by rw [hzb]; omega⟩
  have hoin : 0 < c.length.toNat - z → ClusterIn len s.ebw oc ∧ 0 < oc.bitPos.toNat := fun h =>
    ⟨⟨by rw [hos, hol]; omega, by rw [hol]; exact h, by rw [hob]; omega⟩, by rw [hob]; omega⟩
  by_cases hz0 : z = 0
  · have hl : c.length.toNat - z ≠ 0 := by omega
    refine ⟨s.pushed oc, ?_, ⟨hr.congr rfl rfl rfl rfl rfl rfl, ?_, ?_, hbd.pushed oc (by omega), hE, harr, hlen⟩, .pushed s oc, rfl, rfl,
      rfl, ?_⟩
    · rw [bind_run_ok (addE_drop (.inl hz0) s), addE_push hl hb0 (by omega)]
    · rw [pushed_stack, pushed_ebw, hst]; exact hlad.push_one hp hob
    · rw [pushed_stack, pushed_ebw, hst]
      intro d hd
      rcases List.mem_cons.1 hd with rfl | hd
      · exact hoin (by omega)
      · exact hcl' d hd
    · rw [pushed_stack, hst, encWeight, encWeight, hol, hob]
      subst hz0; simp only [Nat.sub_zero]; omega
  · by_cases hl0 : c.length.toNat - z = 0
    · refine ⟨s.pushed zc, ?_, ⟨hr.congr rfl rfl rfl rfl rfl rfl, ?_, ?_, hbd.pushed zc (by omega), hE, harr, hlen⟩, .pushed s zc, rfl, rfl,
        rfl, ?_⟩
      · rw [bind_run_ok (addE_push hz0 hb0 (by omega)), addE_drop (.inl hl0)]
      · rw [pushed_stack, pushed_ebw, hst]; exact hlad.push_one hp hzb
      · rw [pushed_stack, pushed_ebw, hst]
        intro d hd
        rcases List.mem_cons.1 hd with rfl | hd
        · exact hzin (by omega)
        · exact hcl' d hd
      · rw [pushed_stack, hst, encWeight, encWeight, hzl, hzb]
        rw [hl0] at hsplit; omega
    · refine ⟨(s.pushed zc).pushed oc, ?_, ⟨hr.congr rfl rfl rfl rfl rfl rfl, ?_, ?_,
        (hbd.pushed zc (by omega)).pushed oc (by rw [stkSp_pushed]; omega), hE, harr, hlen⟩,
        (EncFrame.pushed s zc).trans (.pushed _ oc), rfl, rfl, rfl, ?_⟩
      · rw [bind_run_ok (addE_push hz0 hb0 (by omega)), addE_push hl0 hb0 (by rw [stkSp_pushed]; omega)]
      · rw [pushed_stack, pushed_stack, pushed_ebw, pushed_ebw, hst]; exact hlad.push_two hp hob hzb
      · rw [pushed_stack, pushed_stack, pushed_ebw, pushed_ebw, hst]
        intro d hd
        rcases List.mem_cons.1 hd with rfl | hd
        · exact hoin (by omega)
        · rcases List.mem_cons.1 hd with rfl | hd
          · exact hzin (by omega)
          · exact hcl' d hd
      · rw [pushed_stack, pushed_stack, hst, encWeight, encWeight, encWeight, hzl, hzb, hol]; omega

/-- The walk's stack after a failure: it still meets its bounds (60_exceptions.md R208). -/
structure StackKept (s : State) : Prop where
  bounded : StackBounded s
  clusters : ∀ c ∈ s.stack, 0 < c.length.toNat ∧ c.bitPos.toNat ≤ 64

theorem EncWalk.stackKept {vbase len : Nat} {s : State} (h : EncWalk vbase len s) : StackKept s :=
  ⟨h.bounded, fun c hc => ⟨(h.clusters c hc).1.length_pos, (h.clusters c hc).1.bitPos_le.trans h.ebw_le⟩⟩

theorem StackKept.congr {s t : State} (h : StackKept s) (hs : t.stack = s.stack) (hh : t.stkHwm = s.stkHwm) : StackKept t := by
  refine ⟨⟨?_, by rw [hh]; exact h.bounded.hwm_le⟩, by rw [hs]; exact h.clusters⟩
  have := h.bounded.sp_le_hwm
  unfold State.stkSp at this ⊢
  rw [hs, hh]; exact this

theorem EncWalk.congr {vbase len : Nat} {s t : State} (h : EncWalk vbase len s) (hr : WriterReady t) (hf : EncFrame s t)
    (hs : t.stack = s.stack) (hh : t.stkHwm = s.stkHwm) : EncWalk vbase len t := by
  refine ⟨hr, by rw [hs, hf.ebw]; exact h.ladder, by rw [hs, hf.ebw]; exact h.clusters, (h.stackKept.congr hs hh).bounded,
    by rw [hf.ebw]; exact h.ebw_le, by rw [hf.arrayBytes]; exact h.array, h.len_lt⟩

/-- `EncStep` on the popped top of the stack (R162): the walk goes on with less weight, having emitted at most twice the weight it lost
(70_reset_and_hazards.md R236); or it fails for want of room or admission, the rest of the stack kept. -/
theorem encStep_cases {vbase len : Nat} {c : BitCluster} {rest : List BitCluster} {s : State} (hw : EncWalk vbase len s)
    (hst : s.stack = c :: rest) :
    (∃ t, encStep vbase c (s.withStack rest) = .ok ⟨⟩ t ∧ EncWalk vbase len t ∧ EncFrame s t ∧
      encWeight t.stack < encWeight s.stack ∧ streamPos t + 2 * encWeight t.stack ≤ streamPos s + 2 * encWeight s.stack) ∨
    (∃ t e, encStep vbase c (s.withStack rest) = .error (.raised e 0) t ∧
      EmitFailed (2 * encWeight s.stack) vbase len e s t ∧ StackKept t) := by
  obtain ⟨hc, hp⟩ := hw.clusters c (by rw [hst]; simp)
  have hlad : Ladder s.ebw (c :: rest) := hst ▸ hw.ladder
  have hcl : ∀ d ∈ c :: rest, ClusterIn len s.ebw d ∧ 0 < d.bitPos.toNat := hst ▸ hw.clusters
  have hE := hw.ebw_le
  have hble := hc.bitPos_le
  have hin := hc.inside
  have hlpos := hc.length_pos
  have hwt : encWeight s.stack = c.length.toNat * c.bitPos.toNat + encWeight rest := by rw [hst]; rfl
  have hprod := Nat.mul_pos hlpos hp
  -- the state after the pop
  have hpop : EncWalk vbase len (s.withStack rest) :=
    ⟨hw.ready.congr rfl rfl rfl rfl rfl rfl, hlad.tail, fun d hd => hcl d (by simp at hd; simp [hd]),
      hw.bounded.withStack (by rw [State.stkSp, hst]; simp), hE, hw.array, hw.len_lt⟩
  have hfr : EncFrame s (s.withStack rest) := .withStack s rest
  have hb0 : c.bitPos ≠ 0 := fun h => by rw [h] at hp; simp at hp
  unfold encStep
  rw [bind_run_ok (get_run _), if_neg hb0]
  by_cases hfull : ((s.withStack rest).skipEff && isFull c.length.toNat c.bitPos.toNat) = true
  · rw [if_pos hfull]
    refine .inl ⟨s.withStack rest, rfl, hpop, hfr, by rw [withStack_stack, hwt]; omega, ?_⟩
    rw [withStack_stack, hwt]
    show streamPos s + _ ≤ _
    omega
  rw [if_neg hfull]
  by_cases hlit : c.length.toNat ≤ (s.withStack rest).mcl.toNat
  · rw [if_pos hlit]
    rcases emitLiterals_cases (vbase := vbase) (len := len) (bitPos := c.bitPos.toNat) (by omega) c.length.toNat c.start.toNat
        hpop.ready hw.array.le (by omega) with ⟨t, ht, g, gs, gh⟩ | ⟨t, e, ht, g, gs, gh⟩
    · refine .inl ⟨t, ht, hpop.congr g.ready g.frame gs gh, hfr.trans g.frame, by rw [gs, withStack_stack, hwt]; omega, ?_⟩
      rw [gs, g.pos, withStack_stack, hwt]
      show streamPos s + _ + _ ≤ _
      omega
    · refine .inr ⟨t, e, ht, ?_, hpop.stackKept.congr gs gh⟩
      have hE0 : Emitted 0 s (s.withStack rest) := ⟨hpop.ready, hfr, rfl⟩
      have := EmitFailed.after hE0 g
      exact this.weaken (by rw [hwt]; omega)
  rw [if_neg hlit]
  unfold encSplit
  rw [bind_run_ok (get_run _)]
  have helem : (s.withStack rest).elemAddr vbase c.start.toNat + (s.withStack rest).arrayBytes c.length.toNat ≤
      vbase + s.arrayBytes len := by
    show vbase + c.start.toNat * s.elemBytes + c.length.toNat * s.elemBytes ≤ vbase + len * s.elemBytes
    have := Nat.mul_le_mul_right s.elemBytes hin
    rw [Nat.add_mul] at this; omega
  have hE0 : Emitted 0 s (s.withStack rest) := ⟨hpop.ready, hfr, rfl⟩
  rcases zeroCount_cases (s.withStack rest) ((s.withStack rest).elemAddr vbase c.start.toNat) c.length.toNat (c.bitPos.toNat - 1)
      (by have := hw.array; omega) with ⟨z, hz, hzr, -⟩ | ⟨hzr, hna⟩
  · rw [bind_run_ok hzr]
    have hlen64 := bitsLen64_le (v := c.length.toNat) (k := 64) c.length.isLt
    have hself := bitsLen64_le_self c.length.toNat
    rcases putField_cases hpop.ready z hlen64 vbase len with ⟨t, ht, g, gs, gh, -⟩ | ⟨t, e, ht, g, gs, gh⟩
    · rw [bind_run_ok ht]
      have hft := hfr.trans g.frame
      have hbt : StackBounded t := (hpop.stackKept.congr gs gh).bounded
      obtain ⟨u, hu, kw, kf, kp, ka, kc, kwt⟩ := addChildren_run (vbase := vbase) (len := len) (z := z) (c := c) (rest := rest)
        g.ready (by rw [gs]; rfl) (by rw [hft.ebw]; exact hlad) (by rw [hft.ebw]; exact hcl) hbt (by rw [hft.ebw]; exact hE)
        (by rw [hft.arrayBytes]; exact hw.array) hw.len_lt hz
      refine .inl ⟨u, hu, kw, hft.trans kf, ?_, ?_⟩
      · have : encWeight (c :: rest) = encWeight s.stack := by rw [hst]
        omega
      · have h1 : encWeight (c :: rest) = encWeight s.stack := by rw [hst]
        have h2 : streamPos u = streamPos t := by unfold streamPos; rw [kp, kc, kf.wrBase]
        have h3 : streamPos t = streamPos s + bitsLen64 c.length.toNat := g.pos
        omega
    · rw [bind_run_error ht]
      refine .inr ⟨t, e, rfl, (EmitFailed.after hE0 g).weaken ?_, hpop.stackKept.congr gs gh⟩
      have : c.length.toNat ≤ c.length.toNat * c.bitPos.toNat := Nat.le_mul_of_pos_right _ hp
      rw [hwt]; omega
  · rw [bind_run_error hzr]
    refine .inr ⟨_, _, rfl, ⟨hpop.ready, hfr, .inr ⟨rfl, .inr fun hall => hna ?_⟩⟩, hpop.stackKept⟩
    exact hall.mono (le_elemAddr _ _ _) helem

/-! ### The whole walk -/

/-- The loop of `ETreeBody` with enough steps for the weight on the stack (R163, R167): it empties the stack, having emitted at most
twice that weight; or it fails for want of room or admission. It never passes its bound and never overflows the stack (R169). -/
theorem eTreeLoop_cases {vbase len : Nat} : ∀ (fuel : Nat) {s : State}, EncWalk vbase len s → encWeight s.stack ≤ fuel →
    (∃ t, eTreeLoop vbase fuel s = .ok ⟨⟩ t ∧ EncWalk vbase len t ∧ t.stack = [] ∧ EncFrame s t ∧
      streamPos t ≤ streamPos s + 2 * encWeight s.stack) ∨
    (∃ t e, eTreeLoop vbase fuel s = .error (.raised e 0) t ∧ EmitFailed (2 * encWeight s.stack) vbase len e s t ∧ StackKept t)
  | 0, s, hw, hf => by
    have hnil : s.stack = [] := by
      cases hst : s.stack with
      | nil => rfl
      | cons c rest =>
        obtain ⟨hc, hp⟩ := hw.clusters c (by rw [hst]; simp)
        have := encWeight_pos (k := rest) hc.length_pos hp
        rw [hst] at hf; omega
    refine .inl ⟨s, ?_, hw, hnil, .refl s, by omega⟩
    rw [eTreeLoop, bind_run_ok (get_run s), if_pos hnil]; rfl
  | fuel + 1, s, hw, hf => by
    rw [eTreeLoop]
    cases hst : s.stack with
    | nil =>
      refine .inl ⟨s, ?_, hw, hst, .refl s, by omega⟩
      rw [bind_run_ok (show stackPop s = .ok none s by rw [stackPop_run, hst])]; rfl
    | cons c rest =>
      rw [bind_run_ok (show stackPop s = .ok (some c) (s.withStack rest) by rw [stackPop_run, hst])]
      rcases encStep_cases hw hst with ⟨t, ht, g, gf, glt, gpos⟩ | ⟨t, e, ht, g, gk⟩
      · rw [hst] at glt gpos hf
        simp only [bind_run_ok ht]
        rcases eTreeLoop_cases fuel g (by omega) with ⟨u, hu, k, kn, kf, kpos⟩ | ⟨u, e, hu, k, kk⟩
        · exact .inl ⟨u, hu, k, kn, gf.trans kf, by omega⟩
        · refine .inr ⟨u, e, hu, ⟨k.ready, gf.trans k.frame, ?_⟩, kk⟩
          rcases k.cause with ⟨he, hl⟩ | ⟨he, hc⟩
          · rw [gf.wrLimit, gf.wrBase] at hl
            refine .inl ⟨he, ?_⟩
            have : (streamPos t + 2 * encWeight t.stack) / 8 ≤ (streamPos s + 2 * encWeight (c :: rest)) / 8 :=
              Nat.div_le_div_right (by omega)
            omega
          · rw [BufferAdmitted.of_frame gf, gf.platform, gf.arrayBytes] at hc
            exact .inr ⟨he, hc⟩
      · simp only [bind_run_error ht]
        rw [hst] at g
        exact .inr ⟨t, e, rfl, g, gk⟩

/-- `ETreeBody(vbase, len)` from a ready writer with a legal configuration (R163, R167, R169): the array's whole tree is emitted, at
most `2*len*EBW` bits (70_reset_and_hazards.md R236); or it fails for want of room or admission. -/
theorem eTreeBody_cases {vbase len : Nat} {s : State} (hr : WriterReady s) (hcfg : s.badConfig = false)
    (hbd : s.stkHwm.toNat ≤ 64) (harr : vbase + s.arrayBytes len < Config.addressSpace) (hlen : len < 2 ^ 64) :
    (∃ t, eTreeBody vbase len s = .ok ⟨⟩ t ∧ EncWalk vbase len t ∧ t.stack = [] ∧ EncFrame s t ∧
      streamPos t ≤ streamPos s + 2 * (len * s.ebw)) ∨
    (∃ t e, eTreeBody vbase len s = .error (.raised e 0) t ∧ EmitFailed (2 * (len * s.ebw)) vbase len e s t ∧ StackKept t) := by
  have hE : s.ebw ≤ 64 := (ebw_le s hcfg).trans (elemWidth_le s)
  have hEp := ebw_pos s
  have h0 : EncWalk vbase len (s.withStack []) :=
    ⟨hr.congr rfl rfl rfl rfl rfl rfl, trivial, by simp, ⟨by simp, hbd⟩, hE, harr, hlen⟩
  have hf0 : EncFrame s (s.withStack []) := .withStack s []
  unfold eTreeBody
  rw [bind_run_ok (stackClear_run s), bind_run_ok (get_run _)]
  -- the root, if there is one
  have hroot : ∃ t, addE 0 len (s.withStack []).ebw (s.withStack []) = .ok ⟨⟩ t ∧ EncWalk vbase len t ∧ EncFrame s t ∧
      streamPos t = streamPos s ∧ encWeight t.stack = len * s.ebw := by
    by_cases hl : len = 0
    · exact ⟨_, addE_drop (.inl hl) _, h0, hf0, rfl, by simp [hl, encWeight]⟩
    · have hll : (toWord len).toNat = len := toWord_toNat hlen
      have hbb : (toCount s.ebw).toNat = s.ebw := toCount_toNat (by omega)
      refine ⟨_, addE_push hl (by simp; omega) (by simp), ⟨hr.congr rfl rfl rfl rfl rfl rfl, ?_, ?_, h0.bounded.pushed _ (by simp), hE,
        harr, hlen⟩, hf0.trans (.pushed _ _), rfl, ?_⟩
      · refine ⟨?_, by simp, by simp⟩
        simp [hbb]
      · intro d hd
        rw [pushed_stack, withStack_stack, List.mem_singleton] at hd
        subst hd
        refine ⟨⟨?_, ?_, ?_⟩, ?_⟩
        · simp only [hll]; simp
        · simp only [hll]; omega
        · simp only [withStack_ebw, hbb]; exact le_refl _
        · simp only [withStack_ebw, hbb]; exact hEp
      · simp only [pushed_stack, withStack_stack, encWeight, withStack_ebw, hll, hbb, Nat.add_zero]
  obtain ⟨t, ht, hw, hf, hpos, hwt⟩ := hroot
  rw [bind_run_ok ht]
  rcases eTreeLoop_cases (1 + len * (s.withStack []).ebw) hw (by rw [hwt, withStack_ebw]; omega) with
    ⟨u, hu, k, kn, kf, kpos⟩ | ⟨u, e, hu, k, kk⟩
  · exact .inl ⟨u, hu, k, kn, hf.trans kf, by rw [hwt, hpos] at kpos; exact kpos⟩
  · refine .inr ⟨u, e, hu, ?_, kk⟩
    have := EmitFailed.after (⟨hw.ready, hf, by rw [hpos]; rfl⟩ : Emitted 0 s t) k
    rw [hwt] at this
    exact this.weaken (by omega)

end Sys2Proof.Laws
end

