-- ==== Sys2Proof/Laws/Reader.lean ====
section
/-! SUPPORT. What the reader's operations can do, said once for each (42_bitstream_reader.md R131 to R136): the results of their checks in
order, which registers they change, and what they read from a reader that meets its invariants. -/

namespace Sys2Proof.Laws
open Sys2Proof.Machine Sys2Proof.Format

/-! ### The operations, check by check -/

/-- All that `BSR.INIT` can do (R131). -/
theorem readerInit_run (s : State) (base len : Nat) :
    readerInit base len s =
      if Config.addressSpace ≤ base + len then .error (.raised .badArgument 0) s
      else .ok ⟨⟩ (s.readerInitialised base len) := by
  unfold readerInit
  rw [bind_run, raiseIf_run]
  by_cases h : Config.addressSpace ≤ base + len <;> simp [rangeTooFar, h]

theorem raiseIfReaderClosed_run (s : State) :
    raiseIfReaderClosed s = if s.rdOpen then .ok () s else .error (.raised .notOpen 0) s := by
  rw [raiseIfReaderClosed, bind_run_ok (get_run s), raiseIf_run]
  cases s.rdOpen <;> rfl

/-- The bytes one load takes (R132 step 2). -/
def loadBytes (s : State) : Nat := min 8 (s.rdEnd.toNat - s.loadAddr)

/-- The state after `LoadBody` (R132 step 3). -/
def afterLoad (s : State) : State := s.loaded s.loadAddr (loadBytes s) (memNat s.mem s.loadAddr (loadBytes s))

/-- All that `LoadBody` can do (R132): no byte remains; or a byte is refused; or the lookahead is refilled. -/
theorem loadBody_cases (s : State) :
    (s.rdEnd.toNat ≤ s.loadAddr ∧ loadBody s = .error (.raised .endOfStream 0) s) ∨
    (s.loadAddr < s.rdEnd.toNat ∧ ¬ AllAdmitted s.platform s.loadAddr (loadBytes s) ∧
      loadBody s = .error (.raised .busError 0) s) ∨
    (s.loadAddr < s.rdEnd.toNat ∧ AllAdmitted s.platform s.loadAddr (loadBytes s) ∧ loadBody s = .ok ⟨⟩ (afterLoad s)) := by
  unfold loadBody
  rw [bind_run_ok (get_run s), bind_run, raiseIf_run]
  by_cases h : s.rdEnd.toNat ≤ s.loadAddr
  · exact .inl ⟨h, by simp [h]⟩
  · refine .inr ?_
    have hlt := s.rdEnd.isLt
    simp only [decide_eq_true_eq, if_neg h]
    rcases memRead_cases s s.loadAddr (loadBytes s) with ⟨g, ga, -⟩ | ⟨g, ga⟩ | ⟨-, gs⟩
    · refine .inr ⟨by omega, ga, ?_⟩
      rw [bind_run_ok (show memRead s.loadAddr (min 8 (s.rdEnd.toNat - s.loadAddr)) s = _ from g)]
      rfl
    · refine .inl ⟨by omega, ga, ?_⟩
      rw [bind_run_error (show memRead s.loadAddr (min 8 (s.rdEnd.toNat - s.loadAddr)) s = _ from g)]
    · simp only [loadBytes, Config.addressSpace] at gs
      omega

/-- The state in which `BSR.READ` takes its field: as it stands, or after a load (R133 step 3). -/
def fetched (s : State) (n : Nat) : State := if s.lacksBits n then afterLoad s else s

/-- All that the fetching part of `BSR.READ` can do (R133 step 3). -/
theorem ensureBits_cases (s : State) (n : Nat) :
    (s.lacksBits n = true ∧ s.rdEnd.toNat ≤ s.loadAddr ∧ ensureBits n s = .error (.raised .endOfStream 0) s) ∨
    (s.lacksBits n = true ∧ s.loadAddr < s.rdEnd.toNat ∧ ¬ AllAdmitted s.platform s.loadAddr (loadBytes s) ∧
      ensureBits n s = .error (.raised .busError 0) s) ∨
    (s.lacksBits n = true ∧ s.loadAddr < s.rdEnd.toNat ∧ (afterLoad s).lacksBits n = true ∧
      ensureBits n s = .error (.raised .notEnoughBits 0) (afterLoad s)) ∨
    ((s.lacksBits n = true → s.loadAddr < s.rdEnd.toNat) ∧ (fetched s n).lacksBits n = false ∧
      ensureBits n s = .ok ⟨⟩ (fetched s n)) := by
  unfold ensureBits
  rw [bind_run_ok (get_run s)]
  cases hl : s.lacksBits n with
  | false => exact .inr (.inr (.inr ⟨by simp, by simp [fetched, hl], by simp [fetched, hl]⟩))
  | true =>
    simp only [if_true]
    rcases loadBody_cases s with ⟨h, g⟩ | ⟨h, ha, g⟩ | ⟨h, ha, g⟩
    · exact .inl ⟨trivial, h, by rw [bind_run_error g]⟩
    · exact .inr (.inl ⟨trivial, h, ha, by rw [bind_run_error g]⟩)
    · rw [bind_run_ok g, bind_run_ok (get_run _), raiseIf_run]
      cases hb : (afterLoad s).lacksBits n with
      | true => exact .inr (.inr (.inl ⟨trivial, h, rfl, by simp⟩))
      | false => exact .inr (.inr (.inr ⟨fun _ => h, by simp [fetched, hl, hb], by simp [fetched, hl]⟩))

/-- `BSR.READ` after its two checks is the fetch and the extraction (R133). -/
theorem readerRead_run {s : State} (ho : s.rdOpen = true) {n : Nat} (hn : n ≤ 57) :
    readerRead n s = match ensureBits n s with
      | .ok _ t => .ok (t.bufferedField n) (t.consumed n)
      | .error e t => .error e t := by
  have h1 : raiseIfReaderClosed s = .ok () s := by rw [raiseIfReaderClosed_run, ho]; rfl
  have h2 : raiseIf (Config.maxField < n) .contractViolation s = .ok () s := by
    have : ¬ Config.maxField < n := Nat.not_lt.2 hn
    simp [raiseIf_run, this]
  unfold readerRead
  rw [bind_run_ok h1, bind_run_ok h2, bind_run]
  cases ensureBits n s <;> rfl

/-- The two checks of `BSR.READ` (R133). -/
theorem readerRead_refused {s : State} {n : Nat} :
    (s.rdOpen = false → readerRead n s = .error (.raised .notOpen 0) s) ∧
    (s.rdOpen = true → 57 < n → readerRead n s = .error (.raised .contractViolation 0) s) := by
  unfold readerRead
  constructor
  · intro h
    rw [bind_run_error (e := .raised .notOpen 0) (t := s)]
    rw [raiseIfReaderClosed_run, h]; rfl
  · intro h hn
    rw [bind_run_ok (a := ()) (t := s) (by rw [raiseIfReaderClosed_run, h]; rfl),
      bind_run_error (e := .raised .contractViolation 0) (t := s)]
    rw [raiseIf_run, if_pos (by simp [Config.maxField, hn])]

/-! ### A reader that meets its invariants -/

/-- The reader is open and its invariants hold (10_state.md R33). -/
structure ReaderReady (s : State) : Prop where
  isOpen : s.rdOpen = true
  cons_le : s.rdCons.toNat ≤ s.rdLoaded.toNat
  loaded_eq : s.rdLoaded.toNat = 8 * min 8 (s.rdEnd.toNat - s.rdPtr.toNat) ∨ s.rdLoaded.toNat = 0
  base_le : s.rdBase.toNat ≤ s.rdPtr.toNat
  ptr_le : s.rdPtr.toNat ≤ s.rdEnd.toNat
  la_lt : s.rdLa.toNat < 2 ^ s.rdLoaded.toNat

theorem ReaderReady.readerInv {s : State} (h : ReaderReady s) : s.readerInv := by
  intro _
  have h1 := h.cons_le
  have h2 := h.loaded_eq
  have h3 := h.base_le
  have h4 := h.ptr_le
  exact ⟨h1, by omega, h2, h3, h4, h.la_lt, by unfold State.readerPos; omega⟩

theorem ReaderReady.of_inv {s : State} (h : s.readerInv) (ho : s.rdOpen = true) : ReaderReady s := by
  obtain ⟨h1, -, h3, h4, h5, h6, -⟩ := h ho
  exact ⟨ho, h1, h3, h4, h5, h6⟩

/-- What a reader operation may change: the lookahead, its two counts and the read pointer, which only advances (R65). -/
structure ReadFrame (s t : State) : Prop where
  same : t = { s with rdLa := t.rdLa, rdLoaded := t.rdLoaded, rdCons := t.rdCons, rdPtr := t.rdPtr }
  ptr_le : s.rdPtr.toNat ≤ t.rdPtr.toNat

theorem ReadFrame.refl (s : State) : ReadFrame s s := ⟨rfl, le_rfl⟩

theorem ReadFrame.trans {s t u : State} (h : ReadFrame s t) (k : ReadFrame t u) : ReadFrame s u := by
  refine ⟨?_, h.ptr_le.trans k.ptr_le⟩
  have hk := k.same
  rw [h.same] at hk
  exact hk

theorem ReadFrame.mem {s t : State} (h : ReadFrame s t) : t.mem = s.mem := by rw [h.same]
theorem ReadFrame.rdBase {s t : State} (h : ReadFrame s t) : t.rdBase = s.rdBase := by rw [h.same]
theorem ReadFrame.rdEnd {s t : State} (h : ReadFrame s t) : t.rdEnd = s.rdEnd := by rw [h.same]
theorem ReadFrame.platform {s t : State} (h : ReadFrame s t) : t.platform = s.platform := by rw [h.same]
theorem ReadFrame.stack {s t : State} (h : ReadFrame s t) : t.stack = s.stack := by rw [h.same]
theorem ReadFrame.stkHwm {s t : State} (h : ReadFrame s t) : t.stkHwm = s.stkHwm := by rw [h.same]

theorem ReadFrame.inputStream {s t : State} (h : ReadFrame s t) : t.inputStream = s.inputStream := by
  unfold State.inputStream; rw [h.mem, h.rdBase, h.rdEnd]

theorem ReadFrame.inputBits {s t : State} (h : ReadFrame s t) : t.inputBits = s.inputBits := by
  unfold State.inputBits; rw [h.rdBase, h.rdEnd]

theorem loadAddr_eq (s : State) : s.loadAddr = s.rdPtr.toNat + s.rdCons.toNat / 8 := by
  simp [State.loadAddr, Nat.shiftRight_eq_div_pow]

/-- A fresh reader is ready, at position 0, with a lookahead that agrees with memory (R131). -/
theorem readerInitialised_ready (s : State) {base len : Nat} (h : base + len < Config.addressSpace) :
    ReaderReady (s.readerInitialised base len) ∧ (s.readerInitialised base len).rdBase.toNat = base ∧
      (s.readerInitialised base len).rdEnd.toNat = base + len ∧ (s.readerInitialised base len).readerPos = 0 ∧
      (s.readerInitialised base len).lookaheadFresh := by
  simp only [Config.addressSpace] at h
  have hb : (toWord base).toNat = base := by rw [BitVec.toNat_ofNat]; exact Nat.mod_eq_of_lt (by omega)
  have he : (toWord (base + len)).toNat = base + len := by rw [BitVec.toNat_ofNat]; exact Nat.mod_eq_of_lt (by omega)
  refine ⟨⟨rfl, by simp, .inr (by simp), by simp, ?_, by simp⟩, hb, he, by simp [State.readerPos], by simp [State.lookaheadFresh]⟩
  simp only [readerInitialised_rdPtr, readerInitialised_rdEnd, hb, he]; omega

/-- What a load of a ready reader leaves (R132): the position is the same, the lookahead agrees with memory. -/
theorem afterLoad_ready {s : State} (h : ReaderReady s) (hp : s.loadAddr < s.rdEnd.toNat) :
    ReaderReady (afterLoad s) ∧ ReadFrame s (afterLoad s) ∧ (afterLoad s).readerPos = s.readerPos ∧ (afterLoad s).lookaheadFresh ∧
      (afterLoad s).rdPtr.toNat = s.loadAddr ∧ (afterLoad s).rdCons.toNat = s.rdCons.toNat % 8 ∧
      (afterLoad s).rdLoaded.toNat = 8 * min 8 (s.rdEnd.toNat - s.loadAddr) := by
  have hla := loadAddr_eq s
  have hend := s.rdEnd.isLt
  have h3 := h.base_le
  have hptr : (afterLoad s).rdPtr.toNat = s.loadAddr := by
    show (toWord s.loadAddr).toNat = _
    rw [BitVec.toNat_ofNat]; exact Nat.mod_eq_of_lt (by omega)
  have hcons : (afterLoad s).rdCons.toNat = s.rdCons.toNat % 8 := by
    show (s.rdCons &&& 7).toNat = _
    rw [BitVec.toNat_and]; exact Nat.and_two_pow_sub_one_eq_mod _ 3
  have hload : (afterLoad s).rdLoaded.toNat = 8 * loadBytes s := by
    show (toCount (8 * loadBytes s)).toNat = _
    rw [BitVec.toNat_ofNat]; exact Nat.mod_eq_of_lt (by unfold loadBytes; omega)
  have hlv : (afterLoad s).rdLa.toNat = memNat s.mem s.loadAddr (loadBytes s) := by
    show (toWord _).toNat = _
    rw [BitVec.toNat_ofNat]
    refine Nat.mod_eq_of_lt ((memNat_lt _ _ _).trans_le (Nat.pow_le_pow_right (by omega) ?_))
    unfold loadBytes; omega
  have hb : (afterLoad s).rdBase = s.rdBase := rfl
  have he : (afterLoad s).rdEnd = s.rdEnd := rfl
  refine ⟨⟨h.isOpen, ?_, ?_, ?_, ?_, ?_⟩, ⟨rfl, by rw [hptr]; omega⟩, ?_, ?_, hptr, hcons, hload⟩
  · rw [hcons, hload]; unfold loadBytes; omega
  · rw [hload, hptr, he]; exact .inl rfl
  · rw [hb, hptr]; omega
  · rw [he, hptr]; omega
  · rw [hlv, hload]; exact memNat_lt _ _ _
  · unfold State.readerPos; rw [hptr, hcons, hb]; omega
  · unfold State.lookaheadFresh
    rw [hlv, hptr, hload, Nat.mul_div_cancel_left _ (by omega)]
    rfl

/-- The field at the position of a ready reader whose lookahead agrees with memory is the field of the input stream there (R136). -/
theorem bufferedField_eq {s : State} (h : ReaderReady s) (hf : s.lookaheadFresh) {n : Nat} (hn : s.lacksBits n = false) :
    s.bufferedField n = (s.inputStream >>> s.readerPos) &&& sizeMask n := by
  have hc : s.rdCons.toNat + n ≤ s.rdLoaded.toNat := by simpa [State.lacksBits] using hn
  obtain ⟨L, hL, hLe⟩ : ∃ L, s.rdLoaded.toNat = 8 * L ∧ L ≤ s.rdEnd.toNat - s.rdPtr.toNat := by
    rcases h.loaded_eq with he | he
    · exact ⟨_, he, by omega⟩
    · exact ⟨0, by omega, by omega⟩
  unfold State.lookaheadFresh at hf
  rw [hL, Nat.mul_div_cancel_left _ (by omega)] at hf
  have h3 := h.base_le
  have h4 := h.ptr_le
  have hsplit : s.rdEnd.toNat - s.rdBase.toNat =
      (s.rdPtr.toNat - s.rdBase.toNat) + (L + (s.rdEnd.toNat - s.rdPtr.toNat - L)) := by omega
  unfold State.bufferedField State.inputStream State.readerPos
  rw [hsplit, memNat_add, show s.rdBase.toNat + (s.rdPtr.toNat - s.rdBase.toNat) = s.rdPtr.toNat by omega, memNat_add, ← hf,
    and_sizeMask, and_sizeMask, Nat.shiftRight_eq_div_pow, Nat.shiftRight_eq_div_pow, Nat.pow_add, ← Nat.div_div_eq_div_mul]
  have hlt := memNat_lt s.mem s.rdBase.toNat (s.rdPtr.toNat - s.rdBase.toNat)
  rw [Nat.add_mul_div_left _ _ (Nat.two_pow_pos _), Nat.div_eq_of_lt hlt, Nat.zero_add]
  generalize memNat s.mem (s.rdPtr.toNat + L) _ = R
  have hpow : (2 : Nat) ^ (8 * L) = 2 ^ s.rdCons.toNat * (2 ^ n * 2 ^ (8 * L - s.rdCons.toNat - n)) := by
    rw [← Nat.pow_add, ← Nat.pow_add]; congr 1; omega
  rw [hpow, Nat.mul_assoc, Nat.add_mul_div_left _ _ (Nat.two_pow_pos _), Nat.mul_assoc, Nat.add_mul_mod_self_left]

/-- After the consumption of `n` buffered bits the reader is ready, `n` bits further on (R133 step 4). -/
theorem consumed_ready {s : State} (h : ReaderReady s) {n : Nat} (hn : s.lacksBits n = false) :
    ReaderReady (s.consumed n) ∧ ReadFrame s (s.consumed n) ∧ (s.consumed n).readerPos = s.readerPos + n ∧
      ((s.consumed n).lookaheadFresh ↔ s.lookaheadFresh) := by
  have hc : s.rdCons.toNat + n ≤ s.rdLoaded.toNat := by simpa [State.lacksBits] using hn
  have h2 := h.loaded_eq
  have hcons : (s.consumed n).rdCons.toNat = s.rdCons.toNat + n := by
    show (toCount _).toNat = _
    rw [BitVec.toNat_ofNat]; exact Nat.mod_eq_of_lt (by omega)
  refine ⟨⟨h.isOpen, by rw [hcons]; exact hc, h.loaded_eq, h.base_le, h.ptr_le, h.la_lt⟩, ⟨rfl, le_rfl⟩, ?_, Iff.rfl⟩
  unfold State.readerPos
  rw [hcons]
  show 8 * (s.rdPtr.toNat - s.rdBase.toNat) + _ = _
  omega

/-- A reader operation of `n` bits has ended normally, or has not. -/
structure ReadDone (n : Nat) (s t : State) : Prop where
  ready : ReaderReady t
  frame : ReadFrame s t
  pos : t.readerPos = s.readerPos + n
  fresh : s.lookaheadFresh → t.lookaheadFresh

theorem ReadDone.trans {n k : Nat} {s t u : State} (h : ReadDone n s t) (g : ReadDone k t u) : ReadDone (n + k) s u :=
  ⟨g.ready, h.frame.trans g.frame, by rw [g.pos, h.pos]; omega, fun hf => g.fresh (h.fresh hf)⟩

/-- Why a read fails: the stream has not the bits (R133, R136), or a byte of it is refused. -/
def ReadCause (n : Nat) (e : Err) (s : State) : Prop :=
  ((e = .endOfStream ∨ e = .notEnoughBits) ∧ s.inputBits < s.readerPos + n) ∨
    (e = .busError ∧ ¬ AllAdmitted s.platform s.rdPtr.toNat (s.rdEnd.toNat - s.rdPtr.toNat))

/-- `BSR.READ` of at most 57 bits from a ready reader (R133, R136): the field of the stream at the position, or an error that leaves the
position. -/
theorem readerRead_ready_cases {s : State} (h : ReaderReady s) {n : Nat} (hn : n ≤ 57) :
    (∃ v t, readerRead n s = .ok v t ∧ ReadDone n s t ∧ v < 2 ^ n ∧ s.readerPos + n ≤ s.inputBits ∧
      (s.lookaheadFresh → v = (s.inputStream >>> s.readerPos) &&& sizeMask n)) ∨
    (∃ t e, readerRead n s = .error (.raised e 0) t ∧ ReadDone 0 s t ∧ ReadCause n e s) := by
  rw [readerRead_run h.isOpen hn]
  have h1 := h.cons_le
  have h2 := h.loaded_eq
  have h3 := h.base_le
  have h4 := h.ptr_le
  have hla := loadAddr_eq s
  have hrefl : ReadDone 0 s s := ⟨h, .refl s, rfl, id⟩
  have hinv := h.readerInv h.isOpen
  rcases ensureBits_cases s n with ⟨hl, hp, hr⟩ | ⟨hl, hp, hna, hr⟩ | ⟨hl, hp, hl', hr⟩ | ⟨hp, hl, hr⟩
  · refine .inr ⟨s, _, by rw [hr], hrefl, .inl ⟨.inl rfl, ?_⟩⟩
    have : s.rdLoaded.toNat < s.rdCons.toNat + n := by simpa [State.lacksBits] using hl
    unfold State.inputBits State.readerPos; omega
  · refine .inr ⟨s, _, by rw [hr], hrefl, .inr ⟨rfl, fun hall => hna (hall.mono (by omega) ?_)⟩⟩
    unfold loadBytes; omega
  · obtain ⟨g1, g2, g3, g4, g5, g6, g7⟩ := afterLoad_ready h hp
    refine .inr ⟨_, _, by rw [hr], ⟨g1, g2, g3, fun _ => g4⟩, .inl ⟨.inr rfl, ?_⟩⟩
    have : (afterLoad s).rdLoaded.toNat < (afterLoad s).rdCons.toNat + n := by simpa [State.lacksBits] using hl'
    rw [g6, g7] at this
    unfold State.inputBits State.readerPos; omega
  · refine .inl ⟨_, _, by rw [hr], ?_⟩
    have hf : ReaderReady (fetched s n) ∧ ReadFrame s (fetched s n) ∧ (fetched s n).readerPos = s.readerPos ∧
        (s.lookaheadFresh → (fetched s n).lookaheadFresh) := by
      unfold fetched
      by_cases hb : s.lacksBits n = true
      · rw [if_pos hb]
        obtain ⟨g1, g2, g3, g4, -⟩ := afterLoad_ready h (hp hb)
        exact ⟨g1, g2, g3, fun _ => g4⟩
      · rw [if_neg hb]
        exact ⟨h, .refl s, rfl, id⟩
    obtain ⟨f1, f2, f3, f4⟩ := hf
    obtain ⟨c1, c2, c3, c4⟩ := consumed_ready f1 hl
    have hpos : ((fetched s n).consumed n).readerPos = s.readerPos + n := by rw [c3, f3]
    refine ⟨⟨c1, f2.trans c2, hpos, fun hf => c4.2 (f4 hf)⟩, and_sizeMask_lt _ _, ?_, fun hf => ?_⟩
    · have := (c1.readerInv c1.isOpen).2.2.2.2.2.2
      rw [hpos, c2.rdEnd, c2.rdBase, f2.rdEnd, f2.rdBase] at this
      exact this
    · rw [bufferedField_eq f1 (f4 hf) hl, f2.inputStream, f3]

/-- `GetField(n)` from a ready reader (R135, R136): the field of the stream at the position; or an error with the position within the
field. -/
theorem getField_ready_cases {s : State} (h : ReaderReady s) {n : Nat} (hn : n ≤ 64) :
    (∃ v t, getField n s = .ok v t ∧ ReadDone n s t ∧ v < 2 ^ n ∧ s.readerPos + n ≤ s.inputBits ∧
      (s.lookaheadFresh → v = (s.inputStream >>> s.readerPos) &&& sizeMask n)) ∨
    (∃ t e k, k ≤ n ∧ getField n s = .error (.raised e 0) t ∧ ReadDone k s t ∧ ReadCause n e s) := by
  unfold getField
  by_cases h57 : n ≤ 57
  · rw [if_pos (show n ≤ Config.maxField from h57)]
    rcases readerRead_ready_cases h h57 with g | ⟨t, e, g1, g2, g3⟩
    · exact .inl g
    · exact .inr ⟨t, e, 0, Nat.zero_le _, g1, g2, g3⟩
  · rw [if_neg (show ¬ n ≤ Config.maxField from h57)]
    rcases readerRead_ready_cases h (n := 57) le_rfl with ⟨v, t, hv, g, gl, gb, gv⟩ | ⟨t, e, ht, g, gc⟩
    · rw [bind_run_ok (show readerRead Config.maxField s = _ from hv)]
      rcases readerRead_ready_cases g.ready (n := n - 57) (by omega) with ⟨w, u, hw, k, kl, kb, kv⟩ | ⟨u, e, hu, k, kc⟩
      · rw [bind_run_ok (show readerRead (n - Config.maxField) t = _ from hw)]
        have hval : v ||| w <<< 57 = v + 2 ^ 57 * w := by
          rw [Nat.or_comm, ← Nat.shiftLeft_add_eq_or_of_lt gl, Nat.shiftLeft_eq]; ring
        have hpow : (2 : Nat) ^ n = 2 ^ 57 * 2 ^ (n - 57) := by rw [← Nat.pow_add]; congr 1; omega
        refine .inl ⟨v ||| w <<< 57, u, rfl, by simpa [show 57 + (n - 57) = n by omega] using g.trans k, ?_, ?_, fun hf => ?_⟩
        · rw [hval, hpow]
          have : 2 ^ 57 * (w + 1) ≤ 2 ^ 57 * 2 ^ (n - 57) := Nat.mul_le_mul_left _ kl
          omega
        · rw [g.pos, g.frame.inputBits] at kb; omega
        · rw [hval, gv hf, kv (g.fresh hf), g.frame.inputStream, g.pos, and_sizeMask, and_sizeMask, and_sizeMask, hpow, Nat.mod_mul,
            Nat.shiftRight_add, Nat.shiftRight_eq_div_pow (s.inputStream >>> s.readerPos) 57]
      · rw [bind_run_error (show readerRead (n - Config.maxField) t = _ from hu)]
        refine .inr ⟨u, e, 57, by omega, rfl, by simpa using g.trans k, ?_⟩
        rcases kc with ⟨he, hc⟩ | ⟨he, hc⟩
        · rw [g.pos, g.frame.inputBits] at hc
          exact .inl ⟨he, by omega⟩
        · rw [g.frame.platform, g.frame.rdEnd] at hc
          have := g.frame.ptr_le
          exact .inr ⟨he, fun hall => hc (hall.mono this (by have := h.ptr_le; have := g.ready.ptr_le; rw [g.frame.rdEnd] at this; omega))⟩
    · rw [bind_run_error (show readerRead Config.maxField s = _ from ht)]
      refine .inr ⟨t, e, 0, Nat.zero_le _, rfl, g, ?_⟩
      rcases gc with ⟨he, hc⟩ | hc
      · exact .inl ⟨he, by omega⟩
      · exact .inr hc

/-- All that `BSR.SIZE` can do (R134). -/
theorem readerSize_run (s : State) :
    readerSize s = if s.rdOpen then .ok (toWord s.bytesConsumed) s else .error (.raised .notOpen 0) s := by
  unfold readerSize
  rw [bind_run, raiseIfReaderClosed_run]
  cases s.rdOpen <;> rfl

/-- The bytes consumed are the position's whole bytes, a partial one counted (R134). -/
theorem bytesConsumed_eq (s : State) : s.bytesConsumed = bytesFor s.readerPos := by
  unfold State.bytesConsumed State.readerPos bytesFor
  rw [Nat.shiftRight_eq_div_pow]; omega

end Sys2Proof.Laws
end

