-- ==== Sys2Proof/Laws/Decoder.lean ====
section
/-! SUPPORT. What the decoder's operations can do from a ready reader, said once for each (45_bct_decoder.md R181 to R185, R191, R192):
which fields of the state they change, where they store, the only errors they raise, and that the walk ends. -/

namespace Sys2Proof.Laws
open Sys2Proof.Machine Sys2Proof.Format

/-! ### What a decoder operation may change -/

/-- From `s` to `t` only the reader's position and lookahead, the stack, memory and the trace changed, and every store lies in the output
array of `len` elements at `obase` (20_memory.md R77). -/
structure DecFrame (obase len : Nat) (s t : State) : Prop where
  same : t = { s with
    rdLa := t.rdLa, rdLoaded := t.rdLoaded, rdCons := t.rdCons, rdPtr := t.rdPtr, stack := t.stack, stkHwm := t.stkHwm,
    mem := t.mem, storeTrace := t.storeTrace }
  ptr_le : s.rdPtr.toNat ≤ t.rdPtr.toNat
  stores : ∃ l : List Host.Cell, t.mem = applyStores s.mem l ∧ t.storeTrace = l.reverse ++ s.storeTrace ∧
    ∀ c ∈ l, obase ≤ c.1 ∧ c.1 < obase + s.arrayBytes len

variable {obase len : Nat}

theorem DecFrame.refl (s : State) : DecFrame obase len s s := ⟨rfl, le_rfl, [], rfl, rfl, by simp⟩

theorem DecFrame.platform {s t : State} (h : DecFrame obase len s t) : t.platform = s.platform := by rw [h.same]
theorem DecFrame.rdEnd {s t : State} (h : DecFrame obase len s t) : t.rdEnd = s.rdEnd := by rw [h.same]
theorem DecFrame.rdBase {s t : State} (h : DecFrame obase len s t) : t.rdBase = s.rdBase := by rw [h.same]
theorem DecFrame.ebw {s t : State} (h : DecFrame obase len s t) : t.ebw = s.ebw := by rw [h.same]; rfl
theorem DecFrame.arrayBytes {s t : State} (h : DecFrame obase len s t) (n : Nat) : t.arrayBytes n = s.arrayBytes n := by
  rw [h.same]; rfl

theorem DecFrame.trans {s t u : State} (h : DecFrame obase len s t) (k : DecFrame obase len t u) : DecFrame obase len s u := by
  refine ⟨?_, h.ptr_le.trans k.ptr_le, ?_⟩
  · have hk := k.same
    rw [h.same] at hk
    exact hk
  · obtain ⟨l, h1, h2, h3⟩ := h.stores
    obtain ⟨m, k1, k2, k3⟩ := k.stores
    refine ⟨l ++ m, by rw [k1, h1, applyStores_append], by rw [k2, h2, List.reverse_append, List.append_assoc], fun c hc => ?_⟩
    rcases List.mem_append.1 hc with hc | hc
    · exact h3 c hc
    · have := k3 c hc
      rwa [h.arrayBytes] at this

theorem DecFrame.of_read {s t : State} (h : ReadFrame s t) : DecFrame obase len s t := by
  refine ⟨?_, h.ptr_le, [], h.mem, ?_, by simp⟩
  · have := h.same
    rw [this]
  · rw [h.same]; rfl

theorem DecFrame.withStack (s : State) (k : List BitCluster) : DecFrame obase len s (s.withStack k) :=
  ⟨rfl, le_rfl, [], rfl, rfl, by simp⟩

theorem DecFrame.pushed (s : State) (c : BitCluster) : DecFrame obase len s (s.pushed c) := ⟨rfl, le_rfl, [], rfl, rfl, by simp⟩

theorem DecFrame.withStores (s : State) (l : List Host.Cell) (h : ∀ c ∈ l, obase ≤ c.1 ∧ c.1 < obase + s.arrayBytes len) :
    DecFrame obase len s (withStores s l) := ⟨rfl, le_rfl, l, rfl, rfl, h⟩

theorem ReaderReady.congr {s t : State} (h : ReaderReady s) (ho : t.rdOpen = s.rdOpen) (hb : t.rdBase = s.rdBase)
    (hp : t.rdPtr = s.rdPtr) (he : t.rdEnd = s.rdEnd) (ha : t.rdLa = s.rdLa) (hl : t.rdLoaded = s.rdLoaded)
    (hc : t.rdCons = s.rdCons) : ReaderReady t := by
  constructor
  · rw [ho]; exact h.isOpen
  · rw [hc, hl]; exact h.cons_le
  · rw [hl, he, hp]; exact h.loaded_eq
  · rw [hb, hp]; exact h.base_le
  · rw [hp, he]; exact h.ptr_le
  · rw [ha, hl]; exact h.la_lt

/-! ### Reading a field, storing elements -/

/-- `GetField(n)` inside a decode-class command (R185): the field; or `WrongFormat` with the reader's code when the stream has not the
bits; or a refused byte. -/
theorem decodeField_cases {s : State} (h : ReaderReady s) {n : Nat} (hn : n ≤ 64) :
    (∃ v t, decodeField n s = .ok v t ∧ ReadDone n s t ∧ v < 2 ^ n ∧ s.readerPos + n ≤ s.inputBits ∧
      (s.lookaheadFresh → v = (s.inputStream >>> s.readerPos) &&& sizeMask n)) ∨
    (∃ t e i k, k ≤ n ∧ decodeField n s = .error (.raised e i) t ∧ ReadDone k s t ∧
      ((e = .wrongFormat ∧ (i = 2 ∨ i = 3) ∧ s.inputBits < s.readerPos + n) ∨
       (e = .busError ∧ i = 0 ∧ ¬ AllAdmitted s.platform s.rdPtr.toNat (s.rdEnd.toNat - s.rdPtr.toNat)))) := by
  unfold decodeField
  rcases getField_ready_cases h hn with ⟨v, t, hv, g⟩ | ⟨t, e, k, hk, ht, g, gc⟩
  · exact .inl ⟨v, t, by rw [hv], g⟩
  · rcases gc with ⟨rfl | rfl, hc⟩ | ⟨rfl, hc⟩
    · exact .inr ⟨t, .wrongFormat, 2, k, hk, by rw [ht]; rfl, g, .inl ⟨rfl, .inl rfl, hc⟩⟩
    · exact .inr ⟨t, .wrongFormat, 3, k, hk, by rw [ht]; rfl, g, .inl ⟨rfl, .inr rfl, hc⟩⟩
    · exact .inr ⟨t, .busError, 0, k, hk, by rw [ht]; rfl, g, .inr ⟨rfl, rfl, hc⟩⟩

/-- `StoreElem` of an element of the array (20_memory.md R64): its bytes are stored; or one of them is refused. -/
theorem storeElem_in {s : State} {i : Nat} (v : Nat) (hi : i < len) (hsp : obase + s.arrayBytes len ≤ Config.addressSpace) :
    (∃ l, storeElem obase i v s = .ok () (withStores s l) ∧ DecFrame obase len s (withStores s l)) ∨
    (∃ l, storeElem obase i v s = .error (.raised .busError 0) (withStores s l) ∧ DecFrame obase len s (withStores s l) ∧
      ¬ AllAdmitted s.platform obase (s.arrayBytes len)) := by
  have hin := elemAddr_add_le s (vbase := obase) (len := len) hi
  have hlo := le_elemAddr s obase i
  have hcell : ∀ k ≤ s.elemBytes, ∀ v', ∀ c ∈ cells (s.elemAddr obase i) k v', obase ≤ c.1 ∧ c.1 < obase + s.arrayBytes len :=
    fun k hk v' c hc => by have := cells_addr _ _ _ c hc; omega
  rw [storeElem, bind_run_ok (get_run s)]
  rcases memWrite_cases s (s.elemAddr obase i) s.elemBytes (v % 2 ^ s.elemWidth) with
    ⟨h, -⟩ | ⟨k, hk, h, -, hr, -⟩ | ⟨k, hk, h, -, hs⟩
  · exact .inl ⟨_, h, .withStores s _ (hcell _ le_rfl _)⟩
  · refine .inr ⟨_, h, .withStores s _ (hcell _ hk.le _), fun hall => ?_⟩
    rw [hall (s.elemAddr obase i + k) (by omega) (by omega)] at hr
    cases hr
  · omega

/-- What is the same from `s` to `t` while elements are stored and fields are read: the reader is ready, the stack is the same. -/
structure DecMoved (obase len : Nat) (s t : State) : Prop where
  ready : ReaderReady t
  frame : DecFrame obase len s t
  stack : t.stack = s.stack
  stkHwm : t.stkHwm = s.stkHwm

theorem DecMoved.refl {s : State} (h : ReaderReady s) : DecMoved obase len s s := ⟨h, .refl s, rfl, rfl⟩

theorem DecMoved.trans {s t u : State} (h : DecMoved obase len s t) (k : DecMoved obase len t u) : DecMoved obase len s u :=
  ⟨k.ready, h.frame.trans k.frame, by rw [k.stack, h.stack], by rw [k.stkHwm, h.stkHwm]⟩

theorem DecMoved.of_stores {s : State} (h : ReaderReady s) {l : List Host.Cell} (hf : DecFrame obase len s (withStores s l)) :
    DecMoved obase len s (Laws.withStores s l) := ⟨h.congr rfl rfl rfl rfl rfl rfl rfl, hf, rfl, rfl⟩

theorem DecMoved.of_read {n : Nat} {s t : State} (h : ReadDone n s t) : DecMoved obase len s t :=
  ⟨h.ready, .of_read h.frame, h.frame.stack, h.frame.stkHwm⟩

/-- Why a decoder operation fails (R182, R185, R191): a corrupt or short stream, a refused byte of the input or of the output array, or
the 65th stack entry, which only a full 64-bit tree can need. -/
def DecCause (obase len : Nat) (e : Err) (i : BitVec 8) (s : State) : Prop :=
  (e = .wrongFormat ∧ (i = 0 ∨ i = 2 ∨ i = 3)) ∨
  (e = .busError ∧ i = 0 ∧ (¬ AllAdmitted s.platform s.rdPtr.toNat (s.rdEnd.toNat - s.rdPtr.toNat) ∨
    ¬ AllAdmitted s.platform obase (s.arrayBytes len))) ∨
  (e = .stackOverflow ∧ i = 0 ∧ 64 ≤ s.ebw)

theorem DecCause.of_frame {e : Err} {i : BitVec 8} {s t : State} (h : DecFrame obase len s t) (hr : ReaderReady s)
    (k : DecCause obase len e i t) : DecCause obase len e i s := by
  rcases k with k | ⟨he, hi, hc⟩ | ⟨he, hi, hc⟩
  · exact .inl k
  · refine .inr (.inl ⟨he, hi, ?_⟩)
    rw [h.platform, h.rdEnd, h.arrayBytes] at hc
    have h1 := h.ptr_le
    have h2 := hr.ptr_le
    by_cases hle : t.rdPtr.toNat ≤ s.rdEnd.toNat
    · exact hc.imp (fun hc hall => hc (hall.mono h1 (by omega))) id
    · refine hc.imp (fun hc _ => hc fun x hx1 hx2 => ?_) id
      omega
  · rw [h.ebw] at hc
    exact .inr (.inr ⟨he, hi, hc⟩)

/-- Case 1 of `DecStep` (R182). -/
theorem fillSlots_cases (value : Nat) : ∀ (n i : Nat) {s : State}, ReaderReady s →
    obase + s.arrayBytes len ≤ Config.addressSpace → i + n ≤ len →
    (∃ t, fillSlots obase value n i s = .ok () t ∧ DecMoved obase len s t) ∨
    (∃ t e j, fillSlots obase value n i s = .error (.raised e j) t ∧ DecMoved obase len s t ∧ DecCause obase len e j s)
  | 0, _, s, h, _, _ => .inl ⟨s, rfl, .refl h⟩
  | n + 1, i, s, h, hsp, hi => by
    rw [fillSlots]
    rcases storeElem_in value (show i < len by omega) hsp with ⟨l, g, gf⟩ | ⟨l, g, gf, gc⟩
    · rw [bind_run_ok g]
      have hm := DecMoved.of_stores h gf
      rcases fillSlots_cases value n (i + 1) hm.ready (by rw [hm.frame.arrayBytes]; exact hsp) (by omega) with
        ⟨t, ht, k⟩ | ⟨t, e, j, ht, k, kc⟩
      · exact .inl ⟨t, ht, hm.trans k⟩
      · exact .inr ⟨t, e, j, ht, hm.trans k, kc.of_frame hm.frame h⟩
    · rw [bind_run_error g]
      exact .inr ⟨_, _, _, rfl, .of_stores h gf, .inr (.inl ⟨rfl, rfl, .inr gc⟩)⟩

/-- Case 2 of `DecStep` (R182). -/
theorem fillRange_cases (start hb : Nat) : ∀ (n i : Nat) {s : State}, ReaderReady s →
    obase + s.arrayBytes len ≤ Config.addressSpace → start + i + n ≤ len →
    (∃ t, fillRange obase start hb n i s = .ok () t ∧ DecMoved obase len s t) ∨
    (∃ t e j, fillRange obase start hb n i s = .error (.raised e j) t ∧ DecMoved obase len s t ∧ DecCause obase len e j s)
  | 0, _, s, h, _, _ => .inl ⟨s, rfl, .refl h⟩
  | n + 1, i, s, h, hsp, hi => by
    rw [fillRange]
    rcases storeElem_in (hb ||| i) (show start + i < len by omega) hsp with ⟨l, g, gf⟩ | ⟨l, g, gf, gc⟩
    · rw [bind_run_ok g]
      have hm := DecMoved.of_stores h gf
      rcases fillRange_cases start hb n (i + 1) hm.ready (by rw [hm.frame.arrayBytes]; exact hsp) (by omega) with
        ⟨t, ht, k⟩ | ⟨t, e, j, ht, k, kc⟩
      · exact .inl ⟨t, ht, hm.trans k⟩
      · exact .inr ⟨t, e, j, ht, hm.trans k, kc.of_frame hm.frame h⟩
    · rw [bind_run_error g]
      exact .inr ⟨_, _, _, rfl, .of_stores h gf, .inr (.inl ⟨rfl, rfl, .inr gc⟩)⟩

/-- A failed field read is a failure of the decoder operation it stands in. -/
theorem DecCause.of_field {n : Nat} {e : Err} {i : BitVec 8} {s : State}
    (h : (e = .wrongFormat ∧ (i = 2 ∨ i = 3) ∧ s.inputBits < s.readerPos + n) ∨
       (e = .busError ∧ i = 0 ∧ ¬ AllAdmitted s.platform s.rdPtr.toNat (s.rdEnd.toNat - s.rdPtr.toNat))) :
    DecCause obase len e i s := by
  rcases h with ⟨he, hi, -⟩ | ⟨he, hi, hc⟩
  · exact .inl ⟨he, .inr hi⟩
  · exact .inr (.inl ⟨he, hi, .inl hc⟩)

/-- Case 3 of `DecStep` (R182). -/
theorem readLiterals_cases {bitPos : Nat} (hbp : bitPos ≤ 64) (hb : Nat) : ∀ (n i : Nat) {s : State}, ReaderReady s →
    obase + s.arrayBytes len ≤ Config.addressSpace → i + n ≤ len →
    (∃ t, readLiterals obase bitPos hb n i s = .ok () t ∧ DecMoved obase len s t) ∨
    (∃ t e j, readLiterals obase bitPos hb n i s = .error (.raised e j) t ∧ DecMoved obase len s t ∧ DecCause obase len e j s)
  | 0, _, s, h, _, _ => .inl ⟨s, rfl, .refl h⟩
  | n + 1, i, s, h, hsp, hi => by
    rw [readLiterals]
    rcases decodeField_cases h hbp with ⟨v, t, hv, g, -⟩ | ⟨t, e, j, k, -, ht, g, gc⟩
    · rw [bind_run_ok hv]
      have hm0 : DecMoved obase len s t := .of_read g
      rcases storeElem_in (s := t) (obase := obase) (hb ||| v) (show i < len by omega) (by rw [hm0.frame.arrayBytes]; exact hsp) with
        ⟨l, q, qf⟩ | ⟨l, q, qf, qc⟩
      · rw [bind_run_ok q]
        have hm := hm0.trans (.of_stores hm0.ready qf)
        rcases readLiterals_cases hbp hb n (i + 1) hm.ready (by rw [hm.frame.arrayBytes]; exact hsp) (by omega) with
          ⟨u, hu, k⟩ | ⟨u, e, j, hu, k, kc⟩
        · exact .inl ⟨u, hu, hm.trans k⟩
        · exact .inr ⟨u, e, j, hu, hm.trans k, kc.of_frame hm.frame h⟩
      · rw [bind_run_error q]
        refine .inr ⟨_, _, _, rfl, hm0.trans (.of_stores hm0.ready qf), DecCause.of_frame hm0.frame h (.inr (.inl ⟨rfl, rfl, .inr qc⟩))⟩
    · rw [bind_run_error ht]
      exact .inr ⟨t, e, j, rfl, .of_read g, .of_field gc⟩

/-! ### One step of the walk -/

/-- The state of a decoder walk over `len` slots at `obase`, between steps. -/
structure DecWalk (obase len : Nat) (s : State) : Prop where
  ready : ReaderReady s
  ladder : Ladder s.ebw s.stack
  clusters : ∀ c ∈ s.stack, ClusterIn len s.ebw c
  bounded : StackBounded s
  ebw_le : s.ebw ≤ 64
  array : obase + s.arrayBytes len < Config.addressSpace
  len_lt : len < 2 ^ 64

theorem DecWalk.stackKept {s : State} (h : DecWalk obase len s) : StackKept s :=
  ⟨h.bounded, fun c hc => ⟨(h.clusters c hc).length_pos, (h.clusters c hc).bitPos_le.trans h.ebw_le⟩⟩

theorem DecWalk.moved {s t : State} (h : DecWalk obase len s) (m : DecMoved obase len s t) : DecWalk obase len t := by
  refine ⟨m.ready, by rw [m.stack, m.frame.ebw]; exact h.ladder, by rw [m.stack, m.frame.ebw]; exact h.clusters,
    (h.stackKept.congr m.stack m.stkHwm).bounded, by rw [m.frame.ebw]; exact h.ebw_le, by rw [m.frame.arrayBytes]; exact h.array,
    h.len_lt⟩

/-- The cluster that `AddD` pushes (R181). -/
def child (start length bitPos higherBits : Nat) : BitCluster :=
  { start := toWord start, length := toWord length, bitPos := toCount bitPos, higherBits := toWord higherBits }

/-- All that `AddD` can do (R181). -/
theorem addD_run (start length bitPos hb : Nat) (s : State) :
    addD start length bitPos hb s =
      if length = 0 then .ok ⟨⟩ s
      else if 64 ≤ s.stkSp then .error (.raised .stackOverflow 0) s
      else .ok ⟨⟩ (s.pushed (child start length bitPos hb)) := by
  unfold addD
  by_cases h : length = 0
  · simp [h]
  · rw [if_neg h, if_neg h, stackPush_run]; rfl

/-- Pushing the two children of a popped cluster (R181, R182): the walk goes on with less weight; or the stack is full, which needs 64
levels (R191). -/
theorem pushChildren_cases {z hz ho : Nat} {c : BitCluster} {rest : List BitCluster} {s : State} (hw : DecWalk obase len s)
    (hst : s.stack = rest) (hlad : Ladder s.ebw (c :: rest)) (hc : ClusterIn len s.ebw c) (hp : 0 < c.bitPos.toNat)
    (hzl : z ≤ c.length.toNat) :
    (∃ t, (do addD c.start.toNat z (c.bitPos.toNat - 1) hz
              addD (c.start.toNat + z) (c.length.toNat - z) (c.bitPos.toNat - 1) ho : Rule Unit) s = .ok ⟨⟩ t ∧
      DecWalk obase len t ∧ DecFrame obase len s t ∧ decWeight t.stack < decWeight (c :: rest)) ∨
    (∃ t, (do addD c.start.toNat z (c.bitPos.toNat - 1) hz
              addD (c.start.toNat + z) (c.length.toNat - z) (c.bitPos.toNat - 1) ho : Rule Unit) s =
        .error (.raised .stackOverflow 0) t ∧
      StackKept t ∧ ReaderReady t ∧ DecFrame obase len s t ∧ 64 ≤ s.ebw) := by
  have hrest := hlad.length_rest
  have hin := hc.inside
  have hpos := hc.length_pos
  have hble := hc.bitPos_le
  have hE := hw.ebw_le
  have hlen := hw.len_lt
  have hsp : s.stkSp = rest.length := by rw [State.stkSp, hst]
  have hcl : ∀ d ∈ rest, ClusterIn len s.ebw d := fun d hd => hw.clusters d (by rw [hst]; exact hd)
  -- the two possible children
  obtain ⟨zs, zl, zb⟩ : (child c.start.toNat z (c.bitPos.toNat - 1) hz).start.toNat = c.start.toNat ∧
      (child c.start.toNat z (c.bitPos.toNat - 1) hz).length.toNat = z ∧
      (child c.start.toNat z (c.bitPos.toNat - 1) hz).bitPos.toNat = c.bitPos.toNat - 1 :=
    ⟨toWord_toNat (by omega), toWord_toNat (by omega), toCount_toNat (by omega)⟩
  obtain ⟨os, ol, ob⟩ : (child (c.start.toNat + z) (c.length.toNat - z) (c.bitPos.toNat - 1) ho).start.toNat = c.start.toNat + z ∧
      (child (c.start.toNat + z) (c.length.toNat - z) (c.bitPos.toNat - 1) ho).length.toNat = c.length.toNat - z ∧
      (child (c.start.toNat + z) (c.length.toNat - z) (c.bitPos.toNat - 1) ho).bitPos.toNat = c.bitPos.toNat - 1 :=
    ⟨toWord_toNat (by omega), toWord_toNat (by omega), toCount_toNat (by omega)⟩
  generalize hzc : child c.start.toNat z (c.bitPos.toNat - 1) hz = zc at *
  generalize hoc : child (c.start.toNat + z) (c.length.toNat - z) (c.bitPos.toNat - 1) ho = oc at *
  have hsplit : z * (c.bitPos.toNat - 1 + 1) + (c.length.toNat - z) * (c.bitPos.toNat - 1 + 1) =
      c.length.toNat * (c.bitPos.toNat - 1 + 1) := by rw [← Nat.add_mul]; congr 1; omega
  have hwt : c.length.toNat * (c.bitPos.toNat + 1) = c.length.toNat * (c.bitPos.toNat - 1 + 1) + c.length.toNat := by
    obtain ⟨q, hq⟩ : ∃ q, c.bitPos.toNat = q + 1 := ⟨c.bitPos.toNat - 1, by omega⟩
    rw [hq, Nat.add_sub_cancel]; ring
  have hzin : 0 < z → ClusterIn len s.ebw zc := fun h => ⟨by omega, by omega, by omega⟩
  have hoin : 0 < c.length.toNat - z → ClusterIn len s.ebw oc := fun h => ⟨by omega, by omega, by omega⟩
  by_cases hz0 : z = 0
  · have hl0 : c.length.toNat - z ≠ 0 := by omega
    refine .inl ⟨s.pushed oc, ?_, ⟨hw.ready.congr rfl rfl rfl rfl rfl rfl rfl, ?_, ?_, hw.bounded.pushed oc (by omega), hE, hw.array,
      hlen⟩, .pushed s oc, ?_⟩
    · rw [bind_run, addD_run, if_pos hz0]
      simp only [addD_run]
      rw [if_neg hl0, if_neg (by omega), hoc]
    · rw [pushed_stack, pushed_ebw, hst]; exact hlad.push_one hp ob
    · rw [pushed_stack, pushed_ebw, hst]
      intro d hd
      rcases List.mem_cons.1 hd with rfl | hd
      · exact hoin (by omega)
      · exact hcl d hd
    · rw [pushed_stack, hst, decWeight, decWeight, ol, ob]
      subst hz0; simp only [Nat.sub_zero] at *; omega
  have hroom : ¬ 64 ≤ s.stkSp := by omega
  by_cases hl0 : c.length.toNat - z = 0
  · refine .inl ⟨s.pushed zc, ?_, ⟨hw.ready.congr rfl rfl rfl rfl rfl rfl rfl, ?_, ?_, hw.bounded.pushed zc (by omega), hE, hw.array,
      hlen⟩, .pushed s zc, ?_⟩
    · rw [bind_run, addD_run, if_neg hz0, if_neg hroom, hzc]
      simp only [addD_run]
      rw [if_pos hl0]
    · rw [pushed_stack, pushed_ebw, hst]; exact hlad.push_one hp zb
    · rw [pushed_stack, pushed_ebw, hst]
      intro d hd
      rcases List.mem_cons.1 hd with rfl | hd
      · exact hzin (by omega)
      · exact hcl d hd
    · rw [pushed_stack, hst, decWeight, decWeight, zl, zb]
      rw [hl0] at hsplit; omega
  have hz1 : StackBounded (s.pushed zc) := hw.bounded.pushed zc (by omega)
  have hcl2 : ∀ d ∈ zc :: rest, ClusterIn len s.ebw d := fun d hd => by
    rcases List.mem_cons.1 hd with rfl | hd
    · exact hzin (by omega)
    · exact hcl d hd
  by_cases hfull : 64 ≤ (s.pushed zc).stkSp
  · refine .inr ⟨s.pushed zc, ?_, ⟨hz1, ?_⟩, hw.ready.congr rfl rfl rfl rfl rfl rfl rfl, .pushed s zc, ?_⟩
    · rw [bind_run, addD_run, if_neg hz0, if_neg hroom, hzc]
      simp only [addD_run]
      rw [if_neg hl0, if_pos hfull]
    · intro d hd
      rw [pushed_stack, hst] at hd
      exact ⟨(hcl2 d hd).length_pos, (hcl2 d hd).bitPos_le.trans hE⟩
    · rw [stkSp_pushed] at hfull; omega
  · refine .inl ⟨(s.pushed zc).pushed oc, ?_, ⟨hw.ready.congr rfl rfl rfl rfl rfl rfl rfl, ?_, ?_, hz1.pushed oc (by omega), hE,
      hw.array, hlen⟩, (DecFrame.pushed s zc).trans (.pushed _ oc), ?_⟩
    · rw [bind_run, addD_run, if_neg hz0, if_neg hroom, hzc]
      simp only [addD_run]
      rw [if_neg hl0, if_neg hfull, hoc]
    · rw [pushed_stack, pushed_stack, pushed_ebw, pushed_ebw, hst]; exact hlad.push_two hp ob zb
    · rw [pushed_stack, pushed_stack, pushed_ebw, pushed_ebw, hst]
      intro d hd
      rcases List.mem_cons.1 hd with rfl | hd
      · exact hoin (by omega)
      · exact hcl2 d hd
    · rw [pushed_stack, pushed_stack, hst, decWeight, decWeight, decWeight, zl, zb, ol, ob]; omega

/-- `DecStep` on the popped top of the stack (R182): the walk goes on with less weight; or it fails, the rest of the stack kept. -/
theorem decStep_cases {c : BitCluster} {rest : List BitCluster} {s : State} (hw : DecWalk obase len s) (hst : s.stack = c :: rest) :
    (∃ t, decStep obase c (s.withStack rest) = .ok ⟨⟩ t ∧ DecWalk obase len t ∧ DecFrame obase len s t ∧
      decWeight t.stack < decWeight s.stack) ∨
    (∃ t e i, decStep obase c (s.withStack rest) = .error (.raised e i) t ∧ StackKept t ∧ ReaderReady t ∧ DecFrame obase len s t ∧
      DecCause obase len e i s) := by
  have hc := hw.clusters c (by rw [hst]; simp)
  have hlad : Ladder s.ebw (c :: rest) := hst ▸ hw.ladder
  have hcl : ∀ d ∈ c :: rest, ClusterIn len s.ebw d := hst ▸ hw.clusters
  have hE := hw.ebw_le
  have hble := hc.bitPos_le
  have hin := hc.inside
  have hlpos := hc.length_pos
  have hwt : decWeight s.stack = c.length.toNat * (c.bitPos.toNat + 1) + decWeight rest := by rw [hst]; rfl
  have hprod := Nat.mul_pos hlpos (show 0 < c.bitPos.toNat + 1 by omega)
  have hpop : DecWalk obase len (s.withStack rest) :=
    ⟨hw.ready.congr rfl rfl rfl rfl rfl rfl rfl, hlad.tail, fun d hd => hcl d (by simp at hd; simp [hd]),
      hw.bounded.withStack (by rw [State.stkSp, hst]; simp), hE, hw.array, hw.len_lt⟩
  have hfr : DecFrame obase len s (s.withStack rest) := .withStack s rest
  -- the three cases that only store and read
  have done : ∀ {x : EStateM.Result Abort State Unit},
      ((∃ t, x = .ok () t ∧ DecMoved obase len (s.withStack rest) t) ∨
        (∃ t e j, x = .error (.raised e j) t ∧ DecMoved obase len (s.withStack rest) t ∧
          DecCause obase len e j (s.withStack rest))) →
      (∃ t, x = .ok ⟨⟩ t ∧ DecWalk obase len t ∧ DecFrame obase len s t ∧ decWeight t.stack < decWeight s.stack) ∨
      (∃ t e i, x = .error (.raised e i) t ∧ StackKept t ∧ ReaderReady t ∧ DecFrame obase len s t ∧ DecCause obase len e i s) := by
    rintro x (⟨t, ht, m⟩ | ⟨t, e, j, ht, m, k⟩)
    · exact .inl ⟨t, ht, hpop.moved m, hfr.trans m.frame, by rw [m.stack, withStack_stack, hwt]; omega⟩
    · exact .inr ⟨t, e, j, ht, hpop.stackKept.congr m.stack m.stkHwm, m.ready, hfr.trans m.frame, k.of_frame hfr hw.ready⟩
  unfold decStep
  rw [bind_run_ok (get_run _)]
  by_cases hb0 : c.bitPos = 0
  · rw [if_pos hb0]
    exact done (fillSlots_cases _ _ _ hpop.ready hw.array.le (by omega))
  rw [if_neg hb0]
  by_cases hfull : ((s.withStack rest).skipEff && isFull c.length.toNat c.bitPos.toNat) = true
  · rw [if_pos hfull]
    exact done (fillRange_cases _ _ _ _ hpop.ready hw.array.le (by omega))
  rw [if_neg hfull]
  by_cases hlit : c.length.toNat ≤ (s.withStack rest).mcl.toNat
  · rw [if_pos hlit]
    exact done (readLiterals_cases (by omega) _ _ _ hpop.ready hw.array.le (by omega))
  rw [if_neg hlit]
  unfold decSplit
  have hp : 0 < c.bitPos.toNat := by
    rcases Nat.eq_zero_or_pos c.bitPos.toNat with h | h
    · exact absurd (BitVec.eq_of_toNat_eq (by simpa using h)) hb0
    · exact h
  rcases decodeField_cases hpop.ready (bitsLen64_le (v := c.length.toNat) (k := 64) c.length.isLt) with
    ⟨z, t, hz, g, -⟩ | ⟨t, e, i, k, -, ht, g, gc⟩
  · rw [bind_run_ok hz]
    have m : DecMoved obase len (s.withStack rest) t := .of_read g
    have hft := hfr.trans m.frame
    by_cases hg : c.length.toNat < z
    · rw [bind_run_error (e := .raised .wrongFormat 0) (t := t) (by simp [raiseIf_run, hg])]
      exact .inr ⟨t, _, _, rfl, hpop.stackKept.congr m.stack m.stkHwm, m.ready, hft, .inl ⟨rfl, .inl rfl⟩⟩
    · rw [bind_run_ok (a := ()) (t := t) (by simp [raiseIf_run, hg])]
      rcases pushChildren_cases (z := z) (hz := c.higherBits.toNat) (ho := c.higherBits.toNat ||| bitMask (c.bitPos.toNat - 1))
          (rest := rest) (hpop.moved m) (by rw [m.stack]; rfl) (by rw [hft.ebw]; exact hlad) (by rw [hft.ebw]; exact hc) hp (by omega) with
        ⟨u, hu, k1, k2, k3⟩ | ⟨u, hu, k1, k2, k3, k4⟩
      · exact .inl ⟨u, hu, k1, hft.trans k2, by rw [hst]; exact k3⟩
      · exact .inr ⟨u, _, _, hu, k1, k2, hft.trans k3, .inr (.inr ⟨rfl, rfl, by rw [hft.ebw] at k4; exact k4⟩)⟩
  · rw [bind_run_error ht]
    have m : DecMoved obase len (s.withStack rest) t := .of_read g
    exact .inr ⟨t, e, i, rfl, hpop.stackKept.congr m.stack m.stkHwm, m.ready, hfr.trans m.frame,
      (DecCause.of_field gc).of_frame hfr hw.ready⟩

/-! ### The whole walk -/

/-- The loop of `DTreeBody` with enough steps for the weight on the stack (R183): it empties the stack, or it fails. It never passes its
bound. -/
theorem dTreeLoop_cases : ∀ (fuel : Nat) {s : State}, DecWalk obase len s → decWeight s.stack ≤ fuel →
    (∃ t, dTreeLoop obase fuel s = .ok ⟨⟩ t ∧ DecWalk obase len t ∧ t.stack = [] ∧ DecFrame obase len s t) ∨
    (∃ t e i, dTreeLoop obase fuel s = .error (.raised e i) t ∧ StackKept t ∧ ReaderReady t ∧ DecFrame obase len s t ∧
      DecCause obase len e i s)
  | 0, s, hw, hf => by
    have hnil : s.stack = [] := by
      cases hst : s.stack with
      | nil => rfl
      | cons c rest =>
        have := decWeight_pos (k := rest) (hw.clusters c (by rw [hst]; simp)).length_pos
        rw [hst] at hf; omega
    refine .inl ⟨s, ?_, hw, hnil, .refl s⟩
    rw [dTreeLoop, bind_run_ok (get_run s), if_pos hnil]; rfl
  | fuel + 1, s, hw, hf => by
    rw [dTreeLoop]
    cases hst : s.stack with
    | nil =>
      refine .inl ⟨s, ?_, hw, hst, .refl s⟩
      rw [bind_run_ok (show stackPop s = .ok none s by rw [stackPop_run, hst])]; rfl
    | cons c rest =>
      rw [bind_run_ok (show stackPop s = .ok (some c) (s.withStack rest) by rw [stackPop_run, hst])]
      rcases decStep_cases hw hst with ⟨t, ht, g, gf, glt⟩ | ⟨t, e, i, ht, g1, g2, g3, g4⟩
      · simp only [bind_run_ok ht]
        rcases dTreeLoop_cases fuel g (by omega) with ⟨u, hu, k, kn, kf⟩ | ⟨u, e, i, hu, k1, k2, k3, k4⟩
        · exact .inl ⟨u, hu, k, kn, gf.trans kf⟩
        · exact .inr ⟨u, e, i, hu, k1, k2, gf.trans k3, k4.of_frame gf hw.ready⟩
      · simp only [bind_run_error ht]
        exact .inr ⟨t, e, i, rfl, g1, g2, g3, g4⟩

/-- `DTreeBody(obase, len)` from a ready reader with a legal configuration (R183, R191, R192): it ends with the stack empty, or it fails
for one of the causes of a decode; in both cases it stores nothing outside the output array. -/
theorem dTreeBody_cases {s : State} (hr : ReaderReady s) (hcfg : s.badConfig = false) (hbd : s.stkHwm.toNat ≤ 64)
    (harr : obase + s.arrayBytes len < Config.addressSpace) (hlen : len < 2 ^ 64) :
    (∃ t, dTreeBody obase len s = .ok ⟨⟩ t ∧ DecWalk obase len t ∧ t.stack = [] ∧ DecFrame obase len s t) ∨
    (∃ t e i, dTreeBody obase len s = .error (.raised e i) t ∧ StackKept t ∧ ReaderReady t ∧ DecFrame obase len s t ∧
      DecCause obase len e i s) := by
  have hE : s.ebw ≤ 64 := (ebw_le s hcfg).trans (elemWidth_le s)
  have h0 : DecWalk obase len (s.withStack []) :=
    ⟨hr.congr rfl rfl rfl rfl rfl rfl rfl, trivial, by simp, ⟨by simp, hbd⟩, hE, harr, hlen⟩
  have hf0 : DecFrame obase len s (s.withStack []) := .withStack s []
  unfold dTreeBody
  rw [bind_run_ok (stackClear_run s), bind_run_ok (get_run _)]
  have hroot : ∃ t, addD 0 len (s.withStack []).ebw 0 (s.withStack []) = .ok ⟨⟩ t ∧ DecWalk obase len t ∧ DecFrame obase len s t ∧
      decWeight t.stack = len * (s.ebw + 1) := by
    by_cases hl : len = 0
    · exact ⟨_, by rw [addD_run, if_pos hl], h0, hf0, by simp [hl, decWeight]⟩
    · have hll : (child 0 len s.ebw 0).length.toNat = len := toWord_toNat hlen
      have hbb : (child 0 len s.ebw 0).bitPos.toNat = s.ebw := toCount_toNat (by omega)
      have hss : (child 0 len s.ebw 0).start.toNat = 0 := rfl
      refine ⟨(s.withStack []).pushed (child 0 len s.ebw 0), by rw [addD_run, if_neg hl, if_neg (by simp)]; rfl, ⟨hr.congr rfl rfl rfl rfl rfl rfl rfl, ?_, ?_,
        h0.bounded.pushed _ (by simp), hE, harr, hlen⟩, hf0.trans (.pushed _ _), ?_⟩
      · exact ⟨hbb.le, by simp, by simp⟩
      · intro d hd
        rw [pushed_stack, withStack_stack, List.mem_singleton] at hd
        subst hd
        exact ⟨by rw [hss, hll]; omega, by rw [hll]; omega, hbb.le⟩
      · simp only [pushed_stack, withStack_stack, decWeight, hll, hbb, Nat.add_zero]
  obtain ⟨t, ht, hw, hf, hwt⟩ := hroot
  rw [bind_run_ok ht]
  rcases dTreeLoop_cases (1 + len * ((s.withStack []).ebw + 1)) hw (by rw [hwt, withStack_ebw]; omega) with
    ⟨u, hu, k, kn, kf⟩ | ⟨u, e, i, hu, k1, k2, k3, k4⟩
  · exact .inl ⟨u, hu, k, kn, hf.trans kf⟩
  · exact .inr ⟨u, e, i, hu, k1, k2, hf.trans k3, k4.of_frame hf hr⟩

end Sys2Proof.Laws
end

