-- ==== Sys2Proof/Laws/PerInstr.lean ====
section
/-! SUPPORT. The statements made for each command: its word selects its row of the opcode table (30_encoding.md R84), every immediate at
every value its field admits, and no other row. -/

namespace Sys2Proof.Laws.TableRow
open Sys2Proof

/-- The `mask` column of R84. -/
def mask : Instr → BitVec 32
  | .bswAppend _ | .bswWrite _ | .bsrRead _ | .zcCount _ => 0xFFFFC0FF
  | .sysNop | .sysReset | .utlBlen | .bswInit | .bswFlush | .bswClose | .bsrInit | .bsrLoad | .bsrSize | .bctEtree | .bctEncode
  | .bctDtree | .bctDecode | .bctDsize => 0xFFFFFFFF

/-- The `match` column of R84. -/
def pattern : Instr → BitVec 32
  | .sysNop => 0x00000000
  | .sysReset => 0x00000001
  | .utlBlen => 0x00000008
  | .bswInit => 0x00000010
  | .bswAppend _ => 0x00000011
  | .bswWrite _ => 0x00000012
  | .bswFlush => 0x00000013
  | .bswClose => 0x00000014
  | .bsrInit => 0x00000020
  | .bsrRead _ => 0x00000021
  | .bsrLoad => 0x00000022
  | .bsrSize => 0x00000023
  | .zcCount _ => 0x00000030
  | .bctEtree => 0x00000040
  | .bctEncode => 0x00000041
  | .bctDtree => 0x00000042
  | .bctDecode => 0x00000043
  | .bctDsize => 0x00000044

/-- The rows of R84, each as its mask and its pattern. -/
def rows : List (BitVec 32 × BitVec 32) :=
  [(0xFFFFFFFF, 0x00000000), (0xFFFFFFFF, 0x00000001), (0xFFFFFFFF, 0x00000008), (0xFFFFFFFF, 0x00000010), (0xFFFFC0FF, 0x00000011), (0xFFFFC0FF, 0x00000012),
   (0xFFFFFFFF, 0x00000013), (0xFFFFFFFF, 0x00000014), (0xFFFFFFFF, 0x00000020), (0xFFFFC0FF, 0x00000021), (0xFFFFFFFF, 0x00000022), (0xFFFFFFFF, 0x00000023),
   (0xFFFFC0FF, 0x00000030), (0xFFFFFFFF, 0x00000040), (0xFFFFFFFF, 0x00000041), (0xFFFFFFFF, 0x00000042), (0xFFFFFFFF, 0x00000043), (0xFFFFFFFF, 0x00000044)]

/-- No two rows of the table select a common word. -/
theorem rows_disjoint : rows.Pairwise fun r q => r.2 &&& (r.1 &&& q.1) ≠ q.2 &&& (r.1 &&& q.1) := by decide

/-- A well-formed command's word selects its row. -/
def Statement (i : Instr) : Prop := i.wellFormed = true → encode i &&& mask i = pattern i ∧ (mask i, pattern i) ∈ rows

theorem sysNop : Statement .sysNop := fun _ => by decide

theorem sysReset : Statement .sysReset := fun _ => by decide

theorem utlBlen : Statement .utlBlen := fun _ => by decide

theorem bswInit : Statement .bswInit := fun _ => by decide

theorem bswAppend (n : Nat) : Statement (.bswAppend n) := fun hw => by
  have h : n < 64 := of_decide_eq_true hw
  clear hw; revert n; decide

theorem bswWrite (n : Nat) : Statement (.bswWrite n) := fun hw => by
  have h : n < 64 := of_decide_eq_true hw
  clear hw; revert n; decide

theorem bswFlush : Statement .bswFlush := fun _ => by decide

theorem bswClose : Statement .bswClose := fun _ => by decide

theorem bsrInit : Statement .bsrInit := fun _ => by decide

theorem bsrRead (n : Nat) : Statement (.bsrRead n) := fun hw => by
  have h : n < 64 := of_decide_eq_true hw
  clear hw; revert n; decide

theorem bsrLoad : Statement .bsrLoad := fun _ => by decide

theorem bsrSize : Statement .bsrSize := fun _ => by decide

theorem zcCount (n : Nat) : Statement (.zcCount n) := fun hw => by
  have h : n < 64 := of_decide_eq_true hw
  clear hw; revert n; decide

theorem bctEtree : Statement .bctEtree := fun _ => by decide

theorem bctEncode : Statement .bctEncode := fun _ => by decide

theorem bctDtree : Statement .bctDtree := fun _ => by decide

theorem bctDecode : Statement .bctDecode := fun _ => by decide

theorem bctDsize : Statement .bctDsize := fun _ => by decide

end Sys2Proof.Laws.TableRow
end

