-- ==== Sys2Proof/Tests/Slice0.lean ====
section
/-! SUPPORT. Tests: the smoke test of WellFormed, words written out from the encoding tables, small tests of one command each with the
results the rules' own examples give, and for every statement with hypotheses a state that meets them, clause by clause. -/

namespace Sys2Proof.Tests

-- One test at a time: the kernel checks of many tests at once would each hold a thread's stack.
set_option Elab.async false

open Sys2Proof Sys2Proof.Machine Sys2Proof.Format Sys2Proof.Laws

/-! ### WellFormed (30_encoding.md R80): one ill-formed term per check -/

theorem test_append_immediate_64_refused : (Instr.bswAppend 64).wellFormed = false := by decide
theorem test_write_immediate_64_refused : (Instr.bswWrite 64).wellFormed = false := by decide
theorem test_read_immediate_64_refused : (Instr.bsrRead 64).wellFormed = false := by decide
theorem test_count_immediate_64_refused : (Instr.zcCount 64).wellFormed = false := by decide
theorem test_immediate_63_accepted : (Instr.bsrRead 63).wellFormed = true := by decide

/-! ### Words written out field by field: RSV (18 bits), N (6 bits), OPC (8 bits) (30_encoding.md R80, R84) -/

theorem test_decode_sysNop : decode 0b000000000000000000_000000_00000000 = .ok .sysNop := by decide
theorem test_decode_sysReset : decode 0b000000000000000000_000000_00000001 = .ok .sysReset := by decide
theorem test_decode_utlBlen : decode 0b000000000000000000_000000_00001000 = .ok .utlBlen := by decide
theorem test_decode_bswInit : decode 0b000000000000000000_000000_00010000 = .ok .bswInit := by decide
theorem test_decode_bswAppend : decode 0b000000000000000000_111001_00010001 = .ok (.bswAppend 57) := by decide
theorem test_decode_bswWrite : decode 0b000000000000000000_001000_00010010 = .ok (.bswWrite 8) := by decide
theorem test_decode_bswFlush : decode 0b000000000000000000_000000_00010011 = .ok .bswFlush := by decide
theorem test_decode_bswClose : decode 0b000000000000000000_000000_00010100 = .ok .bswClose := by decide
theorem test_decode_bsrInit : decode 0b000000000000000000_000000_00100000 = .ok .bsrInit := by decide
theorem test_decode_bsrRead : decode 0b000000000000000000_000100_00100001 = .ok (.bsrRead 4) := by decide
theorem test_decode_bsrLoad : decode 0b000000000000000000_000000_00100010 = .ok .bsrLoad := by decide
theorem test_decode_bsrSize : decode 0b000000000000000000_000000_00100011 = .ok .bsrSize := by decide
theorem test_decode_zcCount : decode 0b000000000000000000_000111_00110000 = .ok (.zcCount 7) := by decide
theorem test_decode_bctEtree : decode 0b000000000000000000_000000_01000000 = .ok .bctEtree := by decide
theorem test_decode_bctEncode : decode 0b000000000000000000_000000_01000001 = .ok .bctEncode := by decide
theorem test_decode_bctDtree : decode 0b000000000000000000_000000_01000010 = .ok .bctDtree := by decide
theorem test_decode_bctDecode : decode 0b000000000000000000_000000_01000011 = .ok .bctDecode := by decide
theorem test_decode_bctDsize : decode 0b000000000000000000_000000_01000100 = .ok .bctDsize := by decide

/-- R81 step 1: bit 14 and bit 32 are reserved. -/
theorem test_decode_reserved_bits : decode 0x00004000 = .error .reservedBits ∧ decode 0x100000000 = .error .reservedBits := by decide
/-- R81 step 2, R85: 0x02 and 0x45 have no row. -/
theorem test_decode_unknown_opcode : decode 0x02 = .error .unknownOpcode ∧ decode 0x45 = .error .unknownOpcode := by decide
/-- R81 step 3: a `C0` row with `N = 1`. -/
theorem test_decode_immediate_not_zero : decode 0x0113 = .error .immediateNotZero := by decide

/-! ### Building small states -/

/-- What a test looks at in the next state. -/
def after {α : Type} (o : Host.Outcome State Fault Refusal) (f : State → α) : Option α :=
  match o with
  | .next t => some (f t)
  | .fault _ => none
  | .refused _ => none

/-- The given bytes at `a` and after it. -/
def putBytes (m : Memory) (a : Nat) : List Byte → Memory
  | [] => m
  | b :: l => putBytes (m.write a b) (a + 1) l

/-- The `n` bytes from `a` on. -/
def bytes (s : State) (a n : Nat) : List Byte := (List.range n).map fun i => s.mem.read (a + i)

/-- An open writer on 64 bytes at 0x4000, `stored` bytes on, with `cnt` pending bits. -/
def writer (stored acc cnt : Nat) : State :=
  { State.reset with
    wrOpen := true, wrBase := 0x4000, wrPtr := toWord (0x4000 + stored), wrLimit := 0x4038, wrAcc := toWord acc, wrCnt := toCount cnt }

/-- The first encoding of 44_bct_encoder.md R166 as an input buffer at 0x4000. -/
def encoded : Memory := putBytes [] 0x4000 [0x0B, 0x48, 0x90, 0x44, 0x44, 0x04]

/-- An open reader on those six bytes. -/
def reader (ptr la loaded cons : Nat) : State :=
  { State.reset with
    rdOpen := true, rdBase := 0x4000, rdPtr := toWord ptr, rdEnd := 0x4006, rdLa := toWord la, rdLoaded := toCount loaded,
    rdCons := toCount cons, mem := encoded }

/-- `CFG` for 8-bit elements, set kind, `SKIP = 1`. -/
def cfgSet8 : BitVec 11 := 0x08

/-- The array {0,...,7,160,...,163} of 43_zero_counter.md R150 at 0x1000. -/
def twelve : Memory := putBytes [] 0x1000 [0, 1, 2, 3, 4, 5, 6, 7, 160, 161, 162, 163]

/-- `BCT.ENCODE` of that array into `cap` bytes at 0x4000. -/
def encodeTwelve (cap : Nat) : State :=
  { State.reset with cfg := cfgSet8, mem := twelve, arg0 := 0x1000, arg1 := 12, arg2 := 0x4000, arg3 := toWord cap }

/-- `BCT.DECODE` of `ilen` bytes of its encoding into `len` elements at 0x2000. -/
def decodeTwelve (ilen len : Nat) : State :=
  { State.reset with cfg := cfgSet8, mem := encoded, arg0 := 0x4000, arg1 := toWord ilen, arg2 := 0x2000, arg3 := toWord len }

/-- `BCT.ETREE` of {0,1,2,3} into a fresh writer (44_bct_encoder.md R164). -/
def treeOfFour : State :=
  { writer 0 0 0 with cfg := cfgSet8, mem := putBytes [] 0x1000 [0, 1, 2, 3], arg0 := 0x1000, arg1 := 4 }

/-- `BCT.DTREE` of 4 elements from the bytes `24 49 02` (45_bct_decoder.md R184). -/
def treeToFour : State :=
  { State.reset with
    cfg := cfgSet8, mem := putBytes [] 0x4000 [0x24, 0x49, 0x02], rdOpen := true, rdBase := 0x4000, rdPtr := 0x4000, rdEnd := 0x4003,
    arg0 := 0x2000, arg1 := 4 }

/-- The platform refuses the one byte at `a`. -/
def refusing (a : Nat) (s : State) : State := { s with platform := { regBase := 0, refused := [(a, 1)] } }

/-! ### One command each -/

/-- R101's corner case: `ERR` is overwritten, `FAULT` stays. -/
theorem test_nop_keeps_fault :
    after (exec .sysNop { State.reset with err := 7, fault := true, res0 := 5 }) (fun t => (t.err, t.fault, t.res0)) =
      some (0, true, 0) := by decide
/-- R102's example: the pending bits are discarded. -/
theorem test_reset_discards_pending : after (exec .sysReset (writer 0 0b10101 5)) (fun t => (t.wrOpen, t.wrCnt, t.mcl, t.mem)) =
    some (false, 0, 1, []) := by decide
/-- R103's example and corner case. -/
theorem test_blen_five : after (exec .utlBlen { State.reset with arg0 := 5 }) State.res0 = some 3 := by decide +kernel
theorem test_blen_all_ones : after (exec .utlBlen { State.reset with arg0 := 0xFFFFFFFFFFFFFFFF }) State.res0 = some 64 := by
  decide +kernel
/-- R111's example. -/
theorem test_writer_init : after (exec .bswInit { State.reset with arg0 := 0x4000, arg1 := 64 })
    (fun t => (t.wrPtr, t.wrLimit, t.wrOpen)) = some (0x4000, 0x4038, true) := by decide
theorem test_writer_init_too_small : after (exec .bswInit { State.reset with arg1 := 7 }) (fun t => (t.err, t.wrOpen)) =
    some (1, false) := by decide
/-- R112's example, and its refusal of 7 + 57 bits. -/
theorem test_append : after (exec (.bswAppend 4) { writer 0 0b101 3 with arg0 := 0xFF }) (fun t => (t.wrAcc, t.wrCnt)) =
    some (0x7D, 7) := by decide +kernel
theorem test_append_64_bits_refused : after (exec (.bswAppend 57) (writer 0 0 7)) (fun t => (t.err, t.wrCnt)) = some (9, 7) := by
  decide +kernel
/-- R114's example. -/
theorem test_flush : after (exec .bswFlush (writer 0 0x1ABCD 17)) (fun t => (bytes t 0x4000 3, t.wrAcc, t.wrCnt, t.wrPtr)) =
    some ([0xCD, 0xAB, 0], 1, 1, 0x4002) := by decide +kernel
/-- R115's example, and its corner case of 7 + 57 bits. -/
theorem test_write : after (exec (.bswWrite 8) { writer 0 0 0 with arg0 := 0x0B }) (fun t => (bytes t 0x4000 2, t.wrCnt, t.wrPtr)) =
    some ([0x0B, 0], 0, 0x4001) := by decide +kernel
theorem test_write_64_bits : after (exec (.bswWrite 57) { writer 0 0x7F 7 with arg0 := 1 })
    (fun t => (t.wrAcc, t.wrCnt, t.wrPtr, bytes t 0x4000 2)) = some (0, 0, 0x4008, [0xFF, 0]) := by decide +kernel
/-- R116's example. -/
theorem test_close : after (exec .bswClose (writer 5 0b100 3)) (fun t => (t.res0, bytes t 0x4005 2, t.wrOpen)) =
    some (6, [0x04, 0], false) := by decide +kernel
/-- R131's example. -/
theorem test_reader_init : after (exec .bsrInit { State.reset with arg0 := 0x4000, arg1 := 6 }) (fun t => (t.rdPtr, t.rdEnd, t.rdOpen)) =
    some (0x4000, 0x4006, true) := by decide
/-- R132's example. -/
theorem test_load : after (exec .bsrLoad (reader 0x4000 0x04449048_0B 40 19)) (fun t => (t.rdLa, t.rdLoaded, t.rdCons, t.rdPtr)) =
    some (0x04444490, 32, 3, 0x4002) := by decide +kernel
/-- R133's example, and a read past the last byte. -/
theorem test_read : after (exec (.bsrRead 4) (reader 0x4000 0x04912044880B 48 8)) (fun t => (t.res0, t.rdCons)) = some (8, 12) := by
  decide +kernel
theorem test_read_not_enough : after (exec (.bsrRead 9) (reader 0x4005 0x04 8 1)) (fun t => (t.err, t.rdCons, t.fault)) =
    some (3, 1, true) := by decide +kernel
/-- R134's example. -/
theorem test_size : after (exec .bsrSize (reader 0x4000 0 64 57)) State.res0 = some 8 := by decide +kernel
/-- R150's example, and its refusal of bit 8. -/
theorem test_count : after (exec (.zcCount 7) { State.reset with mem := twelve, arg0 := 0x1000, arg1 := 12 }) State.res0 = some 8 := by
  decide +kernel
theorem test_count_bit_8_refused : after (exec (.zcCount 8) State.reset) State.err = some 11 := by decide +kernel
/-- R164's example: `24 49` stored, the bits `10` pending. -/
theorem test_etree : after (exec .bctEtree treeOfFour) (fun t => (bytes t 0x4000 3, t.wrAcc, t.wrCnt)) =
    some ([0x24, 0x49, 0], 2, 2) := by decide +kernel
/-- R166's example. -/
theorem test_encode : after (exec .bctEncode (encodeTwelve 64)) (fun t => (t.res0, bytes t 0x4000 7)) =
    some (6, [0x0B, 0x48, 0x90, 0x44, 0x44, 0x04, 0]) := by decide +kernel
/-- R166's corner case: an empty list needs 15 bytes. -/
theorem test_encode_empty_list : after (exec .bctEncode { State.reset with arg2 := 0x4000, arg3 := 15 }) State.res0 = some 8 ∧
    after (exec .bctEncode { State.reset with arg2 := 0x4000, arg3 := 14 }) (fun t => (t.err, t.wrOpen)) = some (2, true) := by
  decide +kernel
/-- R184's example. -/
theorem test_dtree : after (exec .bctDtree treeToFour) (fun t => bytes t 0x2000 5) = some [0, 1, 2, 3, 0] := by decide +kernel
/-- R186's example, and its corner case `ilen = 0`. -/
theorem test_decode : after (exec .bctDecode (decodeTwelve 6 12)) (fun t => (t.res0, bytes t 0x2000 12)) =
    some (6, [0, 1, 2, 3, 4, 5, 6, 7, 160, 161, 162, 163]) := by decide +kernel
theorem test_decode_no_input : after (exec .bctDecode (decodeTwelve 0 12)) (fun t => (t.err, t.suberr)) = some (7, 2) := by
  decide +kernel
/-- R187's examples. -/
theorem test_dsize_set : after (exec .bctDsize (decodeTwelve 6 0)) State.res0 = some 12 := by decide +kernel
theorem test_dsize_list : after (exec .bctDsize { State.reset with
    mem := putBytes [] 0x4000 [9, 0, 0, 0, 0, 0, 0, 0x0E], arg0 := 0x4000, arg1 := 8 }) State.res0 = some 9 := by decide +kernel

/-! ### The host port -/

/-- R24, R90: a write to `CMD` sets `BUSY`; the next step runs the command (a program of one command from reset). -/
theorem test_issue : after (step { State.reset with inbox := [.regWrite 0 .b8 0x08, .elapse] }) (fun t => (t.busy, t.statusWord)) =
    some (true, 0x100) ∧
    after (step { State.reset with running := some 0x08, arg0 := 5, inbox := [.elapse] }) (fun t => (t.busy, t.res0)) =
      some (false, 3) := by decide +kernel
/-- R27: reserved bits of `CFG` are not stored. -/
theorem test_cfg_write : after (step { State.reset with inbox := [.regWrite 0x38 .b8 0xFFFFFFFFFFFFFFFF] }) State.cfg = some 0x7FF := by
  decide +kernel
/-- R85: an illegal word completes with code 8. -/
theorem test_illegal_word : after (step { State.reset with running := some 0x4000 }) (fun t => (t.err, t.fault)) = some (8, true) := by
  decide +kernel
/-- R230: a reset after two of the three stores of a running flush leaves the two bytes. -/
theorem test_reset_while_busy : after (step { writer 0 0xCCBBAA 24 with running := some 0x13, inbox := [.hwReset 2] })
    (fun t => (bytes t 0x4000 3, t.wrOpen, t.busy)) = some ([0xAA, 0xBB, 0], false, false) := by decide +kernel
/-- The host's question about a row of the table is answered by the step it asks for. -/
theorem test_fetch_word : decodeTableWord 32 0x08 = some .utlBlen ∧
    after (step (State.reset.withFetchWord 32 0x08)) (fun t => (t.err, t.res0)) = some (0, 0) := by decide +kernel

/-! ### Witnesses: for every statement with hypotheses, states that meet them, each clause at a boundary of its range -/

/-- The state a command ends in, when it completes. -/
def outcome (i : Instr) (s : State) : State := (after (exec i s) id).getD State.reset

theorem completes {i : Instr} {s : State} (h : (after (exec i s) id).isSome = true) : exec i s = .next (outcome i s) := by
  unfold outcome
  cases hx : exec i s with
  | next t => rfl
  | fault f => rw [hx] at h; cases h
  | refused r => rw [hx] at h; cases h

theorem witness_DecodeEncodeAgree : decode 0x3F30 = .ok (.zcCount 63) ∧ (Instr.zcCount 63).wellFormed = true ∧
    0x3F30 = cmdValue (.zcCount 63) := by decide

theorem witness_IllegalCommandCompletes_reserved :
    (0x4000 : Word).extractLsb' 14 50 ≠ 0 ∧ (0x8000000000000000 : Word).extractLsb' 14 50 ≠ 0 := by decide
theorem witness_IllegalCommandCompletes_opcode : ∀ i : Instr, i.opcode ≠ opcField 0x45 := by
  intro i; cases i <;> simp only [Instr.opcode] <;> decide
theorem witness_IllegalCommandCompletes_immediate :
    opcField 0x0144 ∉ [0x11, 0x12, 0x21, 0x30] ∧ immField 0x0144 ≠ 0 := by decide
theorem witness_IllegalCommandCompletes_legal : ¬ ((0x3F30 : Word).extractLsb' 14 50 ≠ 0 ∨ (∀ i : Instr, i.opcode ≠ opcField 0x3F30) ∨
    (opcField 0x3F30 ∉ [0x11, 0x12, 0x21, 0x30] ∧ immField 0x3F30 ≠ 0)) := by
  rintro (h | h | h)
  · exact absurd h (by decide)
  · exact h (.zcCount 0) (by decide)
  · exact absurd h (by decide)

theorem witness_StepRunsDecoded :
    (∃ s : State, s.running = some 0x08 ∧ s.inbox = [] ∧ decode 0x08 = .ok .utlBlen) ∧
    (∃ s : State, s.running = some 0x08 ∧ s.inbox = .elapse :: [.elapse] ∧ decode 0x08 = .ok .utlBlen) ∧
    decodeTableWord 32 0x44 = some .bctDsize :=
  ⟨⟨{ State.reset with running := some 0x08 }, by decide⟩, ⟨{ State.reset with running := some 0x08, inbox := [.elapse, .elapse] }, by decide⟩,
    by decide⟩

theorem witness_CompletionStep : exec .bctDecode (decodeTwelve 5 12) = .next (outcome .bctDecode (decodeTwelve 5 12)) ∧
    (outcome .bctDecode (decodeTwelve 5 12)).err ≠ 0 ∧ (outcome .bctDecode (decodeTwelve 5 12)).suberr ≠ 0 :=
  ⟨completes (by decide +kernel), by decide +kernel⟩

theorem witness_EveryCommandCompletes : (writer 3 0b101 3).Inv ∧ (reader 0x4000 0 0 0).Inv ∧
    { State.reset with stack := [⟨0, 1, 64, 0⟩], stkHwm := 64 }.Inv := ⟨by decide +kernel, by decide +kernel, by decide +kernel⟩

theorem witness_ArgumentsAndConfigurationKept : exec .bswFlush (writer 0 0 8) = .next (outcome .bswFlush (writer 0 0 8)) :=
  completes (by decide +kernel)

theorem witness_RegisterOwnership :
    (writesWriter .bctDecode = false ∧ exec .bctDecode (decodeTwelve 6 12) = .next (outcome .bctDecode (decodeTwelve 6 12))) ∧
    (writesReader .bctEncode = false ∧ exec .bctEncode (encodeTwelve 64) = .next (outcome .bctEncode (encodeTwelve 64))) ∧
    (writesStack .bctDsize = false ∧ exec .bctDsize (decodeTwelve 6 0) = .next (outcome .bctDsize (decodeTwelve 6 0))) :=
  ⟨⟨rfl, completes (by decide +kernel)⟩, ⟨rfl, completes (by decide +kernel)⟩, ⟨rfl, completes (by decide +kernel)⟩⟩

theorem witness_PrimitiveCommandsPrecise_busError : (refusing 0x4001 (writer 0 0xCCBBAA 24)).Inv ∧ isPrimitive .bswFlush = true ∧
    exec .bswFlush (refusing 0x4001 (writer 0 0xCCBBAA 24)) = .next (outcome .bswFlush (refusing 0x4001 (writer 0 0xCCBBAA 24))) ∧
    (outcome .bswFlush (refusing 0x4001 (writer 0 0xCCBBAA 24))).err = 14 :=
  ⟨by decide +kernel, rfl, completes (by decide +kernel), by decide +kernel⟩
theorem witness_PrimitiveCommandsPrecise_notEnoughBits : (reader 0x4000 0 0 0).Inv ∧ isPrimitive (.bsrRead 57) = true ∧
    exec (.bsrRead 57) (reader 0x4000 0 0 0) = .next (outcome (.bsrRead 57) (reader 0x4000 0 0 0)) ∧
    (outcome (.bsrRead 57) (reader 0x4000 0 0 0)).err = 3 :=
  ⟨by decide +kernel, rfl, completes (by decide +kernel), by decide +kernel⟩

theorem witness_WritesInsideRegion : (encodeTwelve 64).Inv ∧
    exec .bctEncode (encodeTwelve 64) = .next (outcome .bctEncode (encodeTwelve 64)) ∧
    (writeRegion .bctEncode (encodeTwelve 64)).holds 0x3FFF = false ∧ (writeRegion .bctEncode (encodeTwelve 64)).holds 0x4040 = false :=
  ⟨by decide +kernel, completes (by decide +kernel), by decide +kernel, by decide +kernel⟩

theorem witness_ReadsInsideRegion : (encodeTwelve 64).Inv ∧
    (∀ a, (readRegion .bctEncode (encodeTwelve 64)).holds a = true → (twelve.write 0x100C 9).read a = (encodeTwelve 64).mem.read a) ∧
    exec .bctEncode (encodeTwelve 64) = .next (outcome .bctEncode (encodeTwelve 64)) := by
  refine ⟨by decide +kernel, fun a ha => ?_, completes (by decide +kernel)⟩
  have hr : readRegion .bctEncode (encodeTwelve 64) = ⟨0x1000, 0x100C⟩ := by decide +kernel
  rw [hr, holds_iff] at ha
  exact read_write_other _ _ _ (Nat.ne_of_lt ha.2)

theorem witness_MemoryFollowsTrace : exec .bswClose (writer 5 0b100 3) = .next (outcome .bswClose (writer 5 0b100 3)) :=
  completes (by decide +kernel)

theorem witness_ResetCommand : ∃ t u : State,
    step { State.reset with fault := true, running := some 0x01 } = .next t ∧ t.fault = false ∧
    step { State.reset with fault := true, inbox := [.hwReset 0] } = .next u ∧ u.fault = false :=
  ⟨State.reset, State.reset, rfl, rfl, rfl, rfl⟩

theorem witness_ReaderInit : ({ reader 0x4000 0 0 0 with arg0 := 0x4000, arg1 := 0 } : State).arg1 = 0 ∧
    exec .bsrInit { reader 0x4000 0 0 0 with arg0 := 0x4000, arg1 := 0 } =
      .next (outcome .bsrInit { reader 0x4000 0 0 0 with arg0 := 0x4000, arg1 := 0 }) ∧
    Instr.bsrLoad ≠ .sysReset ∧ (reader 0x4000 0 0 0).rdOpen = true ∧
    exec .bsrLoad (reader 0x4000 0 0 0) = .next (outcome .bsrLoad (reader 0x4000 0 0 0)) :=
  ⟨rfl, rfl, by decide, rfl, rfl⟩

theorem witness_WriterInit_clauses :
    2 ^ 64 ≤ (0xFFFFFFFFFFFFFFF8 : Word).toNat + (8 : Word).toNat ∧ ¬ 2 ^ 64 ≤ (0xFFFFFFFFFFFFFFF7 : Word).toNat + (8 : Word).toNat ∧
    (7 : Word).toNat < 8 ∧ ¬ (8 : Word).toNat < 8 := by decide

theorem witness_WriterAppend_clauses : (57 < 58 ∨ 64 ≤ (writer 0 0 0).wrCnt.toNat + 58) ∧ 64 ≤ (writer 0 0 7).wrCnt.toNat + 57 ∧
    ¬ (57 < 57 ∨ 64 ≤ (writer 0 0 6).wrCnt.toNat + 57) := by decide

theorem witness_WriterFlush_clauses : State.reset.writerInv ∧ State.reset.wrOpen = false ∧
    (writer 57 0 8).writerInv ∧ (writer 57 0 8).wrLimit.toNat < (writer 57 0 8).wrPtr.toNat ∧
    (writer 56 0 63).writerInv ∧ ¬ (writer 56 0 63).wrLimit.toNat < (writer 56 0 63).wrPtr.toNat ∧
    (writer 56 0 63).admitsRegion (Region.ofBytes (writer 56 0 63).wrPtr.toNat ((writer 56 0 63).wrCnt.toNat / 8)) :=
  ⟨by decide, by decide, by decide, by decide, by decide, by decide, admitsRegion_of_refuses_nothing rfl _⟩

theorem witness_WriterWrite_clauses : (writer 56 0 7).writerInv ∧ ¬ (57 < 57 ∨ 64 < (writer 56 0 7).wrCnt.toNat + 57) ∧
    (57 < 57 ∨ 64 < (writer 56 0 8).wrCnt.toNat + 57) ∧ ¬ (writer 56 0 7).wrLimit.toNat < (writer 56 0 7).wrPtr.toNat ∧
    (writer 57 0 7).wrLimit.toNat < (writer 57 0 7).wrPtr.toNat ∧
    (writer 56 0 7).admitsRegion (Region.ofBytes (writer 56 0 7).wrPtr.toNat (((writer 56 0 7).wrCnt.toNat + 57) / 8)) :=
  ⟨by decide, by decide, by decide, by decide, by decide, admitsRegion_of_refuses_nothing rfl _⟩

theorem witness_WriterClose_clauses : (writer 56 0 63).writerInv ∧ ¬ (writer 56 0 63).wrLimit.toNat < (writer 56 0 63).wrPtr.toNat ∧
    (writer 57 0 0).wrLimit.toNat < (writer 57 0 0).wrPtr.toNat ∧
    (writer 56 0 63).admitsRegion (Region.ofBytes (writer 56 0 63).wrPtr.toNat (bytesFor (writer 56 0 63).wrCnt.toNat)) :=
  ⟨by decide, by decide, by decide, admitsRegion_of_refuses_nothing rfl _⟩

/-- 23 bits pending, the second byte refused: the clause of the flush that is refused, and both clauses of write and close. -/
theorem witness_WriterBusError_and_WriterFlush_refused : (refusing 0x4001 (writer 0 0x7FBBAA 23)).writerInv ∧ (refusing 0x4001 (writer 0 0x7FBBAA 23)).wrOpen = true ∧
    (refusing 0x4001 (writer 0 0x7FBBAA 23)).wrPtr.toNat ≤ (refusing 0x4001 (writer 0 0x7FBBAA 23)).wrLimit.toNat ∧
    (refusing 0x4001 (writer 0 0x7FBBAA 23)).admitsRegion (Region.ofBytes 0x4000 1) ∧
    admitted (refusing 0x4001 (writer 0 0x7FBBAA 23)).platform (0x4000 + 1) = false ∧ 1 < 23 / 8 ∧ 1 < bytesFor 23 ∧
    1 < (23 + 1) / 8 := by
  refine ⟨by decide, by decide, by decide, ?_, by decide, by decide, by decide, by decide⟩
  intro a ha
  have h : 0x4000 ≤ a ∧ a < 0x4000 + 1 := holds_ofBytes.1 ha
  have h2 : a < 0x4000 + 1 ∨ 0x4000 + 1 + 1 ≤ a := .inl h.2
  simp [refusing, admitted]
  omega
/-- The close alone: the partial byte is the refused one. -/
theorem witness_WriterBusError_partial_byte : (refusing 0x4002 (writer 0 0x7FBBAA 23)).writerInv ∧
    (refusing 0x4002 (writer 0 0x7FBBAA 23)).admitsRegion (Region.ofBytes 0x4000 2) ∧
    admitted (refusing 0x4002 (writer 0 0x7FBBAA 23)).platform (0x4000 + 2) = false ∧ 2 < bytesFor 23 ∧ ¬ 2 < 23 / 8 := by
  refine ⟨by decide, ?_, by decide, by decide, by decide⟩
  intro a ha
  have h : 0x4000 ≤ a ∧ a < 0x4000 + 2 := holds_ofBytes.1 ha
  have h2 : a < 0x4000 + 2 ∨ 0x4000 + 2 + 1 ≤ a := .inl h.2
  simp [refusing, admitted]
  omega

/-- A session of three fields: appended, flushed, written. -/
def session : List WriterAction := [.append 0x155 9, .flush, .write 0x1FFFFFFFFFFFFFF 57, .append 3 2]

theorem witness_StreamLaw : ∃ s t u v : State, exec .bswInit s = .next t ∧ t.err = 0 ∧ runWriter session t = some u ∧
    exec .bswClose u = .next v ∧ v.err = 0 := by
  refine ⟨{ State.reset with arg0 := 0x4000, arg1 := 64 }, _, (runWriter session (outcome .bswInit
    { State.reset with arg0 := 0x4000, arg1 := 64 })).getD State.reset, _, completes (by decide +kernel), by decide +kernel,
    by decide +kernel, completes (by decide +kernel), by decide +kernel⟩

theorem witness_ReaderLoad_clauses : State.reset.readerInv ∧ State.reset.rdOpen = false ∧
    (reader 0x4000 0x04449048_0B 48 48).readerInv ∧ 0x4000 + 48 / 8 = (reader 0x4000 0x04449048_0B 48 48).rdEnd.toNat ∧
    (reader 0x4000 0x04449048_0B 48 47).readerInv ∧ 0x4000 + 47 / 8 ≠ (reader 0x4000 0x04449048_0B 48 47).rdEnd.toNat ∧
    (reader 0x4000 0x04449048_0B 48 47).admitsRegion (Region.ofBytes 0x4005 1) ∧
    ¬ (refusing 0x4005 (reader 0x4000 0x04449048_0B 48 47)).admitsRegion (Region.ofBytes 0x4005 1) := by
  refine ⟨by decide +kernel, by decide +kernel, by decide +kernel, by decide +kernel, by decide +kernel, by decide +kernel, admitsRegion_of_refuses_nothing rfl _, fun h => ?_⟩
  exact absurd (h 0x4005 (by decide)) (by decide)

/-- The clauses of a read: refused, served from the lookahead, no byte left, reloaded with success, reloaded in vain, a byte refused. -/
theorem witness_ReaderRead_clauses : (reader 0x4000 0x04449048_0B 48 8).readerInv ∧ 57 < 58 ∧
    (reader 0x4000 0x04449048_0B 48 8).rdCons.toNat + 40 ≤ (reader 0x4000 0x04449048_0B 48 8).rdLoaded.toNat ∧
    (¬ (reader 0x4000 0x04449048_0B 48 48).rdCons.toNat + 1 ≤ 48 ∧ 0x4000 + 48 / 8 = 0x4006) ∧
    (reader 0x4000 0 0 0).readerInv ∧ (0 % 8 + 48 ≤ 8 * min 8 (0x4006 - 0x4000)) ∧ ¬ (0 % 8 + 49 ≤ 8 * min 8 (0x4006 - 0x4000)) ∧
    (reader 0x4000 0 0 0).admitsRegion (Region.ofBytes 0x4000 6) ∧
    ¬ (refusing 0x4005 (reader 0x4000 0 0 0)).admitsRegion (Region.ofBytes 0x4000 6) := by
  refine ⟨by decide +kernel, by decide, by decide, by decide, by decide +kernel, by decide, by decide,
    admitsRegion_of_refuses_nothing rfl _, fun h => ?_⟩
  exact absurd (h 0x4005 (by decide)) (by decide)

theorem witness_ReadLaw : (reader 0x4000 0 0 0).rdOpen = true ∧ (reader 0x4000 0 0 0).readerInv ∧ (reader 0x4000 0 0 0).lookaheadFresh ∧
    (reader 0x4000 0 0 0).admitsRegion (reader 0x4000 0 0 0).readerRegion ∧ (reader 0x4000 0 0 0).readerPos + 48 ≤ 48 ∧
    (reader 0x4000 0 0 0).inputBits = 48 ∧ ¬ (reader 0x4000 0 0 0).readerPos + 49 ≤ 48 ∧
    (reader 0x4005 0x04 8 8).readerInv ∧ (reader 0x4005 0x04 8 8).lookaheadFresh ∧ (reader 0x4005 0x04 8 8).readerPos = 48 := by
  refine ⟨rfl, by decide +kernel, by unfold State.lookaheadFresh; decide +kernel, admitsRegion_of_refuses_nothing rfl _, by decide, by decide, by decide,
    by decide +kernel, by unfold State.lookaheadFresh; decide +kernel, by decide⟩

theorem witness_ReaderSize : State.reset.readerInv ∧ State.reset.rdOpen = false ∧ (reader 0x4000 0x04449048_0B 48 41).readerInv ∧
    (reader 0x4000 0x04449048_0B 48 41).rdOpen = true := by decide +kernel

/-- Eight-bit elements: bit 7 is the last one tested; one element at the last address is refused; a slice with a refused byte. -/
theorem witness_ZeroCountCommand_clauses : State.reset.elemWidth ≤ 8 ∧ ¬ State.reset.elemWidth ≤ 7 ∧
    2 ^ 64 ≤ (0xFFFFFFFFFFFFFFFF : Word).toNat + (1 : Word).toNat * (State.reset.elemWidth / 8) ∧
    ¬ 2 ^ 64 ≤ (0xFFFFFFFFFFFFFFFE : Word).toNat + (1 : Word).toNat * (State.reset.elemWidth / 8) ∧
    exec (.zcCount 7) (refusing 0x1006 { State.reset with mem := twelve, arg0 := 0x1000, arg1 := 12 }) =
      .next ((refusing 0x1006 { State.reset with mem := twelve, arg0 := 0x1000, arg1 := 12 }).failed 14 0) := by
  refine ⟨by decide, by decide, by decide, by decide, ?_⟩
  rw [completes (by decide +kernel)]
  exact congrArg Host.Outcome.next (by decide +kernel)

theorem witness_ZeroCountMonotonic : ∃ s : State, 7 < s.elemWidth ∧ s.arg0.toNat + s.arg1.toNat * (s.elemWidth / 8) < 2 ^ 64 ∧
    s.admitsRegion (s.arrayRegion s.arg0 s.arg1) ∧ s.bitSplitsAt s.arg0.toNat s.arg1.toNat 7 8 ∧ s.bitSplitsAt s.arg0.toNat s.arg1.toNat 6 12 :=
  ⟨{ State.reset with mem := twelve, arg0 := 0x1000, arg1 := 12 }, by decide, by decide, admitsRegion_of_refuses_nothing rfl _,
    by unfold State.bitSplitsAt; decide +kernel, by unfold State.bitSplitsAt; decide +kernel⟩

/-- `CFG` with `BW = 9`, one more than `W = 8`. -/
def cfgTooWide : BitVec 11 := 0x98

theorem witness_EncoderChecks_etree :
    State.etreeCheck { treeOfFour with cfg := cfgTooWide } = some .badConfig ∧
    State.etreeCheck { treeOfFour with arg0 := 0xFFFFFFFFFFFFFFFC } = some .badArgument ∧
    State.etreeCheck { treeOfFour with wrOpen := false } = some .notOpen ∧
    State.etreeCheck { treeOfFour with wrCnt := 8 } = some .contractViolation ∧
    State.etreeCheck { treeOfFour with wrCnt := 7 } = none := by decide +kernel
theorem witness_EncoderChecks_encode :
    State.encodeCheck { encodeTwelve 64 with cfg := cfgTooWide } = some .badConfig ∧
    State.encodeCheck { encodeTwelve 64 with arg0 := 0xFFFFFFFFFFFFFFF4 } = some .badArgument ∧
    State.encodeCheck { encodeTwelve 64 with arg2 := 0xFFFFFFFFFFFFFFC0 } = some .badArgument ∧
    State.encodeCheck { encodeTwelve 64 with arg1 := 0 } = some .inputTooSmall ∧
    State.encodeCheck { encodeTwelve 64 with arg1 := 257 } = some .inputTooBig ∧
    State.encodeCheck { encodeTwelve 64 with arg1 := 256 } = none ∧
    State.encodeCheck { encodeTwelve 64 with cfg := 0x0C, arg1 := 0x200000000000000 } = some .inputTooBig ∧
    State.encodeCheck { encodeTwelve 64 with cfg := 0x0C, arg1 := 0x1FFFFFFFFFFFFFF } = none ∧
    State.encodeCheck (encodeTwelve 7) = some .bufferTooSmall ∧ State.encodeCheck (encodeTwelve 8) = none := by decide +kernel

theorem encodeTwelve_encodable (cap : Nat) : (encodeTwelve cap).encodable (encodeTwelve cap).inputValues := by
  have : (encodeTwelve cap).inputValues = [0, 1, 2, 3, 4, 5, 6, 7, 160, 161, 162, 163] := by
    rw [show (encodeTwelve cap).inputValues = (encodeTwelve 64).inputValues from rfl]; decide +kernel
  rw [this]
  show (∀ v ∈ _, v < 2 ^ (encodeTwelve 64).ebw) ∧ if (encodeTwelve 64).isList then _ else _
  decide +kernel

/-- The stream has 43 bits: a buffer of 13 bytes has room, one of 12 has not. -/
theorem witness_EncodeMeetsFormat (cap : Nat) (hc : cap = 13 ∨ cap = 12) : (encodeTwelve cap).encodeCheck = none ∧
    (encodeTwelve cap).encodable (encodeTwelve cap).inputValues ∧
    (encodeTwelve cap).admitsRegion (readRegion .bctEncode (encodeTwelve cap)) ∧
    (encodeTwelve cap).admitsRegion (writeRegion .bctEncode (encodeTwelve cap)) ∧
    (readRegion .bctEncode (encodeTwelve cap)).disjoint (writeRegion .bctEncode (encodeTwelve cap)) ∧
    (streamBits (encodeTwelve cap).encodingOfInput / 8 + 8 ≤ (encodeTwelve cap).arg3.toNat ↔ cap = 13) := by
  refine ⟨?_, encodeTwelve_encodable cap, admitsRegion_of_refuses_nothing rfl _, admitsRegion_of_refuses_nothing rfl _,
    disjoint_of_le (.inl ?_), ?_⟩ <;> rcases hc with rfl | rfl <;> decide +kernel

theorem witness_TreeMeetsFormat : treeOfFour.etreeCheck = none ∧ treeOfFour.writerInv ∧ treeOfFour.encodable treeOfFour.inputValues ∧
    treeOfFour.admitsRegion (readRegion .bctEtree treeOfFour) ∧ treeOfFour.admitsRegion (writeRegion .bctEtree treeOfFour) ∧
    (readRegion .bctEtree treeOfFour).disjoint (writeRegion .bctEtree treeOfFour) ∧
    treeOfFour.wrPtr.toNat + (treeOfFour.wrCnt.toNat + streamBits treeOfFour.treeOfInput) / 8 ≤ treeOfFour.wrLimit.toNat :=
  ⟨by decide +kernel, by decide +kernel, by unfold State.encodable; decide +kernel, admitsRegion_of_refuses_nothing rfl _,
    admitsRegion_of_refuses_nothing rfl _, disjoint_of_le (.inl (by decide +kernel)), by decide +kernel⟩

theorem witness_EncoderErrors : treeOfFour.Inv ∧ treeOfFour.etreeCheck = none ∧ (encodeTwelve 8).Inv ∧ (encodeTwelve 8).encodeCheck = none :=
  ⟨by decide +kernel, by decide +kernel, by decide +kernel, by decide +kernel⟩

/-- (8 + 2 * 12 * 8) / 8 + 8 = 33. -/
theorem witness_CapacityAlwaysSuffices : (encodeTwelve 33).stkHwm.toNat ≤ 64 ∧ (encodeTwelve 33).encodeCheck = none ∧
    (encodeTwelve 33).admitsRegion (readRegion .bctEncode (encodeTwelve 33)) ∧
    (encodeTwelve 33).admitsRegion (writeRegion .bctEncode (encodeTwelve 33)) ∧
    (headerBits (encodeTwelve 33).isList (encodeTwelve 33).elemWidth + 2 * (encodeTwelve 33).arg1.toNat * (encodeTwelve 33).ebw) / 8 + 8 ≤
      (encodeTwelve 33).arg3.toNat :=
  ⟨by decide +kernel, by decide +kernel, admitsRegion_of_refuses_nothing rfl _, admitsRegion_of_refuses_nothing rfl _, by decide +kernel⟩

theorem witness_DecoderChecks_dtree :
    State.dtreeCheck { treeToFour with cfg := cfgTooWide } = some .badConfig ∧
    State.dtreeCheck { treeToFour with arg0 := 0xFFFFFFFFFFFFFFFC } = some .badArgument ∧
    State.dtreeCheck { treeToFour with rdOpen := false } = some .notOpen ∧ State.dtreeCheck treeToFour = none := by decide +kernel
theorem witness_DecoderChecks_decode :
    State.decodeCheck { decodeTwelve 6 12 with cfg := cfgTooWide } = some .badConfig ∧
    State.decodeCheck { decodeTwelve 6 12 with arg0 := 0xFFFFFFFFFFFFFFFA } = some .badArgument ∧
    State.decodeCheck { decodeTwelve 6 12 with arg2 := 0xFFFFFFFFFFFFFFF4 } = some .badArgument ∧
    State.decodeCheck { decodeTwelve 6 12 with cfg := 0x0C, arg3 := 0x200000000000000 } = some .outputTooBig ∧
    State.decodeCheck { decodeTwelve 6 12 with cfg := 0x0C, arg3 := 0x1FFFFFFFFFFFFFF } = none ∧
    State.decodeCheck (decodeTwelve 6 257) = some .outputTooBig ∧ State.decodeCheck (decodeTwelve 6 256) = none ∧
    State.decodeCheck (decodeTwelve 6 0) = some .wrongFormat := by decide +kernel

theorem decodeTwelve_premises (ilen : Nat) (h : ilen = 0 ∨ ilen = 5 ∨ ilen = 6) (len : Nat) (hl : len = 11 ∨ len = 12) :
    (decodeTwelve ilen len).decodeCheck = none ∧ (decodeTwelve ilen len).admitsRegion (readRegion .bctDecode (decodeTwelve ilen len)) ∧
    (decodeTwelve ilen len).admitsRegion (writeRegion .bctDecode (decodeTwelve ilen len)) ∧
    (readRegion .bctDecode (decodeTwelve ilen len)).disjoint (writeRegion .bctDecode (decodeTwelve ilen len)) := by
  refine ⟨?_, admitsRegion_of_refuses_nothing rfl _, admitsRegion_of_refuses_nothing rfl _, disjoint_of_le (.inr ?_)⟩ <;>
    rcases h with rfl | rfl | rfl <;> rcases hl with rfl | rfl <;> decide +kernel

/-- The clauses of a decode: no prefix, another count, a stream one byte short, the whole stream. -/
theorem witness_DecodeMeetsFormat_clauses : (decodeTwelve 0 12).bufferHeader = none ∧ (decodeTwelve 6 11).bufferHeader = some 12 ∧
    (decodeTwelve 5 12).bufferHeader = some 12 ∧
    (decodeTwelve 5 12).parsedTree (decodeTwelve 5 12).bufferStream 40 12 8 = none ∧
    (decodeTwelve 6 12).parsedTree (decodeTwelve 6 12).bufferStream 48 12 8 =
      some ([0, 1, 2, 3, 4, 5, 6, 7, 160, 161, 162, 163], 43) := by decide +kernel

theorem witness_TreeDecodeMeetsFormat : treeToFour.dtreeCheck = none ∧ treeToFour.readerInv ∧ treeToFour.lookaheadFresh ∧
    treeToFour.admitsRegion (readRegion .bctDtree treeToFour) ∧ treeToFour.admitsRegion (writeRegion .bctDtree treeToFour) ∧
    (readRegion .bctDtree treeToFour).disjoint (writeRegion .bctDtree treeToFour) ∧
    treeToFour.parsedTree treeToFour.inputStream treeToFour.inputBits 4 treeToFour.readerPos = some ([0, 1, 2, 3], 18) :=
  ⟨by decide +kernel, by decide +kernel, by unfold State.lookaheadFresh; decide +kernel, admitsRegion_of_refuses_nothing rfl _,
    admitsRegion_of_refuses_nothing rfl _, disjoint_of_le (.inr (by decide +kernel)), by decide +kernel⟩

/-- A 64-bit set whose stored count is `2^64 - 1`. -/
def countTooLarge : State :=
  { State.reset with cfg := 0x03, mem := putBytes [] 0x4000 (List.replicate 8 0xFF), arg0 := 0x4000, arg1 := 8 }

theorem witness_DecodedSize_clauses : (2 : Nat) ^ 64 ≤ (0xFFFFFFFFFFFFFFFF : Word).toNat + (1 : Word).toNat ∧
    (decodeTwelve 6 0).admitsRegion (readRegion .bctDsize (decodeTwelve 6 0)) ∧ (decodeTwelve 0 0).bufferHeader = none ∧
    (decodeTwelve 1 0).bufferHeader = some 12 ∧ countTooLarge.bufferHeader = some (2 ^ 64) :=
  ⟨by decide, admitsRegion_of_refuses_nothing rfl _, by decide +kernel, by decide +kernel, by decide +kernel⟩

/-- What the host makes of the state after the encoding to decode its six bytes (or one more) into 0x2000. -/
def decodeBack (ilen : Word) : State :=
  { outcome .bctEncode (encodeTwelve 64) with arg0 := 0x4000, arg1 := ilen, arg2 := 0x2000, arg3 := 12 }

theorem witness_RoundTrip (ilen : Word) (h : ilen = 6 ∨ ilen = 7) : (encodeTwelve 64).encodable (encodeTwelve 64).inputValues ∧
    exec .bctEncode (encodeTwelve 64) = .next (outcome .bctEncode (encodeTwelve 64)) ∧ (outcome .bctEncode (encodeTwelve 64)).err = 0 ∧
    (readRegion .bctEncode (encodeTwelve 64)).disjoint (writeRegion .bctEncode (encodeTwelve 64)) ∧
    (outcome .bctEncode (encodeTwelve 64)).res0.toNat ≤ ilen.toNat ∧ (0x4000 : Word).toNat + ilen.toNat < 2 ^ 64 ∧
    (0x2000 : Word).toNat + (12 : Word).toNat * ((encodeTwelve 64).elemWidth / 8) < 2 ^ 64 ∧
    (decodeBack ilen).admitsRegion (readRegion .bctDecode (decodeBack ilen)) ∧
    (decodeBack ilen).admitsRegion (writeRegion .bctDecode (decodeBack ilen)) ∧
    (readRegion .bctDecode (decodeBack ilen)).disjoint (writeRegion .bctDecode (decodeBack ilen)) := by
  refine ⟨encodeTwelve_encodable 64, completes (by decide +kernel), by decide +kernel, disjoint_of_le (.inl (by decide +kernel)), ?_, ?_,
    by decide +kernel, admitsRegion_of_refuses_nothing ?_ _, admitsRegion_of_refuses_nothing ?_ _, disjoint_of_le (.inr ?_)⟩ <;>
    rcases h with rfl | rfl <;> decide +kernel

theorem witness_EverySlotStoredOnce : (decodeTwelve 6 12).Inv ∧
    exec .bctDecode (decodeTwelve 6 12) = .next (outcome .bctDecode (decodeTwelve 6 12)) ∧ (outcome .bctDecode (decodeTwelve 6 12)).err = 0 ∧
    treeToFour.Inv ∧ exec .bctDtree treeToFour = .next (outcome .bctDtree treeToFour) ∧ (outcome .bctDtree treeToFour).err = 0 :=
  ⟨by decide +kernel, completes (by decide +kernel), by decide +kernel, by decide +kernel, completes (by decide +kernel), by decide +kernel⟩

/-- A 64-bit list of 65 elements whose counts are all 1: the path of 45_bct_decoder.md R191. -/
def deepTree : State :=
  { State.reset with
    cfg := 0x07, rdOpen := true, rdBase := 0x4000, rdPtr := 0x4000, rdEnd := 0x402A, arg0 := 0x8000, arg1 := 65,
    mem := applyStores [] (cells 0x4000 42 (streamValue ((List.range 64).map fun k => { value := 1, width := bitsLen64 (65 - k) }))) }

theorem witness_OverflowOnlyInFullWidthDecode : deepTree.Inv ∧ exec .bctDtree deepTree = .next (outcome .bctDtree deepTree) ∧
    (outcome .bctDtree deepTree).err = 13 :=
  ⟨by decide +kernel, completes (by decide +kernel), by decide +kernel⟩

theorem witness_EveryStepKeepsInvariants : ({ writer 3 0b101 3 with running := some 0x13, inbox := [.hwReset 1] } : State).Inv ∧
    (after (step { writer 3 0b101 3 with running := some 0x13, inbox := [.hwReset 1] }) id).isSome = true := by decide +kernel

theorem witness_FewBitsPending : (writer 0 0 7).Inv ∧ exec (.bswWrite 56) (writer 0 0 7) = .next (outcome (.bswWrite 56) (writer 0 0 7)) ∧
    (outcome (.bswWrite 56) (writer 0 0 7)).err = 0 ∧ exec .bswFlush (writer 0 0 15) = .next (outcome .bswFlush (writer 0 0 15)) ∧
    (outcome .bswFlush (writer 0 0 15)).err = 0 ∧ exec .bctEtree treeOfFour = .next (outcome .bctEtree treeOfFour) ∧
    (outcome .bctEtree treeOfFour).err = 0 :=
  ⟨by decide +kernel, completes (by decide +kernel), by decide +kernel, completes (by decide +kernel), by decide +kernel,
    completes (by decide +kernel), by decide +kernel⟩

theorem witness_IdleBlockWaits : State.reset.running = none ∧ State.reset.inbox = [] ∧
    ({ State.reset with inbox := [.elapse] } : State).inbox = .elapse :: [] := by decide

theorem witness_HostWritesRegister : ∀ off ∈ [0x00, 0x08, 0x10, 0x18, 0x20, 0x28, 0x38, 0x40, 0x98, 0xA0, 0xF8],
    off < 256 ∧ off % 8 = 0 ∧ ({ State.reset with inbox := [.regWrite off .b8 1] } : State).running = none ∧
    ({ State.reset with inbox := [.regWrite off .b8 1] } : State).inbox = .regWrite (State.reset.platform.regBase + off) .b8 1 :: [] := by
  decide

theorem witness_HostReadsRegister : ∀ off ∈ [0x00, 0x08, 0x30, 0x50, 0x78, 0x98, 0xA0, 0xF8],
    off < 256 ∧ off % 8 = 0 ∧ ({ State.reset with inbox := [.regRead off .b8] } : State).running = none ∧
    ({ State.reset with inbox := [.regRead off .b8] } : State).inbox = .regRead (State.reset.platform.regBase + off) .b8 :: [] := by decide

theorem witness_PackedViews : { State.reset with stack := [⟨0, 1, 64, 0⟩], stkHwm := 64 }.stackInv := by decide +kernel

theorem witness_BusyAccesses : ∀ off ∈ [0x00, 0x28, 0x30, 0x98, 0xA0, 0xF8], off < 256 ∧ off % 8 = 0 ∧
    ({ State.reset with running := some 0, inbox := [.regRead off .b8] } : State).inbox =
      .regRead (State.reset.platform.regBase + off) .b8 :: [] ∧
    ({ State.reset with running := some 0, inbox := [.regWrite off .b8 1] } : State).inbox =
      .regWrite (State.reset.platform.regBase + off) .b8 1 :: [] := by decide

theorem witness_ResetInput : ({ State.reset with inbox := [.hwReset 0] } : State).Inv ∧
    ({ writer 0 0xCCBBAA 24 with running := some 0x13, inbox := [.hwReset 3] } : State).Inv ∧
    (after (issue 0x13 { writer 0 0xCCBBAA 24 with running := some 0x13, inbox := [] }) id).isSome = true :=
  ⟨by decide +kernel, by decide +kernel, by decide +kernel⟩

/-- A running `BSW.FLUSH` owns the 8 bytes from 0x4000; a running `BSR.LOAD` only reads; an idle block owns nothing. -/
theorem witness_HostMemoryAccess : (runningWrites 0x13 (writer 0 0 8)).holds 0x4007 = true ∧ (runningWrites 0x13 (writer 0 0 8)).holds 0x4008 = false ∧
    (runningReads 0x22 (reader 0x4000 0 0 0)).holds 0x4005 = true ∧ (runningReads 0x22 (reader 0x4000 0 0 0)).holds 0x4006 = false ∧
    (runningWrites 0x22 (reader 0x4000 0 0 0)).holds 0x4005 = false ∧
    ({ writer 0 0 8 with running := some 0x13, inbox := [.memWrite 0x4007 1] } : State).inbox = .memWrite 0x4007 1 :: [] := by decide +kernel

theorem witness_UndefinedAccessRefused : (4 % 8 ≠ 0 ∨ AccessSize.b8 ≠ .b8) ∧ (0 % 8 ≠ 0 ∨ AccessSize.b4 ≠ .b8) ∧
    ({ State.reset with inbox := [.regWrite 4 .b8 1] } : State).inbox = .regWrite (State.reset.platform.regBase + 4) .b8 1 :: [] ∧
    ({ State.reset with inbox := [.regRead 0 .b4] } : State).inbox = .regRead (State.reset.platform.regBase + 0) .b4 :: [] := by decide

end Sys2Proof.Tests
end

/-! PROOFS. What every command may do to the state, whatever state it starts in: one walk through the rules, for any relation between the
state before and the state after (10_state.md R30, R32, R36, R41). -/

namespace Sys2Proof.Proofs
open Sys2Proof Sys2Proof.Machine Sys2Proof.Format Sys2Proof.Laws

section Acts
variable {α β : Type} {R : State → State → Prop} {A : Abort → Prop}

/-- From every state: however the rule ends, the state before and the state after stand in the relation `R`; if it aborts, the reason
meets `A`. -/
def Acts (R : State → State → Prop) (A : Abort → Prop) (r : Rule α) : Prop :=
  ∀ s, Meets (· = s) r (fun _ t => R s t) (fun a t => R s t ∧ A a)

/-- What `R` and `A` must allow so that every rule can be followed: byte stores, the errors of R201 but `StackOverflow`, and stops. -/
structure Allows (R : State → State → Prop) (A : Abort → Prop) : Prop where
  refl : ∀ s, R s s
  trans : ∀ {s t u}, R s t → R t u → R s u
  store : ∀ s a b, a < Config.addressSpace → R s (s.storeByte a b)
  raised : ∀ e, e ≠ .stackOverflow → A (.raised e 0)
  stopped : ∀ f, A (.stopped f)

/-- The updates of the writer registers (10_state.md R30). -/
structure AllowsWriter (R : State → State → Prop) : Prop where
  init : ∀ s base cap, R s (s.writerInitialised base cap)
  move : ∀ s p a c, R s (s.withWriter p a c)
  close : ∀ s : State, R s { s with wrOpen := false }

/-- The updates of the reader registers (10_state.md R32), and the two infos of a stream that is too short (45_bct_decoder.md R185). -/
structure AllowsReader (R : State → State → Prop) (A : Abort → Prop) : Prop where
  init : ∀ s base len, R s (s.readerInitialised base len)
  load : ∀ s p k la, R s (s.loaded p k la)
  consume : ∀ s n, R s (s.consumed n)
  endOfStream : A (.raised .wrongFormat Err.endOfStream.code)
  notEnoughBits : A (.raised .wrongFormat Err.notEnoughBits.code)

/-- The updates of the work stack, and its overflow (10_state.md R39, R41). -/
structure AllowsStack (R : State → State → Prop) (A : Abort → Prop) : Prop where
  push : ∀ s c, R s (s.pushed c)
  withStack : ∀ s k, R s (s.withStack k)
  overflow : A (.raised .stackOverflow 0)

/-! ### The building blocks -/

theorem Acts.of_ok {r : Rule α} (h : ∀ s, ∃ a t, r s = .ok a t ∧ R s t) : Acts R A r := by
  rintro _ s rfl
  obtain ⟨a, t, hr, ht⟩ := h s
  rw [hr]; exact ht

theorem Allows.bind (h : Allows R A) {r : Rule α} {f : α → Rule β} (hr : Acts R A r) (hf : ∀ a, Acts R A (f a)) :
    Acts R A (r >>= f) := fun s => by
  refine (hr s).bind fun a t ht => ?_
  exact (hf a t).mono (fun _ hu => hu) (fun _ _ hu => h.trans ht hu) (fun _ _ hu => ⟨h.trans ht hu.1, hu.2⟩) t rfl

theorem Allows.pure (h : Allows R A) (a : α) : Acts R A (pure a : Rule α) := .of_ok fun s => ⟨a, s, rfl, h.refl s⟩

theorem Allows.get (h : Allows R A) : Acts R A (get : Rule State) := .of_ok fun s => ⟨s, s, rfl, h.refl s⟩

theorem Acts.modify {f : State → State} (h : ∀ s, R s (f s)) : Acts R A (modify f : Rule PUnit) :=
  .of_ok fun s => ⟨_, f s, rfl, h s⟩

theorem Allows.throw (h : Allows R A) {a : Abort} (ha : A a) : Acts R A (throw a : Rule α) := by
  rintro _ s rfl
  exact ⟨h.refl _, ha⟩

theorem Allows.raiseIf (h : Allows R A) (c : Bool) {e : Err} (he : e ≠ .stackOverflow) : Acts R A (raiseIf c e) := by
  cases c with
  | true => exact h.throw (h.raised e he)
  | false => exact h.pure ()

/-! ### Memory (20_memory.md R61, R62, R64) -/

theorem Allows.readByte (h : Allows R A) (a : Nat) : Acts R A (readByte a) := by
  rintro _ s rfl
  unfold Machine.readByte
  split_ifs
  · exact ⟨h.refl _, h.stopped _⟩
  · exact ⟨h.refl _, h.raised _ (by decide)⟩
  · exact h.refl _

theorem Allows.writeByte (h : Allows R A) (a : Nat) (b : Byte) : Acts R A (writeByte a b) := by
  rintro _ s rfl
  unfold Machine.writeByte
  split_ifs with ha
  · exact ⟨h.refl _, h.stopped _⟩
  · exact ⟨h.refl _, h.raised _ (by decide)⟩
  · exact h.store _ a b (by omega)

theorem Allows.memRead (h : Allows R A) : ∀ a n, Acts R A (memRead a n)
  | _, 0 => h.pure 0
  | a, n + 1 => h.bind (h.readByte a) fun _ => h.bind (h.memRead (a + 1) n) fun _ => h.pure _

theorem Allows.memWrite (h : Allows R A) : ∀ a n v, Acts R A (memWrite a n v)
  | _, 0, _ => h.pure ()
  | a, n + 1, v => h.bind (h.writeByte a _) fun _ => h.memWrite (a + 1) n (v / 256)

theorem Allows.elem (h : Allows R A) (vbase i : Nat) : Acts R A (elem vbase i) :=
  h.bind h.get fun _ => h.memRead _ _

theorem Allows.storeElem (h : Allows R A) (vbase i v : Nat) : Acts R A (storeElem vbase i v) :=
  h.bind h.get fun _ => h.memWrite _ _ _

theorem Allows.zeroCountLoop (h : Allows R A) (sbase bit : Nat) : ∀ fuel lo hi, Acts R A (zeroCountLoop sbase bit fuel lo hi)
  | 0, lo, _ => h.pure lo
  | fuel + 1, lo, hi => by
    unfold Machine.zeroCountLoop
    split_ifs
    · refine h.bind (h.elem _ _) fun v => ?_
      split_ifs
      · exact h.zeroCountLoop sbase bit fuel _ _
      · exact h.zeroCountLoop sbase bit fuel _ _
    · exact h.pure lo

theorem Allows.zeroCount (h : Allows R A) (sbase length bit : Nat) : Acts R A (zeroCount sbase length bit) :=
  h.zeroCountLoop _ _ _ _ _

/-! ### The work stack (10_state.md R39, R41) -/

theorem Allows.stackPush (h : Allows R A) (hs : AllowsStack R A) (c : BitCluster) : Acts R A (stackPush c) := by
  rintro _ s rfl
  rw [stackPush_run]
  split_ifs
  · exact ⟨h.refl _, hs.overflow⟩
  · exact hs.push _ c

theorem AllowsStack.stackClear (hs : AllowsStack R A) : Acts R A stackClear := .modify fun s => hs.withStack s []

theorem Allows.stackPop (h : Allows R A) (hs : AllowsStack R A) : Acts R A stackPop := .of_ok fun s => by
  rw [stackPop_run]
  cases s.stack with
  | nil => exact ⟨_, _, rfl, h.refl s⟩
  | cons c rest => exact ⟨_, _, rfl, hs.withStack s rest⟩

/-! ### The writer (41_bitstream_writer.md R111 to R117) -/

theorem AllowsWriter.keepWriterOnRaise (h : Allows R A) (hw : AllowsWriter R) {r : Rule α} (hr : Acts R A r) :
    Acts R A (keepWriterOnRaise r) := by
  rintro _ s rfl
  have hs := hr s s rfl
  unfold Machine.keepWriterOnRaise
  cases hc : r s with
  | ok a t => rw [hc] at hs; exact hs
  | error a t =>
    rw [hc] at hs
    cases a with
    | raised e i => exact ⟨h.trans hs.1 (hw.move t _ _ _), hs.2⟩
    | stopped f => exact hs

theorem AllowsWriter.flushBody (h : Allows R A) (hw : AllowsWriter R) : Acts R A flushBody :=
  h.bind h.get fun _ => h.bind (h.memWrite _ _ _) fun _ => .modify fun t => hw.move t _ _ _

theorem Allows.raiseIfPastLimit (h : Allows R A) : Acts R A raiseIfPastLimit :=
  h.bind h.get fun _ => h.raiseIf _ (by decide)

theorem Allows.raiseIfWriterClosed (h : Allows R A) : Acts R A raiseIfWriterClosed :=
  h.bind h.get fun _ => h.raiseIf _ (by decide)

theorem AllowsWriter.writerInit (h : Allows R A) (hw : AllowsWriter R) (base cap : Nat) : Acts R A (writerInit base cap) :=
  h.bind (h.raiseIf _ (by decide)) fun _ => h.bind (h.raiseIf _ (by decide)) fun _ => .modify fun s => hw.init s base cap

theorem AllowsWriter.writerAppend (h : Allows R A) (hw : AllowsWriter R) (v n : Nat) : Acts R A (writerAppend v n) :=
  h.bind h.raiseIfWriterClosed fun _ => h.bind (h.raiseIf _ (by decide)) fun _ => h.bind h.get fun _ =>
    h.bind (h.raiseIf _ (by decide)) fun _ => .modify fun t => hw.move t _ _ _

theorem AllowsWriter.writerWrite (h : Allows R A) (hw : AllowsWriter R) (v n : Nat) : Acts R A (writerWrite v n) :=
  h.bind h.raiseIfWriterClosed fun _ => h.bind (h.raiseIf _ (by decide)) fun _ => h.bind h.get fun _ =>
    h.bind (h.raiseIf _ (by decide)) fun _ => h.bind h.raiseIfPastLimit fun _ =>
      hw.keepWriterOnRaise h (h.bind (.modify fun t => hw.move t _ _ _) fun _ => hw.flushBody h)

theorem AllowsWriter.writerFlush (h : Allows R A) (hw : AllowsWriter R) : Acts R A writerFlush :=
  h.bind h.raiseIfWriterClosed fun _ => h.bind h.raiseIfPastLimit fun _ => hw.keepWriterOnRaise h (hw.flushBody h)

theorem AllowsWriter.writerClose (h : Allows R A) (hw : AllowsWriter R) : Acts R A writerClose := by
  refine h.bind h.raiseIfWriterClosed fun _ => h.bind h.raiseIfPastLimit fun _ =>
    hw.keepWriterOnRaise h (h.bind (hw.flushBody h) fun _ => h.bind h.get fun s => ?_)
  have closing (r : Word) : Acts R A (do modify (fun t : State => { t with wrOpen := false }); pure r : Rule Word) :=
    h.bind (.modify hw.close) fun _ => h.pure r
  split_ifs
  · exact closing _
  · exact h.bind (h.memWrite _ _ _) fun _ => closing _

theorem AllowsWriter.putField (h : Allows R A) (hw : AllowsWriter R) (v n : Nat) : Acts R A (putField v n) := by
  unfold Machine.putField
  split_ifs
  · exact hw.writerWrite h v n
  · exact h.bind (hw.writerWrite h _ _) fun _ => hw.writerWrite h _ _

/-! ### The encoder (44_bct_encoder.md R161 to R166) -/

theorem Allows.addE (h : Allows R A) (hs : AllowsStack R A) (start length bitPos : Nat) : Acts R A (addE start length bitPos) := by
  unfold Machine.addE
  split_ifs
  · exact h.pure _
  · exact h.stackPush hs _

theorem AllowsWriter.emitLiterals (h : Allows R A) (hw : AllowsWriter R) (vbase bitPos : Nat) :
    ∀ n i, Acts R A (emitLiterals vbase bitPos n i)
  | 0, _ => h.pure ()
  | n + 1, i => h.bind (h.elem _ _) fun _ => h.bind (hw.putField h _ _) fun _ => hw.emitLiterals h vbase bitPos n (i + 1)

theorem AllowsWriter.encSplit (h : Allows R A) (hw : AllowsWriter R) (hs : AllowsStack R A) (vbase start length bitPos : Nat) :
    Acts R A (encSplit vbase start length bitPos) :=
  h.bind h.get fun _ => h.bind (h.zeroCount _ _ _) fun _ => h.bind (hw.putField h _ _) fun _ =>
    h.bind (h.addE hs _ _ _) fun _ => h.addE hs _ _ _

theorem AllowsWriter.encStep (h : Allows R A) (hw : AllowsWriter R) (hs : AllowsStack R A) (vbase : Nat) (c : BitCluster) :
    Acts R A (encStep vbase c) := by
  refine h.bind h.get fun s => ?_
  split_ifs
  · exact h.pure _
  · exact h.pure _
  · exact hw.emitLiterals h _ _ _ _
  · exact hw.encSplit h hs _ _ _ _

/-- The end of a walk's loop at its bound (44_bct_encoder.md R167, 45_bct_decoder.md R183). -/
theorem walkEnd_acts (h : Allows R A) :
    Acts R A (do let s ← get; if s.stack = [] then pure () else throw (.stopped .walkBoundPassed) : Rule Unit) := by
  refine h.bind h.get fun s => ?_
  split_ifs
  · exact h.pure _
  · exact h.throw (h.stopped _)

theorem AllowsWriter.eTreeLoop (h : Allows R A) (hw : AllowsWriter R) (hs : AllowsStack R A) (vbase : Nat) :
    ∀ fuel, Acts R A (eTreeLoop vbase fuel)
  | 0 => walkEnd_acts h
  | fuel + 1 =>
    h.bind (h.stackPop hs) fun
      | none => h.pure ()
      | some c => h.bind (hw.encStep h hs vbase c) fun _ => hw.eTreeLoop h hs vbase fuel

theorem AllowsWriter.eTreeBody (h : Allows R A) (hw : AllowsWriter R) (hs : AllowsStack R A) (vbase len : Nat) :
    Acts R A (eTreeBody vbase len) :=
  h.bind hs.stackClear fun _ => h.bind h.get fun _ => h.bind (h.addE hs _ _ _) fun _ => hw.eTreeLoop h hs _ _

theorem AllowsWriter.putHeader (h : Allows R A) (hw : AllowsWriter R) (len : Nat) : Acts R A (putHeader len) := by
  refine h.bind h.get fun s => ?_
  split_ifs
  · exact hw.putField h _ _
  · exact hw.putField h _ _

theorem AllowsWriter.bctEtreeRule (h : Allows R A) (hw : AllowsWriter R) (hs : AllowsStack R A) : Acts R A bctEtreeRule :=
  h.bind h.get fun _ => h.bind (h.raiseIf _ (by decide)) fun _ => h.bind (h.raiseIf _ (by decide)) fun _ =>
    h.bind h.raiseIfWriterClosed fun _ => h.bind (h.raiseIf _ (by decide)) fun _ => h.bind (hw.eTreeBody h hs _ _) fun _ => h.pure 0

theorem Allows.raiseIfInputLength (h : Allows R A) (len : Nat) : Acts R A (raiseIfInputLength len) := by
  refine h.bind h.get fun s => ?_
  split_ifs
  · exact h.raiseIf _ (by decide)
  · exact h.bind (h.raiseIf _ (by decide)) fun _ => h.raiseIf _ (by decide)

theorem AllowsWriter.bctEncodeRule (h : Allows R A) (hw : AllowsWriter R) (hs : AllowsStack R A) : Acts R A bctEncodeRule :=
  h.bind h.get fun _ => h.bind (h.raiseIf _ (by decide)) fun _ => h.bind (h.raiseIf _ (by decide)) fun _ =>
    h.bind (h.raiseIfInputLength _) fun _ => h.bind (hw.writerInit h _ _) fun _ => h.bind (hw.putHeader h _) fun _ =>
      h.bind (hw.eTreeBody h hs _ _) fun _ => hw.writerClose h

/-! ### The reader (42_bitstream_reader.md R131 to R135) -/

theorem Allows.raiseIfReaderClosed (h : Allows R A) : Acts R A raiseIfReaderClosed :=
  h.bind h.get fun _ => h.raiseIf _ (by decide)

theorem AllowsReader.readerInit (h : Allows R A) (hr : AllowsReader R A) (base len : Nat) : Acts R A (readerInit base len) :=
  h.bind (h.raiseIf _ (by decide)) fun _ => .modify fun s => hr.init s base len

theorem AllowsReader.loadBody (h : Allows R A) (hr : AllowsReader R A) : Acts R A loadBody :=
  h.bind h.get fun _ => h.bind (h.raiseIf _ (by decide)) fun _ => h.bind (h.memRead _ _) fun _ => .modify fun t => hr.load t _ _ _

theorem AllowsReader.ensureBits (h : Allows R A) (hr : AllowsReader R A) (n : Nat) : Acts R A (ensureBits n) := by
  refine h.bind h.get fun s => ?_
  split_ifs
  · exact h.bind (hr.loadBody h) fun _ => h.bind h.get fun _ => h.raiseIf _ (by decide)
  · exact h.pure _

theorem AllowsReader.readerRead (h : Allows R A) (hr : AllowsReader R A) (n : Nat) : Acts R A (readerRead n) :=
  h.bind h.raiseIfReaderClosed fun _ => h.bind (h.raiseIf _ (by decide)) fun _ => h.bind (hr.ensureBits h n) fun _ =>
    .of_ok fun s => ⟨_, s.consumed n, rfl, hr.consume s n⟩

theorem AllowsReader.readerLoad (h : Allows R A) (hr : AllowsReader R A) : Acts R A readerLoad :=
  h.bind h.raiseIfReaderClosed fun _ => hr.loadBody h

theorem Allows.readerSize (h : Allows R A) : Acts R A readerSize :=
  h.bind h.raiseIfReaderClosed fun _ => h.bind h.get fun _ => h.pure _

theorem AllowsReader.getField (h : Allows R A) (hr : AllowsReader R A) (n : Nat) : Acts R A (getField n) := by
  unfold Machine.getField
  split_ifs
  · exact hr.readerRead h n
  · exact h.bind (hr.readerRead h _) fun _ => h.bind (hr.readerRead h _) fun _ => h.pure _

/-! ### The decoder (45_bct_decoder.md R181 to R188) -/

/-- What is allowed to a rule is allowed to it inside a decode-class command, where a reader error becomes `WrongFormat` (R185). -/
theorem AllowsReader.asWrongFormat (h : Allows R A) (hr : AllowsReader R A) : Allows R fun a => A (asWrongFormat a) where
  refl := h.refl
  trans := h.trans
  store := h.store
  raised e he := by
    cases e with
    | endOfStream => exact hr.endOfStream
    | notEnoughBits => exact hr.notEnoughBits
    | _ => exact h.raised _ he
  stopped := h.stopped

theorem AllowsReader.decodeField (h : Allows R A) (hr : AllowsReader R A) (n : Nat) : Acts R A (decodeField n) := by
  rintro _ s rfl
  have hr' : AllowsReader R fun a => A (Machine.asWrongFormat a) :=
    ⟨hr.init, hr.load, hr.consume, hr.endOfStream, hr.notEnoughBits⟩
  have hs := hr'.getField (hr.asWrongFormat h) n s s rfl
  unfold Machine.decodeField
  cases hc : Machine.getField n s with
  | ok v t => rw [hc] at hs; exact hs
  | error a t => rw [hc] at hs; exact hs

theorem Allows.addD (h : Allows R A) (hs : AllowsStack R A) (start length bitPos hb : Nat) :
    Acts R A (addD start length bitPos hb) := by
  unfold Machine.addD
  split_ifs
  · exact h.pure _
  · exact h.stackPush hs _

theorem Allows.fillSlots (h : Allows R A) (obase value : Nat) : ∀ n i, Acts R A (fillSlots obase value n i)
  | 0, _ => h.pure ()
  | n + 1, i => h.bind (h.storeElem _ _ _) fun _ => h.fillSlots obase value n (i + 1)

theorem Allows.fillRange (h : Allows R A) (obase start hb : Nat) : ∀ n i, Acts R A (fillRange obase start hb n i)
  | 0, _ => h.pure ()
  | n + 1, i => h.bind (h.storeElem _ _ _) fun _ => h.fillRange obase start hb n (i + 1)

theorem AllowsReader.readLiterals (h : Allows R A) (hr : AllowsReader R A) (obase bitPos hb : Nat) :
    ∀ n i, Acts R A (readLiterals obase bitPos hb n i)
  | 0, _ => h.pure ()
  | n + 1, i => h.bind (hr.decodeField h _) fun _ => h.bind (h.storeElem _ _ _) fun _ =>
      hr.readLiterals h obase bitPos hb n (i + 1)

theorem AllowsReader.decSplit (h : Allows R A) (hr : AllowsReader R A) (hs : AllowsStack R A) (start length bitPos hb : Nat) :
    Acts R A (decSplit start length bitPos hb) :=
  h.bind (hr.decodeField h _) fun _ => h.bind (h.raiseIf _ (by decide)) fun _ => h.bind (h.addD hs _ _ _ _) fun _ =>
    h.addD hs _ _ _ _

theorem AllowsReader.decStep (h : Allows R A) (hr : AllowsReader R A) (hs : AllowsStack R A) (obase : Nat) (c : BitCluster) :
    Acts R A (decStep obase c) := by
  refine h.bind h.get fun s => ?_
  split_ifs
  · exact h.fillSlots _ _ _ _
  · exact h.fillRange _ _ _ _ _
  · exact hr.readLiterals h _ _ _ _ _
  · exact hr.decSplit h hs _ _ _ _

theorem AllowsReader.dTreeLoop (h : Allows R A) (hr : AllowsReader R A) (hs : AllowsStack R A) (obase : Nat) :
    ∀ fuel, Acts R A (dTreeLoop obase fuel)
  | 0 => walkEnd_acts h
  | fuel + 1 =>
    h.bind (h.stackPop hs) fun
      | none => h.pure ()
      | some c => h.bind (hr.decStep h hs obase c) fun _ => hr.dTreeLoop h hs obase fuel

theorem AllowsReader.dTreeBody (h : Allows R A) (hr : AllowsReader R A) (hs : AllowsStack R A) (obase len : Nat) :
    Acts R A (dTreeBody obase len) :=
  h.bind hs.stackClear fun _ => h.bind h.get fun _ => h.bind (h.addD hs _ _ _ _) fun _ => hr.dTreeLoop h hs _ _

theorem AllowsReader.getHeader (h : Allows R A) (hr : AllowsReader R A) : Acts R A getHeader := by
  refine h.bind h.get fun s => ?_
  split_ifs
  · exact hr.decodeField h _
  · exact h.bind (hr.decodeField h _) fun _ => h.pure _

theorem AllowsReader.bctDtreeRule (h : Allows R A) (hr : AllowsReader R A) (hs : AllowsStack R A) : Acts R A bctDtreeRule :=
  h.bind h.get fun _ => h.bind (h.raiseIf _ (by decide)) fun _ => h.bind (h.raiseIf _ (by decide)) fun _ =>
    h.bind h.raiseIfReaderClosed fun _ => h.bind (hr.dTreeBody h hs _ _) fun _ => h.pure 0

theorem Allows.raiseIfOutputLength (h : Allows R A) (len : Nat) : Acts R A (raiseIfOutputLength len) := by
  refine h.bind h.get fun s => ?_
  split_ifs
  · exact h.raiseIf _ (by decide)
  · exact h.bind (h.raiseIf _ (by decide)) fun _ => h.raiseIf _ (by decide)

theorem AllowsReader.bctDecodeRule (h : Allows R A) (hr : AllowsReader R A) (hs : AllowsStack R A) : Acts R A bctDecodeRule :=
  h.bind h.get fun _ => h.bind (h.raiseIf _ (by decide)) fun _ => h.bind (h.raiseIf _ (by decide)) fun _ =>
    h.bind (h.raiseIfOutputLength _) fun _ => h.bind (hr.readerInit h _ _) fun _ => h.bind (hr.getHeader h) fun _ =>
      h.bind (h.raiseIf _ (by decide)) fun _ => h.bind (hr.dTreeBody h hs _ _) fun _ => h.readerSize

theorem AllowsReader.bctDsizeRule (h : Allows R A) (hr : AllowsReader R A) : Acts R A bctDsizeRule :=
  h.bind h.get fun _ => h.bind (hr.readerInit h _ _) fun _ => h.bind (hr.getHeader h) fun _ =>
    h.bind (h.raiseIf _ (by decide)) fun _ => h.pure _

/-! ### The other commands -/

theorem Allows.zcCountRule (h : Allows R A) (bit : Nat) : Acts R A (zcCountRule bit) :=
  h.bind h.get fun _ => h.bind (h.raiseIf _ (by decide)) fun _ => h.bind (h.raiseIf _ (by decide)) fun _ =>
    h.bind (h.zeroCount _ _ _) fun _ => h.pure _

theorem Allows.sysResetRule (h : Allows R A) (hreset : ∀ s : State, R s s.registersReset) : Acts R A sysResetRule :=
  h.bind (.modify hreset) fun _ => h.pure 0

theorem Allows.utlBlenRule (h : Allows R A) : Acts R A utlBlenRule := h.bind h.get fun _ => h.pure _

/-! ### A command and its completion (60_exceptions.md R206) -/

/-- How a command that has completed came to its end: its rule ended in `u`, from which the completion step went to `t`, either without an
error or with one whose reason meets `A`. -/
inductive Completed (R : State → State → Prop) (A : Abort → Prop) (s t : State) : Prop where
  | ok (r : Word) (u : State) : R s.started u → t = u.completed 0 0 r → Completed R A s t
  | raised (e : Err) (i : BitVec 8) (u : State) : R s.started u → A (.raised e i) → t = u.completed e.code i 0 → Completed R A s t

theorem Acts.completed {r : Rule Word} (hr : Acts R A r) {s t : State} (h : runCommand r s = .next t) : Completed R A s t := by
  have hs := hr s.started _ rfl
  rcases complete_eq_next.1 h with ⟨v, u, hu, ht⟩ | ⟨e, i, u, hu, ht⟩
  · rw [hu] at hs; exact .ok v u hs ht
  · rw [hu] at hs; exact .raised e i u hs.1 hs.2 ht

/-- All that a command can do: only what is allowed to the registers it owns (10_state.md R30, R32, R36, R41). -/
theorem exec_completed (h : Allows R A) {i : Instr} (hw : writesWriter i = true → AllowsWriter R)
    (hr : writesReader i = true → AllowsReader R A) (hs : writesStack i = true → AllowsStack R A)
    (hreset : i = .sysReset → ∀ s : State, R s s.registersReset) {s t : State} (hx : exec i s = .next t) : Completed R A s t := by
  cases i with
  | sysNop => exact (h.pure 0).completed hx
  | sysReset => exact (h.sysResetRule (hreset rfl)).completed hx
  | utlBlen => exact h.utlBlenRule.completed hx
  | bswInit => exact (h.bind ((hw rfl).writerInit h _ _) fun _ => h.pure 0).completed hx
  | bswAppend n => exact (h.bind ((hw rfl).writerAppend h _ n) fun _ => h.pure 0).completed hx
  | bswWrite n => exact (h.bind ((hw rfl).writerWrite h _ n) fun _ => h.pure 0).completed hx
  | bswFlush => exact (h.bind ((hw rfl).writerFlush h) fun _ => h.pure 0).completed hx
  | bswClose => exact ((hw rfl).writerClose h).completed hx
  | bsrInit => exact (h.bind ((hr rfl).readerInit h _ _) fun _ => h.pure 0).completed hx
  | bsrRead n => exact (h.bind ((hr rfl).readerRead h n) fun _ => h.pure _).completed hx
  | bsrLoad => exact (h.bind ((hr rfl).readerLoad h) fun _ => h.pure 0).completed hx
  | bsrSize => exact h.readerSize.completed hx
  | zcCount bit => exact (h.zcCountRule bit).completed hx
  | bctEtree => exact ((hw rfl).bctEtreeRule h (hs rfl)).completed hx
  | bctEncode => exact ((hw rfl).bctEncodeRule h (hs rfl)).completed hx
  | bctDtree => exact ((hr rfl).bctDtreeRule h (hs rfl)).completed hx
  | bctDecode => exact ((hr rfl).bctDecodeRule h (hs rfl)).completed hx
  | bctDsize => exact ((hr rfl).bctDsizeRule h).completed hx

end Acts
end Sys2Proof.Proofs

/-! PROOFS. What no command changes (10_state.md R21, R27, R28, R30, R32, R36, R41). -/

namespace Sys2Proof.Proofs
open Sys2Proof Sys2Proof.Machine Sys2Proof.Format Sys2Proof.Laws

section Kept
variable {γ : Type} {f : State → γ}

/-- The two states look the same through `f`. -/
abbrev SameIn (f : State → γ) (s t : State) : Prop := f t = f s

/-- A view of the state in which neither a store nor the start and the end of a command is seen. -/
structure Unseen (f : State → γ) : Prop where
  store : ∀ s a b, f (s.storeByte a b) = f s
  started : ∀ s, f s.started = f s
  completed : ∀ s e i r, f (s.completed e i r) = f s

theorem Unseen.allows (hf : Unseen f) : Allows (SameIn f) fun _ => True where
  refl _ := rfl
  trans h k := k.trans h
  store s a b _ := hf.store s a b
  raised _ _ := trivial
  stopped _ := trivial

/-- A command keeps every view in which the updates of the registers it owns are not seen. -/
theorem exec_same (hf : Unseen f) {i : Instr} (hw : writesWriter i = true → AllowsWriter (SameIn f))
    (hr : writesReader i = true → AllowsReader (SameIn f) fun _ => True)
    (hs : writesStack i = true → AllowsStack (SameIn f) fun _ => True)
    (hreset : i = .sysReset → ∀ s : State, f s.registersReset = f s) {s t : State} (hx : exec i s = .next t) : f t = f s := by
  cases exec_completed hf.allows hw hr hs hreset hx with
  | ok r u hu ht => rw [ht, hf.completed, hu, hf.started]
  | raised e i u hu _ ht => rw [ht, hf.completed, hu, hf.started]

end Kept

/-- The argument registers, `CFG` and `MCL`. -/
def argumentView (s : State) := (s.arg0, s.arg1, s.arg2, s.arg3, s.cfg, s.mcl)

/-- The platform and what belongs to the world outside (log 2, log 6, log 19). -/
def outsideView (s : State) := (s.platform, s.inbox, s.readData, s.freeCount)

/-- The writer registers (10_state.md R30). -/
def writerView (s : State) := (s.wrAcc, s.wrCnt, s.wrBase, s.wrPtr, s.wrLimit, s.wrOpen)

/-- The reader registers (10_state.md R32). -/
def readerView (s : State) := (s.rdLa, s.rdLoaded, s.rdCons, s.rdBase, s.rdPtr, s.rdEnd, s.rdOpen)

/-- The work stack (10_state.md R37, R38). -/
def stackView (s : State) := (s.stack, s.stkHwm)

section Views
variable {i : Instr} {s t : State}

theorem exec_argumentView (hi : i ≠ .sysReset) (hx : exec i s = .next t) : argumentView t = argumentView s :=
  exec_same (f := argumentView) ⟨fun _ _ _ => rfl, fun _ => rfl, fun _ _ _ _ => rfl⟩
    (fun _ => ⟨fun _ _ _ => rfl, fun _ _ _ _ => rfl, fun _ => rfl⟩)
    (fun _ => ⟨fun _ _ _ => rfl, fun _ _ _ _ => rfl, fun _ _ => rfl, trivial, trivial⟩)
    (fun _ => ⟨fun _ _ => rfl, fun _ _ => rfl, trivial⟩) (fun h => absurd h hi) hx

theorem exec_outsideView (hx : exec i s = .next t) : outsideView t = outsideView s :=
  exec_same (f := outsideView) ⟨fun _ _ _ => rfl, fun _ => rfl, fun _ _ _ _ => rfl⟩
    (fun _ => ⟨fun _ _ _ => rfl, fun _ _ _ _ => rfl, fun _ => rfl⟩)
    (fun _ => ⟨fun _ _ _ => rfl, fun _ _ _ _ => rfl, fun _ _ => rfl, trivial, trivial⟩)
    (fun _ => ⟨fun _ _ => rfl, fun _ _ => rfl, trivial⟩) (fun _ _ => rfl) hx

theorem exec_writerView (hi : writesWriter i = false) (hx : exec i s = .next t) : writerView t = writerView s :=
  exec_same (f := writerView) ⟨fun _ _ _ => rfl, fun _ => rfl, fun _ _ _ _ => rfl⟩ (fun h => absurd hi (by simp [h]))
    (fun _ => ⟨fun _ _ _ => rfl, fun _ _ _ _ => rfl, fun _ _ => rfl, trivial, trivial⟩)
    (fun _ => ⟨fun _ _ => rfl, fun _ _ => rfl, trivial⟩) (fun h => absurd hi (by simp [h, writesWriter])) hx

theorem exec_readerView (hi : writesReader i = false) (hx : exec i s = .next t) : readerView t = readerView s :=
  exec_same (f := readerView) ⟨fun _ _ _ => rfl, fun _ => rfl, fun _ _ _ _ => rfl⟩
    (fun _ => ⟨fun _ _ _ => rfl, fun _ _ _ _ => rfl, fun _ => rfl⟩)
    (fun h => absurd hi (by simp [h])) (fun _ => ⟨fun _ _ => rfl, fun _ _ => rfl, trivial⟩)
    (fun h => absurd hi (by simp [h, writesReader])) hx

theorem exec_stackView (hi : writesStack i = false) (hx : exec i s = .next t) : stackView t = stackView s :=
  exec_same (f := stackView) ⟨fun _ _ _ => rfl, fun _ => rfl, fun _ _ _ _ => rfl⟩
    (fun _ => ⟨fun _ _ _ => rfl, fun _ _ _ _ => rfl, fun _ => rfl⟩)
    (fun _ => ⟨fun _ _ _ => rfl, fun _ _ _ _ => rfl, fun _ _ => rfl, trivial, trivial⟩) (fun h => absurd hi (by simp [h]))
    (fun h => absurd hi (by simp [h, writesStack])) hx

end Views

/-- Settles O7: the argument registers and `CFG`, `MCL` are a view that only `SYS.RESET` changes; the platform and the host-side fields are
one that no command changes. -/
theorem argumentsAndConfigurationKept : Obligations.ArgumentsAndConfigurationKept := by
  intro i s t hx
  have outside := exec_outsideView hx
  simp only [outsideView, Prod.mk.injEq] at outside
  refine ⟨fun hi => ?_, outside⟩
  have arguments := exec_argumentView hi hx
  simpa only [argumentView, Prod.mk.injEq] using arguments

/-- Settles O8: each group of registers is a view in which the updates of the other groups are not seen. -/
theorem registerOwnership : Obligations.RegisterOwnership := by
  intro i s t hx
  refine ⟨fun hi => ?_, fun hi => ?_, fun hi => ?_⟩
  · simpa only [writerView, Prod.mk.injEq] using exec_writerView hi hx
  · simpa only [readerView, Prod.mk.injEq] using exec_readerView hi hx
  · simpa only [stackView, Prod.mk.injEq] using exec_stackView hi hx

end Sys2Proof.Proofs

/-! PROOFS. What the writer's commands and the encoder's keep of the invariants (10_state.md R31, R37, R40). -/

namespace Sys2Proof.Proofs
open Sys2Proof Sys2Proof.Machine Sys2Proof.Format Sys2Proof.Laws

/-! ### How a rule ends from one state -/

/-- A rule has raised, with what `E` says of the error and of the state it leaves; of a stop (log 14, log 15) nothing is said. -/
def OnRaise (E : Err → State → Prop) : Abort → State → Prop
  | .raised e _, t => E e t
  | .stopped _, _ => True

/-- From `s` the rule ends normally as `Q` says, or raises as `E` says, or the model stops. -/
def Ends {α : Type} (r : Rule α) (s : State) (Q : α → State → Prop) (E : Err → State → Prop) : Prop :=
  Meets (· = s) r Q (OnRaise E)

/-- A check has failed in the state `s` and changed nothing (60_exceptions.md R207, R208). -/
def Refused (s : State) (e : Err) (t : State) : Prop := t = s ∧ e ≠ .stackOverflow

section Rules
variable {α β : Type} {r : Rule α} {s t : State} {Q M : α → State → Prop} {E : Err → State → Prop}

theorem Ends.of_ok {a : α} (h : r s = .ok a t) (hQ : Q a t) : Ends r s Q E := by
  rintro _ rfl; rw [h]; exact hQ

theorem Ends.of_raised {e : Err} {i : BitVec 8} (h : r s = .error (.raised e i) t) (hE : E e t) : Ends r s Q E := by
  rintro _ rfl; rw [h]; exact hE

theorem Ends.of_stopped {f : Fault} (h : r s = .error (.stopped f) t) : Ends r s Q E := by
  rintro _ rfl; rw [h]; trivial

theorem Ends.mono {Q' : α → State → Prop} {E' : Err → State → Prop} (h : Ends r s Q E) (hQ : ∀ a t, Q a t → Q' a t)
    (hE : ∀ e t, E e t → E' e t) : Ends r s Q' E' :=
  Meets.mono h (fun _ => id) hQ fun
    | .raised e _, t, he => hE e t he
    | .stopped _, _, _ => trivial

theorem Ends.bind {f : α → Rule β} {Q : β → State → Prop} (h : Ends r s M E) (hf : ∀ a t, M a t → Ends (f a) t Q E) :
    Ends (r >>= f) s Q E :=
  Meets.bind h fun a t ht => hf a t ht t rfl

theorem Ends.get_bind {f : State → Rule β} {Q : β → State → Prop} (h : Ends (f s) s Q E) :
    Ends ((get : Rule State) >>= f) s Q E := Ends.bind (M := fun u t => s = u ∧ s = t) (.of_ok rfl ⟨rfl, rfl⟩) <| by
  rintro _ _ ⟨rfl, rfl⟩; exact h

/-- A numbered check and what follows it when it passes. -/
theorem Ends.check {c : Bool} {e : Err} {f : Unit → Rule β} {Q : β → State → Prop} (hfail : E e s)
    (hpass : c = false → Ends (f ()) s Q E) : Ends (raiseIf c e >>= f) s Q E := by
  cases c with
  | true => exact .of_raised rfl hfail
  | false => exact hpass rfl

/-- A check that stands last. -/
theorem Ends.raiseIf {c : Bool} {e : Err} {Q : Unit → State → Prop} (hfail : E e s) (hpass : c = false → Q () s) :
    Ends (raiseIf c e) s Q E := by
  cases c with
  | true => exact .of_raised rfl hfail
  | false => exact .of_ok rfl (hpass rfl)

/-- A command ends as its rule does, and then completes (60_exceptions.md R206). -/
theorem Ends.command {r : Rule Word} {Q : Word → State → Prop} {E : Err → State → Prop} (h : Ends r s.started Q E)
    (hx : runCommand r s = .next t) :
    (∃ v u, Q v u ∧ t = u.completed 0 0 v) ∨ (∃ e i u, E e u ∧ t = u.completed e.code i 0) := by
  have hr := h _ rfl
  rcases complete_eq_next.1 hx with ⟨v, u, hu, ht⟩ | ⟨e, i, u, hu, ht⟩
  · rw [hu] at hr; exact .inl ⟨v, u, hr, ht⟩
  · rw [hu] at hr; exact .inr ⟨e, i, u, hr, ht⟩

end Rules

/-! ### The writer's commands (41_bitstream_writer.md R111 to R116) -/

section Writer
variable {s : State}

theorem raiseIfWriterClosed_ends (s : State) :
    Ends raiseIfWriterClosed s (fun _ t => s = t ∧ s.wrOpen = true) (Refused s) := by
  cases ho : s.wrOpen with
  | true => exact .of_ok (by rw [raiseIfWriterClosed_run, ho]; rfl) ⟨rfl, rfl⟩
  | false => exact .of_raised (by rw [raiseIfWriterClosed_run, ho]; rfl) ⟨rfl, by decide⟩

theorem writerInit_ends (s : State) (base cap : Nat) :
    Ends (writerInit base cap) s
      (fun _ t => s.writerInitialised base cap = t ∧ WriterReady (s.writerInitialised base cap)) (Refused s) := by
  have hrun := writerInit_run s base cap
  split_ifs at hrun with hfar hsmall
  · exact .of_raised hrun ⟨rfl, by decide⟩
  · exact .of_raised hrun ⟨rfl, by decide⟩
  · exact .of_ok hrun ⟨rfl, (writerInitialised_ready s (by omega) (by omega)).1⟩

theorem writerAppend_ends (hinv : s.writerInv) (v n : Nat) :
    Ends (writerAppend v n) s (fun _ => State.writerInv) (fun _ => State.writerInv) := by
  have hrun := writerAppend_run s v n
  split_ifs at hrun with hclosed hbad
  · exact .of_raised hrun hinv
  · exact .of_raised hrun hinv
  · refine .of_ok hrun fun hopen => ?_
    obtain ⟨hacc, -, hbase, hptr, hlimit⟩ := hinv hopen
    have hcnt : s.wrCnt.toNat + n ≤ 64 := by omega
    refine ⟨?_, ?_, hbase, hptr, hlimit⟩
    · rw [merged_wrCnt_toNat hcnt]; exact merged_wrAcc_lt hacc hcnt
    · rw [merged_wrCnt_toNat hcnt]; omega

/-- `BSW.WRITE` of a writer with any number of pending bits leaves at most 7 (10_state.md R31; R113, R115). -/
theorem writerWrite_ends (hinv : s.writerInv) (v n : Nat) :
    Ends (writerWrite v n) s (fun _ => WriterReady) (fun _ => State.writerInv) := by
  rcases writerWrite_cases s v n with
    ⟨-, hr⟩ | ⟨-, -, hr⟩ | ⟨-, -, -, -, hr⟩ | ⟨hopen, -, hcnt, hp, ⟨hr, -⟩ | ⟨k, -, hr, -⟩ | ⟨k, -, hr, -⟩⟩
  · exact .of_raised hr hinv
  · exact .of_raised hr hinv
  · exact .of_raised hr hinv
  · obtain ⟨hacc, -, hbase, -, hlimit⟩ := hinv hopen
    have hcnt' := merged_wrCnt_toNat (v := v) hcnt
    refine .of_ok hr (afterFlush_ready (s := s.merged v n) hopen ?_ (by omega) hbase hp hlimit).1
    rw [hcnt']; exact merged_wrAcc_lt hacc hcnt
  · exact .of_raised hr hinv
  · exact .of_stopped hr

/-- `BSW.FLUSH` leaves at most 7 pending bits (10_state.md R31; R113, R114). -/
theorem writerFlush_ends (hinv : s.writerInv) : Ends writerFlush s (fun _ => WriterReady) (fun _ => State.writerInv) := by
  rcases writerFlush_cases s with
    ⟨-, hr⟩ | ⟨-, -, hr⟩ | ⟨hopen, hp, ⟨hr, -⟩ | ⟨k, -, hr, -⟩ | ⟨k, -, hr, -⟩⟩
  · exact .of_raised hr hinv
  · exact .of_raised hr hinv
  · obtain ⟨hacc, hcnt, hbase, -, hlimit⟩ := hinv hopen
    exact .of_ok hr (afterFlush_ready hopen hacc (by omega) hbase hp hlimit).1
  · exact .of_raised hr hinv
  · exact .of_stopped hr

/-- What the encoder's commands keep: the writer's invariants and the stack's. -/
structure EncInv (s : State) : Prop where
  writer : s.writerInv
  stack : StackKept s

/-- How an encoder command may fail: its invariants kept, the stack not overflown (R169). -/
def EncFailed (e : Err) (t : State) : Prop := EncInv t ∧ e ≠ .stackOverflow

/-- `BSW.CLOSE` closes the writer or leaves its registers; the stack is not its business (R116). -/
theorem writerClose_ends (hinv : EncInv s) : Ends writerClose s (fun _ => EncInv) EncFailed := by
  have withStores_inv (l : List Host.Cell) : EncInv (withStores s l) := ⟨hinv.writer, hinv.stack.congr rfl rfl⟩
  rcases writerClose_cases s with ⟨-, hr⟩ | ⟨-, -, hr⟩ | ⟨-, -, hr | ⟨k, -, hr, -⟩ | ⟨t, hr, -⟩⟩
  · exact .of_raised hr ⟨hinv, by decide⟩
  · exact .of_raised hr ⟨hinv, by decide⟩
  · exact .of_ok hr ⟨nofun, hinv.stack.congr rfl rfl⟩
  · exact .of_raised hr ⟨withStores_inv _, by decide⟩
  · exact .of_stopped hr

end Writer

/-! ### The encoder's commands (44_bct_encoder.md R163 to R166) -/

theorem stackKept_iff {s : State} : StackKept s ↔ s.stackInv := by
  constructor
  · rintro ⟨⟨hsp, hhwm⟩, hcl⟩
    refine ⟨hsp, hhwm, fun c hc => ?_⟩
    obtain ⟨hlen, hbp⟩ := hcl c hc
    exact ⟨fun h0 => by simp [h0] at hlen, hbp⟩
  · rintro ⟨hsp, hhwm, hcl⟩
    refine ⟨⟨hsp, hhwm⟩, fun c hc => ?_⟩
    obtain ⟨hlen, hbp⟩ := hcl c hc
    exact ⟨Nat.pos_of_ne_zero fun h0 => hlen (BitVec.eq_of_toNat_eq h0), hbp⟩

/-- An encoder command between its steps: at most 7 bits are pending, the stack is within its bounds. -/
structure EncReady (s : State) : Prop where
  ready : WriterReady s
  stack : StackKept s

theorem EncReady.inv {s : State} (h : EncReady s) : EncInv s := ⟨h.ready.writerInv, h.stack⟩

theorem EncFailed.of_refused {s : State} (h : EncInv s) (e : Err) (t : State) (hr : Refused s e t) : EncFailed e t :=
  ⟨hr.1 ▸ h, hr.2⟩

theorem EncFailed.of_emitFailed {bits vbase len : Nat} {e : Err} {s t : State} (h : EmitFailed bits vbase len e s t)
    (hs : StackKept t) : EncFailed e t := by
  refine ⟨⟨h.ready.writerInv, hs⟩, ?_⟩
  rcases h.cause with ⟨rfl, -⟩ | ⟨rfl, -⟩ <;> decide

theorem eTreeBody_ends {s : State} {vbase len : Nat} (h : EncReady s) (hcfg : s.badConfig = false)
    (harr : vbase + s.arrayBytes len < Config.addressSpace) (hlen : len < 2 ^ 64) :
    Ends (eTreeBody vbase len) s (fun _ => EncReady) EncFailed := by
  rcases eTreeBody_cases h.ready hcfg h.stack.bounded.hwm_le harr hlen with ⟨t, ht, hw, -⟩ | ⟨t, e, ht, hf, hk⟩
  · exact .of_ok ht ⟨hw.ready, hw.stackKept⟩
  · exact .of_raised ht (.of_emitFailed hf hk)

theorem bctEtreeRule_ends {s : State} (hinv : EncInv s) : Ends bctEtreeRule s (fun _ => EncReady) EncFailed := by
  refine .get_bind <| .check ⟨hinv, by decide⟩ fun hcfg => .check ⟨hinv, by decide⟩ fun hfar => ?_
  refine ((raiseIfWriterClosed_ends s).mono (fun _ _ => id) (.of_refused hinv)).bind ?_
  rintro _ _ ⟨rfl, hopen⟩
  refine .check ⟨hinv, by decide⟩ fun hcnt => ?_
  obtain ⟨hacc, -, hbase, hptr, hlimit⟩ := hinv.writer hopen
  have hready : EncReady s := ⟨⟨hopen, hacc, by simpa using hcnt, hbase, hptr, hlimit⟩, hinv.stack⟩
  exact (eTreeBody_ends hready hcfg (lt_of_rangeTooFar hfar) s.arg1.isLt).bind fun _ _ ht => .of_ok rfl ht

theorem raiseIfInputLength_ends (s : State) (len : Nat) :
    Ends (raiseIfInputLength len) s (fun _ t => s = t) (Refused s) := by
  refine .get_bind ?_
  split_ifs
  · exact .raiseIf ⟨rfl, by decide⟩ fun _ => rfl
  · exact .check ⟨rfl, by decide⟩ fun _ => .raiseIf ⟨rfl, by decide⟩ fun _ => rfl

/-- The element count goes into a ready writer; the stack and the configuration are as before (R165). -/
theorem putHeader_ends {s : State} (h : EncReady s) (len : Nat) :
    Ends (putHeader len) s (fun _ t => EncReady t ∧ EncFrame s t) EncFailed := by
  have field (v : Nat) {n : Nat} (hn : n ≤ 64) : Ends (putField v n) s (fun _ t => EncReady t ∧ EncFrame s t) EncFailed := by
    rcases putField_cases h.ready v hn 0 0 with ⟨t, ht, hem, hst, hhwm, -⟩ | ⟨t, e, ht, hf, hst, hhwm⟩
    · exact .of_ok ht ⟨⟨hem.ready, h.stack.congr hst hhwm⟩, hem.frame⟩
    · exact .of_raised ht (.of_emitFailed hf (h.stack.congr hst hhwm))
  refine .get_bind ?_
  split_ifs
  · exact field _ (by decide)
  · exact field _ (elemWidth_le _)

theorem badConfig_of_encFrame {s t : State} (h : EncFrame s t) : t.badConfig = s.badConfig := by rw [h.same]; rfl

theorem bctEncodeRule_ends {s : State} (hinv : EncInv s) : Ends bctEncodeRule s (fun _ => EncInv) EncFailed := by
  have refused := EncFailed.of_refused hinv
  refine .get_bind <| .check ⟨hinv, by decide⟩ fun hcfg => .check ⟨hinv, by decide⟩ fun hfar => ?_
  refine ((raiseIfInputLength_ends s _).mono (fun _ _ => id) refused).bind ?_
  rintro _ _ rfl
  refine ((writerInit_ends _ _ _).mono (fun _ _ => id) refused).bind ?_
  rintro _ _ ⟨rfl, hready⟩
  refine (putHeader_ends ⟨hready, hinv.stack.congr rfl rfl⟩ _).bind ?_
  rintro _ u ⟨hu, hframe⟩
  have harr : s.arg0.toNat + u.arrayBytes s.arg1.toNat < Config.addressSpace := by
    rw [hframe.arrayBytes]
    exact lt_of_rangeTooFar (Bool.or_eq_false_iff.1 hfar).1
  refine (eTreeBody_ends hu ((badConfig_of_encFrame hframe).trans hcfg) harr s.arg1.isLt).bind fun _ _ hv => ?_
  exact writerClose_ends hv.inv

end Sys2Proof.Proofs

/-! PROOFS. What the reader's commands and the decoder's keep of the invariants (10_state.md R33, R37, R40). -/

namespace Sys2Proof.Proofs
open Sys2Proof Sys2Proof.Machine Sys2Proof.Format Sys2Proof.Laws

/-! ### The reader's commands (42_bitstream_reader.md R131 to R134) -/

section Reader
variable {s : State}

theorem raiseIfReaderClosed_ends (s : State) :
    Ends raiseIfReaderClosed s (fun _ t => s = t ∧ s.rdOpen = true) (Refused s) := by
  cases ho : s.rdOpen with
  | true => exact .of_ok (by rw [raiseIfReaderClosed_run, ho]; rfl) ⟨rfl, rfl⟩
  | false => exact .of_raised (by rw [raiseIfReaderClosed_run, ho]; rfl) ⟨rfl, by decide⟩

theorem readerInit_ends (s : State) (base len : Nat) :
    Ends (readerInit base len) s
      (fun _ t => s.readerInitialised base len = t ∧ ReaderReady (s.readerInitialised base len)) (Refused s) := by
  have hrun := readerInit_run s base len
  split_ifs at hrun with hfar
  · exact .of_raised hrun ⟨rfl, by decide⟩
  · exact .of_ok hrun ⟨rfl, (readerInitialised_ready s (by omega)).1⟩

theorem readerRead_ends (hinv : s.readerInv) (n : Nat) :
    Ends (readerRead n) s (fun _ => State.readerInv) (fun _ => State.readerInv) := by
  cases ho : s.rdOpen with
  | false => exact .of_raised (readerRead_refused.1 ho) hinv
  | true =>
    by_cases hn : n ≤ 57
    · rcases readerRead_ready_cases (.of_inv hinv ho) hn with ⟨v, t, hr, hdone, -⟩ | ⟨t, e, hr, hdone, -⟩
      · exact .of_ok hr hdone.ready.readerInv
      · exact .of_raised hr hdone.ready.readerInv
    · exact .of_raised (readerRead_refused.2 ho (by omega)) hinv

theorem readerLoad_ends (hinv : s.readerInv) :
    Ends readerLoad s (fun _ => State.readerInv) (fun _ => State.readerInv) := by
  refine ((raiseIfReaderClosed_ends s).mono (fun _ _ => id) fun e t ht => ht.1 ▸ hinv).bind ?_
  rintro _ _ ⟨rfl, ho⟩
  rcases loadBody_cases s with ⟨-, hr⟩ | ⟨-, -, hr⟩ | ⟨hlt, -, hr⟩
  · exact .of_raised hr hinv
  · exact .of_raised hr hinv
  · exact .of_ok hr (afterLoad_ready (.of_inv hinv ho) hlt).1.readerInv

end Reader

/-! ### The decoder's commands (45_bct_decoder.md R183 to R188) -/

/-- What the decoder's commands keep: the reader's invariants and the stack's. -/
structure DecInv (s : State) : Prop where
  reader : s.readerInv
  stack : StackKept s

/-- A decoder command between its steps: the reader is open, the stack is within its bounds. -/
structure DecReady (s : State) : Prop where
  ready : ReaderReady s
  stack : StackKept s

theorem DecReady.inv {s : State} (h : DecReady s) : DecInv s := ⟨h.ready.readerInv, h.stack⟩

/-- How a decoder command may fail: its invariants kept, the stack overflown only in a full 64-bit tree (R191). -/
def DecFailed (e : Err) (t : State) : Prop := DecInv t ∧ (e = .stackOverflow → t.ebw = 64)

theorem DecFailed.of_refused {s : State} (h : DecInv s) (e : Err) (t : State) (hr : Refused s e t) : DecFailed e t :=
  ⟨hr.1 ▸ h, fun he => absurd he hr.2⟩

theorem dTreeBody_ends {s : State} {obase len : Nat} (h : DecReady s) (hcfg : s.badConfig = false)
    (harr : obase + s.arrayBytes len < Config.addressSpace) (hlen : len < 2 ^ 64) :
    Ends (dTreeBody obase len) s (fun _ => DecReady) DecFailed := by
  rcases dTreeBody_cases h.ready hcfg h.stack.bounded.hwm_le harr hlen with
    ⟨t, ht, hw, -⟩ | ⟨t, e, i, ht, hk, hready, hframe, hcause⟩
  · exact .of_ok ht ⟨hw.ready, hw.stackKept⟩
  · refine .of_raised ht ⟨⟨hready.readerInv, hk⟩, ?_⟩
    rintro rfl
    have hle : s.ebw ≤ 64 := (ebw_le s hcfg).trans (elemWidth_le s)
    have hge : 64 ≤ s.ebw := by
      simp only [DecCause, reduceCtorEq, false_and, false_or, true_and] at hcause
      exact hcause.2
    rw [hframe.ebw]; omega

/-- The element count is read by a ready reader; the stack and the configuration are as before (R188). -/
theorem getHeader_ends {s : State} (h : DecReady s) :
    Ends getHeader s (fun _ t => DecReady t ∧ ReadFrame s t) DecFailed := by
  have field {n : Nat} (hn : n ≤ 64) : Ends (decodeField n) s (fun _ t => DecReady t ∧ ReadFrame s t) DecFailed := by
    have kept {t : State} {k : Nat} (hd : ReadDone k s t) : DecReady t :=
      ⟨hd.ready, h.stack.congr hd.frame.stack hd.frame.stkHwm⟩
    rcases decodeField_cases h.ready hn with ⟨v, t, ht, hd, -⟩ | ⟨t, e, i, k, -, ht, hd, hcause⟩
    · exact .of_ok ht ⟨kept hd, hd.frame⟩
    · refine .of_raised ht ⟨(kept hd).inv, ?_⟩
      rintro rfl
      simp at hcause
  refine .get_bind ?_
  split_ifs
  · exact field (by decide)
  · exact (field (elemWidth_le s)).bind fun _ _ ht => .of_ok rfl ht

theorem bctDtreeRule_ends {s : State} (hinv : DecInv s) : Ends bctDtreeRule s (fun _ => DecInv) DecFailed := by
  refine .get_bind <| .check ⟨hinv, nofun⟩ fun hcfg => .check ⟨hinv, nofun⟩ fun hfar => ?_
  refine ((raiseIfReaderClosed_ends s).mono (fun _ _ => id) (.of_refused hinv)).bind ?_
  rintro _ _ ⟨rfl, hopen⟩
  have hready : DecReady s := ⟨.of_inv hinv.reader hopen, hinv.stack⟩
  exact (dTreeBody_ends hready hcfg (lt_of_rangeTooFar hfar) s.arg1.isLt).bind fun _ _ ht => .of_ok rfl ht.inv

theorem raiseIfOutputLength_ends (s : State) (len : Nat) :
    Ends (raiseIfOutputLength len) s (fun _ t => s = t) (Refused s) := by
  refine .get_bind ?_
  split_ifs
  · exact .raiseIf ⟨rfl, by decide⟩ fun _ => rfl
  · exact .check ⟨rfl, by decide⟩ fun _ => .raiseIf ⟨rfl, by decide⟩ fun _ => rfl

theorem readerSize_ends {s : State} (hinv : DecInv s) : Ends readerSize s (fun _ => DecInv) DecFailed := by
  have hrun := readerSize_run s
  split_ifs at hrun
  · exact .of_ok hrun hinv
  · exact .of_raised hrun ⟨hinv, nofun⟩

theorem badConfig_of_readFrame {s t : State} (h : ReadFrame s t) : t.badConfig = s.badConfig := by rw [h.same]; rfl

theorem arrayBytes_of_readFrame {s t : State} (h : ReadFrame s t) (n : Nat) : t.arrayBytes n = s.arrayBytes n := by rw [h.same]; rfl

theorem bctDecodeRule_ends {s : State} (hinv : DecInv s) : Ends bctDecodeRule s (fun _ => DecInv) DecFailed := by
  have refused := DecFailed.of_refused hinv
  refine .get_bind <| .check ⟨hinv, nofun⟩ fun hcfg => .check ⟨hinv, nofun⟩ fun hfar => ?_
  refine ((raiseIfOutputLength_ends s _).mono (fun _ _ => id) refused).bind ?_
  rintro _ _ rfl
  refine ((readerInit_ends _ _ _).mono (fun _ _ => id) refused).bind ?_
  rintro _ _ ⟨rfl, hready⟩
  refine (getHeader_ends ⟨hready, hinv.stack.congr rfl rfl⟩).bind ?_
  rintro _ u ⟨hu, hframe⟩
  refine .check ⟨hu.inv, nofun⟩ fun _ => ?_
  have harr : s.arg2.toNat + u.arrayBytes s.arg3.toNat < Config.addressSpace := by
    rw [arrayBytes_of_readFrame hframe]
    exact lt_of_rangeTooFar (Bool.or_eq_false_iff.1 hfar).2
  refine (dTreeBody_ends hu ((badConfig_of_readFrame hframe).trans hcfg) harr s.arg3.isLt).bind fun _ _ hv => ?_
  exact readerSize_ends hv.inv

theorem bctDsizeRule_ends {s : State} (hinv : DecInv s) : Ends bctDsizeRule s (fun _ => DecInv) DecFailed := by
  refine .get_bind ?_
  refine ((readerInit_ends _ _ _).mono (fun _ _ => id) (.of_refused hinv)).bind ?_
  rintro _ _ ⟨rfl, hready⟩
  refine (getHeader_ends ⟨hready, hinv.stack.congr rfl rfl⟩).bind ?_
  rintro _ u ⟨hu, -⟩
  exact .check ⟨hu.inv, nofun⟩ fun _ => .of_ok rfl hu.inv

end Sys2Proof.Proofs

/-! PROOFS. The invariants of the machine: every command and every step keeps them (10_state.md R31, R33, R37, R38, R40, R23). -/

namespace Sys2Proof.Proofs
open Sys2Proof Sys2Proof.Machine Sys2Proof.Format Sys2Proof.Laws

/-! ### Memory and the trace of stores -/

/-- Memory is canonical and every store of the trace was made inside the address space (20_memory.md R60; log 3, log 20). -/
def MemInv (s : State) : Prop := s.mem.wf = true ∧ ∀ c ∈ s.storeTrace, c.1 < Config.addressSpace

theorem MemInv.storeByte {s : State} (h : MemInv s) {a : Nat} (ha : a < Config.addressSpace) (b : Byte) : MemInv (s.storeByte a b) := by
  obtain ⟨hwf, htrace⟩ := h
  exact ⟨wf_write hwf ha b, fun c hc => (List.mem_cons.1 hc).elim (fun he => he ▸ ha) (htrace c)⟩

theorem exec_memInv {i : Instr} {s t : State} (hwf : s.mem.wf = true) (hx : exec i s = .next t) : MemInv t := by
  have allows : Allows (fun u v => MemInv u → MemInv v) fun _ => True :=
    ⟨fun _ => id, fun h k hu => k (h hu), fun _ _ b ha hu => hu.storeByte ha b, fun _ _ => trivial, fun _ => trivial⟩
  have hstart : MemInv s.started := ⟨hwf, by simp⟩
  cases exec_completed allows (fun _ => ⟨fun _ _ _ => id, fun _ _ _ _ => id, fun _ => id⟩)
    (fun _ => ⟨fun _ _ _ => id, fun _ _ _ _ => id, fun _ _ => id, trivial, trivial⟩)
    (fun _ => ⟨fun _ _ => id, fun _ _ => id, trivial⟩)
    (fun _ _ => id) hx with
  | ok r u hu ht => subst ht; exact hu hstart
  | raised e j u hu _ ht => subst ht; exact hu hstart

/-! ### `STATUS` -/

/-- The infos a command may raise an error with: 2 or 3 beside `WrongFormat`, else 0 (45_bct_decoder.md R185). -/
def InfoOk : Abort → Prop
  | .raised e i => i = 0 ∨ e = .wrongFormat ∧ (i = 2 ∨ i = 3)
  | .stopped _ => True

theorem code_toNat_le (e : Err) : e.code.toNat ≤ 14 := by cases e <;> decide

theorem code_ne_zero (e : Err) : e.code ≠ 0 := by cases e <;> decide

theorem code_eq_thirteen {e : Err} : e.code = 13 ↔ e = .stackOverflow := by cases e <;> decide

/-- The completion step leaves a consistent `STATUS` (60_exceptions.md R206). -/
theorem statusInv_completed_ok (u : State) (r : Word) : (u.completed 0 0 r).statusInv := ⟨by simp, .inl rfl, fun h => absurd rfl h⟩

theorem statusInv_completed_raised (u : State) {e : Err} {i : BitVec 8} (h : InfoOk (.raised e i)) :
    (u.completed e.code i 0).statusInv := by
  refine ⟨code_toNat_le e, ?_, fun _ => ?_⟩
  · rcases h with h0 | ⟨rfl, hi⟩
    · exact .inl h0
    · exact .inr ⟨rfl, hi⟩
  · rw [completed_fault, faultAfter, bne_iff_ne.2 (code_ne_zero e), Bool.or_true]

/-- A command completes without an error, or with one for a reason that is allowed to it: `A` holds of the errors of R201, of the infos of
R185 if the command reads the stream, and of `StackOverflow` if it owns the stack. -/
theorem exec_reason {A : Abort → Prop} {i : Instr} {s t : State} (hraised : ∀ e, e ≠ .stackOverflow → A (.raised e 0))
    (hstopped : ∀ f, A (.stopped f)) (hinfo : ∀ j : BitVec 8, j = 2 ∨ j = 3 → A (.raised .wrongFormat j))
    (hoverflow : writesStack i = true → A (.raised .stackOverflow 0)) (hx : exec i s = .next t) :
    (∃ u r, t = State.completed u 0 0 r) ∨ ∃ u e j, A (.raised e j) ∧ t = State.completed u e.code j 0 := by
  have allows : Allows (fun _ _ => True) A := ⟨fun _ => trivial, fun _ _ => trivial, fun _ _ _ _ => trivial, hraised, hstopped⟩
  cases exec_completed allows (fun _ => ⟨fun _ _ _ => trivial, fun _ _ _ _ => trivial, fun _ => trivial⟩)
    (fun _ => ⟨fun _ _ _ => trivial, fun _ _ _ _ => trivial, fun _ _ => trivial, hinfo 2 (.inl rfl), hinfo 3 (.inr rfl)⟩)
    (fun hi => ⟨fun _ _ => trivial, fun _ _ => trivial, hoverflow hi⟩) (fun _ _ => trivial) hx with
  | ok r u _ ht => exact .inl ⟨u, r, ht⟩
  | raised e j u _ ha ht => exact .inr ⟨u, e, j, ha, ht⟩

theorem exec_statusInv {i : Instr} {s t : State} (hx : exec i s = .next t) : t.statusInv := by
  rcases exec_reason (A := InfoOk) (fun _ _ => .inl rfl) (fun _ => trivial) (fun _ hj => .inr ⟨rfl, hj⟩) (fun _ => .inl rfl) hx with
    ⟨u, r, rfl⟩ | ⟨u, e, j, hinfo, rfl⟩
  · exact statusInv_completed_ok u r
  · exact statusInv_completed_raised u hinfo

/-! ### The writer, the reader and the stack -/

section Exec
variable {i : Instr} {s t : State} {r : Rule Word} {Q : Word → State → Prop} {E : Err → State → Prop}

/-- What a rule leaves however it ends holds after its command, if the completion step does not touch it. -/
theorem Ends.keeps {I : State → Prop} (h : Ends r s.started (fun _ => I) fun _ => I)
    (hI : ∀ u e j v, I u → I (u.completed e j v)) (hx : runCommand r s = .next t) : I t := by
  rcases h.command hx with ⟨v, u, hu, rfl⟩ | ⟨e, j, u, hu, rfl⟩
  · exact hI _ _ _ _ hu
  · exact hI _ _ _ _ hu

theorem Ends.ok_of_err (h : Ends r s.started Q E) (hx : runCommand r s = .next t) (ht : t.err = 0) :
    ∃ v u, Q v u ∧ t = u.completed 0 0 v := by
  rcases h.command hx with hok | ⟨e, j, u, -, rfl⟩
  · exact hok
  · exact absurd ht (code_ne_zero e)

theorem Ends.overflow_of_err (h : Ends r s.started Q E) (hx : runCommand r s = .next t) (ht : t.err = 13) :
    ∃ j u, E .stackOverflow u ∧ t = u.completed 13 j 0 := by
  rcases h.command hx with ⟨v, u, -, rfl⟩ | ⟨e, j, u, hu, rfl⟩
  · exact absurd ht (by simp)
  · obtain rfl := code_eq_thirteen.1 ht
    exact ⟨j, u, hu, rfl⟩

theorem writerInv_of_inv (hs : s.Inv) : s.writerInv := by
  obtain ⟨-, hwriter, -⟩ := hs; exact hwriter

theorem readerInv_of_inv (hs : s.Inv) : s.readerInv := by
  obtain ⟨-, -, hreader, -⟩ := hs; exact hreader

theorem stackKept_of_inv (hs : s.Inv) : StackKept s := by
  obtain ⟨-, -, -, hstack, -⟩ := hs; exact stackKept_iff.2 hstack

/-- A command starts in a state with the invariants of the state it is issued in. -/
theorem EncInv.of_inv (hs : s.Inv) : EncInv s.started := ⟨writerInv_of_inv hs, stackKept_of_inv hs⟩

theorem DecInv.of_inv (hs : s.Inv) : DecInv s.started := ⟨readerInv_of_inv hs, stackKept_of_inv hs⟩

theorem EncInv.completed {u : State} (h : EncInv u) (e j : BitVec 8) (v : Word) : EncInv (u.completed e j v) :=
  ⟨h.writer, h.stack.congr rfl rfl⟩

theorem DecInv.completed {u : State} (h : DecInv u) (e j : BitVec 8) (v : Word) : DecInv (u.completed e j v) :=
  ⟨h.reader, h.stack.congr rfl rfl⟩

theorem exec_bctEtree_encInv (hs : s.Inv) (hx : exec .bctEtree s = .next t) : EncInv t :=
  ((bctEtreeRule_ends (.of_inv hs)).mono (fun _ _ => EncReady.inv) fun _ _ h => h.1).keeps (fun _ e j v h => h.completed e j v) hx

theorem exec_bctEncode_encInv (hs : s.Inv) (hx : exec .bctEncode s = .next t) : EncInv t :=
  ((bctEncodeRule_ends (.of_inv hs)).mono (fun _ _ => id) fun _ _ h => h.1).keeps (fun _ e j v h => h.completed e j v) hx

theorem exec_bctDtree_decInv (hs : s.Inv) (hx : exec .bctDtree s = .next t) : DecInv t :=
  ((bctDtreeRule_ends (.of_inv hs)).mono (fun _ _ => id) fun _ _ h => h.1).keeps (fun _ e j v h => h.completed e j v) hx

theorem exec_bctDecode_decInv (hs : s.Inv) (hx : exec .bctDecode s = .next t) : DecInv t :=
  ((bctDecodeRule_ends (.of_inv hs)).mono (fun _ _ => id) fun _ _ h => h.1).keeps (fun _ e j v h => h.completed e j v) hx

theorem exec_bctDsize_decInv (hs : s.Inv) (hx : exec .bctDsize s = .next t) : DecInv t :=
  ((bctDsizeRule_ends (.of_inv hs)).mono (fun _ _ => id) fun _ _ h => h.1).keeps (fun _ e j v h => h.completed e j v) hx

theorem inv_reset : State.reset.Inv := ⟨wf_reset, nofun, nofun, ⟨by simp [State.reset, State.stkSp], by simp [State.reset], nofun⟩,
  ⟨by simp [State.reset], .inl rfl, fun h => absurd rfl h⟩⟩

/-- The state after `SYS.RESET` (40_system_and_tables.md R102). -/
theorem exec_sysReset_eq (s : State) : exec .sysReset s = .next (s.started.registersReset.completed 0 0 0) := rfl

theorem writerInv_congr (h : writerView t = writerView s) (hs : s.writerInv) : t.writerInv := by
  simp only [writerView, Prod.mk.injEq] at h
  obtain ⟨hacc, hcnt, hbase, hptr, hlimit, hopen⟩ := h
  unfold State.writerInv
  rw [hacc, hcnt, hbase, hptr, hlimit, hopen]
  exact hs

theorem readerInv_congr (h : readerView t = readerView s) (hs : s.readerInv) : t.readerInv := by
  simp only [readerView, Prod.mk.injEq] at h
  obtain ⟨hla, hloaded, hcons, hbase, hptr, hend, hopen⟩ := h
  unfold State.readerInv State.readerPos
  rw [hla, hloaded, hcons, hbase, hptr, hend, hopen]
  exact hs

theorem exec_writerInv (hs : s.Inv) (hx : exec i s = .next t) : t.writerInv := by
  have others (hi : writesWriter i = false) : t.writerInv := writerInv_congr (exec_writerView hi hx) (writerInv_of_inv hs)
  have keep {r : Rule Unit} (h : Ends r s.started (fun _ => State.writerInv) fun _ => State.writerInv)
      (hx : runCommand (do r; pure 0) s = .next t) : t.writerInv :=
    (h.bind fun _ _ hu => .of_ok rfl hu).keeps (fun _ _ _ _ => id) hx
  have hinv : s.started.writerInv := writerInv_of_inv hs
  cases i with
  | sysReset => cases (exec_sysReset_eq s).symm.trans hx; nofun
  | bswInit =>
    exact keep ((writerInit_ends _ _ _).mono (fun _ _ h => h.1 ▸ h.2.writerInv) fun _ _ h => h.1 ▸ hinv) hx
  | bswAppend n => exact keep (writerAppend_ends hinv _ n) hx
  | bswWrite n => exact keep ((writerWrite_ends hinv _ n).mono (fun _ _ => WriterReady.writerInv) fun _ _ => id) hx
  | bswFlush => exact keep ((writerFlush_ends hinv).mono (fun _ _ => WriterReady.writerInv) fun _ _ => id) hx
  | bswClose =>
    exact ((writerClose_ends (.of_inv hs)).mono (fun _ _ => EncInv.writer) fun _ _ h => h.1.writer).keeps (fun _ _ _ _ => id) hx
  | bctEtree => exact (exec_bctEtree_encInv hs hx).writer
  | bctEncode => exact (exec_bctEncode_encInv hs hx).writer
  | _ => exact others rfl

theorem exec_readerInv (hs : s.Inv) (hx : exec i s = .next t) : t.readerInv := by
  have others (hi : writesReader i = false) : t.readerInv := readerInv_congr (exec_readerView hi hx) (readerInv_of_inv hs)
  have keep {α : Type} {r : Rule α} {f : α → Word} (h : Ends r s.started (fun _ => State.readerInv) fun _ => State.readerInv)
      (hx : runCommand (do let a ← r; pure (f a)) s = .next t) : t.readerInv :=
    (h.bind fun _ _ hu => .of_ok rfl hu).keeps (fun _ _ _ _ => id) hx
  have hinv : s.started.readerInv := readerInv_of_inv hs
  cases i with
  | sysReset => cases (exec_sysReset_eq s).symm.trans hx; nofun
  | bsrInit =>
    exact keep ((readerInit_ends _ _ _).mono (fun _ _ h => h.1 ▸ h.2.readerInv) fun _ _ h => h.1 ▸ hinv) hx
  | bsrRead n => exact keep (readerRead_ends hinv n) hx
  | bsrLoad => exact keep (readerLoad_ends hinv) hx
  | bctDtree => exact (exec_bctDtree_decInv hs hx).reader
  | bctDecode => exact (exec_bctDecode_decInv hs hx).reader
  | bctDsize => exact (exec_bctDsize_decInv hs hx).reader
  | _ => exact others rfl

theorem exec_stackInv (hs : s.Inv) (hx : exec i s = .next t) : t.stackInv := by
  have others (hi : writesStack i = false) : StackKept t := by
    have hview := exec_stackView hi hx
    simp only [stackView, Prod.mk.injEq] at hview
    obtain ⟨hstack, hhwm⟩ := hview
    exact (stackKept_of_inv hs).congr hstack hhwm
  rw [← stackKept_iff]
  cases i with
  | sysReset => cases (exec_sysReset_eq s).symm.trans hx; exact (stackKept_of_inv inv_reset).congr rfl rfl
  | bctEtree => exact (exec_bctEtree_encInv hs hx).stack
  | bctEncode => exact (exec_bctEncode_encInv hs hx).stack
  | bctDtree => exact (exec_bctDtree_decInv hs hx).stack
  | bctDecode => exact (exec_bctDecode_decInv hs hx).stack
  | _ => exact others rfl

/-- Every command keeps the invariants. -/
theorem exec_inv (hs : s.Inv) (hx : exec i s = .next t) : t.Inv :=
  ⟨(exec_memInv hs.1 hx).1, exec_writerInv hs hx, exec_readerInv hs hx, exec_stackInv hs hx, exec_statusInv hx⟩

end Exec

/-! ### A step -/

section Step
variable {s t : State}

/-- The registers at their reset values, over any canonical memory (70_reset_and_hazards.md R230). -/
theorem inv_registersReset (hwf : s.mem.wf = true) : s.registersReset.Inv := ⟨hwf, inv_reset.2⟩

/-- A value written to `CMD` keeps the invariants when it is issued, whether it is a command or not (30_encoding.md R85, R89). -/
theorem issue_inv (hs : s.Inv) {w : Word} (hx : issue w s = .next t) : t.Inv ∧ MemInv t := by
  unfold issue at hx
  split at hx
  · exact ⟨exec_inv hs hx, exec_memInv hs.1 hx⟩
  · have ht : t = s.started.completed 8 0 0 := by cases hx; rfl
    subst ht
    obtain ⟨hwf, hwriter, hreader, hstack, -⟩ := hs
    exact ⟨⟨hwf, hwriter, hreader, hstack, statusInv_completed_raised (e := .illegalCommand) _ (.inl rfl)⟩, hwf, by simp⟩

/-- A reset while a command runs leaves the first of its stores (70_reset_and_hazards.md R230; log 9). -/
theorem abandon_inv (hs : s.Inv) {w : Word} {k : Nat} (hx : abandon w k s = .next t) : t.Inv := by
  unfold abandon at hx
  split at hx
  · next u hu =>
    obtain ⟨-, -, htrace⟩ := issue_inv hs hu
    cases hx
    refine ⟨wf_applyStores _ (fun c hc => htrace c ?_) hs.1, inv_reset.2⟩
    exact List.mem_reverse.1 (List.mem_of_mem_take hc)
  · cases hx
  · cases hx

theorem writeRegister_inv (hs : s.Inv) (off : Nat) (v : Word) : (s.writeRegister off v).Inv := by
  unfold State.writeRegister
  split <;> exact hs

theorem answered_inv (hs : s.Inv) (v : Word) : (s.answered v).Inv := hs

theorem readWhileBusy_inv (hs : s.Inv) (off : Nat) : (s.readWhileBusy off).Inv := by
  unfold State.readWhileBusy
  split_ifs
  · exact answered_inv hs _
  · exact answered_inv hs _
  · exact hs

theorem atRegister_inv (hs : s.Inv) {addr : Nat} {size : AccessSize} {access : Nat → State} (haccess : ∀ off, (access off).Inv)
    (hx : atRegister addr size s access = .next t) : t.Inv := by
  unfold atRegister at hx
  split at hx
  · cases hx; exact hs
  · next off _ =>
    split_ifs at hx
    cases hx; exact haccess off

theorem atMemory_inv {u : State} {addr : Nat} (hu : addr < Config.addressSpace → u.Inv) (hx : atMemory addr u = .next t) : t.Inv := by
  unfold atMemory at hx
  split_ifs at hx with haddr
  cases hx; exact hu (by omega)

/-- A byte the host writes keeps memory canonical (20_memory.md R72). -/
theorem inv_memWrite (hs : s.Inv) {addr : Nat} (b : Byte) (haddr : addr < Config.addressSpace) :
    ({ s with mem := s.mem.write addr b } : State).Inv := ⟨wf_write hs.1 haddr b, hs.2⟩

theorem actIdle_inv (hs : s.Inv) {a : HostAction} (hx : actIdle a s = .next t) : t.Inv := by
  cases a with
  | regWrite addr size v => exact atRegister_inv hs (fun off => writeRegister_inv hs off v) hx
  | regRead addr size => exact atRegister_inv hs (fun off => answered_inv hs _) hx
  | memWrite addr b => exact atMemory_inv (inv_memWrite hs b) hx
  | memRead addr => exact atMemory_inv (fun _ => answered_inv hs _) hx
  | hwReset k => cases hx; exact inv_registersReset hs.1
  | elapse => cases hx; exact hs

theorem actBusy_inv (hs : s.Inv) {w : Word} {a : HostAction} (hx : actBusy w a s = .next t) : t.Inv := by
  cases a with
  | regWrite addr size v => exact atRegister_inv hs (fun _ => hs) hx
  | regRead addr size => exact atRegister_inv hs (fun off => readWhileBusy_inv hs off) hx
  | memWrite addr b =>
    simp only [actBusy] at hx
    split_ifs at hx
    exact atMemory_inv (inv_memWrite hs b) hx
  | memRead addr =>
    simp only [actBusy] at hx
    split_ifs at hx
    exact atMemory_inv (fun _ => answered_inv hs _) hx
  | hwReset k => exact abandon_inv hs hx
  | elapse => exact (issue_inv hs hx).1

end Step

/-- Settles O43: at reset no unit is open, the stack is empty and `STATUS` is 0. -/
theorem resetMeetsInvariants : Obligations.ResetMeetsInvariants := inv_reset

/-- Settles O44: a step is an action of the host or the run of a command, and each of them keeps the invariants. -/
theorem everyStepKeepsInvariants : Obligations.EveryStepKeepsInvariants := by
  intro s t hs hx
  have hrest (rest : List HostAction) : (s.withInbox rest).Inv := hs
  unfold step stepOnce at hx
  split at hx
  · cases hx; exact hs
  · exact actIdle_inv (hrest _) hx
  · exact (issue_inv hs hx).1
  · exact actBusy_inv (hrest _) hx

/-! ### The stack's overflow and the pending bits -/

/-- A command that does not own the stack cannot overflow it (10_state.md R41). -/
theorem exec_err_ne_overflow {i : Instr} {s t : State} (hi : writesStack i = false) (hx : exec i s = .next t) : t.err ≠ 13 := by
  rcases exec_reason (A := fun a => ∀ j, a ≠ .raised .stackOverflow j) (fun e he j h => he (by cases h; rfl)) nofun nofun
    (fun h => absurd hi (by simp [h])) hx with ⟨u, r, rfl⟩ | ⟨u, e, j, hne, rfl⟩
  · simp
  · exact fun h => hne j (by rw [code_eq_thirteen.1 h])

/-- `EBW` is a matter of `CFG` (10_state.md R29), which a decode does not change. -/
theorem ebw_congr {s t : State} (h : t.cfg = s.cfg) : t.ebw = s.ebw := by
  unfold State.ebw State.bw State.elemWidth State.wsel
  rw [h]

theorem exec_ebw {i : Instr} {s t : State} (hi : i ≠ .sysReset) (hx : exec i s = .next t) : t.ebw = s.ebw := by
  have h := exec_argumentView hi hx
  simp only [argumentView, Prod.mk.injEq] at h
  obtain ⟨-, -, -, -, hcfg, -⟩ := h
  exact ebw_congr hcfg

/-- Settles O42: of the commands that own the stack, the encoder's keep it within a ladder of at most 64 entries, and the decoder's leave
that ladder only in a tree of 64 levels. -/
theorem overflowOnlyInFullWidthDecode : Obligations.OverflowOnlyInFullWidthDecode := by
  intro i s t hs hx
  obtain ⟨hsp, hhwm, -⟩ := exec_stackInv hs hx
  refine ⟨hsp.trans hhwm, fun herr => ?_⟩
  cases i with
  | bctEtree =>
    obtain ⟨_, _, hfailed, -⟩ := (bctEtreeRule_ends (.of_inv hs)).overflow_of_err hx herr
    exact absurd rfl hfailed.2
  | bctEncode =>
    obtain ⟨_, _, hfailed, -⟩ := (bctEncodeRule_ends (.of_inv hs)).overflow_of_err hx herr
    exact absurd rfl hfailed.2
  | bctDtree =>
    obtain ⟨_, u, hfailed, rfl⟩ := (bctDtreeRule_ends (.of_inv hs)).overflow_of_err hx herr
    exact ⟨.inl rfl, (exec_ebw (by decide) hx).symm.trans (hfailed.2 rfl)⟩
  | bctDecode =>
    obtain ⟨_, u, hfailed, rfl⟩ := (bctDecodeRule_ends (.of_inv hs)).overflow_of_err hx herr
    exact ⟨.inr rfl, (exec_ebw (by decide) hx).symm.trans (hfailed.2 rfl)⟩
  | sysReset => cases (exec_sysReset_eq s).symm.trans hx; cases herr
  | _ => exact absurd herr (exec_err_ne_overflow rfl hx)

/-- Settles O45: `BSW.WRITE` and `BSW.FLUSH` end in a flush, which leaves less than a byte pending; `BCT.ETREE` starts from such a
writer and appends with `BSW.WRITE` only. -/
theorem fewBitsPending : Obligations.FewBitsPending := by
  intro i s t hs hx herr hi
  have ready {r : Rule Word} {E : Err → State → Prop} (h : Ends r s.started (fun _ => WriterReady) E)
      (hx : runCommand r s = .next t) : t.wrOpen = true ∧ t.wrCnt.toNat ≤ 7 := by
    obtain ⟨v, u, hu, rfl⟩ := h.ok_of_err hx herr
    exact ⟨hu.isOpen, hu.cnt_le⟩
  have hinv : s.started.writerInv := writerInv_of_inv hs
  rcases hi with ⟨n, rfl⟩ | rfl | rfl
  · exact ready ((writerWrite_ends hinv _ n).bind fun _ _ hu => .of_ok rfl hu) hx
  · exact ready ((writerFlush_ends hinv).bind fun _ _ hu => .of_ok rfl hu) hx
  · exact ready ((bctEtreeRule_ends (.of_inv hs)).mono (fun _ _ => EncReady.ready) fun _ _ => id) hx

end Sys2Proof.Proofs

/-! PROOFS. The host port: what an access of the register space does while the block is idle and while a command runs (10_state.md R24 to
R28, R34). -/

namespace Sys2Proof.Proofs
open Sys2Proof Sys2Proof.Machine Sys2Proof.Format Sys2Proof.Laws

/-! ### Accesses at an offset of the register space -/

section Access
variable {s : State} {off : Nat} {size : AccessSize} {access : Nat → State}

theorem regOffset_add (p : Config.Platform) (h : off < 256) : regOffset p (p.regBase + off) = some off := by
  simp [regOffset, Config.regSpaceBytes, h]

theorem accessDefined_iff : accessDefined off size = true ↔ off % 8 = 0 ∧ size = .b8 := by simp [accessDefined]

theorem atRegister_defined (h : off < 256) (ha : off % 8 = 0) :
    atRegister (s.platform.regBase + off) .b8 s access = .next (access off) := by
  simp only [atRegister, regOffset_add _ h, accessDefined_iff.2 ⟨ha, rfl⟩, if_true]

theorem atRegister_undefined (h : off < 256) (ha : off % 8 ≠ 0 ∨ size ≠ .b8) :
    atRegister (s.platform.regBase + off) size s access = .refused .undefinedRegisterAccess := by
  have hd : ¬ accessDefined off size = true := fun hd => ha.elim (· (accessDefined_iff.1 hd).1) (· (accessDefined_iff.1 hd).2)
  simp only [atRegister, regOffset_add _ h, if_neg hd]

end Access

section Step
variable {s : State} {a : HostAction} {rest : List HostAction}

theorem step_idle (hr : s.running = none) (hi : s.inbox = a :: rest) : step s = actIdle a (s.withInbox rest) := by
  rw [step, stepOnce, hr, hi]

theorem step_busy {w : Word} (hr : s.running = some w) (hi : s.inbox = a :: rest) : step s = actBusy w a (s.withInbox rest) := by
  rw [step, stepOnce, hr, hi]

end Step

/-! ### The register map (10_state.md R25) -/

theorem setWidth_eq_extractLsb' (v : Word) : v.setWidth 11 = v.extractLsb' 0 11 := by
  apply BitVec.eq_of_toNat_eq
  simp

/-- The map of a host write as a chain of offsets (10_state.md R21, R24 to R28). -/
theorem writeRegister_eq (s : State) (off : Nat) (v : Word) :
    s.writeRegister off v =
      if off = 0x00 then { s with running := some v }
      else if off = 0x08 then { s with arg0 := v }
      else if off = 0x10 then { s with arg1 := v }
      else if off = 0x18 then { s with arg2 := v }
      else if off = 0x20 then { s with arg3 := v }
      else if off = 0x38 then { s with cfg := v.extractLsb' 0 11 }
      else if off = 0x40 then { s with mcl := v }
      else s := by
  unfold State.writeRegister
  split
  case h_6 => simp [setWidth_eq_extractLsb']
  case h_8 => iterate 7 rw [if_neg (by assumption)]
  all_goals rfl

/-- The map of a host read as a chain of offsets (10_state.md R21, R24 to R28, R30, R32, R34). -/
theorem readRegister_eq (s : State) (off : Nat) :
    s.readRegister off =
      if off = 0x08 then s.arg0 else if off = 0x10 then s.arg1 else if off = 0x18 then s.arg2 else if off = 0x20 then s.arg3
      else if off = 0x28 then s.res0 else if off = 0x30 then s.statusWord else if off = 0x38 then s.cfg.setWidth 64
      else if off = 0x40 then s.mcl else if off = 0x48 then s.wrAcc else if off = 0x50 then s.wrCnt.setWidth 64
      else if off = 0x58 then s.wrBase else if off = 0x60 then s.wrPtr else if off = 0x68 then s.wrLimit
      else if off = 0x70 then s.rdLa else if off = 0x78 then s.rdBitsWord else if off = 0x80 then s.rdBase
      else if off = 0x88 then s.rdPtr else if off = 0x90 then s.rdEnd else if off = 0x98 then s.stkInfoWord else 0 := by
  unfold State.readRegister
  split
  case h_21 => iterate 19 rw [if_neg (by assumption)]
  all_goals rfl

/-- Settles O47: the step takes the write, whose effect is the write map. -/
theorem hostWritesRegister : Obligations.HostWritesRegister := by
  intro s off v rest hr hlt ha hi
  rw [step_idle hr hi]
  exact (atRegister_defined (s := s.withInbox rest) hlt ha).trans (congrArg _ (writeRegister_eq _ _ _))

/-- Settles O48: the step takes the read, whose answer is the read map. -/
theorem hostReadsRegister : Obligations.HostReadsRegister := by
  intro s off rest hr hlt ha hi
  rw [step_idle hr hi]
  refine (atRegister_defined (s := s.withInbox rest) hlt ha).trans ?_
  rw [readRegister_eq]
  rfl

/-- Settles O50: a write has no effect while a command runs; a read answers `STATUS`, 0 or an unspecified value. -/
theorem busyAccesses : Obligations.BusyAccesses := by
  intro s w off rest hr hlt ha
  refine ⟨fun v hi => ?_, fun hi => ?_⟩
  · rw [step_busy hr hi]
    exact atRegister_defined (s := s.withInbox rest) hlt ha
  · rw [step_busy hr hi]
    refine ⟨_, atRegister_defined (s := s.withInbox rest) hlt ha, ?_⟩
    unfold State.readWhileBusy isReserved
    split_ifs with hstatus hreserved
    · exact ⟨rfl, fun _ => rfl, by omega⟩
    · exact ⟨rfl, fun h => absurd h hstatus, fun _ => rfl⟩
    · exact ⟨rfl, fun h => absurd h hstatus, fun h => absurd (decide_eq_true h) hreserved⟩

/-- Settles O53: a misaligned or narrow access is refused at every offset, in both states of the block. -/
theorem undefinedAccessRefused : Obligations.UndefinedAccessRefused := by
  intro s off size v rest hlt ha hi
  cases hr : s.running with
  | none =>
    rcases hi with hi | hi
    · rw [step_idle hr hi]; exact atRegister_undefined (s := s.withInbox rest) hlt ha
    · rw [step_idle hr hi]; exact atRegister_undefined (s := s.withInbox rest) hlt ha
  | some w =>
    rcases hi with hi | hi
    · rw [step_busy hr hi]; exact atRegister_undefined (s := s.withInbox rest) hlt ha
    · rw [step_busy hr hi]; exact atRegister_undefined (s := s.withInbox rest) hlt ha

/-! ### The packed views (10_state.md R23, R34) -/

theorem flagAt_eq (b : Bool) (k : Nat) : flagAt b k = b.toNat * 2 ^ k := by cases b <;> simp [flagAt, bitMask]

theorem extractLsb'_toWord_toNat {n : Nat} (h : n < 2 ^ 64) (i k : Nat) : ((toWord n).extractLsb' i k).toNat = n / 2 ^ i % 2 ^ k := by
  rw [BitVec.extractLsb'_toNat, toWord_toNat h, Nat.shiftRight_eq_div_pow]

theorem getLsbD_toWord {n : Nat} (h : n < 2 ^ 64) (i : Nat) : (toWord n).getLsbD i = decide (n / 2 ^ i % 2 = 1) := by
  rw [BitVec.getLsbD, toWord_toNat h, Nat.testBit_eq_decide_div_mod_eq]

/-- `STATUS` as a natural: its fields at their weights. -/
theorem statusWord_eq (s : State) :
    s.statusWord = toWord (s.err.toNat + s.busy.toNat * 2 ^ 8 + s.fault.toNat * 2 ^ 9 + s.wrOpen.toNat * 2 ^ 10 +
      s.rdOpen.toNat * 2 ^ 11 + s.suberr.toNat * 2 ^ 16) := by
  simp only [State.statusWord, flagAt_eq, Nat.shiftLeft_eq]

theorem statusWord_fields (s : State) :
    s.statusWord.extractLsb' 0 8 = s.err ∧ s.statusWord.getLsbD 8 = s.busy ∧ s.statusWord.getLsbD 9 = s.fault ∧
      s.statusWord.getLsbD 10 = s.wrOpen ∧ s.statusWord.getLsbD 11 = s.rdOpen ∧ s.statusWord.extractLsb' 12 4 = 0 ∧
      s.statusWord.extractLsb' 16 8 = s.suberr ∧ s.statusWord.extractLsb' 24 40 = 0 := by
  have he := s.err.isLt
  have hu := s.suberr.isLt
  have hb := s.busy.toNat_le
  have hf := s.fault.toNat_le
  have hw := s.wrOpen.toNat_le
  have hr := s.rdOpen.toNat_le
  have bit (b : Bool) {k : Nat} (h : k = b.toNat) : decide (k = 1) = b := by subst h; cases b <;> rfl
  rw [statusWord_eq]
  refine ⟨?_, ?_, ?_, ?_, ?_, ?_, ?_, ?_⟩
  · apply BitVec.eq_of_toNat_eq; rw [extractLsb'_toWord_toNat (by omega)]; omega
  · rw [getLsbD_toWord (by omega)]; exact bit _ (by omega)
  · rw [getLsbD_toWord (by omega)]; exact bit _ (by omega)
  · rw [getLsbD_toWord (by omega)]; exact bit _ (by omega)
  · rw [getLsbD_toWord (by omega)]; exact bit _ (by omega)
  · apply BitVec.eq_of_toNat_eq; rw [extractLsb'_toWord_toNat (by omega)]; simp; omega
  · apply BitVec.eq_of_toNat_eq; rw [extractLsb'_toWord_toNat (by omega)]; omega
  · apply BitVec.eq_of_toNat_eq; rw [extractLsb'_toWord_toNat (by omega)]; simp; omega

/-- Two 7-bit fields packed at bits 6:0 and 14:8, as in `RD_BITS` and `STK_INFO` (R34). -/
theorem packed_fields (a b : Count7) :
    let w := toWord (a.toNat + b.toNat <<< 8)
    w.extractLsb' 0 7 = a ∧ w.getLsbD 7 = false ∧ w.extractLsb' 8 7 = b ∧ w.extractLsb' 15 49 = 0 := by
  have ha := a.isLt
  have hb := b.isLt
  simp only [Nat.shiftLeft_eq]
  refine ⟨?_, ?_, ?_, ?_⟩
  · apply BitVec.eq_of_toNat_eq; rw [extractLsb'_toWord_toNat (by omega)]; omega
  · rw [getLsbD_toWord (by omega)]; simp; omega
  · apply BitVec.eq_of_toNat_eq; rw [extractLsb'_toWord_toNat (by omega)]; omega
  · apply BitVec.eq_of_toNat_eq; rw [extractLsb'_toWord_toNat (by omega)]; simp; omega

/-- Settles O49: the three words are sums of fields at distinct weights, and the two views have no place in the write map. -/
theorem packedViews : Obligations.PackedViews := by
  intro s
  refine ⟨rfl, rfl, fun v => ⟨rfl, rfl⟩, statusWord_fields s, packed_fields s.rdLoaded s.rdCons, ?_⟩
  rintro ⟨hsp, hhwm, -⟩
  obtain ⟨hlow, h7, hhigh, hrest⟩ := packed_fields (toCount s.stkSp) s.stkHwm
  have hsp128 : s.stkSp < 128 := by simp only [Config.stackCap] at hhwm; omega
  exact ⟨(congrArg BitVec.toNat hlow).trans (toCount_toNat hsp128), h7, hhigh, hrest⟩

end Sys2Proof.Proofs

/-! PROOFS. Memory after a command is memory before it with the stores of its trace (20_memory.md R62, R72; log 20), and what the host's
own accesses to memory do (70_reset_and_hazards.md R238). -/

namespace Sys2Proof.Proofs
open Sys2Proof Sys2Proof.Machine Sys2Proof.Format Sys2Proof.Laws

/-! ### Memory follows the trace -/

/-- From `s` to `t` memory has changed by exactly the stores that the trace has gained. -/
def Stored (s t : State) : Prop := ∃ l : List Host.Cell, t.mem = applyStores s.mem l ∧ t.storeTrace = l.reverse ++ s.storeTrace

theorem Stored.of_same {s t : State} (hmem : t.mem = s.mem) (htrace : t.storeTrace = s.storeTrace) : Stored s t := ⟨[], hmem, htrace⟩

theorem Stored.trans {s t u : State} (h : Stored s t) (k : Stored t u) : Stored s u := by
  obtain ⟨l, hmem, htrace⟩ := h
  obtain ⟨l', kmem, ktrace⟩ := k
  exact ⟨l ++ l', by rw [kmem, hmem, applyStores_append], by rw [ktrace, htrace, List.reverse_append, List.append_assoc]⟩

theorem Stored.storeByte (s : State) (a : Nat) (b : Byte) : Stored s (s.storeByte a b) := ⟨[(a, b)], rfl, rfl⟩

/-- A command starts with an empty trace, so what it leaves there is all that it has stored. -/
theorem exec_stored {i : Instr} {s t : State} (hx : exec i s = .next t) : t.mem = applyStores s.mem t.storeTrace.reverse := by
  have allows : Allows Stored fun _ => True :=
    ⟨fun _ => .of_same rfl rfl, .trans, fun s a b _ => .storeByte s a b, fun _ _ => trivial, fun _ => trivial⟩
  have reverse {u : State} (hu : Stored s.started u) : u.mem = applyStores s.mem u.storeTrace.reverse := by
    obtain ⟨l, hmem, htrace⟩ := hu
    rw [hmem, htrace, started_storeTrace, List.append_nil, List.reverse_reverse]
    rfl
  cases exec_completed allows (fun _ => ⟨fun _ _ _ => .of_same rfl rfl, fun _ _ _ _ => .of_same rfl rfl, fun _ => .of_same rfl rfl⟩)
    (fun _ => ⟨fun _ _ _ => .of_same rfl rfl, fun _ _ _ _ => .of_same rfl rfl, fun _ _ => .of_same rfl rfl, trivial, trivial⟩)
    (fun _ => ⟨fun _ _ => .of_same rfl rfl, fun _ _ => .of_same rfl rfl, trivial⟩) (fun _ _ => .of_same rfl rfl) hx with
  | ok r u hu ht => subst ht; exact reverse hu
  | raised e j u hu _ ht => subst ht; exact reverse hu

/-- Settles O12: the trace of a completed command holds its stores, newest first. -/
theorem memoryFollowsTrace : Obligations.MemoryFollowsTrace := fun _ _ _ => exec_stored

/-! ### The host's accesses to memory -/

section HostMemory
variable {s : State} {a : Nat}

theorem atMemory_inside (ha : a < 2 ^ 64) (t : State) : atMemory a t = .next t := if_neg (Nat.not_le.2 ha)

/-- What the running command may read or write does not hang on the actions still to come. -/
theorem runningReads_withInbox (w : Word) (s : State) (rest : List HostAction) :
    runningReads w (s.withInbox rest) = runningReads w s := rfl

theorem runningWrites_withInbox (w : Word) (s : State) (rest : List HostAction) :
    runningWrites w (s.withInbox rest) = runningWrites w s := rfl

/-- A host write goes to memory unless the byte lies in a region of the running command (R238; log 7). -/
theorem step_memWrite {b : Byte} {rest : List HostAction} (ha : a < 2 ^ 64) (hi : s.inbox = .memWrite a b :: rest) :
    step s = if ∃ w, s.running = some w ∧ ((runningReads w s).holds a = true ∨ (runningWrites w s).holds a = true)
      then .refused .bufferTouchedWhileBusy else .next { s.withInbox rest with mem := s.mem.write a b } := by
  cases hr : s.running with
  | none =>
    rw [step_idle hr hi, if_neg (by simp)]
    exact atMemory_inside ha _
  | some w =>
    simp only [step_busy hr hi, actBusy, runningReads_withInbox, runningWrites_withInbox, Bool.or_eq_true, Option.some.injEq,
      exists_eq_left', atMemory_inside ha]
    rfl

/-- A host read answers the byte unless it lies in the write region of the running command (R238; log 7, log 19). -/
theorem step_memRead {rest : List HostAction} (ha : a < 2 ^ 64) (hi : s.inbox = .memRead a :: rest) :
    step s = if ∃ w, s.running = some w ∧ (runningWrites w s).holds a = true
      then .refused .bufferTouchedWhileBusy else .next ((s.withInbox rest).answered ((s.mem.read a).setWidth 64)) := by
  cases hr : s.running with
  | none =>
    rw [step_idle hr hi, if_neg (by simp)]
    exact atMemory_inside ha _
  | some w =>
    simp only [step_busy hr hi, actBusy, runningWrites_withInbox, Option.some.injEq, exists_eq_left', atMemory_inside ha]
    rfl

end HostMemory

/-- Settles O52: the step of a host access is a test of the running command's regions and then the access to the one byte. -/
theorem hostMemoryAccess : Obligations.HostMemoryAccess := by
  intro s a rest ha
  refine ⟨fun b hi => ?_, fun hi => ?_⟩
  · rw [step_memWrite ha hi]
    simp only [and_or_left, exists_or]
    refine ⟨fun h => if_pos h, fun h => ⟨_, if_neg h, rfl, fun x => ?_⟩⟩
    exact read_write _ _ _ _
  · rw [step_memRead ha hi]
    exact ⟨fun h => if_pos h, fun h => if_neg h⟩

end Sys2Proof.Proofs

/-! PROOFS. A rule confined to two regions: it reads bytes of the one only, it stores bytes of the other only (20_memory.md R77). One walk
through the rules shows what each of them is confined to. -/

namespace Sys2Proof.Proofs
open Sys2Proof Sys2Proof.Machine Sys2Proof.Format Sys2Proof.Laws

/-! ### A rule run over other bytes -/

/-- `s` with another memory. -/
def withMemory (s : State) (m : Memory) : State := { s with mem := m }

/-- A result whose state has another memory. -/
def withEndMemory {α : Type} (m : Memory) : EStateM.Result Abort State α → EStateM.Result Abort State α
  | .ok a t => .ok a (withMemory t m)
  | .error e t => .error e (withMemory t m)

/-- Two memories hold the same bytes in a region. -/
def AgreeOn (g : Region) (m n : Memory) : Prop := ∀ a, g.holds a = true → m.read a = n.read a

/-- From `s` the rule reads only in `rd`: over any memory with the same bytes there it ends in the same way, in the same state but for
memory, which still has the same bytes there. And it stores only in `wr`. -/
structure Confined {α : Type} (rd wr : Region) (r : Rule α) (s : State) : Prop where
  reads : ∀ m, AgreeOn rd m s.mem → ∃ n, r (withMemory s m) = withEndMemory n (r s) ∧ AgreeOn rd n (endState (r s)).mem
  stores : (∀ c ∈ s.storeTrace, wr.holds c.1 = true) → ∀ c ∈ (endState (r s)).storeTrace, wr.holds c.1 = true

section Confined
variable {α β : Type} {rd wr : Region} {s : State}

/-- A rule that has nothing to do with memory is confined to any regions. -/
theorem Confined.of_silent {r : Rule α} (hrun : ∀ m, r (withMemory s m) = withEndMemory m (r s))
    (hmem : (endState (r s)).mem = s.mem) (htrace : (endState (r s)).storeTrace = s.storeTrace) : Confined rd wr r s :=
  ⟨fun m hm => ⟨m, hrun m, hmem ▸ hm⟩, fun h => htrace ▸ h⟩

/-- So is one that aborts in the state it starts in, whatever memory holds. -/
theorem Confined.of_abort {r : Rule α} {a : Abort} (h : ∀ m, r (withMemory s m) = .error a (withMemory s m)) :
    Confined rd wr r s := by
  have hrun : r s = .error a s := h s.mem
  exact .of_silent (fun m => by rw [h m, hrun]; rfl) (by rw [hrun]; rfl) (by rw [hrun]; rfl)

/-- And one that ends in a state with the same memory and the same trace. -/
theorem Confined.of_ok {r : Rule α} {a : α} {t : State} (h : ∀ m, r (withMemory s m) = .ok a (withMemory t m))
    (hmem : t.mem = s.mem) (htrace : t.storeTrace = s.storeTrace) : Confined rd wr r s := by
  have hrun : r s = .ok a t := (h s.mem).trans (by rw [← hmem]; rfl)
  exact .of_silent (fun m => by rw [h m, hrun]; rfl) (by rw [hrun]; exact hmem) (by rw [hrun]; exact htrace)

theorem Confined.pure (a : α) : Confined rd wr (pure a : Rule α) s := .of_silent (fun _ => rfl) rfl rfl

theorem Confined.throw (a : Abort) : Confined rd wr (throw a : Rule α) s := .of_silent (fun _ => rfl) rfl rfl

theorem Confined.raiseIf (c : Bool) (e : Err) : Confined rd wr (raiseIf c e) s := by
  cases c with
  | true => exact .throw _
  | false => exact .pure _

theorem Confined.bind {r : Rule α} {f : α → Rule β} (hr : Confined rd wr r s)
    (hf : ∀ a t, r s = .ok a t → Confined rd wr (f a) t) : Confined rd wr (r >>= f) s := by
  obtain ⟨reads, stores⟩ := hr
  cases h : r s with
  | ok a t =>
    have hft := hf a t h
    rw [h] at reads stores
    refine ⟨fun m hm => ?_, fun hs => ?_⟩
    · obtain ⟨n, hrun, hn⟩ := reads m hm
      rw [bind_run_ok hrun, bind_run_ok h]
      exact hft.reads n hn
    · rw [bind_run_ok h]
      exact hft.stores (stores hs)
  | error e t =>
    rw [h] at reads stores
    refine ⟨fun m hm => ?_, fun hs => ?_⟩
    · obtain ⟨n, hrun, hn⟩ := reads m hm
      rw [bind_run_error hrun, bind_run_error h]
      exact ⟨n, rfl, hn⟩
    · rw [bind_run_error h]
      exact stores hs

/-- A sequence, with what is known of the state between its parts. -/
theorem Confined.bind_ends {r : Rule α} {f : α → Rule β} {M : α → State → Prop} {E : Err → State → Prop}
    (hr : Confined rd wr r s) (hM : Ends r s M E) (hf : ∀ a t, M a t → Confined rd wr (f a) t) : Confined rd wr (r >>= f) s :=
  hr.bind fun a t h => hf a t (by have hrun := hM s rfl; rw [h] at hrun; exact hrun)

/-- Reading the state and going on with all of it but memory. -/
theorem Confined.get_bind {f : State → Rule β} (hf : ∀ m, f (withMemory s m) = f s) (h : Confined rd wr (f s) s) :
    Confined rd wr ((get : Rule State) >>= f) s := by
  refine ⟨fun m hm => ?_, h.stores⟩
  rw [bind_run_ok (get_run _), bind_run_ok (get_run s), hf]
  exact h.reads m hm

/-- A numbered check and what follows it when it passes. -/
theorem Confined.check {c : Bool} {e : Err} {f : Unit → Rule β} (h : c = false → Confined rd wr (f ()) s) :
    Confined rd wr (Machine.raiseIf c e >>= f) s := by
  refine (Confined.raiseIf c e).bind fun _ t ht => ?_
  cases c with
  | true => cases ht
  | false => cases ht; exact h rfl

/-! ### Memory (20_memory.md R61, R62, R64) -/

/-- A region holds every byte of `[a, a + n)`. -/
structure Covers (g : Region) (a n : Nat) : Prop where
  first_le : g.first ≤ a
  le_past : a + n ≤ g.past

theorem Covers.mono {g : Region} {a n b k : Nat} (h : Covers g a n) (hb : a ≤ b) (hk : b + k ≤ a + n) : Covers g b k :=
  ⟨h.first_le.trans hb, hk.trans h.le_past⟩

theorem Covers.holds {g : Region} {a n : Nat} (h : Covers g a (n + 1)) : g.holds a = true :=
  holds_iff.2 ⟨h.first_le, by have := h.le_past; omega⟩

theorem Covers.succ {g : Region} {a n : Nat} (h : Covers g a (n + 1)) : Covers g (a + 1) n := h.mono (by omega) (by omega)

theorem readByte_confined {a : Nat} (h : rd.holds a = true) : Confined rd wr (readByte a) s := by
  by_cases hspace : Config.addressSpace ≤ a
  · exact .of_abort (a := .stopped .outsideAddressSpace) fun m => if_pos hspace
  · by_cases hp : admitted s.platform a = true
    · have hrun := readByte_run (s := s) (by omega) hp
      refine ⟨fun m hm => ⟨m, ?_, by rw [hrun]; exact hm⟩, fun hs => by rw [hrun]; exact hs⟩
      rw [hrun, readByte_run (s := withMemory s m) (by omega) hp, ← hm a h]
      rfl
    · have hrefused : (!admitted s.platform a) = true := by simpa using hp
      exact .of_abort (a := .raised .busError 0) fun m => (if_neg hspace).trans (if_pos hrefused)

theorem AgreeOn.write {g : Region} {m n : Memory} (h : AgreeOn g m n) (a : Nat) (b : Byte) : AgreeOn g (m.write a b) (n.write a b) := by
  intro x hx
  rw [read_write, read_write, h x hx]

theorem writeByte_confined {a : Nat} (h : wr.holds a = true) (b : Byte) : Confined rd wr (writeByte a b) s := by
  by_cases hspace : Config.addressSpace ≤ a
  · exact .of_abort (a := .stopped .outsideAddressSpace) fun m => if_pos hspace
  · by_cases hp : admitted s.platform a = true
    · have hrun := writeByte_run (s := s) b (by omega) hp
      refine ⟨fun m hm => ⟨m.write a b, ?_, by rw [hrun]; exact hm.write a b⟩, fun hs => ?_⟩
      · rw [hrun, writeByte_run (s := withMemory s m) b (by omega) hp]
        rfl
      · rw [hrun]
        exact List.forall_mem_cons.2 ⟨h, hs⟩
    · have hrefused : (!admitted s.platform a) = true := by simpa using hp
      exact .of_abort (a := .raised .busError 0) fun m => (if_neg hspace).trans (if_pos hrefused)

theorem memRead_confined : ∀ {a n : Nat} {s : State}, Covers rd a n → Confined rd wr (memRead a n) s
  | _, 0, _, _ => .pure 0
  | _, _ + 1, _, h => (readByte_confined h.holds).bind fun _ _ _ => (memRead_confined h.succ).bind fun _ _ _ => .pure _

theorem memWrite_confined : ∀ {a n v : Nat} {s : State}, Covers wr a n → Confined rd wr (memWrite a n v) s
  | _, 0, _, _, _ => .pure ()
  | _, _ + 1, _, _, h => (writeByte_confined h.holds _).bind fun _ _ _ => memWrite_confined h.succ

/-- An element of an array lies where the array lies (20_memory.md R64, R65). -/
theorem Covers.element {g : Region} {vbase len i : Nat} (h : Covers g vbase (s.arrayBytes len)) (hi : i < len) :
    Covers g (s.elemAddr vbase i) s.elemBytes := h.mono (le_elemAddr _ _ _) (elemAddr_add_le s hi)

/-- So does a slice of its elements. -/
theorem Covers.slice {g : Region} {vbase len i n : Nat} (h : Covers g vbase (s.arrayBytes len)) (hi : i + n ≤ len) :
    Covers g (s.elemAddr vbase i) (s.arrayBytes n) := by
  refine h.mono (le_elemAddr _ _ _) ?_
  have := Nat.mul_le_mul_right s.elemBytes hi
  rw [Nat.add_mul] at this
  unfold State.elemAddr State.arrayBytes
  omega

theorem elem_confined {vbase len i : Nat} (h : Covers rd vbase (s.arrayBytes len)) (hi : i < len) :
    Confined rd wr (elem vbase i) s := .get_bind (fun _ => rfl) (memRead_confined (h.element hi))

theorem elem_ends (s : State) (vbase i : Nat) : Ends (elem vbase i) s (fun _ t => s = t) fun _ _ => True := by
  rcases elem_cases s vbase i with ⟨h, -⟩ | ⟨h, -⟩ | ⟨h, -⟩
  · exact .of_ok h rfl
  · exact .of_raised h trivial
  · exact .of_stopped h

theorem storeElem_confined {vbase len i : Nat} (h : Covers wr vbase (s.arrayBytes len)) (hi : i < len) (v : Nat) :
    Confined rd wr (storeElem vbase i v) s := .get_bind (fun _ => rfl) (memWrite_confined (h.element hi))

theorem storeElem_ends (s : State) (vbase i v : Nat) :
    Ends (storeElem vbase i v) s (fun _ t => withStores s (elemCells s vbase i v) = t) fun _ _ => True := by
  rcases storeElem_cases s vbase i v with h | ⟨k, -, h⟩ | ⟨k, -, h, -⟩
  · exact .of_ok h rfl
  · exact .of_raised h trivial
  · exact .of_stopped h

/-! ### The zero-counter (43_zero_counter.md R150, R151) -/

theorem zeroCountLoop_confined {sbase len : Nat} (bit : Nat) (h : Covers rd sbase (s.arrayBytes len)) :
    ∀ fuel lo hi : Nat, hi ≤ len → Confined rd wr (zeroCountLoop sbase bit fuel lo hi) s
  | 0, _, _, _ => .pure _
  | fuel + 1, lo, hi, hle => by
    unfold zeroCountLoop
    split_ifs with hlt
    · have hmid := midpoint_eq lo hi
      refine (elem_confined h (by omega)).bind_ends (elem_ends s _ _) ?_
      rintro v _ rfl
      split_ifs
      · exact zeroCountLoop_confined bit h fuel _ hi hle
      · exact zeroCountLoop_confined bit h fuel lo _ (by omega)
    · exact .pure _

theorem zeroCount_confined {sbase len : Nat} (bit : Nat) (h : Covers rd sbase (s.arrayBytes len)) :
    Confined rd wr (zeroCount sbase len bit) s := zeroCountLoop_confined bit h _ _ _ le_rfl

theorem zeroCount_ends {sbase len : Nat} (bit : Nat) (h : sbase + s.arrayBytes len ≤ Config.addressSpace) :
    Ends (zeroCount sbase len bit) s (fun _ t => s = t) fun _ _ => True := by
  rcases zeroCount_cases s sbase len bit h with ⟨z, -, hr, -⟩ | ⟨hr, -⟩
  · exact .of_ok hr rfl
  · exact .of_raised hr trivial

theorem zcCountRule_confined (bit : Nat) (h : Covers rd s.arg0.toNat (s.arrayBytes s.arg1.toNat)) :
    Confined rd wr (zcCountRule bit) s :=
  .get_bind (fun _ => rfl) <| .check fun _ => .check fun _ => (zeroCount_confined bit h).bind fun _ _ _ => .pure _

/-! ### The work stack (10_state.md R39, R41) -/

theorem stackPush_confined (c : BitCluster) : Confined rd wr (stackPush c) s := by
  by_cases h : Config.stackCap ≤ s.stkSp
  · exact .of_abort fun m => (stackPush_run _ c).trans (if_pos h)
  · exact .of_ok (t := s.pushed c) (fun m => (stackPush_run _ c).trans (if_neg h)) rfl rfl

theorem stackPop_none {s : State} (h : s.stack = []) : stackPop s = .ok none s := by rw [stackPop_run, h]

theorem stackPop_some {s : State} {c : BitCluster} {rest : List BitCluster} (h : s.stack = c :: rest) :
    stackPop s = .ok (some c) (s.withStack rest) := by rw [stackPop_run, h]

theorem stackPop_confined : Confined rd wr stackPop s := by
  cases h : s.stack with
  | nil => exact .of_ok (t := s) (fun m => stackPop_none h) rfl rfl
  | cons c rest => exact .of_ok (t := s.withStack rest) (fun m => stackPop_some h) rfl rfl

/-- A walk clears the stack and goes on. -/
theorem Confined.cleared {f : PUnit → Rule β} (h : Confined rd wr (f ⟨⟩) (s.withStack [])) : Confined rd wr (stackClear >>= f) s :=
  Confined.bind (.of_silent (fun _ => rfl) rfl rfl) fun _ t ht => by
    cases (stackClear_run s).symm.trans ht; exact h

/-- The end of a walk's loop at its bound (44_bct_encoder.md R167, 45_bct_decoder.md R183). -/
theorem walkEnd_confined :
    Confined rd wr (do let s ← get; if s.stack = [] then pure () else throw (.stopped .walkBoundPassed) : Rule Unit) s := by
  refine .get_bind (fun _ => rfl) ?_
  split_ifs
  · exact .pure _
  · exact .throw _

/-- What a loop of a walk does with the entry it has popped, if there was one. -/
theorem popped_confined {f : BitCluster → Rule Unit}
    (h : ∀ c rest, s.stack = c :: rest → Confined rd wr (f c) (s.withStack rest)) :
    Confined rd wr (do match ← stackPop with | none => pure () | some c => f c : Rule Unit) s := by
  refine stackPop_confined.bind fun o t ht => ?_
  cases hst : s.stack with
  | nil => cases (stackPop_none hst).symm.trans ht; exact .pure ()
  | cons c rest => cases (stackPop_some hst).symm.trans ht; exact h c rest hst

/-! ### The writer (41_bitstream_writer.md R111 to R117) -/

theorem raiseIfWriterClosed_confined : Confined rd wr raiseIfWriterClosed s := .get_bind (fun _ => rfl) (.raiseIf _ _)

theorem raiseIfPastLimit_confined : Confined rd wr raiseIfPastLimit s := .get_bind (fun _ => rfl) (.raiseIf _ _)

theorem raiseIfPastLimit_ends (s : State) :
    Ends raiseIfPastLimit s (fun _ t => s = t ∧ s.wrPtr.toNat ≤ s.wrLimit.toNat) (Refused s) := by
  have hrun := raiseIfPastLimit_run s
  split_ifs at hrun with h
  · exact .of_raised hrun ⟨rfl, by decide⟩
  · exact .of_ok hrun ⟨rfl, by omega⟩

/-- The two checks that stand before every store of the writer (R114 to R116). -/
theorem Confined.writer_checks {f : Unit → Rule α}
    (h : s.wrOpen = true → s.wrPtr.toNat ≤ s.wrLimit.toNat → Confined rd wr (f ()) s) :
    Confined rd wr (raiseIfWriterClosed >>= fun _ => raiseIfPastLimit >>= f) s :=
  raiseIfWriterClosed_confined.bind_ends (raiseIfWriterClosed_ends s) fun
    | _, _, ⟨rfl, hopen⟩ => raiseIfPastLimit_confined.bind_ends (raiseIfPastLimit_ends s) fun
      | _, _, ⟨rfl, hptr⟩ => h hopen hptr

theorem writerInit_confined (base cap : Nat) : Confined rd wr (writerInit base cap) s :=
  .check fun _ => .check fun _ => .of_silent (fun _ => rfl) rfl rfl

theorem writerAppend_confined (v n : Nat) : Confined rd wr (writerAppend v n) s :=
  raiseIfWriterClosed_confined.bind fun _ _ _ => .check fun _ => .get_bind (fun _ => rfl) <| .check fun _ =>
    .of_silent (fun _ => rfl) rfl rfl

theorem keepWriterOnRaise_confined {r : Rule α} (h : Confined rd wr r s) : Confined rd wr (keepWriterOnRaise r) s := by
  obtain ⟨reads, stores⟩ := h
  refine ⟨fun m hm => ?_, fun hs => ?_⟩
  · obtain ⟨n, hrun, hn⟩ := reads m hm
    refine ⟨n, ?_⟩
    unfold keepWriterOnRaise
    rw [hrun]
    rcases hr : r s with ⟨a, t⟩ | ⟨⟨e, i⟩ | f, t⟩
    all_goals rw [hr] at hn; exact ⟨rfl, hn⟩
  · have hs' := stores hs
    unfold keepWriterOnRaise
    rcases hr : r s with ⟨a, t⟩ | ⟨⟨e, i⟩ | f, t⟩
    all_goals rw [hr] at hs'; exact hs'

theorem flushBody_confined (h : Covers wr s.wrPtr.toNat s.wholeBytes) : Confined rd wr flushBody s :=
  .get_bind (fun _ => rfl) <| (memWrite_confined h).bind fun _ _ _ => .of_silent (fun _ => rfl) rfl rfl

theorem flushBody_ends (s : State) : Ends flushBody s (fun _ t => afterFlush s = t) fun _ _ => True := by
  rcases flushBody_cases s with ⟨h, -⟩ | ⟨k, -, h, -⟩ | ⟨k, -, h, -⟩
  · exact .of_ok h rfl
  · exact .of_raised h trivial
  · exact .of_stopped h

/-- `BSW.WRITE` stores at most 8 bytes from the write pointer on (R113, R115). -/
theorem writerWrite_confined (v n : Nat) (h : s.wrPtr.toNat ≤ s.wrLimit.toNat → Covers wr s.wrPtr.toNat 8) :
    Confined rd wr (writerWrite v n) s := by
  refine raiseIfWriterClosed_confined.bind_ends (raiseIfWriterClosed_ends s) ?_
  rintro _ _ ⟨rfl, -⟩
  refine .check fun _ => .get_bind (fun _ => rfl) <| .check fun hcnt => ?_
  refine raiseIfPastLimit_confined.bind_ends (raiseIfPastLimit_ends s) ?_
  rintro _ _ ⟨rfl, hptr⟩
  have hcnt : s.wrCnt.toNat + n ≤ 64 := by simpa using hcnt
  have hbytes : (s.merged v n).wholeBytes ≤ 8 := by rw [wholeBytes_eq, merged_wrCnt_toNat hcnt]; omega
  refine keepWriterOnRaise_confined (Confined.bind (.of_silent (fun _ => rfl) rfl rfl) fun _ t ht => ?_)
  cases ht
  exact flushBody_confined (s := s.merged v n) ((h hptr).mono le_rfl (Nat.add_le_add_left hbytes _))

/-- `BSW.FLUSH` stores at most 7 bytes from the write pointer on (R114; 10_state.md R31). -/
theorem writerFlush_confined (hinv : s.writerInv) (h : s.wrPtr.toNat ≤ s.wrLimit.toNat → Covers wr s.wrPtr.toNat 8) :
    Confined rd wr writerFlush s := by
  refine .writer_checks fun hopen hptr => keepWriterOnRaise_confined (flushBody_confined ((h hptr).mono le_rfl ?_))
  obtain ⟨-, hcnt, -⟩ := hinv hopen
  rw [wholeBytes_eq]; omega

/-- `BSW.CLOSE` stores at most 7 whole bytes from the write pointer on and then one partial byte (R116). -/
theorem writerClose_confined (hinv : s.writerInv) (h : s.wrPtr.toNat ≤ s.wrLimit.toNat → Covers wr s.wrPtr.toNat 8) :
    Confined rd wr writerClose s := by
  refine .writer_checks fun hopen hptr => keepWriterOnRaise_confined ?_
  obtain ⟨hacc, hcnt, hbase, -, hlimit⟩ := hinv hopen
  have hbytes := wholeBytes_eq s
  refine (flushBody_confined ((h hptr).mono le_rfl (by omega))).bind_ends (flushBody_ends s) ?_
  rintro _ _ rfl
  obtain ⟨-, -, -, hptr', -⟩ := afterFlush_ready hopen hacc (by omega) hbase hptr hlimit
  refine .get_bind (fun _ => rfl) ?_
  split_ifs
  · exact .of_silent (fun _ => rfl) rfl rfl
  · exact (memWrite_confined ((h hptr).mono (by omega) (by omega))).bind fun _ _ _ => .of_silent (fun _ => rfl) rfl rfl

end Confined
end Sys2Proof.Proofs

/-! PROOFS. What the encoder's and the decoder's rules are confined to: the walks read and store inside the arrays and the streams that
the command was given, whatever those hold (44_bct_encoder.md R170, 45_bct_decoder.md R192). -/

namespace Sys2Proof.Proofs
open Sys2Proof Sys2Proof.Machine Sys2Proof.Format Sys2Proof.Laws

section Encoder
variable {rd wr : Region} {s t : State} {vbase len : Nat}

/-! ### Fields of the encoder (41_bitstream_writer.md R117) -/

/-- `wr` holds the buffer of the open writer, `[WR_BASE, WR_LIMIT + 8)`. -/
structure BufferIn (wr : Region) (s : State) : Prop where
  first_le : wr.first ≤ s.wrBase.toNat
  le_past : s.wrLimit.toNat + 8 ≤ wr.past

theorem BufferIn.of_frame (h : BufferIn wr s) (hf : EncFrame s t) : BufferIn wr t :=
  ⟨by rw [hf.wrBase]; exact h.first_le, by rw [hf.wrLimit]; exact h.le_past⟩

theorem BufferIn.covers (h : BufferIn wr s) (hbase : s.wrBase.toNat ≤ s.wrPtr.toNat) (hptr : s.wrPtr.toNat ≤ s.wrLimit.toNat) :
    Covers wr s.wrPtr.toNat 8 := ⟨h.first_le.trans hbase, by have := h.le_past; omega⟩

theorem writerWrite_ready_confined (hr : WriterReady s) (hb : BufferIn wr s) (v n : Nat) : Confined rd wr (writerWrite v n) s :=
  writerWrite_confined v n (hb.covers hr.base_le)

theorem writerWrite_ready_ends (hr : WriterReady s) (v : Nat) {n : Nat} (hn : n ≤ 57) :
    Ends (writerWrite v n) s (fun _ t => Emitted n s t) fun _ _ => True := by
  rcases writerWrite_ready_cases hr v hn 0 0 with ⟨t, ht, hem, -⟩ | ⟨t, e, ht, -⟩
  · exact .of_ok ht hem
  · exact .of_raised ht trivial

theorem putField_confined (hr : WriterReady s) (hb : BufferIn wr s) (v n : Nat) : Confined rd wr (putField v n) s := by
  unfold putField
  split_ifs
  · exact writerWrite_ready_confined hr hb _ _
  · exact (writerWrite_ready_confined hr hb _ _).bind_ends (writerWrite_ready_ends hr _ (by decide)) fun _ _ hem =>
      writerWrite_ready_confined hem.ready (hb.of_frame hem.frame) _ _

theorem putField_ends (hr : WriterReady s) (v : Nat) {n : Nat} (hn : n ≤ 64) :
    Ends (putField v n) s (fun _ t => Emitted n s t) fun _ _ => True := by
  rcases putField_cases hr v hn 0 0 with ⟨t, ht, hem, -⟩ | ⟨t, e, ht, -⟩
  · exact .of_ok ht hem
  · exact .of_raised ht trivial

/-! ### The encoder's walk (44_bct_encoder.md R161 to R163) -/

/-- An encoder command reads in `rd`, which holds its array, and stores in `wr`, which holds its buffer. -/
structure EncIn (rd wr : Region) (vbase len : Nat) (s : State) : Prop where
  array : Covers rd vbase (s.arrayBytes len)
  buffer : BufferIn wr s

theorem EncIn.of_frame (h : EncIn rd wr vbase len s) (hf : EncFrame s t) : EncIn rd wr vbase len t :=
  ⟨by rw [hf.arrayBytes]; exact h.array, h.buffer.of_frame hf⟩

theorem addE_confined (start length bitPos : Nat) : Confined rd wr (addE start length bitPos) s := by
  unfold addE
  split_ifs
  · exact .pure _
  · exact stackPush_confined _

theorem emitLiterals_confined {bitPos : Nat} (hb : bitPos ≤ 64) : ∀ (n i : Nat) {s : State}, WriterReady s →
    EncIn rd wr vbase len s → i + n ≤ len → Confined rd wr (emitLiterals vbase bitPos n i) s
  | 0, _, _, _, _, _ => .pure ()
  | n + 1, i, s, hr, hin, hi => by
    refine (elem_confined hin.array (by omega)).bind_ends (elem_ends s _ _) ?_
    rintro v _ rfl
    refine (putField_confined hr hin.buffer _ _).bind_ends (putField_ends hr _ hb) fun _ t hem => ?_
    exact emitLiterals_confined hb n (i + 1) hem.ready (hin.of_frame hem.frame) (by omega)

theorem encSplit_confined {start length : Nat} (hr : WriterReady s) (hin : EncIn rd wr vbase len s)
    (harr : vbase + s.arrayBytes len ≤ Config.addressSpace) (hc : start + length ≤ len) (bitPos : Nat) :
    Confined rd wr (encSplit vbase start length bitPos) s := by
  have hslice : Covers ⟨vbase, vbase + s.arrayBytes len⟩ (s.elemAddr vbase start) (s.arrayBytes length) :=
    Covers.slice ⟨le_rfl, le_rfl⟩ hc
  refine .get_bind (fun _ => rfl) <| (zeroCount_confined _ (hin.array.slice hc)).bind_ends
    (zeroCount_ends _ (hslice.le_past.trans harr)) ?_
  rintro z _ rfl
  exact (putField_confined hr hin.buffer _ _).bind fun _ _ _ => (addE_confined _ _ _).bind fun _ _ _ => addE_confined _ _ _

theorem encStep_confined {c : BitCluster} (hr : WriterReady s) (hin : EncIn rd wr vbase len s)
    (harr : vbase + s.arrayBytes len ≤ Config.addressSpace) (hc : c.start.toNat + c.length.toNat ≤ len)
    (hbp : c.bitPos.toNat ≤ 64) : Confined rd wr (encStep vbase c) s := by
  refine .get_bind (fun _ => rfl) ?_
  split_ifs
  · exact .pure _
  · exact .pure _
  · exact emitLiterals_confined hbp _ _ hr hin hc
  · exact encSplit_confined hr hin harr hc _

theorem encStep_ends {c : BitCluster} {rest : List BitCluster} (hw : EncWalk vbase len s) (hst : s.stack = c :: rest) :
    Ends (encStep vbase c) (s.withStack rest) (fun _ t => EncWalk vbase len t ∧ EncFrame s t) fun _ _ => True := by
  rcases encStep_cases hw hst with ⟨t, ht, hwt, hf, -⟩ | ⟨t, e, ht, -⟩
  · exact .of_ok ht ⟨hwt, hf⟩
  · exact .of_raised ht trivial

theorem eTreeLoop_confined : ∀ (fuel : Nat) {s : State}, EncWalk vbase len s → EncIn rd wr vbase len s →
    Confined rd wr (eTreeLoop vbase fuel) s
  | 0, _, _, _ => walkEnd_confined
  | fuel + 1, s, hw, hin => popped_confined fun c rest hst => by
    obtain ⟨hc, -⟩ := hw.clusters c (by rw [hst]; exact List.mem_cons_self)
    have hstep : Confined rd wr (encStep vbase c) (s.withStack rest) :=
      encStep_confined (hw.ready.congr rfl rfl rfl rfl rfl rfl) (hin.of_frame (.withStack s rest)) hw.array.le hc.inside
        (hc.bitPos_le.trans hw.ebw_le)
    exact hstep.bind_ends (encStep_ends hw hst) fun _ t ⟨hwt, hf⟩ => eTreeLoop_confined fuel hwt (hin.of_frame hf)

/-- The walk starts with the whole array as its one cluster, or with none (R163). -/
theorem encRoot_ends (h : EncReady s) (hcfg : s.badConfig = false) (harr : vbase + s.arrayBytes len < Config.addressSpace)
    (hlen : len < 2 ^ 64) :
    Ends (addE 0 len s.ebw) (s.withStack []) (fun _ t => EncWalk vbase len t ∧ EncFrame s t) fun _ _ => True := by
  have hE : s.ebw ≤ 64 := (ebw_le s hcfg).trans (elemWidth_le s)
  have hE0 := ebw_pos s
  have h0 : EncWalk vbase len (s.withStack []) :=
    ⟨h.ready.congr rfl rfl rfl rfl rfl rfl, trivial, by simp, h.stack.bounded.withStack (Nat.zero_le _), hE, harr, hlen⟩
  by_cases hl : len = 0
  · exact .of_ok (addE_drop (.inl hl) _) ⟨h0, .withStack s []⟩
  · refine .of_ok (addE_push hl hE0.ne' (by simp)) ⟨⟨h0.ready.congr rfl rfl rfl rfl rfl rfl, ?_, ?_, h0.bounded.pushed _ (by simp),
      hE, harr, hlen⟩, (EncFrame.withStack s []).trans (.pushed _ _)⟩
    · exact ⟨(toCount_toNat (by omega)).le, nofun, .nil⟩
    · intro d hd
      obtain rfl := List.mem_singleton.1 hd
      have hll : (toWord len).toNat = len := toWord_toNat hlen
      have hbb : (toCount s.ebw).toNat = s.ebw := toCount_toNat (by omega)
      exact ⟨⟨(Nat.zero_add _).le.trans hll.le, by rw [hll]; omega, hbb.le⟩, by rw [hbb]; exact hE0⟩

theorem eTreeBody_confined (h : EncReady s) (hcfg : s.badConfig = false) (harr : vbase + s.arrayBytes len < Config.addressSpace)
    (hlen : len < 2 ^ 64) (hin : EncIn rd wr vbase len s) : Confined rd wr (eTreeBody vbase len) s :=
  .cleared <| .get_bind (fun _ => rfl) <| (addE_confined _ _ _).bind_ends (encRoot_ends (s := s) h hcfg harr hlen) fun _ _ ⟨hw, hf⟩ =>
    eTreeLoop_confined _ hw (hin.of_frame hf)

theorem eTreeBody_frame_ends (h : EncReady s) (hcfg : s.badConfig = false) (harr : vbase + s.arrayBytes len < Config.addressSpace)
    (hlen : len < 2 ^ 64) : Ends (eTreeBody vbase len) s (fun _ t => WriterReady t ∧ EncFrame s t) fun _ _ => True := by
  rcases eTreeBody_cases h.ready hcfg h.stack.bounded.hwm_le harr hlen with ⟨t, ht, hw, -, hf, -⟩ | ⟨t, e, ht, -⟩
  · exact .of_ok ht ⟨hw.ready, hf⟩
  · exact .of_raised ht trivial

/-! ### The encoder's commands (44_bct_encoder.md R164 to R166) -/

theorem putHeader_confined (hr : WriterReady s) (hb : BufferIn wr s) (len : Nat) : Confined rd wr (putHeader len) s := by
  refine .get_bind (fun _ => rfl) ?_
  split_ifs
  · exact putField_confined hr hb _ _
  · exact putField_confined hr hb _ _

theorem bctEtreeRule_confined (hinv : EncInv s) (hin : EncIn rd wr s.arg0.toNat s.arg1.toNat s) : Confined rd wr bctEtreeRule s := by
  refine .get_bind (fun _ => rfl) <| .check fun hcfg => .check fun hfar => ?_
  refine raiseIfWriterClosed_confined.bind_ends (raiseIfWriterClosed_ends s) ?_
  rintro _ _ ⟨rfl, hopen⟩
  refine .check fun hcnt => ?_
  obtain ⟨hacc, -, hbase, hptr, hlimit⟩ := hinv.writer hopen
  have hready : EncReady s := ⟨⟨hopen, hacc, by simpa using hcnt, hbase, hptr, hlimit⟩, hinv.stack⟩
  exact (eTreeBody_confined hready hcfg (lt_of_rangeTooFar hfar) s.arg1.isLt hin).bind fun _ _ _ => .pure _

theorem raiseIfInputLength_confined (len : Nat) : Confined rd wr (raiseIfInputLength len) s := by
  refine .get_bind (fun _ => rfl) ?_
  split_ifs
  · exact .raiseIf _ _
  · exact .check fun _ => .raiseIf _ _

/-- A fresh writer over a buffer that `wr` holds keeps to it (R111). -/
theorem writerInit_buffer_ends {base cap : Nat} (h : Covers wr base cap) :
    Ends (writerInit base cap) s (fun _ t => s.writerInitialised base cap = t ∧ WriterReady t ∧ BufferIn wr t) fun _ _ => True := by
  have hrun := writerInit_run s base cap
  split_ifs at hrun with hspace hcap
  · exact .of_raised hrun trivial
  · exact .of_raised hrun trivial
  · obtain ⟨hready, hbase, hlimit, -⟩ := writerInitialised_ready s (Nat.not_le.1 hspace) (Nat.not_lt.1 hcap)
    refine .of_ok hrun ⟨rfl, hready, by rw [hbase]; exact h.first_le, ?_⟩
    have := h.le_past
    rw [hlimit]; omega

theorem bctEncodeRule_confined (hinv : EncInv s) (hin : Covers rd s.arg0.toNat (s.arrayBytes s.arg1.toNat))
    (hout : Covers wr s.arg2.toNat s.arg3.toNat) : Confined rd wr bctEncodeRule s := by
  refine .get_bind (fun _ => rfl) <| .check fun hcfg => .check fun hfar => ?_
  refine (raiseIfInputLength_confined _).bind_ends (raiseIfInputLength_ends s _) ?_
  rintro _ _ rfl
  refine (writerInit_confined _ _).bind_ends (writerInit_buffer_ends hout) ?_
  rintro _ _ ⟨rfl, hwriter, hbuffer⟩
  have hready : EncReady (s.writerInitialised s.arg2.toNat s.arg3.toNat) := ⟨hwriter, hinv.stack.congr rfl rfl⟩
  refine (putHeader_confined hwriter hbuffer _).bind_ends (putHeader_ends hready _) ?_
  rintro _ u ⟨hu, hframe⟩
  have hcfg : u.badConfig = false := (badConfig_of_encFrame hframe).trans hcfg
  have hbytes := hframe.arrayBytes s.arg1.toNat
  have harr : s.arg0.toNat + u.arrayBytes s.arg1.toNat < Config.addressSpace := by
    rw [hbytes]; exact lt_of_rangeTooFar (Bool.or_eq_false_iff.1 hfar).1
  have hregions : EncIn rd wr s.arg0.toNat s.arg1.toNat u := ⟨by rw [hbytes]; exact hin, hbuffer.of_frame hframe⟩
  refine (eTreeBody_confined hu hcfg harr s.arg1.isLt hregions).bind_ends (eTreeBody_frame_ends hu hcfg harr s.arg1.isLt) ?_
  rintro _ v ⟨hv, hframe⟩
  exact writerClose_confined hv.writerInv ((hregions.buffer.of_frame hframe).covers hv.base_le)

end Encoder

section Decoder
variable {rd wr : Region} {s t : State} {obase len : Nat}

/-! ### The reader (42_bitstream_reader.md R131 to R135) -/

/-- `rd` holds every byte that a load would take now (R132). -/
def LoadIn (rd : Region) (s : State) : Prop := s.loadAddr < s.rdEnd.toNat → Covers rd s.loadAddr (loadBytes s)

/-- `rd` holds the rest of the input of the open reader, `[RD_PTR, RD_END)`. -/
structure InputIn (rd : Region) (s : State) : Prop where
  first_le : rd.first ≤ s.rdPtr.toNat
  le_past : s.rdEnd.toNat ≤ rd.past

theorem InputIn.of_le (h : InputIn rd s) (hptr : s.rdPtr.toNat ≤ t.rdPtr.toNat) (hend : t.rdEnd = s.rdEnd) : InputIn rd t :=
  ⟨h.first_le.trans hptr, by rw [hend]; exact h.le_past⟩

theorem InputIn.loadIn (h : InputIn rd s) : LoadIn rd s := fun hlt => by
  have hle := loadAddr_eq s
  have hfirst := h.first_le
  have hpast := h.le_past
  exact ⟨by omega, by unfold loadBytes; omega⟩

theorem raiseIfReaderClosed_confined : Confined rd wr raiseIfReaderClosed s := .get_bind (fun _ => rfl) (.raiseIf _ _)

theorem readerInit_confined (base len : Nat) : Confined rd wr (readerInit base len) s :=
  .check fun _ => .of_silent (fun _ => rfl) rfl rfl

theorem loadBody_confined (h : LoadIn rd s) : Confined rd wr loadBody s :=
  .get_bind (fun _ => rfl) <| .check fun hend =>
    (memRead_confined (h (Nat.not_le.1 (of_decide_eq_false hend)))).bind fun _ _ _ => .of_silent (fun _ => rfl) rfl rfl

theorem ensureBits_confined {n : Nat} (h : s.lacksBits n = true → LoadIn rd s) : Confined rd wr (ensureBits n) s := by
  refine .get_bind (fun _ => rfl) ?_
  split_ifs with hlacks
  · exact (loadBody_confined (h hlacks)).bind fun _ _ _ => .get_bind (fun _ => rfl) (.raiseIf _ _)
  · exact .pure _

/-- `BSR.READ` reads at most what one load takes, and nothing if the lookahead has the bits (R133). -/
theorem readerRead_confined {n : Nat} (h : s.lacksBits n = true → LoadIn rd s) : Confined rd wr (readerRead n) s := by
  refine raiseIfReaderClosed_confined.bind_ends (raiseIfReaderClosed_ends s) ?_
  rintro _ _ ⟨rfl, -⟩
  exact .check fun _ => (ensureBits_confined h).bind fun _ _ _ => .of_silent (fun _ => rfl) rfl rfl

theorem readerLoad_confined (h : LoadIn rd s) : Confined rd wr readerLoad s := by
  refine raiseIfReaderClosed_confined.bind_ends (raiseIfReaderClosed_ends s) ?_
  rintro _ _ ⟨rfl, -⟩
  exact loadBody_confined h

theorem readerSize_confined : Confined rd wr readerSize s :=
  raiseIfReaderClosed_confined.bind fun _ _ _ => .get_bind (fun _ => rfl) (.pure _)

theorem readerRead_ready_ends (hr : ReaderReady s) {n : Nat} (hn : n ≤ 57) :
    Ends (readerRead n) s (fun _ t => ReadDone n s t) fun _ _ => True := by
  rcases readerRead_ready_cases hr hn with ⟨v, t, ht, hd, -⟩ | ⟨t, e, ht, -⟩
  · exact .of_ok ht hd
  · exact .of_raised ht trivial

theorem getField_confined (hr : ReaderReady s) (h : InputIn rd s) (n : Nat) : Confined rd wr (getField n) s := by
  unfold getField
  split_ifs
  · exact readerRead_confined fun _ => h.loadIn
  · refine (readerRead_confined fun _ => h.loadIn).bind_ends (readerRead_ready_ends hr (by decide)) fun _ t hd => ?_
    exact (readerRead_confined fun _ => (h.of_le hd.frame.ptr_le hd.frame.rdEnd).loadIn).bind fun _ _ _ => .pure _

/-- The first 57 bits of a fresh reader over at least 8 bytes come with a lookahead that holds 7 more (R132, R133). -/
theorem readerRead_fresh_ends {base : Nat} (hspace : base + len < Config.addressSpace) (hlen : 8 ≤ len) :
    Ends (readerRead Config.maxField) (s.readerInitialised base len) (fun _ t => ∀ n ≤ 7, t.lacksBits n = false)
      fun _ _ => True := by
  obtain ⟨hready, -, hend, -⟩ := readerInitialised_ready s hspace
  have hlacks : (s.readerInitialised base len).lacksBits Config.maxField = true := by simp [State.lacksBits, Config.maxField]
  have haddr : (s.readerInitialised base len).loadAddr = base := (loadAddr_eq _).trans <| by
    simp only [readerInitialised_rdPtr, readerInitialised_rdCons]
    exact toWord_toNat (by simp only [Config.addressSpace] at hspace; omega)
  have hrun := readerRead_run hready.isOpen (n := Config.maxField) le_rfl
  rcases ensureBits_cases (s.readerInitialised base len) Config.maxField with
    ⟨-, -, he⟩ | ⟨-, -, -, he⟩ | ⟨-, -, -, he⟩ | ⟨hlt, -, he⟩
  · rw [he] at hrun; exact .of_raised hrun trivial
  · rw [he] at hrun; exact .of_raised hrun trivial
  · rw [he] at hrun; exact .of_raised hrun trivial
  · rw [he, fetched, if_pos hlacks] at hrun
    refine .of_ok hrun fun n hn => ?_
    obtain ⟨-, -, -, -, -, hcons, hloaded⟩ := afterLoad_ready hready (hlt hlacks)
    have hzero : (afterLoad (s.readerInitialised base len)).rdCons.toNat = 0 := hcons.trans (by simp)
    have hfield : ((afterLoad (s.readerInitialised base len)).consumed Config.maxField).rdCons.toNat = 57 := by
      rw [consumed_rdCons, hzero]; rfl
    rw [State.lacksBits, consumed_rdLoaded, hloaded, hfield, hend, haddr, decide_eq_false_iff_not]
    omega

/-- The first field of a fresh reader lies in the first 8 bytes of its input, all of them in the lookahead after one load
(R132, R135). -/
theorem getField_fresh_confined {base n : Nat} (hspace : base + len < Config.addressSpace) (h : Covers rd base (min len 8))
    (hn : n ≤ 64) : Confined rd wr (getField n) (s.readerInitialised base len) := by
  obtain ⟨hready, -, hend, -⟩ := readerInitialised_ready s hspace
  have hptr : (s.readerInitialised base len).rdPtr.toNat = base :=
    toWord_toNat (by simp only [Config.addressSpace] at hspace; omega)
  by_cases hlen : len ≤ 8
  · exact getField_confined hready ⟨hptr.symm ▸ h.first_le, by rw [hend]; have := h.le_past; omega⟩ n
  have hload : LoadIn rd (s.readerInitialised base len) := fun _ => by
    have haddr : (s.readerInitialised base len).loadAddr = base := (loadAddr_eq _).trans (by simpa using hptr)
    rw [haddr]; exact h.mono le_rfl (by unfold loadBytes; omega)
  unfold getField
  split_ifs
  · exact readerRead_confined fun _ => hload
  · refine (readerRead_confined fun _ => hload).bind_ends (readerRead_fresh_ends hspace (by omega)) fun _ t ht => ?_
    have hrest : t.lacksBits (n - Config.maxField) = false := ht _ (by simp only [Config.maxField]; omega)
    exact (readerRead_confined fun hlacks => absurd (hrest.symm.trans hlacks) nofun).bind fun _ _ _ => .pure _

/-! ### Fields of the decoder (45_bct_decoder.md R185, R188) -/

theorem decodeField_of_getField_confined {n : Nat} (h : Confined rd wr (getField n) s) : Confined rd wr (decodeField n) s := by
  obtain ⟨reads, stores⟩ := h
  refine ⟨fun m hm => ?_, fun hs => ?_⟩
  · obtain ⟨k, hrun, hk⟩ := reads m hm
    refine ⟨k, ?_⟩
    unfold decodeField
    rw [hrun]
    rcases hr : getField n s with ⟨a, t⟩ | ⟨a, t⟩
    all_goals rw [hr] at hk; exact ⟨rfl, hk⟩
  · have hs' := stores hs
    unfold decodeField
    rcases hr : getField n s with ⟨a, t⟩ | ⟨a, t⟩
    all_goals rw [hr] at hs'; exact hs'

theorem decodeField_confined (hr : ReaderReady s) (h : InputIn rd s) (n : Nat) : Confined rd wr (decodeField n) s :=
  decodeField_of_getField_confined (getField_confined hr h n)

theorem decodeField_ends (hr : ReaderReady s) {n : Nat} (hn : n ≤ 64) :
    Ends (decodeField n) s (fun _ t => ReadDone n s t) fun _ _ => True := by
  rcases decodeField_cases hr hn with ⟨v, t, ht, hd, -⟩ | ⟨t, e, i, k, -, ht, -⟩
  · exact .of_ok ht hd
  · exact .of_raised ht trivial

/-- The header is one field of at most 64 bits (R188). -/
theorem getHeader_confined (h : ∀ n ≤ 64, Confined rd wr (decodeField n) s) : Confined rd wr getHeader s := by
  refine .get_bind (fun _ => rfl) ?_
  split_ifs
  · exact h _ (by decide)
  · exact (h _ (elemWidth_le s)).bind fun _ _ _ => .pure _

/-! ### The decoder's walk (45_bct_decoder.md R181 to R183) -/

/-- A decoder command reads in `rd`, which holds the rest of its input, and stores in `wr`, which holds its array. -/
structure DecIn (rd wr : Region) (obase len : Nat) (s : State) : Prop where
  input : InputIn rd s
  array : Covers wr obase (s.arrayBytes len)

theorem DecIn.of_frame (h : DecIn rd wr obase len s) (hf : DecFrame obase len s t) : DecIn rd wr obase len t :=
  ⟨h.input.of_le hf.ptr_le hf.rdEnd, by rw [hf.arrayBytes]; exact h.array⟩

theorem addD_confined (start length bitPos hb : Nat) : Confined rd wr (addD start length bitPos hb) s := by
  unfold addD
  split_ifs
  · exact .pure _
  · exact stackPush_confined _

theorem fillSlots_confined (value : Nat) : ∀ (n i : Nat) {s : State}, Covers wr obase (s.arrayBytes len) → i + n ≤ len →
    Confined rd wr (fillSlots obase value n i) s
  | 0, _, _, _, _ => .pure ()
  | n + 1, i, s, h, hi => by
    refine (storeElem_confined h (by omega) _).bind_ends (storeElem_ends s _ _ _) ?_
    rintro _ _ rfl
    exact fillSlots_confined value n (i + 1) h (by omega)

theorem fillRange_confined (start hb : Nat) : ∀ (n i : Nat) {s : State}, Covers wr obase (s.arrayBytes len) →
    start + i + n ≤ len → Confined rd wr (fillRange obase start hb n i) s
  | 0, _, _, _, _ => .pure ()
  | n + 1, i, s, h, hi => by
    refine (storeElem_confined h (by omega) _).bind_ends (storeElem_ends s _ _ _) ?_
    rintro _ _ rfl
    exact fillRange_confined start hb n (i + 1) h (by omega)

theorem readLiterals_confined {bitPos : Nat} (hbp : bitPos ≤ 64) (hb : Nat) : ∀ (n i : Nat) {s : State}, ReaderReady s →
    DecIn rd wr obase len s → i + n ≤ len → Confined rd wr (readLiterals obase bitPos hb n i) s
  | 0, _, _, _, _, _ => .pure ()
  | n + 1, i, s, hr, hin, hi => by
    refine (decodeField_confined hr hin.input _).bind_ends (decodeField_ends hr hbp) fun _ t hd => ?_
    have hin := hin.of_frame (.of_read hd.frame)
    refine (storeElem_confined hin.array (by omega) _).bind_ends (storeElem_ends t _ _ _) ?_
    rintro _ _ rfl
    exact readLiterals_confined hbp hb n (i + 1) (hd.ready.congr rfl rfl rfl rfl rfl rfl rfl) ⟨hin.input.of_le le_rfl rfl, hin.array⟩
      (by omega)

theorem decSplit_confined (hr : ReaderReady s) (h : InputIn rd s) (start length bitPos hb : Nat) :
    Confined rd wr (decSplit start length bitPos hb) s :=
  (decodeField_confined hr h _).bind fun _ _ _ => .check fun _ => (addD_confined _ _ _ _).bind fun _ _ _ => addD_confined _ _ _ _

theorem decStep_confined {c : BitCluster} (hr : ReaderReady s) (hin : DecIn rd wr obase len s)
    (hc : c.start.toNat + c.length.toNat ≤ len) (hbp : c.bitPos.toNat ≤ 64) : Confined rd wr (decStep obase c) s := by
  refine .get_bind (fun _ => rfl) ?_
  split_ifs
  · exact fillSlots_confined _ _ _ hin.array hc
  · exact fillRange_confined _ _ _ _ hin.array hc
  · exact readLiterals_confined hbp _ _ _ hr hin hc
  · exact decSplit_confined hr hin.input _ _ _ _

theorem decStep_ends {c : BitCluster} {rest : List BitCluster} (hw : DecWalk obase len s) (hst : s.stack = c :: rest) :
    Ends (decStep obase c) (s.withStack rest) (fun _ t => DecWalk obase len t ∧ DecFrame obase len s t) fun _ _ => True := by
  rcases decStep_cases hw hst with ⟨t, ht, hwt, hf, -⟩ | ⟨t, e, i, ht, -⟩
  · exact .of_ok ht ⟨hwt, hf⟩
  · exact .of_raised ht trivial

theorem dTreeLoop_confined : ∀ (fuel : Nat) {s : State}, DecWalk obase len s → DecIn rd wr obase len s →
    Confined rd wr (dTreeLoop obase fuel) s
  | 0, _, _, _ => walkEnd_confined
  | fuel + 1, s, hw, hin => popped_confined fun c rest hst => by
    have hc := hw.clusters c (by rw [hst]; exact List.mem_cons_self)
    have hstep : Confined rd wr (decStep obase c) (s.withStack rest) :=
      decStep_confined (hw.ready.congr rfl rfl rfl rfl rfl rfl rfl) (hin.of_frame (.withStack s rest)) hc.inside
        (hc.bitPos_le.trans hw.ebw_le)
    exact hstep.bind_ends (decStep_ends hw hst) fun _ t ⟨hwt, hf⟩ => dTreeLoop_confined fuel hwt (hin.of_frame hf)

/-- The walk starts with the whole array as its one cluster, or with none (R183). -/
theorem decRoot_ends (h : DecReady s) (hcfg : s.badConfig = false) (harr : obase + s.arrayBytes len < Config.addressSpace)
    (hlen : len < 2 ^ 64) :
    Ends (addD 0 len s.ebw 0) (s.withStack []) (fun _ t => DecWalk obase len t ∧ DecFrame obase len s t) fun _ _ => True := by
  have hE : s.ebw ≤ 64 := (ebw_le s hcfg).trans (elemWidth_le s)
  have h0 : DecWalk obase len (s.withStack []) :=
    ⟨h.ready.congr rfl rfl rfl rfl rfl rfl rfl, trivial, by simp, h.stack.bounded.withStack (Nat.zero_le _), hE, harr, hlen⟩
  have hrun := addD_run 0 len s.ebw 0 (s.withStack [])
  split_ifs at hrun with hl hfull
  · exact .of_ok hrun ⟨h0, .withStack s []⟩
  · exact .of_raised hrun trivial
  · have hll : (child 0 len s.ebw 0).length.toNat = len := toWord_toNat hlen
    have hbb : (child 0 len s.ebw 0).bitPos.toNat = s.ebw := toCount_toNat (by omega)
    refine .of_ok hrun ⟨⟨h0.ready.congr rfl rfl rfl rfl rfl rfl rfl, ⟨hbb.le, nofun, .nil⟩, ?_, h0.bounded.pushed _ (by simp),
      hE, harr, hlen⟩, (DecFrame.withStack s []).trans (.pushed _ _)⟩
    intro d hd
    obtain rfl := List.mem_singleton.1 hd
    exact ⟨(Nat.zero_add _).le.trans hll.le, by rw [hll]; omega, hbb.le⟩

theorem dTreeBody_confined (h : DecReady s) (hcfg : s.badConfig = false) (harr : obase + s.arrayBytes len < Config.addressSpace)
    (hlen : len < 2 ^ 64) (hin : DecIn rd wr obase len s) : Confined rd wr (dTreeBody obase len) s :=
  .cleared <| .get_bind (fun _ => rfl) <| (addD_confined _ _ _ _).bind_ends (decRoot_ends (s := s) h hcfg harr hlen)
    fun _ _ ⟨hw, hf⟩ => dTreeLoop_confined _ hw (hin.of_frame hf)

/-! ### The decoder's commands (45_bct_decoder.md R184 to R187) -/

theorem bctDtreeRule_confined (hinv : DecInv s) (hin : DecIn rd wr s.arg0.toNat s.arg1.toNat s) : Confined rd wr bctDtreeRule s := by
  refine .get_bind (fun _ => rfl) <| .check fun hcfg => .check fun hfar => ?_
  refine raiseIfReaderClosed_confined.bind_ends (raiseIfReaderClosed_ends s) ?_
  rintro _ _ ⟨rfl, hopen⟩
  have hready : DecReady s := ⟨.of_inv hinv.reader hopen, hinv.stack⟩
  exact (dTreeBody_confined hready hcfg (lt_of_rangeTooFar hfar) s.arg1.isLt hin).bind fun _ _ _ => .pure _

theorem raiseIfOutputLength_confined (len : Nat) : Confined rd wr (raiseIfOutputLength len) s := by
  refine .get_bind (fun _ => rfl) ?_
  split_ifs
  · exact .raiseIf _ _
  · exact .check fun _ => .raiseIf _ _

theorem bctDecodeRule_confined (hinv : DecInv s) (hin : Covers rd s.arg0.toNat s.arg1.toNat)
    (hout : Covers wr s.arg2.toNat (s.arrayBytes s.arg3.toNat)) : Confined rd wr bctDecodeRule s := by
  refine .get_bind (fun _ => rfl) <| .check fun hcfg => .check fun hfar => ?_
  refine (raiseIfOutputLength_confined _).bind_ends (raiseIfOutputLength_ends s _) ?_
  rintro _ _ rfl
  obtain ⟨hfar0, hfar2⟩ := Bool.or_eq_false_iff.1 hfar
  refine (readerInit_confined _ _).bind_ends (readerInit_ends s _ _) ?_
  rintro _ _ ⟨rfl, hready⟩
  obtain ⟨-, hbase, hend, -⟩ := readerInitialised_ready s (lt_of_rangeTooFar hfar0)
  have hinput : InputIn rd (s.readerInitialised s.arg0.toNat s.arg1.toNat) :=
    ⟨hbase.symm ▸ hin.first_le, by rw [hend]; exact hin.le_past⟩
  refine (getHeader_confined fun n _ => decodeField_confined hready hinput n).bind_ends
    (getHeader_ends ⟨hready, hinv.stack.congr rfl rfl⟩) fun _ u ⟨hu, hf⟩ => ?_
  refine .check fun _ => ?_
  have harr := arrayBytes_of_readFrame hf s.arg3.toNat
  have hinside : s.arg2.toNat + u.arrayBytes s.arg3.toNat < Config.addressSpace := by rw [harr]; exact lt_of_rangeTooFar hfar2
  have hregions : DecIn rd wr s.arg2.toNat s.arg3.toNat u := ⟨hinput.of_le hf.ptr_le hf.rdEnd, by rw [harr]; exact hout⟩
  exact (dTreeBody_confined hu ((badConfig_of_readFrame hf).trans hcfg) hinside s.arg3.isLt hregions).bind fun _ _ _ =>
    readerSize_confined

theorem readerInit_space_ends (base len : Nat) :
    Ends (readerInit base len) s (fun _ t => s.readerInitialised base len = t ∧ base + len < Config.addressSpace)
      fun _ _ => True := by
  have hrun := readerInit_run s base len
  split_ifs at hrun with hspace
  · exact .of_raised hrun trivial
  · exact .of_ok hrun ⟨rfl, Nat.not_le.1 hspace⟩

theorem bctDsizeRule_confined (hin : Covers rd s.arg0.toNat (min s.arg1.toNat 8)) : Confined rd wr bctDsizeRule s := by
  refine .get_bind (fun _ => rfl) <| (readerInit_confined _ _).bind_ends (readerInit_space_ends _ _) ?_
  rintro _ _ ⟨rfl, hspace⟩
  refine .bind (getHeader_confined fun n hn => ?_) fun _ _ _ => .check fun _ => .pure _
  exact decodeField_of_getField_confined (getField_fresh_confined hspace hin hn)

end Decoder
end Sys2Proof.Proofs

/-! PROOFS. No command reads a byte outside its read region or changes one outside its write region (20_memory.md R77). -/

namespace Sys2Proof.Proofs
open Sys2Proof Sys2Proof.Machine Sys2Proof.Format Sys2Proof.Laws

/-! ### Every command is confined to its regions -/

/-- The rule of a command (30_encoding.md R84). -/
def commandRule (i : Instr) (s : State) : Rule Word :=
  match i with
  | .sysNop => pure 0
  | .sysReset => sysResetRule
  | .utlBlen => utlBlenRule
  | .bswInit => do writerInit s.arg0.toNat s.arg1.toNat; pure 0
  | .bswAppend n => do writerAppend s.arg0.toNat n; pure 0
  | .bswWrite n => do writerWrite s.arg0.toNat n; pure 0
  | .bswFlush => do writerFlush; pure 0
  | .bswClose => writerClose
  | .bsrInit => do readerInit s.arg0.toNat s.arg1.toNat; pure 0
  | .bsrRead n => do let v ← readerRead n; pure (toWord v)
  | .bsrLoad => do readerLoad; pure 0
  | .bsrSize => readerSize
  | .zcCount bit => zcCountRule bit
  | .bctEtree => bctEtreeRule
  | .bctEncode => bctEncodeRule
  | .bctDtree => bctDtreeRule
  | .bctDecode => bctDecodeRule
  | .bctDsize => bctDsizeRule

theorem exec_eq_runCommand (i : Instr) (s : State) : exec i s = runCommand (commandRule i s) s := by cases i <;> rfl

/-- Which rule a command runs does not hang on memory. -/
theorem exec_withMemory (i : Instr) (s : State) (m : Memory) :
    exec i (withMemory s m) = runCommand (commandRule i s) (withMemory s m) := by cases i <;> rfl

/-- From a state with the invariants every command reads in its read region only and stores in its write region only. -/
theorem commandRule_confined {s : State} (hs : s.Inv) (i : Instr) :
    Confined (readRegion i s) (writeRegion i s) (commandRule i s) s.started := by
  have finish {α : Type} {rd wr : Region} {r : Rule α} {f : α → Word} (h : Confined rd wr r s.started) :
      Confined rd wr (do let a ← r; pure (f a)) s.started := h.bind fun _ _ _ => .pure _
  have hwriter : s.started.writerInv := writerInv_of_inv hs
  have load : LoadIn s.readerRegion s.started := InputIn.loadIn ⟨le_rfl, le_rfl⟩
  cases i with
  | sysNop => exact .pure _
  | sysReset => exact .of_silent (fun _ => rfl) rfl rfl
  | utlBlen => exact .of_silent (fun _ => rfl) rfl rfl
  | bswInit => exact finish (writerInit_confined _ _)
  | bswAppend n => exact finish (writerAppend_confined _ n)
  | bswWrite n => exact finish (writerWrite_confined _ n fun _ => ⟨le_rfl, le_rfl⟩)
  | bswFlush => exact finish (writerFlush_confined hwriter fun _ => ⟨le_rfl, le_rfl⟩)
  | bswClose => exact writerClose_confined hwriter fun _ => ⟨le_rfl, le_rfl⟩
  | bsrInit => exact finish (readerInit_confined _ _)
  | bsrRead n => exact finish (readerRead_confined fun _ => load)
  | bsrLoad => exact finish (readerLoad_confined load)
  | bsrSize => exact readerSize_confined
  | zcCount bit => exact zcCountRule_confined bit ⟨le_rfl, le_rfl⟩
  | bctEtree => exact bctEtreeRule_confined (.of_inv hs) ⟨⟨le_rfl, le_rfl⟩, ⟨le_rfl, le_rfl⟩⟩
  | bctEncode => exact bctEncodeRule_confined (.of_inv hs) ⟨le_rfl, le_rfl⟩ ⟨le_rfl, le_rfl⟩
  | bctDtree => exact bctDtreeRule_confined (.of_inv hs) ⟨⟨le_rfl, le_rfl⟩, ⟨le_rfl, le_rfl⟩⟩
  | bctDecode => exact bctDecodeRule_confined (.of_inv hs) ⟨le_rfl, le_rfl⟩ ⟨le_rfl, le_rfl⟩
  | bctDsize => exact bctDsizeRule_confined ⟨le_rfl, le_rfl⟩

/-! ### Writes -/

/-- A completed command has the memory and the trace in which its rule ended. -/
theorem complete_next_eq {x : EStateM.Result Abort State Word} {t : State} (h : complete x = .next t) :
    t.mem = (endState x).mem ∧ t.storeTrace = (endState x).storeTrace := by
  rcases complete_eq_next.1 h with ⟨r, u, rfl, rfl⟩ | ⟨e, j, u, rfl, rfl⟩
  · exact ⟨rfl, rfl⟩
  · exact ⟨rfl, rfl⟩

theorem exec_stores_in {i : Instr} {s t : State} (hs : s.Inv) (hx : exec i s = .next t) :
    ∀ c ∈ t.storeTrace, (writeRegion i s).holds c.1 = true := by
  rw [exec_eq_runCommand] at hx
  obtain ⟨-, htrace⟩ := complete_next_eq hx
  rw [htrace]
  exact (commandRule_confined hs i).stores nofun

/-- Settles O10: every store of a command lies in its write region, and memory changes by its stores only. -/
theorem writesInsideRegion : Obligations.WritesInsideRegion := by
  intro i s t hs hx a ha
  rw [exec_stored hx]
  refine read_applyStores_of_not_mem _ _ (fun c hc hca => ?_) _
  have hin := exec_stores_in hs hx c (List.mem_reverse.1 hc)
  rw [hca, ha] at hin
  cases hin

/-! ### Reads -/

/-- The completion step does not see memory (60_exceptions.md R206). -/
theorem complete_withEndMemory {x : EStateM.Result Abort State Word} {t : State} (h : complete x = .next t) (n : Memory) :
    complete (withEndMemory n x) = .next (withMemory t n) := by
  rcases complete_eq_next.1 h with ⟨r, u, rfl, rfl⟩ | ⟨e, j, u, rfl, rfl⟩
  · rfl
  · rfl

/-- A command over other bytes outside its read region ends in the same state but for memory. -/
theorem exec_over_agreeing {i : Instr} {s t : State} {m : Memory} (hs : s.Inv) (hm : AgreeOn (readRegion i s) m s.mem)
    (hx : exec i s = .next t) : ∃ n, exec i (withMemory s m) = .next (withMemory t n) := by
  obtain ⟨n, hrun, -⟩ := (commandRule_confined hs i).reads m hm
  rw [exec_eq_runCommand] at hx
  refine ⟨n, ?_⟩
  rw [exec_withMemory]
  exact (congrArg complete hrun).trans (complete_withEndMemory hx n)

/-- Where the same stores have been made, two memories hold the same byte. -/
theorem read_applyStores_of_mem (l : List Host.Cell) {a : Nat} (h : a ∈ l.map Prod.fst) (m n : Memory) :
    (applyStores m l).read a = (applyStores n l).read a := by
  induction l generalizing m n with
  | nil => cases h
  | cons c l ih =>
    rw [applyStores_cons, applyStores_cons]
    by_cases hl : a ∈ l.map Prod.fst
    · exact ih hl _ _
    · obtain rfl : a = c.1 := (List.mem_cons.1 h).resolve_right hl
      have hne : ∀ d ∈ l, d.1 ≠ c.1 := fun d hd hda => hl (List.mem_map.2 ⟨d, hd, hda⟩)
      rw [read_applyStores_of_not_mem l _ hne, read_applyStores_of_not_mem l _ hne, read_write_same, read_write_same]

/-- Settles O11: the run over the other bytes makes the same stores, so its memory has the same byte where one was stored, and the byte
it had elsewhere. -/
theorem readsInsideRegion : Obligations.ReadsInsideRegion := by
  intro i s t m hs hm hx
  obtain ⟨n, hrun⟩ := exec_over_agreeing hs hm hx
  refine ⟨withMemory t n, hrun, rfl, fun a => ?_⟩
  have hn : n = applyStores m t.storeTrace.reverse := exec_stored hrun
  have ht : t.mem = applyStores s.mem t.storeTrace.reverse := exec_stored hx
  show n.read a = _
  rw [hn, ht]
  split_ifs with ha
  · exact read_applyStores_of_mem _ (by rw [List.map_reverse]; exact List.mem_reverse.2 ha) _ _
  · exact read_applyStores_of_not_mem _ _ (fun c hc hca => ha (List.mem_map.2 ⟨c, List.mem_reverse.1 hc, hca⟩)) _

end Sys2Proof.Proofs

/-! PROOFS. Command words: what the decoder answers, in terms of the fields of the word (30_encoding.md R80 to R85), and the step that
runs what it decodes (R89, R90). -/

namespace Sys2Proof.Proofs
open Sys2Proof Sys2Proof.Machine Sys2Proof.Format Sys2Proof.Laws

/-! ### The fields of a command word (30_encoding.md R80) -/

section Word
variable {w : Word} {i : Instr}

theorem reservedBits_eq_zero_iff : w.extractLsb' 14 50 = 0 ↔ w.toNat < 2 ^ 14 := by
  have hlt := w.isLt
  rw [← BitVec.toNat_inj, BitVec.extractLsb'_toNat, Nat.shiftRight_eq_div_pow]
  change _ = 0 ↔ _
  omega

theorem opcField_eq (w : Word) : opcField w = w.toNat % 256 := by simp [opcField]

theorem immField_eq (w : Word) : immField w = w.toNat / 256 % 64 := by simp [immField, Nat.shiftRight_eq_div_pow]

theorem opcode_lt (i : Instr) : i.opcode < 256 := by cases i <;> simp [Instr.opcode]

theorem wellFormed_iff : i.wellFormed = true ↔ i.immediate < 64 := by
  cases i <;> simp [Instr.wellFormed, Instr.immediate, fitsImmediate]

/-- The two fields of a command word do not overlap. -/
theorem encode_toNat (hi : i.wellFormed = true) : (encode i).toNat = i.opcode + 256 * i.immediate := by
  have hopc := opcode_lt i
  have himm := wellFormed_iff.1 hi
  have hor : i.immediate <<< 8 + i.opcode = i.immediate <<< 8 ||| i.opcode := Nat.shiftLeft_add_eq_or_of_lt hopc _
  rw [encode, BitVec.toNat_ofNat, Nat.or_comm, ← hor, Nat.shiftLeft_eq]
  omega

theorem cmdValue_toNat (hi : i.wellFormed = true) : (cmdValue i).toNat = i.opcode + 256 * i.immediate :=
  (BitVec.toNat_setWidth_of_le (by decide)).trans (encode_toNat hi)

/-- A value is a well-formed command's word exactly when it has that command's fields and no other bit set. -/
theorem eq_cmdValue_iff (hi : i.wellFormed = true) :
    w = cmdValue i ↔ w.extractLsb' 14 50 = 0 ∧ i.opcode = opcField w ∧ i.immediate = immField w := by
  have hopc := opcode_lt i
  have himm := wellFormed_iff.1 hi
  rw [← BitVec.toNat_inj, cmdValue_toNat hi, reservedBits_eq_zero_iff, opcField_eq, immField_eq]
  omega

end Word

/-! ### The rows of the opcode table (30_encoding.md R84) -/

/-- The opcodes whose rows have the format `CN`. -/
abbrev cnOpcodes : List Nat := [0x11, 0x12, 0x21, 0x30]

/-- A row holds the command of its opcode, with the given immediate in the format `CN` and 0 in the format `C0`. -/
theorem opcodeRow_eq_some {opc n : Nat} {isCN : Bool} {i : Instr} (h : opcodeRow opc n = some (isCN, i)) :
    isCN = decide (opc ∈ cnOpcodes) ∧ i.opcode = opc ∧ i.immediate = if isCN then n else 0 := by
  unfold opcodeRow at h
  split at h <;> cases h <;> exact ⟨by decide, rfl, rfl⟩

theorem opcodeRow_opcode (i : Instr) : opcodeRow i.opcode i.immediate = some (decide (i.opcode ∈ cnOpcodes), i) := by
  cases i <;> rfl

theorem immediate_eq_zero {i : Instr} (h : i.opcode ∉ cnOpcodes) : i.immediate = 0 := by
  obtain ⟨-, -, himm⟩ := opcodeRow_eq_some (opcodeRow_opcode i)
  simpa [h] using himm

/-- A `CN` opcode has a command for every immediate, a `C0` opcode one for 0. -/
theorem exists_immediate (i : Instr) {n : Nat} (h : i.opcode ∈ cnOpcodes ∨ n = 0) :
    ∃ j : Instr, j.opcode = i.opcode ∧ j.immediate = n := by
  cases i with
  | bswAppend _ => exact ⟨.bswAppend n, rfl, rfl⟩
  | bswWrite _ => exact ⟨.bswWrite n, rfl, rfl⟩
  | bsrRead _ => exact ⟨.bsrRead n, rfl, rfl⟩
  | zcCount _ => exact ⟨.zcCount n, rfl, rfl⟩
  | _ => exact ⟨_, rfl, (h.resolve_left (by decide)).symm⟩

/-! ### The decoder (30_encoding.md R81) -/

section Decoder
variable {w : Word} {i : Instr}

/-- The decoder answers the one command that has the fields of the word, if no reserved bit is set. -/
theorem decode_eq_ok_iff :
    decode w = .ok i ↔ w.extractLsb' 14 50 = 0 ∧ i.opcode = opcField w ∧ i.immediate = immField w := by
  constructor
  · intro h
    unfold decode at h
    split_ifs at h with hres
    split at h
    · cases h
    · next isCN j hrow =>
      obtain ⟨-, hopc, himm⟩ := opcodeRow_eq_some hrow
      split_ifs at h with hzero
      cases h
      refine ⟨not_not.1 hres, hopc, himm.trans ?_⟩
      cases isCN with
      | true => rfl
      | false =>
        have himm0 : immField w = 0 := by simpa using hzero
        rw [himm0, if_neg nofun]
  · rintro ⟨hres, hopc, himm⟩
    have hzero : ¬ (!decide (i.opcode ∈ cnOpcodes) && i.immediate ≠ 0) = true := by
      by_cases hcn : i.opcode ∈ cnOpcodes
      · simp [hcn]
      · simp [immediate_eq_zero hcn]
    simp only [decode, hres, ← hopc, ← himm, opcodeRow_opcode, if_neg hzero, ne_eq, not_true_eq_false, if_false]

/-- The values that are commands (30_encoding.md R81, R85). -/
theorem exists_decode_iff : (∃ i, decode w = .ok i) ↔
    w.extractLsb' 14 50 = 0 ∧ (∃ i : Instr, i.opcode = opcField w) ∧ (opcField w ∈ cnOpcodes ∨ immField w = 0) := by
  constructor
  · rintro ⟨i, h⟩
    obtain ⟨hres, hopc, himm⟩ := decode_eq_ok_iff.1 h
    refine ⟨hres, ⟨i, hopc⟩, or_iff_not_imp_left.2 fun hcn => ?_⟩
    rw [← himm, immediate_eq_zero (hopc ▸ hcn)]
  · rintro ⟨hres, ⟨i, hopc⟩, hcn⟩
    obtain ⟨j, hj, himm⟩ := exists_immediate i (hopc ▸ hcn)
    exact ⟨j, decode_eq_ok_iff.2 ⟨hres, hj.trans hopc, himm⟩⟩

theorem decodeTableWord_eq_some {nbits n : Nat} (h : decodeTableWord nbits n = some i) : decode (tableValue nbits n) = .ok i := by
  unfold decodeTableWord at h
  split at h
  · next j hj => cases h; exact hj
  · cases h

end Decoder

/-- Settles O1: a decoded command has the fields of the word, and the fields of a word determine it. -/
theorem decodeEncodeAgree : Obligations.DecodeEncodeAgree := by
  intro w i
  constructor
  · intro h
    obtain ⟨-, -, himm⟩ := decode_eq_ok_iff.1 h
    have hi : i.wellFormed = true := wellFormed_iff.2 (by rw [himm, immField_eq]; omega)
    exact ⟨hi, (eq_cmdValue_iff hi).2 (decode_eq_ok_iff.1 h)⟩
  · rintro ⟨hi, hw⟩
    exact decode_eq_ok_iff.2 ((eq_cmdValue_iff hi).1 hw)

/-! ### The issue of a value (30_encoding.md R85, R89) -/

section Issue
variable {s : State} {w : Word} {i : Instr}

theorem issue_decoded (h : decode w = .ok i) : issue w s = exec i s := by rw [issue, h]

/-- A command that raises at once completes with the error and changes nothing else (60_exceptions.md R206). -/
theorem runCommand_raise (e : Err) : runCommand (raise e) s = .next (s.failed e.code 0) := by
  have hfault : faultAfter s.fault e.code = true := by rw [faultAfter, bne_iff_ne.2 (code_ne_zero e), Bool.or_true]
  simp only [runCommand, raise_run, complete, State.completed, State.started, State.failed, hfault]

theorem issue_undecoded (h : ¬ ∃ i, decode w = .ok i) : issue w s = .next (s.failed 8 0) := by
  cases hd : decode w with
  | ok i => exact absurd ⟨i, hd⟩ h
  | error e =>
    rw [issue, hd]
    exact runCommand_raise .illegalCommand

/-- With nothing to come, a step issues the value in progress (30_encoding.md R90; log 1). -/
theorem step_alone (hr : s.running = some w) (hi : s.inbox = []) : step s = issue w s := by rw [step, stepOnce, hr, hi]

theorem step_elapse {rest : List HostAction} (hr : s.running = some w) (hi : s.inbox = .elapse :: rest) :
    step s = issue w (s.withInbox rest) := step_busy hr hi

end Issue

/-- Settles O3: the values that are no commands are those that do not decode. -/
theorem illegalCommandCompletes : Obligations.IllegalCommandCompletes := by
  intro w s illegal
  have hlegal : (∃ i, decode w = .ok i) ↔ ¬ illegal := by
    rw [exists_decode_iff]
    simp only [illegal, not_or, not_and_or, not_not, ne_eq, not_forall]
  constructor
  · exact fun h => issue_undecoded fun hd => hlegal.1 hd h
  · intro h
    obtain ⟨i, hi⟩ := hlegal.2 h
    obtain ⟨-, hopc, himm⟩ := decode_eq_ok_iff.1 hi
    exact ⟨i, hopc, himm, issue_decoded hi⟩

/-- Settles O2: each of the nine words is the word of a well-formed command, so it decodes to it. -/
theorem decodeSampleWords : Obligations.DecodeSampleWords := by
  refine ⟨?_, ?_, ?_, ?_, ?_, ?_, ?_, ?_, ?_⟩ <;> exact (decodeEncodeAgree _ _).2 (by decide)

/-- Settles O4: a step issues the value in progress, and `withFetchWord` puts the passing of time first. -/
theorem stepRunsDecoded : Obligations.StepRunsDecoded := by
  constructor
  · intro s w i rest hr hd
    exact ⟨fun hi => (step_alone hr hi).trans (issue_decoded hd), fun hi => (step_elapse hr hi).trans (issue_decoded hd)⟩
  · intro s nbits n i h
    have hstep : step (s.withFetchWord nbits n) = issue (tableValue nbits n) { s with running := some (tableValue nbits n) } :=
      step_elapse rfl rfl
    exact hstep.trans (issue_decoded (decodeTableWord_eq_some h))

end Sys2Proof.Proofs

/-! PROOFS. The system commands and the bit-length helper (40_system_and_tables.md R101 to R103), and what may clear `FAULT` (10_state.md
R23). -/

namespace Sys2Proof.Proofs
open Sys2Proof Sys2Proof.Machine Sys2Proof.Format Sys2Proof.Laws

/-! ### Commands that only answer a value (40_system_and_tables.md R101, R103) -/

/-- A completion without error leaves `FAULT` as it is (60_exceptions.md R206). -/
@[simp] theorem faultAfter_zero (b : Bool) : faultAfter b 0 = b := Bool.or_false b

/-- A command whose rule ends in the state it starts in changes nothing but `STATUS` and `RES0` (60_exceptions.md R206). -/
theorem runCommand_unchanged {r : Rule Word} {s : State} {v : Word} (h : r s.started = .ok v s.started) :
    runCommand r s = .next (s.succeeded v) := by
  simp only [runCommand, h, complete, State.completed, started_fault, faultAfter_zero]
  rfl

/-- A value other than 0 has a 1 at the highest bit of its length (00_scope.md R14). -/
theorem two_pow_bitsLen64_sub_one_le {v : Nat} (h : v ≠ 0) : 2 ^ (bitsLen64 v - 1) ≤ v := by
  rw [bitsLen64, if_neg h, Nat.add_sub_cancel]
  exact Nat.log2_self_le h

theorem exec_sysNop (s : State) : exec .sysNop s = .next (s.succeeded 0) := runCommand_unchanged rfl

theorem exec_utlBlen (s : State) : exec .utlBlen s = .next (s.succeeded (toWord (bitsLen64 s.arg0.toNat))) :=
  runCommand_unchanged rfl

/-- Settles O13: the rule of `SYS.NOP` ends at once, without an effect. -/
theorem nopOnlyCompletes : Obligations.NopOnlyCompletes := ⟨by decide, exec_sysNop⟩

/-- Settles O16: the bit length of a word is at most 64, and the word lies between the powers of 2 around it. -/
theorem bitLengthCommand : Obligations.BitLengthCommand := by
  refine ⟨by decide, fun s => ⟨_, exec_utlBlen s, ?_⟩⟩
  have hle : bitsLen64 s.arg0.toNat ≤ 64 := bitsLen64_le s.arg0.isLt
  rw [toWord_toNat (by omega)]
  refine ⟨hle, fun h0 => by rw [h0]; rfl, fun h0 => ?_⟩
  have hne : s.arg0.toNat ≠ 0 := fun h => h0 (BitVec.eq_of_toNat_eq h)
  exact ⟨bitsLen64_pos (Nat.pos_of_ne_zero hne), two_pow_bitsLen64_sub_one_le hne, lt_two_pow_bitsLen64 _⟩

/-! ### Commands keep `FAULT` (10_state.md R23, 60_exceptions.md R206) -/

section Fault
variable {s t : State}

/-- No rule but that of `SYS.RESET` touches `FAULT`, and no completion clears it. -/
theorem exec_keeps_fault {i : Instr} (hi : i ≠ .sysReset) (hs : s.fault = true) (hx : exec i s = .next t) : t.fault = true := by
  have allows : Allows (SameIn State.fault) fun _ => True :=
    ⟨fun _ => rfl, fun h k => k.trans h, fun _ _ _ _ => rfl, fun _ _ => trivial, fun _ => trivial⟩
  have completed {u : State} (hu : u.fault = s.started.fault) (e j : BitVec 8) (v : Word) : (u.completed e j v).fault = true := by
    rw [completed_fault, hu, started_fault, hs, faultAfter, Bool.true_or]
  cases exec_completed allows (fun _ => ⟨fun _ _ _ => rfl, fun _ _ _ _ => rfl, fun _ => rfl⟩)
    (fun _ => ⟨fun _ _ _ => rfl, fun _ _ _ _ => rfl, fun _ _ => rfl, trivial, trivial⟩)
    (fun _ => ⟨fun _ _ => rfl, fun _ _ => rfl, trivial⟩) (fun h => absurd h hi) hx with
  | ok v u hu ht => exact ht ▸ completed hu 0 0 v
  | raised e j u hu _ ht => exact ht ▸ completed hu e.code j 0

/-- A value that is no command raises an error, and any other command keeps `FAULT` (30_encoding.md R85, R89). -/
theorem issue_keeps_fault {w : Word} (hw : decode w ≠ .ok .sysReset) (hs : s.fault = true) (hx : issue w s = .next t) :
    t.fault = true := by
  by_cases hd : ∃ i, decode w = .ok i
  · obtain ⟨i, hi⟩ := hd
    rw [issue_decoded hi] at hx
    exact exec_keeps_fault (fun h => hw (h ▸ hi)) hs hx
  · rw [issue_undecoded hd] at hx
    cases hx
    exact failed_fault _ _ _

/-! ### Actions of the host keep `FAULT` (10_state.md R26) -/

@[simp] theorem writeRegister_fault (s : State) (off : Nat) (v : Word) : (s.writeRegister off v).fault = s.fault := by
  unfold State.writeRegister
  split <;> rfl

@[simp] theorem readWhileBusy_fault (s : State) (off : Nat) : (s.readWhileBusy off).fault = s.fault := by
  unfold State.readWhileBusy
  split_ifs <;> rfl

/-- An access at a host address is none of the block's business or takes place at an offset (10_state.md R26; log 31). -/
theorem atRegister_eq_next {addr : Nat} {size : AccessSize} {access : Nat → State} (hx : atRegister addr size s access = .next t) :
    t = s ∨ ∃ off, t = access off := by
  unfold atRegister at hx
  split at hx
  · cases hx; exact .inl rfl
  · next off _ =>
    split_ifs at hx
    cases hx; exact .inr ⟨off, rfl⟩

theorem atMemory_eq_next {addr : Nat} {u : State} (hx : atMemory addr u = .next t) : t = u := by
  unfold atMemory at hx
  split_ifs at hx
  cases hx; rfl

theorem atRegister_fault {addr : Nat} {size : AccessSize} {access : Nat → State} (haccess : ∀ off, (access off).fault = s.fault)
    (hx : atRegister addr size s access = .next t) : t.fault = s.fault := by
  rcases atRegister_eq_next hx with rfl | ⟨off, rfl⟩
  · rfl
  · exact haccess off

theorem actIdle_fault {a : HostAction} (ha : ∀ k, a ≠ .hwReset k) (hx : actIdle a s = .next t) : t.fault = s.fault := by
  cases a with
  | regWrite addr size v => exact atRegister_fault (fun off => writeRegister_fault s off v) hx
  | regRead addr size => exact atRegister_fault (fun _ => answered_fault s _) hx
  | memWrite addr b => obtain rfl := atMemory_eq_next hx; rfl
  | memRead addr => obtain rfl := atMemory_eq_next hx; rfl
  | hwReset k => exact absurd rfl (ha k)
  | elapse => cases hx; rfl

theorem actBusy_keeps_fault {w : Word} {a : HostAction} (hw : decode w ≠ .ok .sysReset) (ha : ∀ k, a ≠ .hwReset k)
    (hs : s.fault = true) (hx : actBusy w a s = .next t) : t.fault = true := by
  cases a with
  | regWrite addr size v => exact (atRegister_fault (fun _ => rfl) hx).trans hs
  | regRead addr size => exact (atRegister_fault (readWhileBusy_fault s) hx).trans hs
  | memWrite addr b =>
    simp only [actBusy] at hx
    split_ifs at hx
    obtain rfl := atMemory_eq_next hx
    exact hs
  | memRead addr =>
    simp only [actBusy] at hx
    split_ifs at hx
    obtain rfl := atMemory_eq_next hx
    exact hs
  | hwReset k => exact absurd rfl (ha k)
  | elapse => exact issue_keeps_fault hw hs hx

/-- A step that neither completes `SYS.RESET` nor takes the reset input keeps `FAULT` (40_system_and_tables.md R102). -/
theorem step_keeps_fault (hw : ∀ w, s.running = some w → decode w ≠ .ok .sysReset) (ha : ∀ k rest, s.inbox ≠ .hwReset k :: rest)
    (hs : s.fault = true) (hx : step s = .next t) : t.fault = true := by
  unfold step stepOnce at hx
  split at hx
  · cases hx; exact hs
  · next a rest _ hi => exact (actIdle_fault (fun k h => ha k rest (h ▸ hi)) hx).trans hs
  · next w hr _ => exact issue_keeps_fault (hw w hr) hs hx
  · next w a rest hr hi => exact actBusy_keeps_fault (s := s.withInbox rest) (hw w hr) (fun k h => ha k rest (h ▸ hi)) hs hx

end Fault

/-- Settles O14: `SYS.RESET` completes from the reset registers, and a step that is no reset of either kind keeps `FAULT`. -/
theorem resetCommand : Obligations.ResetCommand := by
  refine ⟨by decide, fun s => ⟨_, exec_sysReset_eq s, rfl⟩, fun s t hx hs ht => ?_⟩
  by_contra hreset
  obtain ⟨hw, ha⟩ := not_or.1 hreset
  have hkept : t.fault = true := step_keeps_fault (fun w hr hd => hw ⟨w, hr, hd⟩) (fun k rest hi => ha ⟨k, rest, hi⟩) hs hx
  rw [ht] at hkept
  cases hkept

end Sys2Proof.Proofs

/-! PROOFS. The commands of the bitstream writer (41_bitstream_writer.md R111 to R116), each from what its rule can do to the outcome of the
command, and the stream law of a session (R118). -/

namespace Sys2Proof.Proofs
open Sys2Proof Sys2Proof.Machine Sys2Proof.Format Sys2Proof.Laws

/-! ### From the end of a rule to the outcome of its command (60_exceptions.md R206) -/

section Outcome
variable {s u : State} {r : Rule Word} {v : Word} {e : Err}

theorem runCommand_of_ok (h : r s.started = .ok v u) : runCommand r s = .next (u.completed 0 0 v) := congrArg complete h

theorem runCommand_of_raised (h : r s.started = .error (.raised e 0) u) : runCommand r s = .next (u.completed e.code 0 0) :=
  congrArg complete h

/-- A rule that raises where it started has changed nothing but `STATUS` and `RES0`. -/
theorem runCommand_of_refused (h : r s.started = .error (.raised e 0) s.started) :
    runCommand r s = .next (s.failed e.code 0) := (runCommand_of_raised h).trans (runCommand_raise e)

/-- A command that answers nothing but that its rule has ended. -/
theorem runSilent_of_ok {r : Rule Unit} {a : Unit} (h : r s.started = .ok a u) :
    runCommand (do r; pure 0) s = .next (u.completed 0 0 0) := runCommand_of_ok (bind_run_ok h)

theorem runSilent_of_raised {r : Rule Unit} (h : r s.started = .error (.raised e 0) u) :
    runCommand (do r; pure 0) s = .next (u.completed e.code 0 0) := runCommand_of_raised (bind_run_error h)

theorem runSilent_of_refused {r : Rule Unit} (h : r s.started = .error (.raised e 0) s.started) :
    runCommand (do r; pure 0) s = .next (s.failed e.code 0) := runCommand_of_refused (bind_run_error h)

/-- A rule that has only stored bytes before it raised has changed nothing else but `STATUS` and `RES0`. -/
theorem withStores_raised_same (s : State) (l : List Host.Cell) (e : Err) :
    ((withStores s.started l).completed e.code 0 0).sameButMemory (s.failed e.code 0) :=
  Host.Outcome.next.inj (runCommand_raise (s := s) e)

theorem completed_without_error (u : State) (v : Word) :
    u.completed 0 0 v = { u with err := 0, suberr := 0, res0 := v, running := none } := by
  simp only [State.completed, faultAfter_zero]

end Outcome

/-! ### Stored bytes -/

section Bytes
variable {s t u : State} {base n k v : Nat}

theorem storedBytes_of_cells (h : t.mem = applyStores s.mem (cells base n v)) : t.storedBytes s base n v := fun a => by
  rw [h, read_applyStores_cells]

theorem byteAt_add (v i j : Nat) : byteAt v (i + j) = byteAt (v / 2 ^ (8 * i)) j := by
  unfold byteAt
  rw [Nat.mul_add, Nat.shiftRight_add, Nat.shiftRight_eq_div_pow v]

/-- The bytes of a number below a multiple of a higher power do not see that multiple. -/
theorem byteAt_add_mul {i : Nat} (hi : i < n) (v w : Nat) : byteAt (v + w * 2 ^ (8 * n)) i = byteAt v i := by
  obtain ⟨k, rfl⟩ := Nat.exists_eq_add_of_lt hi
  have hpow : 2 ^ (8 * (i + k + 1)) = 2 ^ (8 * k) * 256 * 2 ^ (8 * i) := by
    rw [show 8 * (i + k + 1) = 8 * k + 8 + 8 * i by omega, Nat.pow_add, Nat.pow_add]
  rw [byteAt, byteAt, Nat.shiftRight_eq_div_pow, Nat.shiftRight_eq_div_pow, hpow, ← Nat.mul_assoc,
    Nat.add_mul_div_right _ _ (Nat.two_pow_pos _), ← Nat.mul_assoc]
  apply BitVec.eq_of_toNat_eq
  rw [BitVec.toNat_ofNat, BitVec.toNat_ofNat]
  exact Nat.add_mul_mod_self_right _ _ _

/-- Two adjacent runs of stored bytes are one. -/
theorem storedBytes_append (h : t.storedBytes s base n v) (h' : u.storedBytes t (base + n) k (v / 2 ^ (8 * n))) :
    u.storedBytes s base (n + k) v := fun a => by
  rw [h' a, h a]
  by_cases hlow : a < base + n
  · rw [if_neg (by omega)]
    exact if_congr (by omega) rfl rfl
  · by_cases hhigh : a < base + n + k
    · rw [if_pos (by omega), if_pos (by omega), ← byteAt_add, show n + (a - (base + n)) = a - base by omega]
    · rw [if_neg (by omega), if_neg (by omega), if_neg (by omega)]

/-- The stored bytes hang on the low bytes of the number only. -/
theorem storedBytes_add_mul (h : t.storedBytes s base n v) (w : Nat) : t.storedBytes s base n (v + w * 2 ^ (8 * n)) := fun a => by
  rw [h a]
  by_cases ha : base ≤ a ∧ a < base + n
  · rw [if_pos ha, if_pos ha, byteAt_add_mul (by omega)]
  · rw [if_neg ha, if_neg ha]

theorem cells_succ : ∀ a n v : Nat, cells a (n + 1) v = cells a n v ++ [(a + n, byteAt v n)]
  | _, 0, _ => rfl
  | a, n + 1, v => by
    rw [cells, cells_succ (a + 1) n (v / 256), cells, byteAt_succ, show a + 1 + n = a + (n + 1) by omega, List.cons_append]

end Bytes

/-! ### The first refused byte (20_memory.md R62, R63) -/

theorem not_allAdmitted {p : Config.Platform} {a n k : Nat} (hk : k < n) (h : admitted p (a + k) = false) : ¬ AllAdmitted p a n :=
  fun hall => Bool.false_ne_true (h.symm.trans (hall _ (Nat.le_add_right _ _) (Nat.add_lt_add_left hk a)))

/-- A byte range has at most one first refused byte. -/
theorem first_refused_unique {p : Config.Platform} {a j k : Nat} (hj : AllAdmitted p a j) (hk : AllAdmitted p a k)
    (hj' : admitted p (a + j) = false) (hk' : admitted p (a + k) = false) : j = k := by
  rcases Nat.lt_trichotomy j k with h | h | h
  · exact absurd hk (not_allAdmitted h hj')
  · exact h
  · exact absurd hj (not_allAdmitted h hk')

/-! ### The registers of the writer (10_state.md R30; R112, R113, R116) -/

section Registers
variable {s : State}

theorem and_seven_eq (c : Count7) : c &&& 7 = toCount (c.toNat % 8) := by
  apply BitVec.eq_of_toNat_eq
  rw [and_seven, toCount_toNat (by omega)]

theorem toWord_self (w : Word) : toWord w.toNat = w := by simp

theorem ushiftRight_eq_toWord (w : Word) (k : Nat) : w >>> k = toWord (w.toNat >>> k) := by
  rw [← BitVec.toNat_ushiftRight, toWord_self]

/-- The merged accumulator holds the masked value above the pending bits; nothing is lost (R112). -/
theorem merged_wrAcc_toNat_or {v n : Nat} (h : s.wrCnt.toNat + n ≤ 64) :
    (s.merged v n).wrAcc.toNat = s.wrAcc.toNat ||| ((v &&& sizeMask n) <<< s.wrCnt.toNat) := by
  have hlt : (v &&& sizeMask n) <<< s.wrCnt.toNat < 2 ^ 64 :=
    (Nat.shiftLeft_lt (and_sizeMask_lt v n)).trans_le (Nat.pow_le_pow_right (by decide) (by omega))
  rw [merged_wrAcc, BitVec.toNat_or, toWord_toNat hlt]

theorem flushCells_eq (s : State) : flushCells s = cells s.wrPtr.toNat (s.wrCnt.toNat / 8) s.wrAcc.toNat := by
  rw [flushCells, wholeBytes_eq]

theorem afterFlush_eq (s : State) :
    afterFlush s = (withStores s (flushCells s)).withWriter (toWord (s.wrPtr.toNat + s.wrCnt.toNat / 8))
      (s.wrAcc >>> (8 * (s.wrCnt.toNat / 8))) (toCount (s.wrCnt.toNat % 8)) := by
  rw [afterFlush, State.flushed, withStores_wrPtr, withStores_wrAcc, withStores_wrCnt, wholeBytes_eq, and_seven_eq]

/-- What a flush that completes changes besides memory (R113, R206). -/
theorem afterFlush_same (s : State) :
    ((afterFlush s).completed 0 0 0).sameButMemory { s.succeeded 0 with
      wrPtr := toWord (s.wrPtr.toNat + s.wrCnt.toNat / 8), wrAcc := s.wrAcc >>> (8 * (s.wrCnt.toNat / 8)),
      wrCnt := toCount (s.wrCnt.toNat % 8) } := by
  rw [completed_without_error, afterFlush_eq]
  rfl

theorem afterFlush_stored (s : State) :
    ((afterFlush s).completed 0 0 0).storedBytes s s.wrPtr.toNat (s.wrCnt.toNat / 8) s.wrAcc.toNat :=
  storedBytes_of_cells (congrArg _ (flushCells_eq s))

/-- What a write that completes changes besides memory (R115, R206). -/
theorem afterWrite_same {v n : Nat} (h : s.wrCnt.toNat + n ≤ 64) :
    ((afterWrite s v n).completed 0 0 0).sameButMemory { s.succeeded 0 with
      wrPtr := toWord (s.wrPtr.toNat + (s.wrCnt.toNat + n) / 8),
      wrAcc := toWord ((s.wrAcc.toNat ||| ((v &&& sizeMask n) <<< s.wrCnt.toNat)) >>> (8 * ((s.wrCnt.toNat + n) / 8))),
      wrCnt := toCount ((s.wrCnt.toNat + n) % 8) } := by
  have hflush := afterFlush_same (s.merged v n)
  rwa [ushiftRight_eq_toWord, merged_wrAcc_toNat_or h, merged_wrCnt_toNat h] at hflush

theorem afterWrite_stored {v n : Nat} (h : s.wrCnt.toNat + n ≤ 64) :
    ((afterWrite s v n).completed 0 0 0).storedBytes s s.wrPtr.toNat ((s.wrCnt.toNat + n) / 8)
      (s.wrAcc.toNat ||| ((v &&& sizeMask n) <<< s.wrCnt.toNat)) := by
  have hflush := afterFlush_stored (s.merged v n)
  rwa [merged_wrAcc_toNat_or h, merged_wrCnt_toNat h] at hflush

theorem afterFlush_wrPtr_toNat (h : s.wrPtr.toNat + s.wrCnt.toNat / 8 < 2 ^ 64) :
    (afterFlush s).wrPtr.toNat = s.wrPtr.toNat + s.wrCnt.toNat / 8 := by
  rw [afterFlush_eq]
  exact toWord_toNat h

theorem afterFlush_wrCnt_eq_zero : (afterFlush s).wrCnt = 0 ↔ s.wrCnt.toNat % 8 = 0 := by
  rw [← flushed_wrCnt_toNat s s.wholeBytes, ← BitVec.toNat_inj]
  rfl

theorem bytesFor_eq (n : Nat) : bytesFor n = n / 8 + if n % 8 = 0 then 0 else 1 := by
  unfold bytesFor
  split_ifs <;> omega

/-- The stores of a close are those of all pending bits, the last byte padded with zeros (R116). -/
theorem closeCells_eq (h : s.wrPtr.toNat + s.wrCnt.toNat / 8 < 2 ^ 64) :
    closeCells s = cells s.wrPtr.toNat (bytesFor s.wrCnt.toNat) s.wrAcc.toNat := by
  rw [closeCells, tailCells, flushCells_eq, bytesFor_eq]
  simp only [afterFlush_wrCnt_eq_zero]
  split_ifs
  · exact List.append_nil _
  · rw [cells_succ, afterFlush_wrPtr_toNat h, afterFlush_eq, withWriter_wrAcc, BitVec.toNat_ushiftRight]
    rfl

theorem closeResult_eq (hb : s.wrBase.toNat ≤ s.wrPtr.toNat) (h : s.wrPtr.toNat + s.wrCnt.toNat / 8 < 2 ^ 64) :
    closeResult s = s.wrPtr.toNat - s.wrBase.toNat + bytesFor s.wrCnt.toNat := by
  rw [closeResult, afterFlush_wrPtr_toNat h, bytesFor_eq]
  simp only [afterFlush_wrCnt_eq_zero]
  omega

theorem afterClose_same (s : State) (v : Word) :
    ((afterClose s).completed 0 0 v).sameButMemory { s.succeeded v with
      wrPtr := toWord (s.wrPtr.toNat + s.wrCnt.toNat / 8), wrAcc := s.wrAcc >>> (8 * (s.wrCnt.toNat / 8)),
      wrCnt := toCount (s.wrCnt.toNat % 8), wrOpen := false } := by
  rw [completed_without_error, afterClose, afterFlush_eq]
  rfl

theorem afterClose_stored (h : s.wrPtr.toNat + s.wrCnt.toNat / 8 < 2 ^ 64) (v : Word) :
    ((afterClose s).completed 0 0 v).storedBytes s s.wrPtr.toNat (bytesFor s.wrCnt.toNat) s.wrAcc.toNat := by
  refine storedBytes_of_cells ?_
  rw [completed_mem, afterClose_eq, closeCells_eq h]
  rfl

end Registers

/-! ### The commands (R111 to R116)

The theorems bear the names of their obligations, which are those of the rules too, so they stand in a namespace of their own. -/

namespace Writer

/-- Settles O17: the three branches of the rule of `BSW.INIT`. -/
theorem writerInit : Obligations.WriterInit := by
  refine ⟨by decide, fun s => ?_⟩
  have hrun := writerInit_run s.started s.arg0.toNat s.arg1.toNat
  split_ifs at hrun with hfar hsmall
  · exact (runSilent_of_refused hrun).trans (if_pos hfar).symm
  · exact (runSilent_of_refused hrun).trans ((if_neg hfar).trans (if_pos hsmall)).symm
  · refine ((runSilent_of_ok hrun).trans ?_).trans ((if_neg hfar).trans (if_neg hsmall)).symm
    rw [completed_without_error, State.writerInitialised, toWord_self]
    rfl

/-- Settles O18: the three branches of the rule of `BSW.APPEND`; the merged registers overflow neither their 64 nor their 7 bits. -/
theorem writerAppend : Obligations.WriterAppend := by
  refine ⟨by decide, fun n s => ?_⟩
  have hrun := writerAppend_run s.started s.arg0.toNat n
  split_ifs at hrun with hclosed hbad
  · exact (if_pos hclosed).mpr (runSilent_of_refused hrun)
  · exact (if_neg hclosed).mpr ((if_pos hbad).mpr (runSilent_of_refused hrun))
  · refine (if_neg hclosed).mpr ((if_neg hbad).mpr ⟨_, runSilent_of_ok hrun, ?_, ?_, ?_⟩)
    · rw [completed_without_error]
      rfl
    · exact merged_wrAcc_toNat_or (s := s.started) (by omega)
    · exact merged_wrCnt_toNat (s := s.started) (v := s.arg0.toNat) (by omega)

/-- Settles O19: the cases of the rule of `BSW.FLUSH`; its stores end at the first refused byte, or there is none. -/
theorem writerFlush : Obligations.WriterFlush := by
  refine ⟨by decide, fun s hinv => ?_⟩
  rcases writerFlush_cases s.started with ⟨hclosed, hr⟩ | ⟨hopen, hpast, hr⟩ | ⟨hopen, hlim, hend⟩
  · exact (if_pos hclosed).mpr (runSilent_of_refused hr)
  · exact (if_neg (Bool.ne_false_iff.2 hopen)).mpr ((if_pos hpast).mpr (runSilent_of_refused hr))
  · refine (if_neg (Bool.ne_false_iff.2 hopen)).mpr ((if_neg hlim.not_gt).mpr ?_)
    obtain ⟨-, hcnt, -, -, hlimit⟩ := hinv hopen
    simp only [wholeBytes_eq, started_wrCnt, started_wrPtr, started_wrLimit, started_platform] at hend hlim
    rcases hend with ⟨hr, hall⟩ | ⟨j, hj, hr, hrefused, hall⟩ | ⟨-, -, -, hspace⟩
    · exact ⟨fun _ => ⟨_, runSilent_of_ok hr, afterFlush_same s.started, afterFlush_stored s.started⟩,
        fun k hk _ hrefused => absurd hall (not_allAdmitted hk hrefused)⟩
    · refine ⟨fun hadm => absurd (admitsRegion_ofBytes.1 hadm) (not_allAdmitted hj hrefused), fun k hk hadm hk' => ?_⟩
      obtain rfl := first_refused_unique hall (admitsRegion_ofBytes.1 hadm) hrefused hk'
      refine ⟨_, runSilent_of_raised hr, withStores_raised_same s _ .busError, storedBytes_of_cells ?_⟩
      rw [flushCells_eq, started_wrCnt, cells_take _ _ _ _ hj.le]
      rfl
    · omega

/-- Settles O20: the cases of the rule of `BSW.WRITE`; where it stores, it is the flush of the merged writer. -/
theorem writerWrite : Obligations.WriterWrite := by
  refine ⟨by decide, fun n s hinv => ?_⟩
  intro acc cnt
  rcases writerWrite_cases s.started s.arg0.toNat n with
    ⟨hclosed, hr⟩ | ⟨hopen, hbad, hr⟩ | ⟨hopen, hn, hfits, hpast, hr⟩ | ⟨hopen, hn, hfits, hlim, hend⟩
  · exact (if_pos hclosed).mpr (runSilent_of_refused hr)
  · exact (if_neg (Bool.ne_false_iff.2 hopen)).mpr ((if_pos hbad).mpr (runSilent_of_refused hr))
  · have hok : ¬ (57 < n ∨ 64 < cnt) := not_or.2 ⟨hn.not_gt, hfits.not_gt⟩
    exact (if_neg (Bool.ne_false_iff.2 hopen)).mpr ((if_neg hok).mpr ((if_pos hpast).mpr (runSilent_of_refused hr)))
  · have hok : ¬ (57 < n ∨ 64 < cnt) := not_or.2 ⟨hn.not_gt, hfits.not_gt⟩
    refine (if_neg (Bool.ne_false_iff.2 hopen)).mpr ((if_neg hok).mpr ((if_neg hlim.not_gt).mpr fun hadm => ?_))
    obtain ⟨-, -, -, -, hlimit⟩ := hinv hopen
    rw [wholeBytes_eq, merged_wrCnt_toNat hfits] at hend
    rcases hend with ⟨hr, -⟩ | ⟨j, hj, -, hrefused, -⟩ | ⟨-, -, -, hspace⟩
    · exact ⟨_, runSilent_of_ok hr, afterWrite_same hfits, afterWrite_stored hfits⟩
    · exact absurd (admitsRegion_ofBytes.1 hadm) (not_allAdmitted hj hrefused)
    · simp only [started_wrCnt, started_wrPtr, started_wrLimit] at hspace hlim hfits
      omega

/-- Settles O21: the cases of the rule of `BSW.CLOSE`; its stores are the bytes of all pending bits. -/
theorem writerClose : Obligations.WriterClose := by
  refine ⟨by decide, fun s hinv => ?_⟩
  rcases writerClose_cases s.started with ⟨hclosed, hr⟩ | ⟨hopen, hpast, hr⟩ | ⟨hopen, hlim, hend⟩
  · exact (if_pos hclosed).mpr (runCommand_of_refused hr)
  · exact (if_neg (Bool.ne_false_iff.2 hopen)).mpr ((if_pos hpast).mpr (runCommand_of_refused hr))
  · refine (if_neg (Bool.ne_false_iff.2 hopen)).mpr ((if_neg hlim.not_gt).mpr fun hadm => ?_)
    obtain ⟨-, hcnt, hbase, -, hlimit⟩ := hinv hopen
    have hspace : s.wrPtr.toNat + s.wrCnt.toNat / 8 < 2 ^ 64 := by
      simp only [Config.addressSpace, started_wrPtr, started_wrLimit] at hlimit hlim
      omega
    have hcells := closeCells_eq (s := s.started) hspace
    rcases hend with hr | ⟨k, hk, -, a, b, hget, hrefused⟩ | ⟨-, -, hstop⟩
    · rw [closeResult_eq (s := s.started) hbase hspace] at hr
      exact ⟨_, runCommand_of_ok hr, afterClose_same s.started _, afterClose_stored (s := s.started) hspace _⟩
    · rw [hcells, cells_length] at hk
      rw [hcells, cells_getElem? _ _ _ _ hk] at hget
      cases hget
      exact absurd (admitsRegion_ofBytes.1 hadm) (not_allAdmitted hk hrefused)
    · rw [wholeBytes_eq] at hstop
      exact absurd hspace hstop.not_ge

end Writer

/-! ### What the writer has put into the stream since a session began (R118) -/

section Session
variable {s u t : State} {base T S : Nat}

theorem streamBits_append (fs gs : List BitField) : streamBits (fs ++ gs) = streamBits fs + streamBits gs := by
  induction fs with
  | nil => exact (Nat.zero_add _).symm
  | cons f fs ih => rw [List.cons_append, streamBits, streamBits, ih, Nat.add_assoc]

/-- A stream that goes on has the new fields above the old ones. -/
theorem streamValue_append (fs gs : List BitField) :
    streamValue (fs ++ gs) = streamValue fs + streamValue gs * 2 ^ streamBits fs := by
  induction fs with
  | nil => simp [streamValue, streamBits]
  | cons f fs ih =>
    rw [List.cons_append, streamValue, streamValue, streamBits, ih, Nat.shiftLeft_eq, Nat.shiftLeft_eq, Nat.pow_add]
    ring

/-- In `u` the open writer has put a stream of `T` bits with the value `S` into the buffer at `base`: the complete bytes stored are those
of `S`, and nothing else in memory has changed since `s`; the pending bits are the rest of `S`. -/
structure Streamed (s : State) (base T S : Nat) (u : State) : Prop where
  isOpen : u.wrOpen = true
  base_eq : u.wrBase.toNat = base
  base_le : base ≤ u.wrPtr.toNat
  limit_lt : u.wrLimit.toNat + 8 < Config.addressSpace
  cnt_le : u.wrCnt.toNat ≤ 64
  acc_lt : u.wrAcc.toNat < 2 ^ u.wrCnt.toNat
  pos : T = 8 * (u.wrPtr.toNat - base) + u.wrCnt.toNat
  rest : u.wrAcc.toNat = S / 2 ^ (8 * (u.wrPtr.toNat - base))
  stored : u.storedBytes s base (u.wrPtr.toNat - base) S

/-- The stream is in memory and in the writer registers. -/
theorem Streamed.congr (h : Streamed s base T S u) (hw : writerView t = writerView u) (hm : t.mem = u.mem) :
    Streamed s base T S t := by
  obtain ⟨isOpen, base_eq, base_le, limit_lt, cnt_le, acc_lt, pos, rest, stored⟩ := h
  simp only [writerView, Prod.mk.injEq] at hw
  obtain ⟨hacc, hcnt, hbase, hptr, hlimit, hopen⟩ := hw
  unfold State.storedBytes at stored
  constructor
  all_goals simp only [State.storedBytes, hacc, hcnt, hbase, hptr, hlimit, hopen, hm]; assumption

theorem Streamed.started (h : Streamed s base T S u) : Streamed s base T S u.started := h.congr rfl rfl

theorem Streamed.completed (h : Streamed s base T S u) (e i : BitVec 8) (v : Word) : Streamed s base T S (u.completed e i v) :=
  h.congr rfl rfl

/-- A fresh writer holds the empty stream (R111). -/
theorem Streamed.init {cap : Nat} (h : base + cap < Config.addressSpace) (hc : 8 ≤ cap) :
    Streamed u base 0 0 (u.writerInitialised base cap) := by
  obtain ⟨hready, hbase, hlimit, -, -⟩ := writerInitialised_ready u h hc
  have hptr : (u.writerInitialised base cap).wrPtr.toNat = base := hbase
  refine ⟨rfl, hbase, hptr.ge, hready.limit_lt, by simp, by simp, ?_, by simp, fun a => ?_⟩
  · rw [hptr, Nat.sub_self]
    rfl
  · rw [hptr, if_neg (by omega)]
    rfl

/-- Merged bits go to the end of the stream; the stored bytes do not see them (R112). -/
theorem Streamed.merged (h : Streamed s base T S u) {v n : Nat} (hn : u.wrCnt.toNat + n ≤ 64) :
    Streamed s base (T + n) (S + (v &&& sizeMask n) * 2 ^ T) (u.merged v n) := by
  have hcnt := merged_wrCnt_toNat (v := v) hn
  have hvalue : (v &&& sizeMask n) * 2 ^ T =
      (v &&& sizeMask n) * 2 ^ u.wrCnt.toNat * 2 ^ (8 * (u.wrPtr.toNat - base)) := by
    rw [h.pos, Nat.pow_add]
    ring
  refine ⟨h.isOpen, h.base_eq, h.base_le, h.limit_lt, hcnt.trans_le hn, ?_, ?_, ?_, ?_⟩
  · rw [hcnt]
    exact merged_wrAcc_lt h.acc_lt hn
  · rw [hcnt, ← Nat.add_assoc, h.pos]
    rfl
  · rw [merged_wrAcc_toNat h.acc_lt hn, hvalue, merged_wrPtr, Nat.add_mul_div_right _ _ (Nat.two_pow_pos _), h.rest]
  · rw [hvalue]
    exact storedBytes_add_mul h.stored _

/-- A flush moves the complete pending bytes to memory; the stream is the same (R113). -/
theorem Streamed.flushed (h : Streamed s base T S u) (hlim : u.wrPtr.toNat ≤ u.wrLimit.toNat) :
    Streamed s base T S (afterFlush u) := by
  obtain ⟨hready, -, -, hptr, hcnt, hacc⟩ :=
    afterFlush_ready h.isOpen h.acc_lt h.cnt_le (h.base_eq.trans_le h.base_le) hlim h.limit_lt
  have hbytes : (afterFlush u).wrPtr.toNat - base = u.wrPtr.toNat - base + u.wrCnt.toNat / 8 := by
    have := h.base_le
    omega
  have hpos := h.pos
  refine ⟨h.isOpen, h.base_eq, ?_, h.limit_lt, ?_, hready.acc_lt, ?_, ?_, ?_⟩
  · exact hptr ▸ h.base_le.trans (Nat.le_add_right _ _)
  · exact hready.cnt_le.trans (by decide)
  · omega
  · rw [hacc, hbytes, h.rest, Nat.div_div_eq_div_mul, ← Nat.pow_add, ← Nat.mul_add]
  · rw [hbytes]
    refine storedBytes_append h.stored ?_
    rw [Nat.add_sub_cancel' h.base_le, ← h.rest]
    exact afterFlush_stored u

/-! ### The commands of a session (R112 to R116) -/

theorem writerInit_streamed (s : State) (base cap : Nat) :
    Ends (Machine.writerInit base cap) s (fun _ => Streamed s base 0 0) fun _ _ => True := by
  have hrun := writerInit_run s base cap
  split_ifs at hrun with hfar hsmall
  · exact .of_raised hrun trivial
  · exact .of_raised hrun trivial
  · exact .of_ok hrun (.init (by omega) (by omega))

theorem Streamed.writerAppend (h : Streamed s base T S u) (v n : Nat) :
    Ends (Machine.writerAppend v n) u (fun _ => Streamed s base (T + n) (S + (v &&& sizeMask n) * 2 ^ T)) fun _ _ => True := by
  have hrun := writerAppend_run u v n
  split_ifs at hrun with hclosed hbad
  · exact .of_raised hrun trivial
  · exact .of_raised hrun trivial
  · exact .of_ok hrun (h.merged (by omega))

theorem Streamed.writerWrite (h : Streamed s base T S u) (v n : Nat) :
    Ends (Machine.writerWrite v n) u (fun _ => Streamed s base (T + n) (S + (v &&& sizeMask n) * 2 ^ T)) fun _ _ => True := by
  rcases writerWrite_cases u v n with
    ⟨-, hr⟩ | ⟨-, -, hr⟩ | ⟨-, -, -, -, hr⟩ | ⟨-, -, hfits, hlim, ⟨hr, -⟩ | ⟨k, -, hr, -⟩ | ⟨k, -, hr, -⟩⟩
  · exact .of_raised hr trivial
  · exact .of_raised hr trivial
  · exact .of_raised hr trivial
  · exact .of_ok hr ((h.merged hfits).flushed hlim)
  · exact .of_raised hr trivial
  · exact .of_stopped hr

theorem Streamed.writerFlush (h : Streamed s base T S u) :
    Ends Machine.writerFlush u (fun _ => Streamed s base T S) fun _ _ => True := by
  rcases writerFlush_cases u with
    ⟨-, hr⟩ | ⟨-, -, hr⟩ | ⟨-, hlim, ⟨hr, -⟩ | ⟨k, -, hr, -⟩ | ⟨k, -, hr, -⟩⟩
  · exact .of_raised hr trivial
  · exact .of_raised hr trivial
  · exact .of_ok hr (h.flushed hlim)
  · exact .of_raised hr trivial
  · exact .of_stopped hr

/-- The total of bytes that `BSW.CLOSE` answers is that of the stream, and they are all stored (R116). -/
theorem Streamed.writerClose (h : Streamed s base T S u) :
    Ends Machine.writerClose u (fun v t => v.toNat = bytesFor T ∧ t.storedBytes s base (bytesFor T) S) fun _ _ => True := by
  rcases writerClose_cases u with ⟨-, hr⟩ | ⟨-, -, hr⟩ | ⟨-, hlim, hr | ⟨k, -, hr, -⟩ | ⟨t, hr, -⟩⟩
  · exact .of_raised hr trivial
  · exact .of_raised hr trivial
  · have hcnt := h.cnt_le
    have hlimit : u.wrLimit.toNat + 8 < 2 ^ 64 := h.limit_lt
    have hspace : u.wrPtr.toNat + u.wrCnt.toNat / 8 < 2 ^ 64 := by omega
    have htotal : u.wrPtr.toNat - base + bytesFor u.wrCnt.toNat = bytesFor T := by
      rw [h.pos]
      unfold bytesFor
      omega
    rw [closeResult_eq (h.base_eq.trans_le h.base_le) hspace, h.base_eq, htotal] at hr
    refine .of_ok hr ⟨toWord_toNat ?_, ?_⟩
    · unfold bytesFor at htotal ⊢
      omega
    · rw [← htotal]
      refine storedBytes_append h.stored ?_
      rw [Nat.add_sub_cancel' h.base_le, ← h.rest]
      exact afterClose_stored hspace 0
  · exact .of_raised hr trivial
  · exact .of_stopped hr

/-- A silent command without an error has done what its rule does. -/
theorem Ends.silent_ok_of_err {r : Rule Unit} {Q : State → Prop} {E : Err → State → Prop} (h : Ends r s.started (fun _ => Q) E)
    (hx : runCommand (do r; pure 0) s = .next t) (ht : t.err = 0) : ∃ u, Q u ∧ t = u.completed 0 0 0 := by
  have hrule : Ends (do r; pure (0 : Word)) s.started (fun v u => Q u ∧ v = 0) E := h.bind fun _ _ hu => .of_ok rfl ⟨hu, rfl⟩
  obtain ⟨_, u, ⟨hu, rfl⟩, rfl⟩ := hrule.ok_of_err hx ht
  exact ⟨u, hu, rfl⟩

/-- An action that completes without error puts its fields at the end of the stream. -/
theorem Streamed.act (h : Streamed s base T S u) {a : WriterAction} (hx : a.run u = .next t) (ht : t.err = 0) :
    Streamed s base (T + streamBits a.fields) (S + streamValue a.fields * 2 ^ T) t := by
  cases a with
  | append v n =>
    have hstart : Streamed s base T S { u with arg0 := v }.started := h.congr rfl rfl
    obtain ⟨w, hw, rfl⟩ := (hstart.writerAppend v.toNat n).silent_ok_of_err hx ht
    simpa [WriterAction.fields, streamBits, streamValue] using hw.completed 0 0 0
  | write v n =>
    have hstart : Streamed s base T S { u with arg0 := v }.started := h.congr rfl rfl
    obtain ⟨w, hw, rfl⟩ := (hstart.writerWrite v.toNat n).silent_ok_of_err hx ht
    simpa [WriterAction.fields, streamBits, streamValue] using hw.completed 0 0 0
  | flush =>
    obtain ⟨w, hw, rfl⟩ := h.started.writerFlush.silent_ok_of_err hx ht
    simpa [WriterAction.fields, streamBits, streamValue] using hw.completed 0 0 0

theorem runWriter_cons {a : WriterAction} {rest : List WriterAction} :
    runWriter (a :: rest) s = some t ↔ ∃ w, a.run s = .next w ∧ w.err = 0 ∧ runWriter rest w = some t := by
  rw [runWriter]
  cases a.run s <;> simp

theorem Streamed.run : ∀ {acts : List WriterAction} {T S : Nat} {u : State}, Streamed s base T S u → runWriter acts u = some t →
    Streamed s base (T + streamBits (acts.flatMap WriterAction.fields))
      (S + streamValue (acts.flatMap WriterAction.fields) * 2 ^ T) t
  | [], T, S, u, h, hrun => by
    cases hrun
    simpa [streamBits, streamValue] using h
  | a :: rest, T, S, u, h, hrun => by
    obtain ⟨w, hx, hw, hrest⟩ := runWriter_cons.1 hrun
    have hstream := (h.act hx hw).run hrest
    rw [Nat.add_assoc, ← streamBits_append, Nat.pow_add] at hstream
    rw [List.flatMap_cons, streamValue_append, Nat.add_mul, ← Nat.add_assoc]
    convert hstream using 2
    ring

end Session

/-- Settles O23: `BSW.INIT` opens the empty stream, every action puts its fields at the end, `BSW.CLOSE` stores what is pending. -/
theorem streamLaw : Obligations.StreamLaw := by
  intro s t u v acts hinit ht hacts hclose hv fs
  obtain ⟨w, hw, rfl⟩ := (writerInit_streamed s.started s.arg0.toNat s.arg1.toNat).silent_ok_of_err hinit ht
  obtain ⟨r, x, ⟨hr, hx⟩, rfl⟩ := ((hw.completed 0 0 0).run hacts).started.writerClose.ok_of_err hclose hv
  simp only [Nat.zero_add, Nat.pow_zero, Nat.mul_one] at hr hx
  exact ⟨hr, hx⟩

end Sys2Proof.Proofs

/-! PROOFS. The commands of the bitstream reader (42_bitstream_reader.md R131 to R134), each from what its rule can do to the outcome of the
command, and the read law (R136). -/

namespace Sys2Proof.Proofs
open Sys2Proof Sys2Proof.Machine Sys2Proof.Format Sys2Proof.Laws

/-! ### The position of a reader that meets its invariants (10_state.md R33) -/

section Position
variable {s : State}

theorem loadAddr_le_rdEnd (h : ReaderReady s) : s.loadAddr ≤ s.rdEnd.toNat := by
  obtain ⟨-, hcons, hloaded, -, hptr, -⟩ := h
  rw [loadAddr_eq]
  omega

/-- No byte remains exactly when the position is the end of the input. -/
theorem rdEnd_le_loadAddr_iff (h : ReaderReady s) : s.rdEnd.toNat ≤ s.loadAddr ↔ s.readerPos = s.inputBits := by
  obtain ⟨-, hcons, hloaded, hbase, hptr, -⟩ := h
  rw [loadAddr_eq, State.readerPos, State.inputBits]
  omega

theorem lacksBits_eq_true {n : Nat} : s.lacksBits n = true ↔ ¬ s.rdCons.toNat + n ≤ s.rdLoaded.toNat := by simp [State.lacksBits]

theorem lacksBits_eq_false {n : Nat} : s.lacksBits n = false ↔ s.rdCons.toNat + n ≤ s.rdLoaded.toNat := by simp [State.lacksBits]

theorem allAdmitted_of_readerRegion (h : s.admitsRegion s.readerRegion) :
    AllAdmitted s.platform s.rdPtr.toNat (s.rdEnd.toNat - s.rdPtr.toNat) := fun a hlow hhigh =>
  h a (holds_iff.2 ⟨hlow, show a < s.rdEnd.toNat by omega⟩)

end Position

/-! ### A load, branch by branch (R132) -/

section Load
variable {s : State}

theorem loadBody_at_end (h : s.rdEnd.toNat ≤ s.loadAddr) : loadBody s = .error (.raised .endOfStream 0) s := by
  rcases loadBody_cases s with ⟨-, hr⟩ | ⟨hlt, -⟩ | ⟨hlt, -⟩
  · exact hr
  · exact absurd h hlt.not_ge
  · exact absurd h hlt.not_ge

theorem loadBody_refused (h : s.loadAddr < s.rdEnd.toNat) (hno : ¬ AllAdmitted s.platform s.loadAddr (loadBytes s)) :
    loadBody s = .error (.raised .busError 0) s := by
  rcases loadBody_cases s with ⟨hend, -⟩ | ⟨-, -, hr⟩ | ⟨-, hall, -⟩
  · exact absurd hend h.not_ge
  · exact hr
  · exact absurd hall hno

theorem loadBody_run (h : s.loadAddr < s.rdEnd.toNat) (hall : AllAdmitted s.platform s.loadAddr (loadBytes s)) :
    loadBody s = .ok ⟨⟩ (afterLoad s) := by
  rcases loadBody_cases s with ⟨hend, -⟩ | ⟨-, hno, -⟩ | ⟨-, -, hr⟩
  · exact absurd hend h.not_ge
  · exact absurd hall hno
  · exact hr

/-- The registers after a load; the bits of the partly consumed first byte stay consumed. -/
theorem afterLoad_eq (s : State) :
    afterLoad s = { s with
      rdLa := toWord (memNat s.mem s.loadAddr (loadBytes s)), rdLoaded := toCount (8 * loadBytes s),
      rdCons := toCount (s.rdCons.toNat % 8), rdPtr := toWord s.loadAddr } := by
  rw [afterLoad, State.loaded, and_seven_eq]

theorem afterLoad_rdLa_toNat (s : State) : (afterLoad s).rdLa.toNat = memNat s.mem s.loadAddr (loadBytes s) := by
  have hlen : loadBytes s ≤ 8 := Nat.min_le_left _ _
  exact toWord_toNat ((memNat_lt _ _ _).trans_le (Nat.pow_le_pow_right (by decide) (by omega)))

theorem afterLoad_rdCons_toNat (s : State) : (afterLoad s).rdCons.toNat = s.rdCons.toNat % 8 := and_seven s.rdCons

theorem afterLoad_rdLoaded_toNat (s : State) : (afterLoad s).rdLoaded.toNat = 8 * loadBytes s := by
  have hlen : loadBytes s ≤ 8 := Nat.min_le_left _ _
  exact toCount_toNat (by omega)

theorem readerLoad_closed (h : s.rdOpen = false) : readerLoad s = .error (.raised .notOpen 0) s :=
  bind_run_error (by rw [raiseIfReaderClosed_run, h]; rfl)

theorem readerLoad_open (h : s.rdOpen = true) : readerLoad s = loadBody s :=
  bind_run_ok (a := ()) (t := s) (by rw [raiseIfReaderClosed_run, h]; rfl)

end Load

/-! ### A read, branch by branch (R133) -/

section Read
variable {s t : State} {n : Nat}

/-- A read that the lookahead serves. -/
theorem readerRead_buffered (ho : s.rdOpen = true) (hn : n ≤ 57) (hl : s.lacksBits n = false) :
    readerRead n s = .ok (s.bufferedField n) (s.consumed n) := by
  have hensure : ensureBits n s = .ok () s := by rw [ensureBits, bind_run_ok (get_run s), hl]; rfl
  rw [readerRead_run ho hn, hensure]

/-- A read that the lookahead does not serve loads first. -/
theorem ensureBits_short (hl : s.lacksBits n = true) :
    ensureBits n s = (do loadBody; let t ← get; raiseIf (t.lacksBits n) .notEnoughBits) s := by
  rw [ensureBits, bind_run_ok (get_run s), if_pos hl]

theorem readerRead_load_raised {e : Err} (ho : s.rdOpen = true) (hn : n ≤ 57) (hl : s.lacksBits n = true)
    (hload : loadBody s = .error (.raised e 0) t) : readerRead n s = .error (.raised e 0) t := by
  rw [readerRead_run ho hn, ensureBits_short hl, bind_run_error hload]

/-- After the load the field is there, or the loaded registers stay beside the error. -/
theorem readerRead_loaded {a : Unit} (ho : s.rdOpen = true) (hn : n ≤ 57) (hl : s.lacksBits n = true)
    (hload : loadBody s = .ok a t) :
    readerRead n s =
      if t.lacksBits n then .error (.raised .notEnoughBits 0) t else .ok (t.bufferedField n) (t.consumed n) := by
  rw [readerRead_run ho hn, ensureBits_short hl, bind_run_ok hload, bind_run_ok (get_run t), raiseIf_run]
  cases t.lacksBits n <;> rfl

/-- Which end of the stream a failed read reports. -/
theorem readerRead_error {e : Err} (h : ReaderReady s) (hn : n ≤ 57) (hr : readerRead n s = .error (.raised e 0) t) :
    e = .busError ∨ e = if s.readerPos = s.inputBits then .endOfStream else .notEnoughBits := by
  rw [readerRead_run h.isOpen hn] at hr
  rcases ensureBits_cases s n with ⟨-, hend, he⟩ | ⟨-, -, -, he⟩ | ⟨-, hlt, -, he⟩ | ⟨-, -, he⟩
  · rw [he] at hr
    cases hr
    exact .inr (if_pos ((rdEnd_le_loadAddr_iff h).1 hend)).symm
  · rw [he] at hr
    cases hr
    exact .inl rfl
  · rw [he] at hr
    cases hr
    exact .inr (if_neg fun hpos => hlt.not_ge ((rdEnd_le_loadAddr_iff h).2 hpos)).symm
  · rw [he] at hr
    cases hr

/-! ### From the end of a read to the outcome of its command (60_exceptions.md R206) -/

theorem exec_bsrRead_of_ok {v : Nat} (h : readerRead n s.started = .ok v t) :
    exec (.bsrRead n) s = .next (t.completed 0 0 (toWord v)) := runCommand_of_ok (bind_run_ok h)

theorem exec_bsrRead_of_raised {e : Err} (h : readerRead n s.started = .error (.raised e 0) t) :
    exec (.bsrRead n) s = .next (t.completed e.code 0 0) := runCommand_of_raised (bind_run_error h)

theorem exec_bsrRead_of_refused {e : Err} (h : readerRead n s.started = .error (.raised e 0) s.started) :
    exec (.bsrRead n) s = .next (s.failed e.code 0) := runCommand_of_refused (bind_run_error h)

/-- A read that needs a byte where none remains. -/
theorem exec_bsrRead_at_end (ho : s.rdOpen = true) (hn : n ≤ 57) (hl : s.lacksBits n = true) (hend : s.rdEnd.toNat ≤ s.loadAddr) :
    exec (.bsrRead n) s = .next (s.failed 2 0) :=
  exec_bsrRead_of_refused (readerRead_load_raised (s := s.started) ho hn hl (loadBody_at_end hend))

/-- A reader operation changes no register but four of the reader's, and its completion `STATUS` and `RES0`. -/
theorem completed_of_readFrame (h : ReadFrame s.started t) (e : BitVec 8) (v : Word) :
    t.completed e 0 v = { s with
      rdLa := t.rdLa, rdLoaded := t.rdLoaded, rdCons := t.rdCons, rdPtr := t.rdPtr, err := e, suberr := 0,
      fault := s.fault || e != 0, res0 := v, running := none, storeTrace := [] } :=
  congrArg (fun u => u.completed e 0 v) h.same

end Read

/-! ### A fresh reader (R131) -/

theorem exec_bsrInit (s : State) : exec .bsrInit s =
    if 2 ^ 64 ≤ s.arg0.toNat + s.arg1.toNat then .next (s.failed 11 0)
    else .next { s.succeeded 0 with
      rdBase := s.arg0, rdPtr := s.arg0, rdEnd := toWord (s.arg0.toNat + s.arg1.toNat), rdLa := 0, rdLoaded := 0, rdCons := 0,
      rdOpen := true } := by
  have hrun := readerInit_run s.started s.arg0.toNat s.arg1.toNat
  split_ifs at hrun with hfar
  · exact (runSilent_of_refused hrun).trans (if_pos hfar).symm
  · refine ((runSilent_of_ok hrun).trans ?_).trans (if_neg hfar).symm
    rw [completed_without_error, State.readerInitialised, toWord_self]
    rfl

/-! ### Readers stay open (10_state.md R32) -/

/-- No rule but that of `SYS.RESET` closes a reader. -/
theorem exec_keeps_rdOpen {i : Instr} {s t : State} (hi : i ≠ .sysReset) (hs : s.rdOpen = true) (hx : exec i s = .next t) :
    t.rdOpen = true := by
  have allows : Allows (fun u v => u.rdOpen = true → v.rdOpen = true) fun _ => True :=
    ⟨fun _ => id, fun h k hu => k (h hu), fun _ _ _ _ => id, fun _ _ => trivial, fun _ => trivial⟩
  cases exec_completed allows (fun _ => ⟨fun _ _ _ => id, fun _ _ _ _ => id, fun _ => id⟩)
    (fun _ => ⟨fun _ _ _ _ => rfl, fun _ _ _ _ => id, fun _ _ => id, trivial, trivial⟩)
    (fun _ => ⟨fun _ _ => id, fun _ _ => id, trivial⟩) (fun h => absurd h hi) hx with
  | ok r u hu ht => exact ht ▸ hu hs
  | raised e j u hu _ ht => exact ht ▸ hu hs

/-! ### The commands (R131 to R134)

The theorems bear the names of their obligations, which are those of the rules too, so they stand in a namespace of their own. -/

namespace Reader

/-- Settles O25: a closed reader, then the branches of `LoadBody`. -/
theorem readerLoad : Obligations.ReaderLoad := by
  refine ⟨by decide, fun s hinv => ?_⟩
  simp only [← loadAddr_eq, admitsRegion_ofBytes]
  by_cases hclosed : s.rdOpen = false
  · exact (if_pos hclosed).mpr (runSilent_of_refused (readerLoad_closed hclosed))
  have hopen : s.rdOpen = true := by simpa using hclosed
  have hle : s.loadAddr ≤ s.rdEnd.toNat := loadAddr_le_rdEnd (.of_inv hinv hopen)
  have hrun : Machine.readerLoad s.started = loadBody s.started := readerLoad_open hopen
  refine (if_neg hclosed).mpr ⟨hle, ?_⟩
  split_ifs with hend
  · exact runSilent_of_refused (hrun.trans (loadBody_at_end hend.ge))
  · have hlt : s.started.loadAddr < s.started.rdEnd.toNat := lt_of_le_of_ne hle hend
    refine ⟨fun hall => ?_, fun hno => runSilent_of_refused (hrun.trans (loadBody_refused hlt hno))⟩
    refine (runSilent_of_ok (hrun.trans (loadBody_run hlt hall))).trans ?_
    rw [completed_without_error, afterLoad_eq]
    rfl

/-- Settles O26: the checks, a read from the lookahead, then the branches of `LoadBody`, the last of them split by what it loads. -/
theorem readerRead : Obligations.ReaderRead := by
  refine ⟨by decide, fun n s hinv => ?_⟩
  simp only [← loadAddr_eq, admitsRegion_ofBytes]
  by_cases hclosed : s.rdOpen = false
  · exact (if_pos hclosed).mpr (exec_bsrRead_of_refused (readerRead_refused.1 hclosed))
  have hopen : s.started.rdOpen = true := by simpa using hclosed
  have hle : s.loadAddr ≤ s.rdEnd.toNat := loadAddr_le_rdEnd (.of_inv hinv hopen)
  refine (if_neg hclosed).mpr ?_
  by_cases hbad : 57 < n
  · exact (if_pos hbad).mpr (exec_bsrRead_of_refused (readerRead_refused.2 hopen hbad))
  have hn : n ≤ 57 := Nat.not_lt.1 hbad
  refine (if_neg hbad).mpr ?_
  by_cases hbuffered : s.rdCons.toNat + n ≤ s.rdLoaded.toNat
  · refine (if_pos hbuffered).mpr
      ((exec_bsrRead_of_ok (readerRead_buffered hopen hn (lacksBits_eq_false.2 hbuffered))).trans ?_)
    rw [completed_without_error]
    rfl
  have hl : s.started.lacksBits n = true := lacksBits_eq_true.2 hbuffered
  refine (if_neg hbuffered).mpr ?_
  by_cases hend : s.loadAddr = s.rdEnd.toNat
  · exact (if_pos hend).mpr (exec_bsrRead_at_end hopen hn hl hend.ge)
  have hlt : s.started.loadAddr < s.started.rdEnd.toNat := lt_of_le_of_ne hle hend
  refine (if_neg hend).mpr
    ⟨fun hno => exec_bsrRead_of_refused (readerRead_load_raised hopen hn hl (loadBody_refused hlt hno)), fun hall => ?_⟩
  have hrun := readerRead_loaded hopen hn hl (loadBody_run hlt hall)
  have hfits : (afterLoad s.started).lacksBits n = false ↔
      s.rdCons.toNat % 8 + n ≤ 8 * min 8 (s.rdEnd.toNat - s.loadAddr) := by
    rw [lacksBits_eq_false, afterLoad_rdCons_toNat, afterLoad_rdLoaded_toNat]
    rfl
  cases hb : (afterLoad s.started).lacksBits n with
  | false =>
    rw [hb, if_neg Bool.false_ne_true] at hrun
    refine (if_pos (hfits.1 hb)).mpr ((exec_bsrRead_of_ok hrun).trans ?_)
    rw [completed_without_error, State.bufferedField, State.consumed, afterLoad_rdLa_toNat, afterLoad_rdCons_toNat, afterLoad_eq]
    rfl
  | true =>
    rw [hb, if_pos rfl] at hrun
    refine (if_neg fun h => Bool.false_ne_true ((hfits.2 h).symm.trans hb)).mpr ((exec_bsrRead_of_raised hrun).trans ?_)
    have hfault : faultAfter s.fault Err.notEnoughBits.code = true := Bool.or_true _
    rw [State.completed, afterLoad_eq, started_fault, hfault]
    rfl

/-- Settles O28: the bytes of the position do not exceed those of the input, so `RES0` holds their number. -/
theorem readerSize : Obligations.ReaderSize := by
  refine ⟨by decide, fun s hinv => ?_⟩
  have hrun := readerSize_run s.started
  by_cases hclosed : s.rdOpen = false
  · rw [started_rdOpen, hclosed, if_neg Bool.false_ne_true] at hrun
    exact (if_pos hclosed).mpr (runCommand_of_refused hrun)
  have hopen : s.rdOpen = true := by simpa using hclosed
  rw [started_rdOpen, hopen, if_pos rfl] at hrun
  obtain ⟨-, -, -, -, -, -, hpos⟩ := hinv hopen
  have hsize : (toWord s.bytesConsumed).toNat = s.bytesConsumed := by
    refine toWord_toNat ?_
    rw [bytesConsumed_eq, bytesFor]
    omega
  exact (if_neg hclosed).mpr ⟨_, runCommand_unchanged hrun, hsize, hsize.trans (bytesConsumed_eq s)⟩

/-- Settles O24: a reader over no bytes starts at its end. -/
theorem readerInit : Obligations.ReaderInit := by
  refine ⟨by decide, exec_bsrInit, fun n s t hlen hx hpos hn => ?_, fun i s t hi hs hx => exec_keeps_rdOpen hi hs hx⟩
  have hsum : s.arg0.toNat + s.arg1.toNat = s.arg0.toNat := by rw [hlen]; rfl
  rw [exec_bsrInit, hsum, if_neg s.arg0.isLt.not_ge, toWord_self] at hx
  cases hx
  refine exec_bsrRead_at_end rfl hn (lacksBits_eq_true.2 ?_) (Nat.le_add_right _ _)
  exact Nat.not_le.2 (Nat.lt_of_lt_of_le hpos (Nat.le_add_left _ _))

/-- Settles O27: a read ends normally within the input, or reports the end it met; the platform refuses no byte. -/
theorem readLaw : Obligations.ReadLaw := by
  intro n s hopen hinv hfresh hn hadm
  have hready : ReaderReady s.started := .of_inv hinv hopen
  rcases readerRead_ready_cases hready hn with ⟨v, t, hr, hdone, hv, hin, hvalue⟩ | ⟨t, e, hr, hdone, hcause⟩
  · have hres : (toWord v).toNat = v := toWord_toNat (hv.trans_le (Nat.pow_le_pow_right (by decide) (by omega)))
    exact ⟨_, exec_bsrRead_of_ok hr, hdone.ready.readerInv, hdone.fresh hfresh, hdone.frame.mem,
      completed_of_readFrame hdone.frame 0 _, (if_pos hin).mpr ⟨rfl, hres.trans (hvalue hfresh), hdone.pos⟩⟩
  · refine ⟨_, exec_bsrRead_of_raised hr, hdone.ready.readerInv, hdone.fresh hfresh, hdone.frame.mem,
      completed_of_readFrame hdone.frame _ 0, ?_⟩
    obtain ⟨hend, hout⟩ := hcause.resolve_right fun h => h.2 (allAdmitted_of_readerRegion hadm)
    have hbus : e ≠ .busError := by rintro rfl; exact absurd hend (by decide)
    have hcode : e.code = if s.readerPos = s.inputBits then 2 else 3 := by
      rw [(readerRead_error hready hn hr).resolve_left hbus]
      exact apply_ite Err.code _ _ _
    exact (if_neg (Nat.not_le.2 hout)).mpr ⟨hcode, rfl, hdone.pos⟩

end Reader

end Sys2Proof.Proofs

/-! PROOFS. The command of the zero-counter (43_zero_counter.md R150): its two checks, then what `ZeroCount` can do on the slice (R151 to
R153), which a monotonic slice leaves one answer (R152). -/

namespace Sys2Proof.Proofs
open Sys2Proof Sys2Proof.Machine Sys2Proof.Format Sys2Proof.Laws

section Count
variable {s : State} {bit : Nat}

/-! ### The rule of the command, branch by branch (R150) -/

/-- Both checks raise `BadArgument`, so their order is not seen. -/
theorem zcCountRule_refused (h : s.elemWidth ≤ bit ∨ Config.addressSpace ≤ s.arg0.toNat + s.arrayBytes s.arg1.toNat) :
    zcCountRule bit s = .error (.raised .badArgument 0) s := by
  rw [zcCountRule, bind_run_ok (get_run s)]
  by_cases hbit : s.elemWidth ≤ bit
  · rw [decide_eq_true hbit, bind_run_error (raiseIf_true _ s)]
  · have hfar : rangeTooFar s.arg0.toNat (s.arrayBytes s.arg1.toNat) = true := decide_eq_true (h.resolve_left hbit)
    rw [decide_eq_false hbit, bind_run_ok (raiseIf_false _ s), hfar, bind_run_error (raiseIf_true _ s)]

/-- Past the checks the rule is `ZeroCount` on the slice. -/
theorem zcCountRule_counts (hbit : ¬ s.elemWidth ≤ bit) (hin : ¬ Config.addressSpace ≤ s.arg0.toNat + s.arrayBytes s.arg1.toNat) :
    zcCountRule bit s = (do let z ← zeroCount s.arg0.toNat s.arg1.toNat bit; pure (toWord z) : Rule Word) s := by
  have hfar : rangeTooFar s.arg0.toNat (s.arrayBytes s.arg1.toNat) = false := decide_eq_false hin
  rw [zcCountRule, bind_run_ok (get_run s), decide_eq_false hbit, bind_run_ok (raiseIf_false _ s), hfar,
    bind_run_ok (raiseIf_false _ s)]

/-! ### The outcome of the command (R150, R153) -/

theorem exec_zcCount_refused (h : s.elemWidth ≤ bit ∨ Config.addressSpace ≤ s.arg0.toNat + s.arrayBytes s.arg1.toNat) :
    exec (.zcCount bit) s = .next (s.failed 11 0) := runCommand_of_refused (zcCountRule_refused h)

/-- Past the checks the command meets a refused byte of the slice, or answers a place with the bit clear before it and set at it. -/
theorem exec_zcCount_cases (h : ¬ (s.elemWidth ≤ bit ∨ Config.addressSpace ≤ s.arg0.toNat + s.arrayBytes s.arg1.toNat)) :
    (exec (.zcCount bit) s = .next (s.failed 14 0) ∧ ¬ s.admitsRegion (s.arrayRegion s.arg0 s.arg1)) ∨
    ∃ z ≤ s.arg1.toNat, exec (.zcCount bit) s = .next (s.succeeded (toWord z)) ∧
      (0 < z → (elemValue s s.arg0.toNat (z - 1)).testBit bit = false) ∧
      (z < s.arg1.toNat → (elemValue s s.arg0.toNat z).testBit bit = true) := by
  obtain ⟨hbit, hin⟩ := not_or.1 h
  have hrun := zcCountRule_counts (s := s.started) hbit hin
  rcases zeroCount_cases s.started s.arg0.toNat s.arg1.toNat bit (Nat.not_le.1 hin).le with ⟨z, hz, hok, hclear, hset⟩ | ⟨herr, hno⟩
  · exact .inr ⟨z, hz, runCommand_unchanged (hrun.trans (bind_run_ok hok)), hclear, hset⟩
  · exact .inl ⟨runCommand_of_refused (hrun.trans (bind_run_error herr)), fun hadm => hno (admitsRegion_ofBytes.1 hadm)⟩

end Count

/-- Settles O29: a check that fails, or the cases of `ZeroCount`. -/
theorem zeroCountCommand : Obligations.ZeroCountCommand := by
  refine ⟨by decide, fun bit s => ?_⟩
  split_ifs with h
  · exact exec_zcCount_refused h
  · exact exec_zcCount_cases h

/-- Settles O30: no byte of the slice is refused, and a monotonic slice has one place with the bit clear before it and set at it. -/
theorem zeroCountMonotonic : Obligations.ZeroCountMonotonic := by
  intro bit z s hbit hin hadm hsplit
  have hpass : ¬ (s.elemWidth ≤ bit ∨ Config.addressSpace ≤ s.arg0.toNat + s.arrayBytes s.arg1.toNat) :=
    not_or.2 ⟨Nat.not_le.2 hbit, Nat.not_le.2 hin⟩
  rcases exec_zcCount_cases hpass with ⟨-, hno⟩ | ⟨y, hy, hx, hclear, hset⟩
  · exact absurd hadm hno
  · rwa [bitSplitsAt_unique hsplit hy hclear hset] at hx

end Sys2Proof.Proofs

/-! PROOFS. The checks of the encoder's commands (44_bct_encoder.md R164, R166): what each of the two rules is before its walk. -/

namespace Sys2Proof.Proofs
open Sys2Proof Sys2Proof.Machine Sys2Proof.Format Sys2Proof.Laws

section Checks
variable {s : State} {e : Err}

/-- A numbered check and what follows it, as one branch. -/
theorem check_run {α : Type} (c : Bool) (e : Err) (f : Unit → Rule α) (s : State) :
    (raiseIf c e >>= f) s = if c then .error (.raised e 0) s else f () s := by cases c <;> rfl

theorem writerClosed_check_run {α : Type} (f : Unit → Rule α) (s : State) :
    (raiseIfWriterClosed >>= f) s = if s.wrOpen = false then .error (.raised .notOpen 0) s else f () s := by
  rw [bind_run, raiseIfWriterClosed_run]
  cases s.wrOpen <;> rfl

theorem badConfig_iff : s.badConfig = true ↔ s.elemWidth < s.bw := decide_eq_true_iff

theorem rangeTooFar_iff {base bytes : Nat} : rangeTooFar base bytes = true ↔ 2 ^ 64 ≤ base + bytes := decide_eq_true_iff

/-- The limits on the element count, in their order (R166 check 3). -/
theorem inputLength_check_run {α : Type} (len : Nat) (f : Unit → Rule α) (s : State) :
    (raiseIfInputLength len >>= f) s =
      if s.isList = false ∧ len = 0 then .error (.raised .inputTooSmall 0) s
      else if s.isList = false ∧ s.elemWidth < 64 ∧ 2 ^ s.elemWidth < len then .error (.raised .inputTooBig 0) s
      else if s.isList = true ∧ 2 ^ 57 - 1 < len then .error (.raised .inputTooBig 0) s
      else f () s := by
  rw [raiseIfInputLength, bind_assoc, bind_run_ok (get_run s)]
  cases s.isList with
  | true =>
    simp only [if_true, check_run, decide_eq_true_eq, Bool.true_eq_false, false_and, if_false, true_and]
    rfl
  | false => simp [check_run, bind_assoc, State.overSetLimit]

theorem writerInit_check_run {α : Type} (base cap : Nat) (f : PUnit → Rule α) (s : State) :
    (writerInit base cap >>= f) s =
      if 2 ^ 64 ≤ base + cap then .error (.raised .badArgument 0) s
      else if cap < 8 then .error (.raised .bufferTooSmall 0) s
      else f ⟨⟩ (s.writerInitialised base cap) := by
  simp only [writerInit, bind_assoc, check_run, rangeTooFar_iff, decide_eq_true_eq]
  rfl

/-- `BCT.ETREE` is its four checks and then the walk (R164). -/
theorem bctEtreeRule_run (s : State) :
    bctEtreeRule s = match s.etreeCheck with
      | some e => .error (.raised e 0) s
      | none => (do eTreeBody s.arg0.toNat s.arg1.toNat; pure 0 : Rule Word) s := by
  rw [bctEtreeRule, bind_run_ok (get_run s), State.etreeCheck]
  simp only [check_run, writerClosed_check_run, badConfig_iff, rangeTooFar_iff, State.arrayBytes, State.elemBytes,
    decide_eq_true_eq]
  split_ifs <;> rfl

theorem bctEtreeRule_past_checks (h : s.etreeCheck = none) :
    bctEtreeRule s = (do eTreeBody s.arg0.toNat s.arg1.toNat; pure 0 : Rule Word) s := by rw [bctEtreeRule_run, h]

/-- `BCT.ENCODE` is its checks and then a session of a fresh writer (R166). -/
theorem bctEncodeRule_run (s : State) :
    bctEncodeRule s = match s.encodeCheck with
      | some e => .error (.raised e 0) s
      | none => (do putHeader s.arg1.toNat; eTreeBody s.arg0.toNat s.arg1.toNat; writerClose : Rule Word)
          (s.writerInitialised s.arg2.toNat s.arg3.toNat) := by
  rw [bctEncodeRule, bind_run_ok (get_run s), State.encodeCheck]
  by_cases hfar : 2 ^ 64 ≤ s.arg2.toNat + s.arg3.toNat
  all_goals
    simp only [check_run, inputLength_check_run, writerInit_check_run, badConfig_iff, rangeTooFar_iff, Bool.or_eq_true, hfar,
      or_true, or_false, if_true, if_false, State.arrayBytes, State.elemBytes]
    split_ifs <;> rfl

theorem bctEncodeRule_past_checks (h : s.encodeCheck = none) :
    bctEncodeRule s = (do putHeader s.arg1.toNat; eTreeBody s.arg0.toNat s.arg1.toNat; writerClose : Rule Word)
      (s.writerInitialised s.arg2.toNat s.arg3.toNat) := by rw [bctEncodeRule_run, h]

end Checks

/-- Settles O31: a check that fails raises where the command started. -/
theorem encoderChecks : Obligations.EncoderChecks := by
  refine ⟨by decide, by decide, fun s e => ⟨fun hcheck => ?_, fun hcheck => ?_⟩⟩
  · exact runCommand_of_refused (by rw [bctEtreeRule_run, show s.started.etreeCheck = some e from hcheck])
  · exact runCommand_of_refused (by rw [bctEncodeRule_run, show s.started.encodeCheck = some e from hcheck])

end Sys2Proof.Proofs

/-! PROOFS. Rules that come to an end: what a rule leaves when the model does not stop (log 14, log 15), and the fields that the encoder
puts into the stream (41_bitstream_writer.md R117, R118, 44_bct_encoder.md R165, R169, R170). -/

namespace Sys2Proof.Proofs
open Sys2Proof Sys2Proof.Machine Sys2Proof.Format Sys2Proof.Laws

/-! ### Rules that do not stop the model -/

/-- A rule has raised, with what `E` says; it has not stopped the model. -/
def OnlyRaised (E : Err → State → Prop) : Abort → State → Prop
  | .raised e _, t => E e t
  | .stopped _, _ => False

/-- From `s` the rule ends normally as `Q` says, or raises as `E` says; the model does not stop. -/
def Finishes {α : Type} (r : Rule α) (s : State) (Q : α → State → Prop) (E : Err → State → Prop) : Prop :=
  Meets (· = s) r Q (OnlyRaised E)

/-- From `s` the rule does not stop the model. -/
abbrev Halts {α : Type} (r : Rule α) (s : State) : Prop := Finishes r s (fun _ _ => True) fun _ _ => True

section Finishes
variable {α β : Type} {r : Rule α} {s t : State} {Q M : α → State → Prop} {E : Err → State → Prop}

theorem Finishes.of_ok {a : α} (h : r s = .ok a t) (hQ : Q a t) : Finishes r s Q E := by
  rintro _ rfl; rw [h]; exact hQ

theorem Finishes.of_raised {e : Err} {i : BitVec 8} (h : r s = .error (.raised e i) t) (hE : E e t) : Finishes r s Q E := by
  rintro _ rfl; rw [h]; exact hE

theorem Finishes.mono {Q' : α → State → Prop} {E' : Err → State → Prop} (h : Finishes r s Q E) (hQ : ∀ a t, Q a t → Q' a t)
    (hE : ∀ e t, E e t → E' e t) : Finishes r s Q' E' :=
  Meets.mono h (fun _ => id) hQ fun
    | .raised e _, t, he => hE e t he
    | .stopped _, _, he => he

/-- A rule ends as any other that does the same from the state. -/
theorem Finishes.of_run_eq {r' : Rule α} {s' : State} (hrun : r' s' = r s) (h : Finishes r s Q E) : Finishes r' s' Q E := by
  rintro _ rfl
  rw [hrun]
  exact h _ rfl

theorem Finishes.halts (h : Finishes r s Q E) : Halts r s := h.mono (fun _ _ _ => trivial) fun _ _ _ => trivial

theorem Finishes.bind {f : α → Rule β} {Q : β → State → Prop} (h : Finishes r s M E)
    (hf : ∀ a t, M a t → Finishes (f a) t Q E) : Finishes (r >>= f) s Q E :=
  Meets.bind h fun a t ht => hf a t ht t rfl

/-- What is known of the end of a rule that does not stop, with what is known of its ends. -/
theorem Finishes.and_ends {Q' : α → State → Prop} {E' : Err → State → Prop} (h : Finishes r s Q E) (he : Ends r s Q' E') :
    Finishes r s (fun a t => Q a t ∧ Q' a t) fun e t => E e t ∧ E' e t := by
  rintro _ rfl
  have h := h _ rfl
  have he := he _ rfl
  cases hr : r _ with
  | ok a t => rw [hr] at h he; exact ⟨h, he⟩
  | error a t =>
    rw [hr] at h he
    cases a with
    | raised e i => exact ⟨h, he⟩
    | stopped f => exact h

theorem Halts.bind {f : α → Rule β} (h : Halts r s) (hf : ∀ a t, Halts (f a) t) : Halts (r >>= f) s :=
  Finishes.bind h fun a t _ => hf a t

/-- A sequence does not stop if neither part does, the second from the states in which the first may end. -/
theorem Halts.bind_ends {f : α → Rule β} {E' : Err → State → Prop} (h : Halts r s) (he : Ends r s M E')
    (hf : ∀ a t, M a t → Halts (f a) t) : Halts (r >>= f) s :=
  ((h.and_ends he).mono (fun _ _ => And.right) fun _ _ _ => trivial).bind hf

theorem Finishes.get_bind {f : State → Rule β} {Q : β → State → Prop} (h : Finishes (f s) s Q E) :
    Finishes ((get : Rule State) >>= f) s Q E :=
  Finishes.bind (M := fun u t => s = u ∧ s = t) (.of_ok rfl ⟨rfl, rfl⟩) <| by rintro _ _ ⟨rfl, rfl⟩; exact h

theorem Halts.get_bind {f : State → Rule β} (h : Halts (f s) s) : Halts ((get : Rule State) >>= f) s := Finishes.get_bind h

theorem Halts.check {c : Bool} {e : Err} {f : Unit → Rule β} (h : c = false → Halts (f ()) s) : Halts (raiseIf c e >>= f) s := by
  cases c with
  | true => exact .of_raised rfl trivial
  | false => exact h rfl

theorem Halts.pure (a : α) : Halts (pure a : Rule α) s := .of_ok rfl trivial

theorem Halts.raiseIf (c : Bool) (e : Err) : Halts (raiseIf c e) s := by
  cases c with
  | true => exact .of_raised rfl trivial
  | false => exact .of_ok rfl trivial

/-- A command whose rule does not stop completes as its rule ends (60_exceptions.md R206). -/
theorem Finishes.command {r : Rule Word} {Q : Word → State → Prop} (h : Finishes r s.started Q E) :
    (∃ v u, Q v u ∧ runCommand r s = .next (u.completed 0 0 v)) ∨
    (∃ e i u, E e u ∧ runCommand r s = .next (u.completed e.code i 0)) := by
  have h := h _ rfl
  cases hr : r s.started with
  | ok v u => rw [hr] at h; exact .inl ⟨v, u, h, congrArg complete hr⟩
  | error a u =>
    rw [hr] at h
    cases a with
    | raised e i => exact .inr ⟨e, i, u, h, congrArg complete hr⟩
    | stopped f => exact h.elim

theorem Halts.completes {r : Rule Word} (h : Halts r s.started) : ∃ t, runCommand r s = .next t := by
  rcases h.command with ⟨v, u, -, hx⟩ | ⟨e, i, u, -, hx⟩
  · exact ⟨_, hx⟩
  · exact ⟨_, hx⟩

end Finishes

/-! ### A field of the encoder (41_bitstream_writer.md R117) -/

section Fields
variable {s t u : State} {base T S n vbase len : Nat}

/-- The low bits of a field, and the rest of it above them. -/
theorem and_sizeMask_split {k : Nat} (h : k ≤ n) (v : Nat) :
    v &&& sizeMask n = ((v &&& sizeMask k) &&& sizeMask k) + ((v >>> k) &&& sizeMask (n - k)) * 2 ^ k := by
  simp only [and_sizeMask, Nat.mod_mod, Nat.shiftRight_eq_div_pow]
  rw [Nat.mul_comm, ← Nat.mod_mul, ← Nat.pow_add, Nat.add_sub_cancel' h]

/-- A field put into the open writer goes to the end of the stream, whether in one write or in two (R117, R118). -/
theorem Streamed.putField (h : Streamed s base T S u) (v n : Nat) :
    Ends (Machine.putField v n) u (fun _ => Streamed s base (T + n) (S + (v &&& sizeMask n) * 2 ^ T)) fun _ _ => True := by
  unfold Machine.putField
  split_ifs with hn
  · exact h.writerWrite v n
  · refine (h.writerWrite _ _).bind fun _ t ht => (ht.writerWrite _ _).mono (fun _ w hw => ?_) fun _ _ => id
    have hle : Config.maxField ≤ n := (Nat.not_le.1 hn).le
    rw [Nat.add_assoc, Nat.add_sub_cancel' hle] at hw
    rw [and_sizeMask_split hle]
    convert hw using 1
    rw [Nat.pow_add]
    ring

/-- An encoder operation has put the fields `fs` after whatever stream the writer held (R118). -/
structure Wrote (fs : List BitField) (s t : State) : Prop extends Emitted (streamBits fs) s t where
  stream : ∀ {r : State} {base T S : Nat}, Streamed r base T S s →
    Streamed r base (T + streamBits fs) (S + streamValue fs * 2 ^ T) t

/-- Nothing has been written from a state to one with the same writer and the same memory. -/
theorem Wrote.of_same (h : WriterReady s) (hf : EncFrame s t) (hw : writerView t = writerView s) (hm : t.mem = s.mem) :
    Wrote [] s t := by
  have hview := hw
  simp only [writerView, Prod.mk.injEq] at hview
  obtain ⟨hacc, hcnt, hbase, hptr, hlimit, hopen⟩ := hview
  refine ⟨⟨h.congr hopen hacc hcnt hbase hptr hlimit, hf, ?_⟩, fun hs => ?_⟩
  · rw [streamPos, hptr, hbase, hcnt]; rfl
  · simpa [streamBits, streamValue] using hs.congr hw hm

theorem Wrote.trans {fs gs : List BitField} (h : Wrote fs s t) (k : Wrote gs t u) : Wrote (fs ++ gs) s u := by
  refine ⟨⟨k.ready, h.frame.trans k.frame, ?_⟩, fun hs => ?_⟩
  · rw [k.pos, h.pos, streamBits_append, Nat.add_assoc]
  · have hu := k.stream (h.stream hs)
    rw [Nat.add_assoc, ← streamBits_append, Nat.pow_add] at hu
    rw [streamValue_append]
    convert hu using 1
    ring

/-- An operation that fails for want of room or admission after one that has ended normally. -/
theorem Finishes.bind_emitted {α β : Type} {r : Rule α} {f : α → Rule β} {M : α → State → Prop} {Q : β → State → Prop}
    {b b' bits : Nat} (hbits : b + b' ≤ bits) (h : Finishes r s M (EmitFailed b vbase len · s ·)) (hM : ∀ a t, M a t → Emitted b s t)
    (hf : ∀ a t, M a t → Finishes (f a) t Q (EmitFailed b' vbase len · t ·)) :
    Finishes (r >>= f) s Q (EmitFailed bits vbase len · s ·) :=
  (h.mono (fun _ _ => id) fun _ _ he => he.weaken (by omega)).bind fun a t ht =>
    (hf a t ht).mono (fun _ _ => id) fun _ _ he => (EmitFailed.after (hM a t ht) he).weaken hbits

theorem putField_wrote (h : WriterReady s) (v : Nat) (hn : n ≤ 64) (vbase len : Nat) :
    Finishes (putField v n) s (fun _ t => Wrote [⟨v, n⟩] s t ∧ stackView t = stackView s) (EmitFailed n vbase len · s ·) := by
  rcases putField_cases h v hn vbase len with ⟨t, ht, hem, hstack, hhwm, -⟩ | ⟨t, e, ht, hf, -⟩
  · refine .of_ok ht ⟨⟨hem, fun {r base T S} hs => ?_⟩, by rw [stackView, hstack, hhwm]; rfl⟩
    have hput := hs.putField v n _ rfl
    rw [ht] at hput
    simpa [streamBits, streamValue] using hput
  · exact .of_raised ht hf

/-- The element count goes to the end of the stream (44_bct_encoder.md R165). -/
theorem putHeader_wrote (h : WriterReady s) (count vbase len : Nat) :
    Finishes (putHeader count) s
      (fun _ t => Wrote [headerField s.isList s.elemWidth count] s t ∧ stackView t = stackView s)
      (EmitFailed (streamBits [headerField s.isList s.elemWidth count]) vbase len · s ·) := by
  have hrun : putHeader count s =
      putField (headerField s.isList s.elemWidth count).value (headerField s.isList s.elemWidth count).width s := by
    rw [putHeader, bind_run_ok (get_run s), headerField]
    cases s.isList <;> rfl
  have hwidth : (headerField s.isList s.elemWidth count).width ≤ 64 := by
    rw [headerField]
    split_ifs
    · exact (by decide : 57 ≤ 64)
    · exact elemWidth_le s
  exact .of_run_eq hrun (putField_wrote h _ hwidth vbase len)

/-- `BSW.CLOSE` of a ready writer fails as a field of no bits would (R116). -/
theorem writerClose_finishes (h : WriterReady s) (vbase len : Nat) :
    Finishes writerClose s (fun v t => s.wrPtr.toNat ≤ s.wrLimit.toNat ∧ v = toWord (closeResult s) ∧ t = afterClose s)
      (EmitFailed 0 vbase len · s ·) := by
  have hcnt := h.cnt_le
  have hbase := h.base_le
  have hlimit : s.wrLimit.toNat + 8 < 2 ^ 64 := h.limit_lt
  rcases writerClose_cases s with ⟨ho, -⟩ | ⟨-, hlt, hr⟩ | ⟨-, hle, hr | ⟨k, -, hr, a, b, hk, hno⟩ | ⟨t, -, hs⟩⟩
  · exact absurd (ho.symm.trans h.isOpen) Bool.false_ne_true
  · refine .of_raised hr ⟨h, .refl s, .inl ⟨rfl, ?_⟩⟩
    rwa [Nat.add_zero, ← h.wrPtr_eq]
  · exact .of_ok hr ⟨hle, rfl, rfl⟩
  · have inBuffer {c : Host.Cell} (hc : c ∈ closeCells s) : s.wrBase.toNat ≤ c.1 ∧ c.1 < s.wrLimit.toNat + 8 := by
      rw [closeCells_eq (by omega)] at hc
      have := cells_addr _ _ _ c hc
      unfold bytesFor at this
      omega
    refine .of_raised hr ⟨h.congr rfl rfl rfl rfl rfl rfl, ⟨rfl, _, rfl, rfl, fun c hc => inBuffer (List.mem_of_mem_take hc)⟩,
      .inr ⟨rfl, .inl fun hall => ?_⟩⟩
    have ha := inBuffer (List.mem_of_getElem? hk)
    rw [hall a ha.1 (by omega)] at hno
    cases hno
  · have := wholeBytes_eq s
    simp only [Config.addressSpace] at hs
    omega

end Fields
end Sys2Proof.Proofs

/-! PROOFS. Past its checks an encoder command ends without error, with `EndOfStream`, or with `BusError` (44_bct_encoder.md R169, R170). -/

namespace Sys2Proof.Proofs
open Sys2Proof Sys2Proof.Machine Sys2Proof.Format Sys2Proof.Laws

section Errors
variable {s t : State} {vbase len : Nat}

/-- What the checks of `BCT.ETREE` leave (R164). -/
structure EtreeChecked (s : State) : Prop where
  config : s.badConfig = false
  array : s.arg0.toNat + s.arrayBytes s.arg1.toNat < Config.addressSpace
  isOpen : s.wrOpen = true
  cnt_le : s.wrCnt.toNat ≤ 7

theorem EtreeChecked.of_check (h : s.etreeCheck = none) : EtreeChecked s := by
  unfold State.etreeCheck at h
  split_ifs at h with hconfig harray hopen hcnt
  exact ⟨Bool.eq_false_iff.2 (mt badConfig_iff.1 hconfig), Nat.not_le.1 harray, by simpa using hopen, Nat.not_lt.1 hcnt⟩

/-- What the checks of `BCT.ENCODE` leave (R166). -/
structure EncodeChecked (s : State) : Prop where
  config : s.badConfig = false
  array : s.arg0.toNat + s.arrayBytes s.arg1.toNat < Config.addressSpace
  buffer : s.arg2.toNat + s.arg3.toNat < Config.addressSpace
  cap_ge : 8 ≤ s.arg3.toNat

theorem EncodeChecked.of_check (h : s.encodeCheck = none) : EncodeChecked s := by
  unfold State.encodeCheck at h
  split_ifs at h with hconfig hfar _ _ _ hcap
  obtain ⟨harray, hbuffer⟩ := not_or.1 hfar
  exact ⟨Bool.eq_false_iff.2 (mt badConfig_iff.1 hconfig), Nat.not_le.1 harray, Nat.not_le.1 hbuffer, Nat.not_lt.1 hcap⟩

theorem EtreeChecked.ready (h : EtreeChecked s) (hinv : s.writerInv) : WriterReady s := by
  obtain ⟨hacc, -, hbase, hptr, hlimit⟩ := hinv h.isOpen
  exact ⟨h.isOpen, hacc, h.cnt_le, hbase, hptr, hlimit⟩

/-- The buffer of the open writer, as a region (20_memory.md R77). -/
theorem bufferAdmitted_of_region {r : Region} (hfirst : r.first ≤ s.wrBase.toNat) (hpast : s.wrLimit.toNat + 8 ≤ r.past)
    (h : s.admitsRegion r) : BufferAdmitted s := fun a h1 h2 => h a (holds_iff.2 ⟨hfirst.trans h1, by omega⟩)

/-- The walk over the array ends, or fails for want of room or admission (R163, R169). -/
theorem eTreeBody_finishes (hready : WriterReady s) (hcfg : s.badConfig = false) (hhwm : s.stkHwm.toNat ≤ 64)
    (harr : vbase + s.arrayBytes len < Config.addressSpace) (hlen : len < 2 ^ 64) :
    Finishes (eTreeBody vbase len) s (fun _ t => WriterReady t ∧ EncFrame s t)
      (EmitFailed (2 * (len * s.ebw)) vbase len · s ·) := by
  rcases eTreeBody_cases hready hcfg hhwm harr hlen with ⟨t, ht, hw, -, hf, -⟩ | ⟨t, e, ht, hf, -⟩
  · exact .of_ok ht ⟨hw.ready, hf⟩
  · exact .of_raised ht hf

/-- Why an encoder command may fail (R120, R169): the buffer is too small, or a byte of the buffer or of the array is refused. -/
def EncoderCause (s : State) (vbase len : Nat) (e : Err) : Prop :=
  e = .endOfStream ∨ e = .busError ∧ (¬ BufferAdmitted s ∨ ¬ AllAdmitted s.platform vbase (s.arrayBytes len))

theorem EncoderCause.of_emitFailed {bits : Nat} {e : Err} (hf : EncFrame s t) {u : State} (h : EmitFailed bits vbase len e t u) :
    EncoderCause s vbase len e := by
  rcases h.cause with ⟨he, -⟩ | ⟨he, hc⟩
  · exact .inl he
  · rw [BufferAdmitted.of_frame hf, hf.platform, hf.arrayBytes] at hc
    exact .inr ⟨he, hc⟩

theorem bctEtreeRule_finishes (hinv : EncInv s) (h : s.etreeCheck = none) :
    Finishes bctEtreeRule s (fun _ _ => True) fun e _ => EncoderCause s s.arg0.toNat s.arg1.toNat e := by
  have hc := EtreeChecked.of_check h
  refine .of_run_eq (bctEtreeRule_past_checks h) ?_
  refine Finishes.bind (M := fun _ _ => True) ?_ fun _ _ _ => .of_ok rfl trivial
  exact (eTreeBody_finishes (hc.ready hinv.writer) hc.config hinv.stack.bounded.hwm_le hc.array s.arg1.isLt).mono
    (fun _ _ _ => trivial) fun _ _ hf => .of_emitFailed (.refl s) hf

theorem bctEncodeRule_finishes (hinv : EncInv s) (h : s.encodeCheck = none) :
    Finishes bctEncodeRule s (fun _ _ => True) fun e _ =>
      EncoderCause (s.writerInitialised s.arg2.toNat s.arg3.toNat) s.arg0.toNat s.arg1.toNat e := by
  have hc := EncodeChecked.of_check h
  refine .of_run_eq (bctEncodeRule_past_checks h) ?_
  have hready := (writerInitialised_ready s hc.buffer hc.cap_ge).1
  refine Finishes.bind ((putHeader_wrote hready _ s.arg0.toNat s.arg1.toNat).mono (fun _ _ => id)
    fun _ _ hf => .of_emitFailed (.refl _) hf) ?_
  rintro _ t ⟨ht, hstack⟩
  have hhwm : t.stkHwm.toNat ≤ 64 := by
    rw [show t.stkHwm = s.stkHwm from congrArg Prod.snd hstack]
    exact hinv.stack.bounded.hwm_le
  refine Finishes.bind ((eTreeBody_finishes ht.ready ((badConfig_of_encFrame ht.frame).trans hc.config) hhwm
    (by rw [ht.frame.arrayBytes]; exact hc.array) s.arg1.isLt).mono (fun _ _ => id)
    fun _ _ hf => .of_emitFailed ht.frame hf) ?_
  rintro _ u ⟨hu, hframe⟩
  exact (writerClose_finishes hu s.arg0.toNat s.arg1.toNat).mono (fun _ _ _ => trivial)
    fun _ _ hf => .of_emitFailed (ht.frame.trans hframe) hf

/-- The error of an encoder command (R120, R169). -/
theorem EncoderCause.err {e : Err} {P : Prop} (h : EncoderCause s vbase len e)
    (hP : P → BufferAdmitted s ∧ AllAdmitted s.platform vbase (s.arrayBytes len)) :
    e.code = 0 ∨ e.code = 2 ∨ e.code = 14 ∧ ¬ P := by
  rcases h with rfl | ⟨rfl, hc⟩
  · exact .inr (.inl rfl)
  · refine .inr (.inr ⟨rfl, fun hp => ?_⟩)
    obtain ⟨hbuffer, harray⟩ := hP hp
    exact hc.elim (· hbuffer) (· harray)

/-- An encoder command completes with no error but those of its causes. -/
theorem Finishes.encoder_err {r : Rule Word} {u : State} {P : Prop}
    (h : Finishes r s.started (fun _ _ => True) fun e _ => EncoderCause u vbase len e)
    (hP : P → BufferAdmitted u ∧ AllAdmitted u.platform vbase (u.arrayBytes len)) :
    ∃ t, runCommand r s = .next t ∧ (t.err = 0 ∨ t.err = 2 ∨ t.err = 14 ∧ ¬ P) := by
  rcases h.command with ⟨v, w, -, hx⟩ | ⟨e, i, w, he, hx⟩
  · exact ⟨_, hx, .inl rfl⟩
  · exact ⟨_, hx, he.err hP⟩

/-- The buffer of the writer that `BCT.ENCODE` opens is its write region (R111, 20_memory.md R77). -/
theorem EncodeChecked.bufferAdmitted (h : EncodeChecked s) (hadm : s.admitsRegion (writeRegion .bctEncode s)) :
    BufferAdmitted (s.writerInitialised s.arg2.toNat s.arg3.toNat) := by
  obtain ⟨-, hbase, hlimit, -⟩ := writerInitialised_ready s h.buffer h.cap_ge
  refine bufferAdmitted_of_region (r := writeRegion .bctEncode s) hbase.ge ?_ hadm
  rw [hlimit, Nat.sub_add_cancel (h.cap_ge.trans (Nat.le_add_left _ _))]
  exact le_rfl

end Errors

/-- Settles O34: past the checks a failure is one of the walk's or of the close's. -/
theorem encoderErrors : Obligations.EncoderErrors := by
  intro s hs
  refine ⟨fun h => ?_, fun h => ?_⟩
  · refine (bctEtreeRule_finishes (.of_inv hs) h).encoder_err ?_
    rintro ⟨hread, hwrite⟩
    exact ⟨bufferAdmitted_of_region le_rfl le_rfl hwrite, admitsRegion_ofBytes.1 hread⟩
  · refine (bctEncodeRule_finishes (.of_inv hs) h).encoder_err ?_
    rintro ⟨hread, hwrite⟩
    exact ⟨(EncodeChecked.of_check h).bufferAdmitted hwrite, admitsRegion_ofBytes.1 hread⟩

end Sys2Proof.Proofs

/-! PROOFS. Every command completes: no rule stops the model from a state with the invariants (44_bct_encoder.md R167, 45_bct_decoder.md
R183, R192, 60_exceptions.md R209). -/

namespace Sys2Proof.Proofs
open Sys2Proof Sys2Proof.Machine Sys2Proof.Format Sys2Proof.Laws

section Halts
variable {s : State}

/-! ### The writer's commands (41_bitstream_writer.md R111 to R116) -/

theorem writerInit_halts (s : State) (base cap : Nat) : Halts (writerInit base cap) s := by
  have hrun := writerInit_run s base cap
  split_ifs at hrun
  · exact .of_raised hrun trivial
  · exact .of_raised hrun trivial
  · exact .of_ok hrun trivial

theorem writerAppend_halts (s : State) (v n : Nat) : Halts (writerAppend v n) s := by
  have hrun := writerAppend_run s v n
  split_ifs at hrun
  · exact .of_raised hrun trivial
  · exact .of_raised hrun trivial
  · exact .of_ok hrun trivial

/-- Up to 8 bytes from a write pointer within the limit lie below 2^64 (10_state.md R31). -/
theorem writer_room (hinv : s.writerInv) (hopen : s.wrOpen = true) (hp : s.wrPtr.toNat ≤ s.wrLimit.toNat) :
    s.wrPtr.toNat + 8 ≤ Config.addressSpace := by
  obtain ⟨-, -, -, -, hlimit⟩ := hinv hopen
  omega

theorem writerWrite_halts (hinv : s.writerInv) (v n : Nat) : Halts (writerWrite v n) s := by
  rcases writerWrite_cases s v n with
    ⟨-, hr⟩ | ⟨-, -, hr⟩ | ⟨-, -, -, -, hr⟩ | ⟨hopen, -, hcnt, hp, ⟨hr, -⟩ | ⟨k, -, hr, -⟩ | ⟨k, -, -, hs⟩⟩
  · exact .of_raised hr trivial
  · exact .of_raised hr trivial
  · exact .of_raised hr trivial
  · exact .of_ok hr trivial
  · exact .of_raised hr trivial
  · have := writer_room hinv hopen hp
    rw [wholeBytes_eq, merged_wrCnt_toNat hcnt] at hs
    omega

theorem writerFlush_halts (hinv : s.writerInv) : Halts writerFlush s := by
  rcases writerFlush_cases s with ⟨-, hr⟩ | ⟨-, -, hr⟩ | ⟨hopen, hp, ⟨hr, -⟩ | ⟨k, -, hr, -⟩ | ⟨k, -, -, hs⟩⟩
  · exact .of_raised hr trivial
  · exact .of_raised hr trivial
  · exact .of_ok hr trivial
  · exact .of_raised hr trivial
  · obtain ⟨-, hcnt, -⟩ := hinv hopen
    have := writer_room hinv hopen hp
    rw [wholeBytes_eq] at hs
    omega

theorem writerClose_halts (hinv : s.writerInv) : Halts writerClose s := by
  rcases writerClose_cases s with ⟨-, hr⟩ | ⟨-, -, hr⟩ | ⟨hopen, hp, hr | ⟨k, -, hr, -⟩ | ⟨t, -, hs⟩⟩
  · exact .of_raised hr trivial
  · exact .of_raised hr trivial
  · exact .of_ok hr trivial
  · exact .of_raised hr trivial
  · obtain ⟨-, hcnt, -⟩ := hinv hopen
    have := writer_room hinv hopen hp
    rw [wholeBytes_eq] at hs
    omega

/-! ### The reader's commands (42_bitstream_reader.md R131 to R135) -/

theorem raiseIfReaderClosed_halts (s : State) : Halts raiseIfReaderClosed s := .get_bind (.raiseIf _ _)

theorem readerInit_halts (base len : Nat) : Halts (readerInit base len) s := .check fun _ => .of_ok rfl trivial

theorem readerRead_halts (hinv : s.readerInv) (n : Nat) : Halts (readerRead n) s := by
  cases ho : s.rdOpen with
  | false => exact .of_raised (readerRead_refused.1 ho) trivial
  | true =>
    by_cases hn : n ≤ 57
    · rcases readerRead_ready_cases (.of_inv hinv ho) hn with ⟨v, t, hr, -⟩ | ⟨t, e, hr, -⟩
      · exact .of_ok hr trivial
      · exact .of_raised hr trivial
    · exact .of_raised (readerRead_refused.2 ho (by omega)) trivial

theorem readerLoad_halts (s : State) : Halts readerLoad s := by
  refine (raiseIfReaderClosed_halts s).bind_ends (raiseIfReaderClosed_ends s) ?_
  rintro _ _ ⟨rfl, -⟩
  rcases loadBody_cases s with ⟨-, hr⟩ | ⟨-, -, hr⟩ | ⟨-, -, hr⟩
  · exact .of_raised hr trivial
  · exact .of_raised hr trivial
  · exact .of_ok hr trivial

theorem readerSize_halts (s : State) : Halts readerSize s := by
  have hrun := readerSize_run s
  split_ifs at hrun
  · exact .of_ok hrun trivial
  · exact .of_raised hrun trivial

/-! ### The zero-counter (43_zero_counter.md R150, R154) -/

theorem zcCountRule_halts (s : State) (bit : Nat) : Halts (zcCountRule bit) s := by
  refine .get_bind <| .check fun _ => .check fun hfar => ?_
  rcases zeroCount_cases s _ _ bit (lt_of_rangeTooFar hfar).le with ⟨z, -, hr, -⟩ | ⟨hr, -⟩
  · exact .of_ok (bind_run_ok hr) trivial
  · exact .of_raised (bind_run_error hr) trivial

/-! ### The encoder's commands (44_bct_encoder.md R164, R166, R167) -/

theorem bctEtreeRule_halts (hinv : EncInv s) : Halts bctEtreeRule s := by
  cases h : s.etreeCheck with
  | some e => exact .of_raised (i := 0) (by rw [bctEtreeRule_run, h]) trivial
  | none => exact (bctEtreeRule_finishes hinv h).halts

theorem bctEncodeRule_halts (hinv : EncInv s) : Halts bctEncodeRule s := by
  cases h : s.encodeCheck with
  | some e => exact .of_raised (i := 0) (by rw [bctEncodeRule_run, h]) trivial
  | none => exact (bctEncodeRule_finishes hinv h).halts

/-! ### The decoder's commands (45_bct_decoder.md R183 to R188) -/

theorem decodeField_halts (h : ReaderReady s) {n : Nat} (hn : n ≤ 64) : Halts (decodeField n) s := by
  rcases decodeField_cases h hn with ⟨v, t, hr, -⟩ | ⟨t, e, i, k, -, hr, -⟩
  · exact .of_ok hr trivial
  · exact .of_raised hr trivial

theorem getHeader_halts (h : ReaderReady s) : Halts getHeader s := by
  refine .get_bind ?_
  split_ifs
  · exact decodeField_halts h (by decide)
  · exact Halts.bind (decodeField_halts h (elemWidth_le s)) fun _ _ => .pure _

theorem dTreeBody_halts {obase len : Nat} (h : DecReady s) (hcfg : s.badConfig = false)
    (harr : obase + s.arrayBytes len < Config.addressSpace) (hlen : len < 2 ^ 64) : Halts (dTreeBody obase len) s := by
  rcases dTreeBody_cases h.ready hcfg h.stack.bounded.hwm_le harr hlen with ⟨t, hr, -⟩ | ⟨t, e, i, hr, -⟩
  · exact .of_ok hr trivial
  · exact .of_raised hr trivial

theorem bctDtreeRule_halts (hinv : DecInv s) : Halts bctDtreeRule s := by
  refine .get_bind <| .check fun hcfg => .check fun hfar => ?_
  refine (raiseIfReaderClosed_halts s).bind_ends (raiseIfReaderClosed_ends s) ?_
  rintro _ _ ⟨rfl, hopen⟩
  exact Halts.bind (dTreeBody_halts ⟨.of_inv hinv.reader hopen, hinv.stack⟩ hcfg (lt_of_rangeTooFar hfar) s.arg1.isLt)
    fun _ _ => .pure _

theorem raiseIfOutputLength_halts (len : Nat) : Halts (raiseIfOutputLength len) s := by
  refine .get_bind ?_
  split_ifs
  · exact .raiseIf _ _
  · exact .check fun _ => .raiseIf _ _

theorem bctDecodeRule_halts (hinv : DecInv s) : Halts bctDecodeRule s := by
  refine .get_bind <| .check fun hcfg => .check fun hfar => ?_
  refine (raiseIfOutputLength_halts _).bind_ends (raiseIfOutputLength_ends s _) ?_
  rintro _ _ rfl
  refine (readerInit_halts _ _).bind_ends (readerInit_ends _ _ _) ?_
  rintro _ _ ⟨rfl, hready⟩
  refine (getHeader_halts hready).bind_ends (getHeader_ends ⟨hready, hinv.stack.congr rfl rfl⟩) ?_
  rintro _ u ⟨hu, hframe⟩
  refine .check fun _ => ?_
  have harr : s.arg2.toNat + u.arrayBytes s.arg3.toNat < Config.addressSpace := by
    rw [arrayBytes_of_readFrame hframe]
    exact lt_of_rangeTooFar (Bool.or_eq_false_iff.1 hfar).2
  exact Halts.bind (dTreeBody_halts hu ((badConfig_of_readFrame hframe).trans hcfg) harr s.arg3.isLt) fun _ _ => readerSize_halts _

theorem bctDsizeRule_halts (s : State) : Halts bctDsizeRule s := by
  refine .get_bind <| (readerInit_halts _ _).bind_ends (readerInit_ends _ _ _) ?_
  rintro _ _ ⟨rfl, hready⟩
  exact Halts.bind (getHeader_halts hready) fun _ _ => .check fun _ => .pure _

/-! ### Every command -/

/-- From a state with the invariants no command's rule stops the model. -/
theorem commandRule_halts (hs : s.Inv) (i : Instr) : Halts (commandRule i s) s.started := by
  have finish {α : Type} {r : Rule α} {f : α → Word} (h : Halts r s.started) :
      Halts (do let a ← r; pure (f a)) s.started := Halts.bind h fun _ _ => .pure _
  have hwriter : s.started.writerInv := writerInv_of_inv hs
  have hreader : s.started.readerInv := readerInv_of_inv hs
  cases i with
  | sysNop => exact .pure _
  | sysReset => exact .of_ok rfl trivial
  | utlBlen => exact .of_ok rfl trivial
  | bswInit => exact finish (writerInit_halts _ _ _)
  | bswAppend n => exact finish (writerAppend_halts _ _ n)
  | bswWrite n => exact finish (writerWrite_halts hwriter _ n)
  | bswFlush => exact finish (writerFlush_halts hwriter)
  | bswClose => exact writerClose_halts hwriter
  | bsrInit => exact finish (readerInit_halts _ _)
  | bsrRead n => exact finish (readerRead_halts hreader n)
  | bsrLoad => exact finish (readerLoad_halts _)
  | bsrSize => exact readerSize_halts _
  | zcCount bit => exact zcCountRule_halts _ bit
  | bctEtree => exact bctEtreeRule_halts (.of_inv hs)
  | bctEncode => exact bctEncodeRule_halts (.of_inv hs)
  | bctDtree => exact bctDtreeRule_halts (.of_inv hs)
  | bctDecode => exact bctDecodeRule_halts (.of_inv hs)
  | bctDsize => exact bctDsizeRule_halts _

end Halts

/-- Settles O6: no command's rule stops the model, so the command completes as its rule ends. -/
theorem everyCommandCompletes : Obligations.EveryCommandCompletes := by
  intro i s hs
  rw [exec_eq_runCommand]
  exact (commandRule_halts hs i).completes

end Sys2Proof.Proofs

/-! PROOFS. The tree of an ascending array, cluster by cluster (44_bct_encoder.md R161, R162, R168): the fields that the clusters on the
work stack stand for, and how a cluster splits at a bit. -/

namespace Sys2Proof.Proofs
open Sys2Proof Sys2Proof.Machine Sys2Proof.Format Sys2Proof.Laws

section Tree
variable {f : Nat → Nat} {skipEff : Bool} {mcl start n z p : Nat}

/-! ### Slices of the array -/

/-- The elements `start` to `start + n - 1` of an array. -/
def slice (f : Nat → Nat) (start n : Nat) : List Nat := (List.range' start n).map f

@[simp] theorem slice_length : (slice f start n).length = n := by simp [slice]

theorem slice_split (h : z ≤ n) : slice f start n = slice f start z ++ slice f (start + z) (n - z) := by
  rw [slice, slice, slice, ← List.map_append, List.range'_append_1, Nat.add_sub_cancel' h]

theorem mem_slice {v : Nat} : v ∈ slice f start n ↔ ∃ i, start ≤ i ∧ i < start + n ∧ f i = v := by
  simp [slice, List.mem_range'_1, and_assoc]

/-! ### The fields of a cluster, case by case (R162) -/

theorem treeFields_nil : ∀ p, treeFields skipEff mcl p [] = []
  | 0 => rfl
  | _ + 1 => rfl

theorem treeFields_full (h : (skipEff && isFull n (p + 1)) = true) : treeFields skipEff mcl (p + 1) (slice f start n) = [] := by
  rw [treeFields, slice_length, if_pos h, ite_self]

theorem treeFields_short (hfull : ¬ (skipEff && isFull n (p + 1)) = true) (h : n ≤ mcl) :
    treeFields skipEff mcl (p + 1) (slice f start n) =
      (slice f start n).map fun v => { value := v &&& sizeMask (p + 1), width := p + 1 } := by
  rw [treeFields, slice_length, if_neg hfull, if_pos h]
  split_ifs with hnil
  · rw [hnil, List.map_nil]
  · rfl

/-- A long cluster whose first `z` elements have the next bit clear and the others set. -/
theorem treeFields_split (hn : n ≠ 0) (hfull : ¬ (skipEff && isFull n (p + 1)) = true) (h : ¬ n ≤ mcl) (hz : z ≤ n)
    (hclear : ∀ i, start ≤ i → i < start + z → (f i).testBit p = false)
    (hset : ∀ i, start + z ≤ i → i < start + n → (f i).testBit p = true) :
    treeFields skipEff mcl (p + 1) (slice f start n) =
      { value := z, width := bitsLen64 n } ::
        (treeFields skipEff mcl p (slice f (start + z) (n - z)) ++ treeFields skipEff mcl p (slice f start z)) := by
  have hlow : ∀ v ∈ slice f start z, v.testBit p = false := fun v hv => by
    obtain ⟨i, h1, h2, rfl⟩ := mem_slice.1 hv
    exact hclear i h1 h2
  have hhigh : ∀ v ∈ slice f (start + z) (n - z), v.testBit p = true := fun v hv => by
    obtain ⟨i, h1, h2, rfl⟩ := mem_slice.1 hv
    exact hset i h1 (by omega)
  have hnil : slice f start n ≠ [] := fun h0 => hn (by simpa using congrArg List.length h0)
  have hzeros : (slice f start n).filter (fun v => !v.testBit p) = slice f start z := by
    rw [slice_split hz, List.filter_append, List.filter_eq_self.2 fun v hv => by rw [hlow v hv]; rfl,
      List.filter_eq_nil_iff.2 fun v hv => by rw [hhigh v hv]; decide, List.append_nil]
  have hones : (slice f start n).filter (fun v => v.testBit p) = slice f (start + z) (n - z) := by
    rw [slice_split hz, List.filter_append, List.filter_eq_nil_iff.2 fun v hv => by rw [hlow v hv]; decide,
      List.filter_eq_self.2 hhigh, List.nil_append]
  rw [treeFields, if_neg hnil, slice_length, if_neg hfull, if_neg h]
  simp only [hzeros, hones, slice_length]

/-! ### Clusters of an ascending array (R161, R162; 10_state.md R43) -/

/-- The elements `start` to `start + n - 1` share every bit at and above `p`. -/
def SharedAbove (f : Nat → Nat) (p start n : Nat) : Prop :=
  ∀ i j, start ≤ i → i < start + n → start ≤ j → j < start + n → f i / 2 ^ p = f j / 2 ^ p

/-- Of two numbers that agree above bit `p`, the larger has the bit if the smaller has. -/
theorem testBit_of_le {a b : Nat} (h : a ≤ b) (hs : a / 2 ^ (p + 1) = b / 2 ^ (p + 1)) (ha : a.testBit p = true) :
    b.testBit p = true := by
  have hdiv : a / 2 ^ p ≤ b / 2 ^ p := Nat.div_le_div_right h
  rw [Nat.pow_succ, ← Nat.div_div_eq_div_mul, ← Nat.div_div_eq_div_mul] at hs
  rw [Nat.testBit_eq_decide_div_mod_eq, decide_eq_true_eq] at ha ⊢
  omega

/-- Two numbers that agree above bit `p` and at it agree from it on. -/
theorem div_eq_of_testBit_eq {a b : Nat} (hs : a / 2 ^ (p + 1) = b / 2 ^ (p + 1)) (hb : a.testBit p = b.testBit p) :
    a / 2 ^ p = b / 2 ^ p := by
  rw [Nat.pow_succ, ← Nat.div_div_eq_div_mul, ← Nat.div_div_eq_div_mul] at hs
  rw [Nat.testBit_eq_decide_div_mod_eq, Nat.testBit_eq_decide_div_mod_eq, decide_eq_decide] at hb
  omega

/-- The first `z` elements of a cluster have the next bit clear, the others have it set. -/
structure SplitsAt (f : Nat → Nat) (p start n z : Nat) : Prop where
  le : z ≤ n
  clear : ∀ i, start ≤ i → i < start + z → (f i).testBit p = false
  set : ∀ i, start + z ≤ i → i < start + n → (f i).testBit p = true

/-- In an ascending cluster a place with the bit clear before it and set at it splits it (43_zero_counter.md R152). -/
theorem SplitsAt.of_place (hsorted : ∀ i j, i ≤ j → j < start + n → f i ≤ f j) (hs : SharedAbove f (p + 1) start n) (hz : z ≤ n)
    (hbefore : 0 < z → (f (start + (z - 1))).testBit p = false) (hat : z < n → (f (start + z)).testBit p = true) :
    SplitsAt f p start n z := by
  refine ⟨hz, fun i h1 h2 => ?_, fun i h1 h2 => ?_⟩
  · by_contra hset
    have := testBit_of_le (hsorted i (start + (z - 1)) (by omega) (by omega))
      (hs i (start + (z - 1)) h1 (by omega) (by omega) (by omega)) (by simpa using hset)
    rw [hbefore (by omega)] at this
    cases this
  · exact testBit_of_le (hsorted (start + z) i h1 h2) (hs (start + z) i (by omega) (by omega) (by omega) h2) (hat (by omega))

theorem SplitsAt.shared (h : SplitsAt f p start n z) (hs : SharedAbove f (p + 1) start n) :
    SharedAbove f p start z ∧ SharedAbove f p (start + z) (n - z) := by
  have hz := h.le
  refine ⟨fun i j h1 h2 h3 h4 => ?_, fun i j h1 h2 h3 h4 => ?_⟩
  · exact div_eq_of_testBit_eq (hs i j h1 (by omega) h3 (by omega)) ((h.clear i h1 h2).trans (h.clear j h3 h4).symm)
  · exact div_eq_of_testBit_eq (hs i j (by omega) (by omega) (by omega) (by omega))
      ((h.set i h1 (by omega)).trans (h.set j h3 (by omega)).symm)

/-! ### The work stack -/

/-- What `AddE(start, length, bit_pos)` puts on the stack (R161). -/
def entry (start length bitPos : Nat) : List BitCluster :=
  if length = 0 ∨ bitPos = 0 then []
  else [{ start := toWord start, length := toWord length, bitPos := toCount bitPos, higherBits := 0 }]

/-- A cluster of an array of `len` elements under a tree of `E` bits, with bits left and its elements alike above them. -/
structure ClusterOf (f : Nat → Nat) (len E : Nat) (c : BitCluster) : Prop extends ClusterIn len E c where
  bitPos_pos : 0 < c.bitPos.toNat
  shared : SharedAbove f c.bitPos.toNat c.start.toNat c.length.toNat

theorem clusterOf_entry {len E length bitPos : Nat} (hlen : len < 2 ^ 64) (hE : E < 128) (hin : start + length ≤ len)
    (hbp : bitPos ≤ E) (hs : SharedAbove f bitPos start length) : ∀ c ∈ entry start length bitPos, ClusterOf f len E c := by
  intro c hc
  unfold entry at hc
  split_ifs at hc with h0
  · cases hc
  · obtain rfl := List.mem_singleton.1 hc
    have hst : (toWord start).toNat = start := toWord_toNat (by omega)
    have hl : (toWord length).toNat = length := toWord_toNat (by omega)
    have hb : (toCount bitPos).toNat = bitPos := toCount_toNat (by omega)
    exact ⟨⟨by rw [hst, hl]; exact hin, by rw [hl]; omega, by rw [hb]; exact hbp⟩, by rw [hb]; omega, by rw [hst, hl, hb]; exact hs⟩

/-- The fields that the clusters on the stack stand for, the top one first (R163, R168). -/
def stackFields (skipEff : Bool) (mcl : Nat) (f : Nat → Nat) (k : List BitCluster) : List BitField :=
  k.flatMap fun c => treeFields skipEff mcl c.bitPos.toNat (slice f c.start.toNat c.length.toNat)

theorem stackFields_cons (c : BitCluster) (k : List BitCluster) :
    stackFields skipEff mcl f (c :: k) =
      treeFields skipEff mcl c.bitPos.toNat (slice f c.start.toNat c.length.toNat) ++ stackFields skipEff mcl f k :=
  List.flatMap_cons

theorem stackFields_append (k l : List BitCluster) :
    stackFields skipEff mcl f (k ++ l) = stackFields skipEff mcl f k ++ stackFields skipEff mcl f l := List.flatMap_append

theorem stackFields_entry {length bitPos : Nat} (hs : start < 2 ^ 64) (hl : length < 2 ^ 64) (hb : bitPos < 128) :
    stackFields skipEff mcl f (entry start length bitPos) = treeFields skipEff mcl bitPos (slice f start length) := by
  unfold entry
  split_ifs with h0
  · rcases h0 with rfl | rfl
    · exact (treeFields_nil bitPos).symm
    · rfl
  · rw [stackFields_cons]
    simp only [toWord_toNat hs, toWord_toNat hl, toCount_toNat hb]
    exact List.append_nil _

theorem encWeight_append : ∀ k l : List BitCluster, encWeight (k ++ l) = encWeight k + encWeight l
  | [], l => (Nat.zero_add _).symm
  | c :: k, l => by rw [List.cons_append, encWeight, encWeight, encWeight_append k l, Nat.add_assoc]

theorem encWeight_entry {length bitPos : Nat} (hl : length < 2 ^ 64) (hb : bitPos < 128) :
    encWeight (entry start length bitPos) = length * bitPos := by
  unfold entry
  split_ifs with h0
  · rcases h0 with rfl | rfl
    · exact (Nat.zero_mul _).symm
    · rfl
  · simp only [encWeight, toWord_toNat hl, toCount_toNat hb, Nat.add_zero]

/-- The children of a popped cluster keep the stack's shape (10_state.md R42). -/
theorem ladder_push_children {E : Nat} {c : BitCluster} {rest : List BitCluster} (h : Ladder E (c :: rest)) (hp : 0 < c.bitPos.toNat)
    (s1 n1 s0 n0 : Nat) : Ladder E (entry s1 n1 (c.bitPos.toNat - 1) ++ entry s0 n0 (c.bitPos.toNat - 1) ++ rest) := by
  have hb : (toCount (c.bitPos.toNat - 1)).toNat = c.bitPos.toNat - 1 := toCount_toNat (by have := c.bitPos.isLt; omega)
  unfold entry
  split_ifs
  · exact h.tail
  · exact h.push_one hp hb
  · exact h.push_one hp hb
  · exact h.push_two hp hb hb

end Tree
end Sys2Proof.Proofs

/-! PROOFS. The encoder's walk over an ascending array (44_bct_encoder.md R161 to R163): every step puts the fields of its cluster into the
stream or leaves them to the children, so the walk puts the fields of the whole tree (R168). -/

namespace Sys2Proof.Proofs
open Sys2Proof Sys2Proof.Machine Sys2Proof.Format Sys2Proof.Laws

section Walk
variable {f : Nat → Nat} {vbase len : Nat} {s t u : State} {c : BitCluster}

/-! ### The input array -/

/-- The array of `len` elements at `vbase` holds the ascending values of `f`, away from the writer's buffer. -/
structure InputHolds (f : Nat → Nat) (vbase len : Nat) (s : State) : Prop where
  values : ∀ i < len, elemValue s vbase i = f i
  sorted : ∀ i j, i ≤ j → j < len → f i ≤ f j
  apart : ∀ a, vbase ≤ a → a < vbase + s.arrayBytes len → a < s.wrBase.toNat ∨ s.wrLimit.toNat + 8 ≤ a
  array : vbase + s.arrayBytes len < Config.addressSpace
  len_lt : len < 2 ^ 64
  ebw_le : s.ebw ≤ 64

/-- What the encoder stores does not reach the array. -/
theorem InputHolds.of_frame (h : InputHolds f vbase len s) (hf : EncFrame s t) : InputHolds f vbase len t := by
  have hbytes : t.elemBytes = s.elemBytes := by rw [hf.same]; rfl
  refine ⟨fun i hi => ?_, h.sorted, ?_, ?_, h.len_lt, ?_⟩
  · rw [← h.values i hi, elemValue, elemValue, State.elemAddr, State.elemAddr, hbytes]
    refine memNat_congr fun x h1 h2 => ?_
    obtain ⟨l, hmem, -, hl⟩ := hf.stores
    rw [hmem]
    refine read_applyStores_of_not_mem l x (fun d hd hdx => ?_) s.mem
    have hin := elemAddr_add_le s (vbase := vbase) hi
    have hin' := le_elemAddr s vbase i
    have hx := h.apart x (by omega) (by unfold State.elemAddr at hin; omega)
    have := hl d hd
    omega
  · rw [hf.arrayBytes, hf.wrBase, hf.wrLimit]; exact h.apart
  · rw [hf.arrayBytes]; exact h.array
  · rw [hf.ebw]; exact h.ebw_le

theorem elem_finishes (hr : WriterReady s) (h : InputHolds f vbase len s) {i : Nat} (hi : i < len) :
    Finishes (elem vbase i) s (fun v t => v = f i ∧ t = s) (EmitFailed 0 vbase len · s ·) := by
  have hin := elemAddr_add_le s (vbase := vbase) hi
  rcases elem_cases s vbase i with ⟨hv, -⟩ | ⟨hv, hno⟩ | ⟨-, hspace⟩
  · exact .of_ok hv ⟨h.values i hi, rfl⟩
  · exact .of_raised hv ⟨hr, .refl s, .inr ⟨rfl, .inr fun hall => hno (hall.mono (le_elemAddr _ _ _) hin)⟩⟩
  · have := h.array; omega

theorem elemValue_from (s : State) (vbase start i : Nat) :
    elemValue s (s.elemAddr vbase start) i = elemValue s vbase (start + i) := by
  rw [elemValue, elemValue, State.elemAddr, State.elemAddr, State.elemAddr, Nat.add_mul, Nat.add_assoc]

/-- Over a cluster of the ascending array the zero-counter finds where the bit splits it (43_zero_counter.md R152, R153). -/
theorem zeroCount_finishes (hr : WriterReady s) (h : InputHolds f vbase len s) {start n p : Nat} (hin : start + n ≤ len)
    (hs : SharedAbove f (p + 1) start n) :
    Finishes (zeroCount (s.elemAddr vbase start) n p) s (fun z t => SplitsAt f p start n z ∧ t = s)
      (EmitFailed 0 vbase len · s ·) := by
  have hslice : Covers ⟨vbase, vbase + s.arrayBytes len⟩ (s.elemAddr vbase start) (s.arrayBytes n) := .slice ⟨le_rfl, le_rfl⟩ hin
  rcases zeroCount_cases s (s.elemAddr vbase start) n p (hslice.le_past.trans h.array.le) with
    ⟨z, hz, hrun, hbefore, hat⟩ | ⟨hrun, hno⟩
  · refine .of_ok hrun ⟨.of_place (fun i j hij hj => h.sorted i j hij (by omega)) hs hz (fun h0 => ?_) fun h0 => ?_, rfl⟩
    · rw [← h.values _ (by omega), ← elemValue_from]; exact hbefore h0
    · rw [← h.values _ (by omega), ← elemValue_from]; exact hat h0
  · exact .of_raised hrun ⟨hr, .refl s, .inr ⟨rfl, .inr fun hall => hno (hall.mono (le_elemAddr _ _ _) hslice.le_past)⟩⟩

/-- The literals of a short cluster (R162 case 3). -/
theorem emitLiterals_wrote {bitPos : Nat} (hb : bitPos ≤ 64) : ∀ (n i : Nat) {s : State}, WriterReady s → InputHolds f vbase len s →
    i + n ≤ len →
    Finishes (emitLiterals vbase bitPos n i) s
      (fun _ t => Wrote ((slice f i n).map fun v => ⟨v &&& sizeMask bitPos, bitPos⟩) s t ∧ stackView t = stackView s)
      (EmitFailed (streamBits ((slice f i n).map fun v => ⟨v &&& sizeMask bitPos, bitPos⟩)) vbase len · s ·)
  | 0, _, s, hr, _, _ => .of_ok rfl ⟨.of_same hr (.refl s) rfl rfl, rfl⟩
  | n + 1, i, s, hr, hin, hi => by
    refine .bind_emitted (Nat.zero_add _).le (elem_finishes hr hin (by omega)) ?_ ?_
    · rintro _ _ ⟨-, rfl⟩
      exact ⟨hr, .refl _, rfl⟩
    rintro _ _ ⟨rfl, rfl⟩
    refine .bind_emitted le_rfl (putField_wrote hr _ hb vbase len) (fun _ _ ⟨ht, _⟩ => ht.toEmitted) ?_
    rintro _ t ⟨ht, hview⟩
    exact (emitLiterals_wrote hb n (i + 1) ht.ready (hin.of_frame ht.frame) (by omega)).mono
      (fun _ _ ⟨hu, huview⟩ => ⟨ht.trans hu, huview.trans hview⟩) fun _ _ => id

/-! ### The work stack (10_state.md R37, R39, R42) -/

/-- The high-water mark has not fallen, and not risen above `E`. -/
structure HwmWithin (E : Nat) (s t : State) : Prop where
  le : s.stkHwm.toNat ≤ t.stkHwm.toNat
  bound : t.stkHwm.toNat ≤ max s.stkHwm.toNat E

theorem HwmWithin.of_eq {E : Nat} (h : t.stkHwm = s.stkHwm) : HwmWithin E s t := ⟨h ▸ le_rfl, h ▸ le_max_left _ _⟩

theorem HwmWithin.trans {E : Nat} (h : HwmWithin E s t) (k : HwmWithin E t u) : HwmWithin E s u :=
  ⟨h.le.trans k.le, k.bound.trans (max_le h.bound (le_max_right _ _))⟩

/-- The entries `k` have gone on the stack, and nothing else has changed. -/
structure Pushed (E : Nat) (k : List BitCluster) (s t : State) : Prop where
  same : t = { s with stack := k ++ s.stack, stkHwm := t.stkHwm }
  hwm : HwmWithin E s t

theorem Pushed.stack {E : Nat} {k : List BitCluster} (h : Pushed E k s t) : t.stack = k ++ s.stack := by rw [h.same]

theorem Pushed.frame {E : Nat} {k : List BitCluster} (h : Pushed E k s t) : EncFrame s t := by
  rw [h.same]; exact ⟨rfl, [], rfl, rfl, nofun⟩

theorem Pushed.wrote {E : Nat} {k : List BitCluster} (h : Pushed E k s t) (hr : WriterReady s) : Wrote [] s t :=
  .of_same hr h.frame (by rw [h.same]; rfl) (by rw [h.same])

theorem Pushed.trans {E : Nat} {k l : List BitCluster} (h : Pushed E k s t) (g : Pushed E l t u) : Pushed E (l ++ k) s u := by
  refine ⟨?_, h.hwm.trans g.hwm⟩
  have hg := g.same
  rw [h.same] at hg
  rw [List.append_assoc]
  exact hg

/-- `AddE` with room on the stack (R161). -/
theorem addE_pushed {E start length bitPos : Nat} (hroom : bitPos ≠ 0 → s.stkSp < E) (hE : E ≤ 64) :
    ∃ t, addE start length bitPos s = .ok ⟨⟩ t ∧ Pushed E (entry start length bitPos) s t := by
  unfold entry
  split_ifs with h0
  · exact ⟨s, addE_drop h0 s, rfl, .of_eq rfl⟩
  · obtain ⟨hl, hb⟩ := not_or.1 h0
    have hsp := hroom hb
    refine ⟨_, addE_push hl hb (by omega), rfl, ?_⟩
    have hcnt := s.stkHwm.isLt
    have hmax : (toCount (max s.stkHwm.toNat (s.stkSp + 1))).toNat = max s.stkHwm.toNat (s.stkSp + 1) := toCount_toNat (by omega)
    exact ⟨hmax ▸ le_max_left _ _, hmax ▸ max_le_max le_rfl hsp⟩

/-- The zeros child goes on the stack first, the ones child on top of it (R162 case 4). -/
theorem addChildren_pushed {E s0 n0 s1 n1 p : Nat} (hroom : p ≠ 0 → s.stkSp + 1 < E) (hE : E ≤ 64) :
    ∃ t, (do addE s0 n0 p; addE s1 n1 p : Rule Unit) s = .ok ⟨⟩ t ∧ Pushed E (entry s1 n1 p ++ entry s0 n0 p) s t := by
  obtain ⟨t, ht, hpt⟩ := addE_pushed (s := s) (start := s0) (length := n0) (bitPos := p) (fun h0 => by have := hroom h0; omega) hE
  have hsp : t.stkSp ≤ s.stkSp + 1 := by
    rw [State.stkSp, hpt.stack, List.length_append, State.stkSp, Nat.add_comm]
    unfold entry
    split_ifs <;> simp
  obtain ⟨u, hu, hpu⟩ := addE_pushed (s := t) (start := s1) (length := n1) (bitPos := p) (fun h0 => hsp.trans_lt (hroom h0)) hE
  exact ⟨u, by rw [bind_run_ok ht, hu], hpt.trans hpu⟩

/-! ### One step of the walk (R162) -/

/-- The fields of a cluster. -/
def clusterFields (f : Nat → Nat) (s : State) (c : BitCluster) : List BitField :=
  treeFields s.skipEff s.mcl.toNat c.bitPos.toNat (slice f c.start.toNat c.length.toNat)

/-- From `s` to `t` the fields `fs` of the popped cluster `c` have gone into the stream, and the children `k` that hold its other fields
on the stack. -/
structure Stepped (f : Nat → Nat) (len : Nat) (c : BitCluster) (fs : List BitField) (k : List BitCluster) (s t : State) : Prop where
  wrote : Wrote fs s t
  stack : t.stack = k ++ s.stack
  fields : clusterFields f s c = fs ++ stackFields s.skipEff s.mcl.toNat f k
  clusters : ∀ d ∈ k, ClusterOf f len s.ebw d
  ladder : Ladder s.ebw (k ++ s.stack)
  hwm : HwmWithin s.ebw s t
  weight : encWeight k < c.length.toNat * c.bitPos.toNat

/-- A cluster whose fields are all put into the stream. -/
theorem Stepped.of_wrote (hc : ClusterOf f len s.ebw c) (hlad : Ladder s.ebw (c :: s.stack)) (hw : Wrote (clusterFields f s c) s t)
    (hview : stackView t = stackView s) : Stepped f len c (clusterFields f s c) [] s t :=
  ⟨hw, congrArg Prod.fst hview, (List.append_nil _).symm, nofun, hlad.tail, .of_eq (congrArg Prod.snd hview),
    Nat.mul_pos hc.length_pos hc.bitPos_pos⟩

/-- Case 4: the count of the zeros goes into the stream, the children go on the stack. -/
theorem encSplit_stepped (hr : WriterReady s) (hin : InputHolds f vbase len s) (hc : ClusterOf f len s.ebw c)
    (hlad : Ladder s.ebw (c :: s.stack)) (hfull : ¬ (s.skipEff && isFull c.length.toNat c.bitPos.toNat) = true)
    (hlong : ¬ c.length.toNat ≤ s.mcl.toNat) :
    Finishes (encSplit vbase c.start.toNat c.length.toNat c.bitPos.toNat) s (fun _ t => ∃ fs k, Stepped f len c fs k s t)
      (EmitFailed (streamBits (clusterFields f s c)) vbase len · s ·) := by
  obtain ⟨p, hp⟩ : ∃ p, c.bitPos.toNat = p + 1 := ⟨_, (Nat.succ_pred_eq_of_pos hc.bitPos_pos).symm⟩
  have hE := hin.ebw_le
  have hle := hc.bitPos_le
  have hinside := hc.inside
  have hlen := hin.len_lt
  have hsp : s.stkSp ≤ s.ebw - c.bitPos.toNat := hlad.length_rest
  have hshared : SharedAbove f (p + 1) c.start.toNat c.length.toNat := hp ▸ hc.shared
  have hlad' := ladder_push_children hlad hc.bitPos_pos
  unfold encSplit
  simp only [hp, Nat.add_sub_cancel] at hfull hlad' ⊢
  refine .get_bind <| .bind_emitted (Nat.zero_add _).le (zeroCount_finishes hr hin hc.inside hshared) ?_ ?_
  · rintro _ _ ⟨-, rfl⟩
    exact ⟨hr, .refl _, rfl⟩
  rintro z s ⟨hsplit, rfl⟩
  have hz := hsplit.le
  have hfields := treeFields_split (skipEff := s.skipEff) (mcl := s.mcl.toNat) hc.length_pos.ne' hfull hlong hz hsplit.clear hsplit.set
  have hdef : clusterFields f s c =
      treeFields s.skipEff s.mcl.toNat (p + 1) (slice f c.start.toNat c.length.toNat) := by rw [clusterFields, hp]
  obtain ⟨hlow, hhigh⟩ := hsplit.shared hshared
  refine .bind_emitted (b' := 0) ?_ (putField_wrote hr z (bitsLen64_le c.length.isLt) vbase len) (fun _ _ ⟨ht, _⟩ => ht.toEmitted) ?_
  · rw [hdef, hfields, streamBits]; exact Nat.add_le_add_left (Nat.zero_le _) _
  rintro _ t ⟨ht, hview⟩
  have hst : t.stack = s.stack := congrArg Prod.fst hview
  obtain ⟨u, hu, hpush⟩ := addChildren_pushed (s := t) (E := s.ebw) (s0 := c.start.toNat) (n0 := z) (s1 := c.start.toNat + z)
    (n1 := c.length.toNat - z) (p := p) (fun h0 => by rw [State.stkSp] at hsp ⊢; rw [hst]; omega) hE
  refine .of_ok hu ⟨[⟨z, bitsLen64 c.length.toNat⟩], _, ht.trans (hpush.wrote ht.ready), by rw [hpush.stack, hst], ?_, ?_,
    hlad' _ _ _ _, .trans (.of_eq (congrArg Prod.snd hview)) hpush.hwm, ?_⟩
  · rw [hdef, hfields, stackFields_append, stackFields_entry (by omega) (by omega) (by omega),
      stackFields_entry (by omega) (by omega) (by omega)]
    rfl
  · intro d hd
    rcases List.mem_append.1 hd with hd | hd
    · exact clusterOf_entry hlen (by omega) (by omega) (by omega) hhigh d hd
    · exact clusterOf_entry hlen (by omega) (by omega) (by omega) hlow d hd
  · rw [encWeight_append, encWeight_entry (by omega) (by omega), encWeight_entry (by omega) (by omega), ← Nat.add_mul,
      Nat.sub_add_cancel hz, hp]
    exact Nat.mul_lt_mul_of_pos_left (Nat.lt_succ_self p) hc.length_pos

/-- `EncStep` on a popped cluster of the ascending array (R162). -/
theorem encStep_stepped (hr : WriterReady s) (hin : InputHolds f vbase len s) (hc : ClusterOf f len s.ebw c)
    (hlad : Ladder s.ebw (c :: s.stack)) :
    Finishes (encStep vbase c) s (fun _ t => ∃ fs k, Stepped f len c fs k s t)
      (EmitFailed (streamBits (clusterFields f s c)) vbase len · s ·) := by
  obtain ⟨p, hp⟩ : ∃ p, c.bitPos.toNat = p + 1 := ⟨_, (Nat.succ_pred_eq_of_pos hc.bitPos_pos).symm⟩
  have hle : c.bitPos.toNat ≤ 64 := hc.bitPos_le.trans hin.ebw_le
  refine .get_bind ?_
  split_ifs with h0 hfull hshort
  · exact absurd (congrArg BitVec.toNat h0) hc.bitPos_pos.ne'
  · have hnil : clusterFields f s c = [] := by
      rw [clusterFields, hp]
      rw [hp] at hfull
      exact treeFields_full hfull
    exact .of_ok rfl ⟨_, _, .of_wrote hc hlad (hnil ▸ .of_same hr (.refl s) rfl rfl) rfl⟩
  · have hfields : clusterFields f s c =
        (slice f c.start.toNat c.length.toNat).map fun v => ⟨v &&& sizeMask c.bitPos.toNat, c.bitPos.toNat⟩ := by
      rw [clusterFields, hp]
      rw [hp] at hfull
      exact treeFields_short hfull hshort
    have hwrite := emitLiterals_wrote (f := f) hle c.length.toNat c.start.toNat hr hin hc.inside
    rw [← hfields] at hwrite
    exact hwrite.mono (fun _ _ ⟨hw, hview⟩ => ⟨_, _, .of_wrote hc hlad hw hview⟩) fun _ _ => id
  · exact encSplit_stepped hr hin hc hlad hfull hshort

/-! ### The whole walk (R163, R167, R168) -/

/-- An encoder walk over the ascending array, between steps. -/
structure TreeWalk (f : Nat → Nat) (vbase len : Nat) (s : State) : Prop where
  ready : WriterReady s
  input : InputHolds f vbase len s
  ladder : Ladder s.ebw s.stack
  clusters : ∀ c ∈ s.stack, ClusterOf f len s.ebw c

/-- The fields that a walk has still to put into the stream. -/
def pending (f : Nat → Nat) (s : State) : List BitField := stackFields s.skipEff s.mcl.toNat f s.stack

theorem skipEff_of_encFrame (h : EncFrame s t) : t.skipEff = s.skipEff := by rw [h.same]; rfl

theorem TreeWalk.popped {rest : List BitCluster} (hw : TreeWalk f vbase len s) : Wrote [] s (s.withStack rest) :=
  .of_same hw.ready (.withStack s rest) rfl rfl

/-- After a step the walk goes on with the fields that the step has not put into the stream, and with less weight (R167). -/
theorem TreeWalk.stepped {rest : List BitCluster} {fs : List BitField} {k : List BitCluster} (hw : TreeWalk f vbase len s)
    (hst : s.stack = c :: rest) (h : Stepped f len c fs k (s.withStack rest) t) :
    TreeWalk f vbase len t ∧ Wrote fs s t ∧ pending f s = fs ++ pending f t ∧ HwmWithin s.ebw s t ∧
      encWeight t.stack < encWeight s.stack := by
  have hwrote : Wrote fs s t := hw.popped.trans h.wrote
  have hebw := hwrote.frame.ebw
  have hstack : t.stack = k ++ rest := h.stack
  refine ⟨⟨hwrote.ready, hw.input.of_frame hwrote.frame, ?_, ?_⟩, hwrote, ?_, ⟨h.hwm.le, h.hwm.bound⟩, ?_⟩
  · rw [hebw, hstack]; exact h.ladder
  · rw [hebw, hstack]
    intro d hd
    rcases List.mem_append.1 hd with hd | hd
    · exact h.clusters d hd
    · exact hw.clusters d (hst ▸ List.mem_cons_of_mem c hd)
  · calc pending f s = clusterFields f (s.withStack rest) c ++ stackFields s.skipEff s.mcl.toNat f rest := by
          rw [pending, hst, stackFields_cons]; rfl
      _ = fs ++ stackFields s.skipEff s.mcl.toNat f t.stack := by
          rw [h.fields, hstack, stackFields_append, List.append_assoc]; rfl
      _ = fs ++ pending f t := by rw [pending, skipEff_of_encFrame hwrote.frame, hwrote.frame.mcl]
  · rw [hstack, encWeight_append, hst, encWeight]
    exact Nat.add_lt_add_right h.weight _

/-- The loop of `ETreeBody` with enough steps for the weight on the stack: the pending fields go into the stream. -/
theorem eTreeLoop_wrote : ∀ (fuel : Nat) {s : State}, TreeWalk f vbase len s → encWeight s.stack ≤ fuel →
    Finishes (eTreeLoop vbase fuel) s (fun _ t => Wrote (pending f s) s t ∧ t.stack = [] ∧ HwmWithin s.ebw s t)
      (EmitFailed (streamBits (pending f s)) vbase len · s ·)
  | 0, s, hw, hfuel => by
    have hnil : s.stack = [] := by
      cases hst : s.stack with
      | nil => rfl
      | cons c rest =>
        have hc := hw.clusters c (by rw [hst]; exact List.mem_cons_self)
        have := encWeight_pos (k := rest) hc.length_pos hc.bitPos_pos
        rw [hst] at hfuel; omega
    refine .get_bind ?_
    rw [if_pos hnil, pending, hnil]
    exact .of_ok rfl ⟨.of_same hw.ready (.refl s) rfl rfl, hnil, .of_eq rfl⟩
  | fuel + 1, s, hw, hfuel => by
    cases hst : s.stack with
    | nil =>
      rw [pending, hst]
      exact .of_ok (bind_run_ok (stackPop_none hst)) ⟨.of_same hw.ready (.refl s) rfl rfl, hst, .of_eq rfl⟩
    | cons c rest =>
      have hpop : Wrote [] s (s.withStack rest) := hw.popped
      have hstep := encStep_stepped (s := s.withStack rest) hpop.ready (hw.input.of_frame hpop.frame)
        (hw.clusters c (hst ▸ List.mem_cons_self)) (hst ▸ hw.ladder)
      have hbits : streamBits [] + streamBits (clusterFields f (s.withStack rest) c) ≤ streamBits (pending f s) := by
        rw [pending, hst, stackFields_cons, streamBits_append, streamBits, Nat.zero_add]
        exact Nat.le_add_right _ _
      refine .of_run_eq (bind_run_ok (stackPop_some hst)) ?_
      refine Finishes.bind (hstep.mono (fun _ _ => id) fun _ _ he => (EmitFailed.after hpop.toEmitted he).weaken hbits) ?_
      rintro _ t ⟨fs, k, ht⟩
      obtain ⟨hwt, hwrote, hpending, hhwm, hweight⟩ := hw.stepped hst ht
      rw [hpending]
      refine (eTreeLoop_wrote fuel hwt (by omega)).mono ?_ fun _ _ he => ?_
      · rintro _ u ⟨hu, hnil, huhwm⟩
        exact ⟨hwrote.trans hu, hnil, hhwm.trans (hwrote.frame.ebw ▸ huhwm)⟩
      · rw [streamBits_append]
        exact .after hwrote.toEmitted he

/-- `ETreeBody` puts the tree of the ascending array into the stream (R163, R168). -/
theorem eTreeBody_wrote (hr : WriterReady s) (hin : InputHolds f vbase len s) (hvalues : ∀ i < len, f i < 2 ^ s.ebw) :
    Finishes (eTreeBody vbase len) s
      (fun _ t => Wrote (treeFields s.skipEff s.mcl.toNat s.ebw (slice f 0 len)) s t ∧ t.stack = [] ∧ HwmWithin s.ebw s t)
      (EmitFailed (streamBits (treeFields s.skipEff s.mcl.toNat s.ebw (slice f 0 len))) vbase len · s ·) := by
  have hE := hin.ebw_le
  have hlen := hin.len_lt
  have hclear : Wrote [] s (s.withStack []) := .of_same hr (.withStack s []) rfl rfl
  obtain ⟨t, ht, hpush⟩ := addE_pushed (s := s.withStack []) (E := s.ebw) (start := 0) (length := len) (bitPos := s.ebw)
    (fun _ => ebw_pos s) hE
  have hwrote : Wrote [] s t := hclear.trans (hpush.wrote hclear.ready)
  have hstack : t.stack = entry 0 len s.ebw := hpush.stack.trans (List.append_nil _)
  have hebw := hwrote.frame.ebw
  have hpending : pending f t = treeFields s.skipEff s.mcl.toNat s.ebw (slice f 0 len) := by
    rw [pending, hstack, stackFields_entry (by decide) hlen (by omega), skipEff_of_encFrame hwrote.frame, hwrote.frame.mcl]
  have hshared : SharedAbove f s.ebw 0 len := fun i j _ h2 _ h4 => by
    rw [Nat.div_eq_of_lt (hvalues i (by omega)), Nat.div_eq_of_lt (hvalues j (by omega))]
  have hladder : Ladder s.ebw (entry 0 len s.ebw) := by
    unfold entry
    split_ifs
    · trivial
    · exact ⟨(toCount_toNat (by omega)).le, nofun, .nil⟩
  have hwalk : TreeWalk f vbase len t := ⟨hwrote.ready, hin.of_frame hwrote.frame, by rw [hebw, hstack]; exact hladder,
    by rw [hebw, hstack]; exact clusterOf_entry hlen (by omega) (by omega) le_rfl hshared⟩
  have hrun : eTreeBody vbase len s = eTreeLoop vbase (1 + len * s.ebw) t := by
    rw [eTreeBody, bind_run_ok (stackClear_run s), bind_run_ok (get_run _)]
    exact bind_run_ok ht
  have hfuel : encWeight t.stack ≤ 1 + len * s.ebw := by
    rw [hstack, encWeight_entry hlen (by omega)]; exact Nat.le_add_left _ _
  rw [← hpending]
  refine .of_run_eq hrun ((eTreeLoop_wrote _ hwalk hfuel).mono ?_ fun _ _ he => ?_)
  · rintro _ u ⟨hu, hnil, hhwm⟩
    exact ⟨hwrote.trans hu, hnil, HwmWithin.trans ⟨hpush.hwm.le, hpush.hwm.bound⟩ (hebw ▸ hhwm)⟩
  · exact (EmitFailed.after hwrote.toEmitted he).weaken (Nat.zero_add _).le

end Walk
end Sys2Proof.Proofs

/-! PROOFS. The encoder's commands against the format (44_bct_encoder.md R164 to R168, 41_bitstream_writer.md R118, R120). -/

namespace Sys2Proof.Proofs
open Sys2Proof Sys2Proof.Machine Sys2Proof.Format Sys2Proof.Laws

/-! ### The input of an encoder command (70_reset_and_hazards.md R240) -/

section Input
variable {s t u : State} {vbase len : Nat}

theorem arrayValues_eq_slice (s : State) (vbase len : Nat) : arrayValues s vbase len = slice (elemValue s vbase) 0 len := by
  rw [arrayValues, slice, List.range_eq_range']

/-- The elements of an array that the encoder expects do not fall. -/
theorem elemValue_mono (h : s.encodable (arrayValues s vbase len)) {i j : Nat} (hij : i ≤ j) (hj : j < len) :
    elemValue s vbase i ≤ elemValue s vbase j := by
  obtain ⟨-, horder⟩ := h
  have hle : (arrayValues s vbase len).Pairwise (· ≤ ·) := by
    split_ifs at horder
    · exact horder
    · exact horder.imp Nat.le_of_lt
  rcases Nat.eq_or_lt_of_le hij with rfl | hlt
  · exact le_rfl
  · have hlength : (arrayValues s vbase len).length = len := by simp [arrayValues]
    simpa [arrayValues] using List.pairwise_iff_getElem.1 hle i j (by omega) (by omega) hlt

theorem elemValue_lt_ebw (h : s.encodable (arrayValues s vbase len)) {i : Nat} (hi : i < len) : elemValue s vbase i < 2 ^ s.ebw := by
  obtain ⟨hlt, -⟩ := h
  exact hlt _ (List.mem_map_of_mem (List.mem_range.2 hi))

theorem inputHolds_of_encodable {q : Region} (hcfg : s.badConfig = false)
    (harr : s.arg0.toNat + s.arrayBytes s.arg1.toNat < Config.addressSpace) (henc : s.encodable s.inputValues)
    (hdis : (s.arrayRegion s.arg0 s.arg1).disjoint q) (hfirst : q.first ≤ s.wrBase.toNat) (hpast : s.wrLimit.toNat + 8 ≤ q.past) :
    InputHolds (elemValue s s.arg0.toNat) s.arg0.toNat s.arg1.toNat s := by
  refine ⟨fun _ _ => rfl, fun i j hij hj => elemValue_mono henc hij hj, fun a h1 h2 => ?_, harr, s.arg1.isLt,
    (ebw_le s hcfg).trans (elemWidth_le s)⟩
  by_contra hin
  obtain ⟨hge, hlt⟩ := not_or.1 hin
  have hout := hdis a (holds_ofBytes.2 ⟨h1, h2⟩)
  rw [holds_iff.2 ⟨by omega, by omega⟩] at hout
  cases hout

end Input

/-! ### The stream since a state (R118) -/

section Stream
variable {s t u : State}

theorem byteAt_memNat (m : Memory) : ∀ (a n i : Nat), i < n → byteAt (memNat m a n) i = m.read (a + i)
  | _, 0, _, h => absurd h (Nat.not_lt_zero _)
  | a, n + 1, 0, _ => by
    rw [memNat_succ, byteAt_zero]
    apply BitVec.eq_of_toNat_eq
    rw [BitVec.toNat_ofNat, Nat.add_mul_mod_self_left]
    exact Nat.mod_eq_of_lt (m.read a).isLt
  | a, n + 1, i + 1, h => by
    rw [memNat_succ, byteAt_succ, Nat.add_mul_div_left _ _ (by decide), Nat.div_eq_of_lt (m.read a).isLt, Nat.zero_add,
      byteAt_memNat m (a + 1) n i (Nat.lt_of_succ_lt_succ h), Nat.add_right_comm, Nat.add_assoc]

/-- What memory holds from the base of the open writer to its pointer, and the pending bits, are a stream. -/
theorem Streamed.of_ready (h : WriterReady s) : Streamed s s.wrBase.toNat (streamPos s) (streamSoFar s) s := by
  have hmem := memNat_lt s.mem s.wrBase.toNat (s.wrPtr.toNat - s.wrBase.toNat)
  refine ⟨h.isOpen, rfl, h.base_le, h.limit_lt, h.cnt_le.trans (by decide), h.acc_lt, rfl, ?_, fun a => ?_⟩
  · rw [streamSoFar, Nat.add_mul_div_left _ _ (Nat.two_pow_pos _), Nat.div_eq_of_lt hmem, Nat.zero_add]
  · split_ifs with ha
    · rw [streamSoFar, Nat.mul_comm, byteAt_add_mul (by omega), byteAt_memNat _ _ _ _ (by omega), Nat.add_sub_cancel' ha.1]
    · rfl

/-- The fields written since a state stand after the bits that were pending in it: the complete bytes from its write pointer on, the rest
in the writer registers (R113, R118). -/
theorem Wrote.since {fs : List BitField} (h : WriterReady s) (hw : Wrote fs s t) :
    let T := s.wrCnt.toNat + streamBits fs
    let S := s.wrAcc.toNat + streamValue fs * 2 ^ s.wrCnt.toNat
    t.wrPtr.toNat = s.wrPtr.toNat + T / 8 ∧ t.wrCnt.toNat = T % 8 ∧ t.wrAcc.toNat = S / 2 ^ (8 * (T / 8)) ∧
      t.storedBytes s s.wrPtr.toNat (T / 8) S := by
  intro T S
  have hstream := hw.stream (.of_ready h)
  have hbase := h.base_le
  have hbase' := hstream.base_le
  have hcnt := hw.ready.cnt_le
  have hpos := hstream.pos
  obtain ⟨d, hd⟩ := Nat.exists_eq_add_of_le hbase
  have hpos0 : streamPos s = 8 * d + s.wrCnt.toNat := by rw [streamPos, hd, Nat.add_sub_cancel_left]
  have hT : T = s.wrCnt.toNat + streamBits fs := rfl
  have hptr : t.wrPtr.toNat - s.wrBase.toNat = d + T / 8 := by omega
  have hvalue : streamSoFar s + streamValue fs * 2 ^ streamPos s = memNat s.mem s.wrBase.toNat d + S * 2 ^ (8 * d) := by
    rw [streamSoFar, hpos0, hd, Nat.add_sub_cancel_left, Nat.pow_add]
    show _ = _ + (s.wrAcc.toNat + streamValue fs * 2 ^ s.wrCnt.toNat) * 2 ^ (8 * d)
    ring
  have hhigh : (memNat s.mem s.wrBase.toNat d + S * 2 ^ (8 * d)) / 2 ^ (8 * d) = S := by
    rw [Nat.add_mul_div_right _ _ (Nat.two_pow_pos _), Nat.div_eq_of_lt (memNat_lt _ _ _), Nat.zero_add]
  refine ⟨by omega, by omega, ?_, fun a => ?_⟩
  · rw [hstream.rest, hvalue, hptr, Nat.mul_add, Nat.pow_add, ← Nat.div_div_eq_div_mul, hhigh]
  · rw [hstream.stored a, hvalue, hptr]
    rcases Nat.lt_or_ge a s.wrPtr.toNat with hlow | hge
    · rw [if_neg (c := _ ∧ a < s.wrPtr.toNat + T / 8) (by omega)]
      split_ifs with ha
      · rw [byteAt_add_mul (by omega), byteAt_memNat _ _ _ _ (by omega), Nat.add_sub_cancel' ha.1]
      · rfl
    · refine if_congr (by omega) ?_ rfl
      rw [show a - s.wrBase.toNat = d + (a - s.wrPtr.toNat) by omega, byteAt_add, hhigh]

theorem sameButMemory_trans (h : t.sameButMemory s) (k : s.sameButMemory u) : t.sameButMemory u := by
  unfold State.sameButMemory at *
  exact (congrArg (fun x : State => { x with mem := u.mem, storeTrace := u.storeTrace }) h).trans k

/-- What an encoder walk that completes changes besides memory. -/
theorem sameButMemory_of_encFrame (h : EncFrame s.started t) (v : Word) : (t.completed 0 0 v).sameButMemory { s.succeeded v with
    wrPtr := t.wrPtr, wrAcc := t.wrAcc, wrCnt := t.wrCnt, stack := t.stack, stkHwm := t.stkHwm } := by
  rw [completed_without_error, h.same]
  rfl

/-- The same of a walk that begins with a fresh writer and closes it. -/
theorem sameButMemory_of_encFrame_init {base cap : Nat} (h : EncFrame (s.started.writerInitialised base cap) t) (v : Word) :
    State.sameButMemory { t.succeeded v with wrOpen := false } { s.succeeded v with
      wrAcc := t.wrAcc, wrCnt := t.wrCnt, wrBase := toWord base, wrPtr := t.wrPtr, wrLimit := toWord (base + cap - Config.minCap),
      wrOpen := false, stack := t.stack, stkHwm := t.stkHwm } := by
  rw [h.same]
  rfl

end Stream

/-! ### The commands (R164, R166) -/

section Commands
variable {s t : State} {vbase len bits : Nat} {e : Err}

/-- Where no byte is refused, an encoder operation fails only for want of room (R120). -/
theorem endOfStream_of_admitted (h : EmitFailed bits vbase len e s t) (hbuffer : BufferAdmitted s)
    (harray : AllAdmitted s.platform vbase (s.arrayBytes len)) :
    e = .endOfStream ∧ s.wrLimit.toNat < s.wrBase.toNat + (streamPos s + bits) / 8 :=
  h.cause.resolve_right fun hc => hc.2.elim (· hbuffer) (· harray)

@[simp] theorem started_treeOfInput : s.started.treeOfInput = s.treeOfInput := rfl

theorem bctEtreeRule_wrote (hcheck : s.etreeCheck = none) (hinv : s.writerInv) (henc : s.encodable s.inputValues)
    (hdis : (readRegion .bctEtree s).disjoint (writeRegion .bctEtree s)) :
    Finishes bctEtreeRule s
      (fun v t => v = 0 ∧ Wrote s.treeOfInput s t ∧ t.stack = [] ∧ HwmWithin s.ebw s t)
      (EmitFailed (streamBits s.treeOfInput) s.arg0.toNat s.arg1.toNat · s ·) := by
  have hc := EtreeChecked.of_check hcheck
  have hin := inputHolds_of_encodable hc.config hc.array henc hdis le_rfl le_rfl
  have htree : s.treeOfInput = treeFields s.skipEff s.mcl.toNat s.ebw (slice (elemValue s s.arg0.toNat) 0 s.arg1.toNat) := by
    rw [State.treeOfInput, State.inputValues, arrayValues_eq_slice]
  rw [htree]
  exact .of_run_eq (bctEtreeRule_past_checks hcheck) <|
    (eTreeBody_wrote (hc.ready hinv) hin fun i hi => elemValue_lt_ebw henc hi).bind fun _ _ ht => .of_ok rfl ⟨rfl, ht⟩

/-- The whole encoding has gone into the stream of the writer that `BCT.ENCODE` opened, and that writer is closed (R166, R168). -/
structure Encoded (s : State) (v : Word) (t : State) : Prop where
  fits : s.arg2.toNat + streamBits s.encodingOfInput / 8 + 8 ≤ s.arg2.toNat + s.arg3.toNat
  same : (t.completed 0 0 v).sameButMemory { s.succeeded (toWord (bytesFor (streamBits s.encodingOfInput))) with
    wrAcc := toWord (streamValue s.encodingOfInput / 2 ^ (8 * (streamBits s.encodingOfInput / 8))),
    wrCnt := toCount (streamBits s.encodingOfInput % 8), wrBase := s.arg2,
    wrPtr := toWord (s.arg2.toNat + streamBits s.encodingOfInput / 8),
    wrLimit := toWord (s.arg2.toNat + s.arg3.toNat - 8), wrOpen := false, stack := [], stkHwm := t.stkHwm }
  hwm : HwmWithin s.ebw s t
  stored : t.storedBytes s s.arg2.toNat (bytesFor (streamBits s.encodingOfInput)) (streamValue s.encodingOfInput)

theorem toCount_self (c : Count7) : toCount c.toNat = c := by simp

/-- A close with no complete byte pending changes no register but that it closes the writer (R116). -/
theorem afterClose_same_of_ready (h : WriterReady s) (v : Word) :
    ((afterClose s).completed 0 0 v).sameButMemory { s.succeeded v with wrOpen := false } := by
  have hsame := afterClose_same s v
  have hcnt := h.cnt_le
  have hword : toWord s.wrPtr.toNat = s.wrPtr := toWord_self _
  have hcount : toCount s.wrCnt.toNat = s.wrCnt := toCount_self _
  rw [Nat.div_eq_of_lt (by omega), Nat.mod_eq_of_lt (by omega), Nat.add_zero, hword, hcount] at hsame
  simpa using hsame

/-- What stands in the closed writer and in memory when the whole encoding has been put into a fresh writer. -/
theorem Encoded.of_close {u : State} {v : Word} (hc : EncodeChecked s)
    (hw : Wrote s.encodingOfInput (s.started.writerInitialised s.arg2.toNat s.arg3.toNat) u) (hnil : u.stack = [])
    (hhwm : HwmWithin s.ebw (s.started.writerInitialised s.arg2.toNat s.arg3.toNat) u) (hle : u.wrPtr.toNat ≤ u.wrLimit.toNat)
    (hv : v.toNat = bytesFor (streamBits s.encodingOfInput))
    (hstored : (afterClose u).storedBytes s s.arg2.toNat (bytesFor (streamBits s.encodingOfInput)) (streamValue s.encodingOfInput)) :
    Encoded s v (afterClose u) := by
  have hcap := hc.cap_ge
  obtain ⟨hready, hbase, hlimit, -, -⟩ := writerInitialised_ready s.started hc.buffer hc.cap_ge
  obtain ⟨hptr, hcnt, hacc, -⟩ := hw.since hready
  have hptr0 : (s.started.writerInitialised s.arg2.toNat s.arg3.toNat).wrPtr.toNat = s.arg2.toNat := hbase
  have hcnt0 : (s.started.writerInitialised s.arg2.toNat s.arg3.toNat).wrCnt.toNat = 0 := rfl
  have hacc0 : (s.started.writerInitialised s.arg2.toNat s.arg3.toNat).wrAcc.toNat = 0 := rfl
  rw [hcnt0, Nat.zero_add] at hptr hcnt
  rw [hptr0] at hptr
  rw [hcnt0, hacc0, Nat.zero_add, Nat.zero_add, Nat.pow_zero, Nat.mul_one] at hacc
  refine ⟨?_, ?_, ⟨hhwm.le, hhwm.bound⟩, hstored⟩
  · rw [hptr, hw.frame.wrLimit, hlimit] at hle
    omega
  · rw [← hv, toWord_self, ← hacc, toWord_self, ← hcnt, toCount_self, ← hptr, toWord_self, ← hnil]
    have hsame := sameButMemory_of_encFrame_init hw.frame v
    rw [toWord_self] at hsame
    exact sameButMemory_trans (afterClose_same_of_ready hw.ready v) hsame

theorem encodingOfInput_eq (s : State) : s.encodingOfInput = [headerField s.isList s.elemWidth s.arg1.toNat] ++
    treeFields s.skipEff s.mcl.toNat s.ebw (slice (elemValue s s.arg0.toNat) 0 s.arg1.toNat) := by
  have hlength : s.inputValues.length = s.arg1.toNat := by simp [State.inputValues, arrayValues]
  rw [State.encodingOfInput, encodingFields, hlength, State.inputValues, arrayValues_eq_slice, List.singleton_append]

/-- The whole command past its checks: the count and the tree go into the fresh writer, which is then closed (R166). -/
theorem bctEncodeRule_encodes (hcheck : s.encodeCheck = none) (henc : s.encodable s.inputValues)
    (hdis : (readRegion .bctEncode s).disjoint (writeRegion .bctEncode s)) :
    Finishes bctEncodeRule s.started (Encoded s)
      (EmitFailed (streamBits s.encodingOfInput) s.arg0.toNat s.arg1.toNat ·
        (s.started.writerInitialised s.arg2.toNat s.arg3.toNat) ·) := by
  have hc := EncodeChecked.of_check hcheck
  obtain ⟨hready, hbase, hlimit, -⟩ := writerInitialised_ready s.started hc.buffer hc.cap_ge
  have hpast : s.arg2.toNat + s.arg3.toNat - 8 + 8 ≤ s.arg2.toNat + s.arg3.toNat := by have := hc.cap_ge; omega
  have hin := inputHolds_of_encodable (s := s.started.writerInitialised s.arg2.toNat s.arg3.toNat) hc.config hc.array henc hdis
    hbase.ge (hlimit ▸ hpast)
  have hsplit := encodingOfInput_eq s
  have hbits := congrArg streamBits hsplit
  rw [streamBits_append] at hbits
  refine .of_run_eq (bctEncodeRule_past_checks (s := s.started) hcheck) ?_
  refine Finishes.bind_emitted hbits.ge (putHeader_wrote hready _ _ _) (fun _ _ ht => ht.1.toEmitted) ?_
  rintro _ t ⟨ht, hview⟩
  have htree := eTreeBody_wrote ht.ready (hin.of_frame ht.frame)
    (fun i hi => by rw [ht.frame.ebw]; exact elemValue_lt_ebw henc hi)
  rw [skipEff_of_encFrame ht.frame, ht.frame.mcl, ht.frame.ebw] at htree
  refine Finishes.bind_emitted (Nat.add_zero _).le htree (fun _ _ hu => hu.1.toEmitted) ?_
  rintro _ u ⟨hu, hnil, hhwm⟩
  have hw : Wrote s.encodingOfInput (s.started.writerInitialised s.arg2.toNat s.arg3.toNat) u := by
    rw [hsplit]
    exact ht.trans hu
  have hstream := hw.stream (r := s.started) (.init hc.buffer hc.cap_ge)
  refine ((writerClose_finishes hu.ready _ _).and_ends hstream.writerClose).mono ?_ fun _ _ he => he.1
  rintro v _ ⟨⟨hle, -, rfl⟩, hv, hstored⟩
  simp only [Nat.zero_add, Nat.pow_zero, Nat.mul_one] at hv hstored
  exact .of_close hc hw hnil (.trans (.of_eq (congrArg Prod.snd hview)) hhwm) hle hv hstored

end Commands

/-- Settles O33: the walk writes the tree, and there is room and admission for all of it. -/
theorem treeMeetsFormat : Obligations.TreeMeetsFormat := by
  intro s hcheck hinv henc hread hwrite hdis
  simp only [Nat.shiftLeft_eq]
  intro hroom
  have hready : WriterReady s.started := (EtreeChecked.of_check (s := s.started) hcheck).ready hinv
  have hrule := bctEtreeRule_wrote (s := s.started) hcheck hinv henc hdis
  rcases hrule.command with ⟨v, u, ⟨rfl, hw, hnil, hhwm⟩, hx⟩ | ⟨e, i, u, hf, -⟩
  · obtain ⟨hptr, hcnt, hacc, hstored⟩ := hw.since hready
    simp only [started_wrPtr, started_wrCnt, started_wrAcc, started_treeOfInput] at hptr hcnt hacc
    refine ⟨_, hx, ?_, hhwm.le, hhwm.bound, hstored⟩
    have hsame := sameButMemory_of_encFrame hw.frame 0
    rw [hnil] at hsame
    rw [Nat.shiftRight_eq_div_pow]
    rw [← hacc, toWord_self, ← hcnt, toCount_self, ← hptr, toWord_self]
    exact hsame
  · obtain ⟨-, hfull⟩ := endOfStream_of_admitted hf (bufferAdmitted_of_region (r := writeRegion .bctEtree s) le_rfl le_rfl hwrite)
      (admitsRegion_ofBytes.1 hread)
    have hbase := hready.base_le
    rw [streamPos] at hfull
    simp only [started_wrPtr, started_wrCnt, started_wrBase, started_wrLimit, started_treeOfInput] at hfull hbase
    omega

/-- Settles O32: all of the encoding goes into the fresh writer and the close stores what is pending, or there is no room for that. -/
theorem encodeMeetsFormat : Obligations.EncodeMeetsFormat := by
  intro s hcheck henc hread hwrite hdis
  have hc := EncodeChecked.of_check hcheck
  rcases (bctEncodeRule_encodes hcheck henc hdis).command with ⟨v, u, henc, hx⟩ | ⟨e, i, u, hf, hx⟩
  · have hfits := henc.fits
    refine ⟨_, hx, ?_⟩
    rw [if_pos (by omega)]
    simp only [Nat.shiftRight_eq_div_pow]
    exact ⟨henc.same, henc.hwm.le, henc.hwm.bound, henc.stored⟩
  · obtain ⟨rfl, hfull⟩ := endOfStream_of_admitted hf ((EncodeChecked.of_check (s := s.started) hcheck).bufferAdmitted hwrite)
      (admitsRegion_ofBytes.1 hread)
    have hcap := hc.cap_ge
    obtain ⟨-, hbase, hlimit, hpos, -⟩ := writerInitialised_ready s.started hc.buffer hc.cap_ge
    refine ⟨_, hx, ?_⟩
    rw [if_neg (by omega)]
    obtain ⟨-, hsub, hfault⟩ := exec_statusInv (i := .bctEncode) hx
    refine ⟨rfl, hsub.resolve_right fun h => ?_, hfault (code_ne_zero .endOfStream), rfl, hf.ready.isOpen⟩
    exact absurd h.1 (show Err.endOfStream.code ≠ 7 by decide)

end Sys2Proof.Proofs

/-! PROOFS. The checks of the decoder's commands (45_bct_decoder.md R184, R186): what each of the two rules is before its walk. -/

namespace Sys2Proof.Proofs
open Sys2Proof Sys2Proof.Machine Sys2Proof.Format Sys2Proof.Laws

section Checks
variable {s : State}

theorem readerClosed_check_run {α : Type} (f : Unit → Rule α) (s : State) :
    (raiseIfReaderClosed >>= f) s = if s.rdOpen = false then .error (.raised .notOpen 0) s else f () s := by
  rw [bind_run, raiseIfReaderClosed_run]
  cases s.rdOpen <;> rfl

/-- The limits on the element count, in their order (R186 check 3). -/
theorem outputLength_check_run {α : Type} (len : Nat) (f : Unit → Rule α) (s : State) :
    (raiseIfOutputLength len >>= f) s =
      if s.isList = true ∧ 2 ^ 57 - 1 < len then .error (.raised .outputTooBig 0) s
      else if s.isList = false ∧ s.elemWidth < 64 ∧ 2 ^ s.elemWidth < len then .error (.raised .outputTooBig 0) s
      else if s.isList = false ∧ len = 0 then .error (.raised .wrongFormat 0) s
      else f () s := by
  rw [raiseIfOutputLength, bind_assoc, bind_run_ok (get_run s)]
  cases s.isList with
  | true =>
    simp only [if_true, check_run, decide_eq_true_eq, Bool.true_eq_false, false_and, if_false, true_and]
    rfl
  | false => simp [check_run, bind_assoc, State.overSetLimit]

theorem readerInit_check_run {α : Type} (base len : Nat) (f : PUnit → Rule α) (s : State) :
    (readerInit base len >>= f) s =
      if 2 ^ 64 ≤ base + len then .error (.raised .badArgument 0) s else f ⟨⟩ (s.readerInitialised base len) := by
  simp only [readerInit, bind_assoc, check_run, rangeTooFar_iff]
  rfl

/-- `BCT.DTREE` is its three checks and then the walk (R184). -/
theorem bctDtreeRule_run (s : State) :
    bctDtreeRule s = match s.dtreeCheck with
      | some e => .error (.raised e 0) s
      | none => (do dTreeBody s.arg0.toNat s.arg1.toNat; pure 0 : Rule Word) s := by
  rw [bctDtreeRule, bind_run_ok (get_run s), State.dtreeCheck]
  simp only [check_run, readerClosed_check_run, badConfig_iff, rangeTooFar_iff, State.arrayBytes, State.elemBytes]
  split_ifs <;> rfl

/-- What `BCT.DECODE` does with a fresh reader (R186 steps 5 to 7). -/
def decodeSession (obase len : Nat) : Rule Word := do
  let c ← getHeader
  raiseIf (c != len) .wrongFormat
  dTreeBody obase len
  readerSize

/-- `BCT.DECODE` is its checks and then a session of a fresh reader (R186). -/
theorem bctDecodeRule_run (s : State) :
    bctDecodeRule s = match s.decodeCheck with
      | some e => .error (.raised e 0) s
      | none => decodeSession s.arg2.toNat s.arg3.toNat (s.readerInitialised s.arg0.toNat s.arg1.toNat) := by
  rw [bctDecodeRule, bind_run_ok (get_run s), State.decodeCheck]
  by_cases hfar : 2 ^ 64 ≤ s.arg0.toNat + s.arg1.toNat
  all_goals
    simp only [check_run, outputLength_check_run, readerInit_check_run, badConfig_iff, rangeTooFar_iff, Bool.or_eq_true, hfar,
      true_or, false_or, if_true, if_false, State.arrayBytes, State.elemBytes]
    split_ifs <;> rfl

theorem bctDtreeRule_past_checks (h : s.dtreeCheck = none) :
    bctDtreeRule s = (do dTreeBody s.arg0.toNat s.arg1.toNat; pure 0 : Rule Word) s := by rw [bctDtreeRule_run, h]

theorem bctDecodeRule_past_checks (h : s.decodeCheck = none) :
    bctDecodeRule s = decodeSession s.arg2.toNat s.arg3.toNat (s.readerInitialised s.arg0.toNat s.arg1.toNat) := by
  rw [bctDecodeRule_run, h]

end Checks

/-- Settles O36: a check that fails raises where the command started. -/
theorem decoderChecks : Obligations.DecoderChecks := by
  refine ⟨by decide, by decide, fun s e => ⟨fun hcheck => ?_, fun hcheck => ?_⟩⟩
  · exact runCommand_of_refused (by rw [bctDtreeRule_run, show s.started.dtreeCheck = some e from hcheck])
  · exact runCommand_of_refused (by rw [bctDecodeRule_run, show s.started.decodeCheck = some e from hcheck])

end Sys2Proof.Proofs

/-! PROOFS. The element count at the head of a stream (45_bct_decoder.md R187, R188): a field that one load of a fresh reader holds, so its
first 8 bytes decide what `GetHeader` does. -/

namespace Sys2Proof.Proofs
open Sys2Proof Sys2Proof.Machine Sys2Proof.Format Sys2Proof.Laws

/-! ### A field at a byte boundary (42_bitstream_reader.md R132, R133, R135) -/

section Aligned
variable {s t : State} {n v : Nat} {e : Err}

/-- A read that fails although the platform admits the load reports an end of the stream. -/
theorem readerRead_error_admitted (h : ReaderReady s) (hn : n ≤ 57) (hadm : AllAdmitted s.platform s.loadAddr (loadBytes s))
    (hr : readerRead n s = .error (.raised e 0) t) : e = if s.readerPos = s.inputBits then .endOfStream else .notEnoughBits := by
  refine (readerRead_error h hn hr).resolve_left ?_
  rintro rfl
  rw [readerRead_run h.isOpen hn] at hr
  rcases ensureBits_cases s n with ⟨-, -, he⟩ | ⟨-, -, hno, -⟩ | ⟨-, -, -, he⟩ | ⟨-, -, he⟩
  · rw [he] at hr; cases hr
  · exact hno hadm
  · rw [he] at hr; cases hr
  · rw [he] at hr; cases hr

/-- A load takes whole bytes, so one bit past a byte boundary the lookahead holds the other 7 of its byte. -/
theorem lacksBits_past_boundary (h : ReaderReady s) (hpos : s.readerPos % 8 = 1) (hn : n ≤ 7) : s.lacksBits n = false := by
  have hcons := h.cons_le
  have hloaded := h.loaded_eq
  rw [State.readerPos] at hpos
  rw [lacksBits_eq_false]
  omega

/-- Only the first of the two reads of a wide field loads, if the field begins at a byte boundary. -/
theorem getField_error_aligned (h : ReaderReady s) (hal : s.readerPos % 8 = 0) (hn : n ≤ 64)
    (hadm : AllAdmitted s.platform s.loadAddr (loadBytes s)) (hr : getField n s = .error (.raised e 0) t) :
    e = if s.readerPos = s.inputBits then .endOfStream else .notEnoughBits := by
  unfold getField at hr
  split_ifs at hr with hshort
  · exact readerRead_error_admitted h hshort hadm hr
  · rcases readerRead_ready_cases h (n := Config.maxField) le_rfl with ⟨v, u, hu, hdone, -⟩ | ⟨u, e', hu, -⟩
    · have hpos : u.readerPos % 8 = 1 := by rw [hdone.pos, Config.maxField]; omega
      have hrest : n - Config.maxField ≤ 7 := by rw [Config.maxField]; omega
      have hlacks := lacksBits_past_boundary hdone.ready hpos hrest
      rw [bind_run_ok hu, bind_run_ok (readerRead_buffered hdone.ready.isOpen (by omega) hlacks)] at hr
      cases hr
    · rw [bind_run_error hu] at hr
      cases hr
      exact readerRead_error_admitted h le_rfl hadm hu

theorem fieldAt_eq_some {S total pos : Nat} (h : pos + n ≤ total) (hv : v = (S >>> pos) &&& sizeMask n) :
    fieldAt S total pos n = some v := by rw [fieldAt, if_pos h, hv]

theorem fieldAt_eq_none {S total pos : Nat} (h : total < pos + n) : fieldAt S total pos n = none := if_neg h.not_ge

/-- `GetField(n)` of a decode-class command at a byte boundary (R185): the field of the stream, or which end of the stream it met. -/
theorem decodeField_aligned (h : ReaderReady s) (hfresh : s.lookaheadFresh) (hal : s.readerPos % 8 = 0) (hn : n ≤ 64)
    (hadm : AllAdmitted s.platform s.loadAddr (loadBytes s)) :
    (∃ v t, decodeField n s = .ok v t ∧ ReadDone n s t ∧ fieldAt s.inputStream s.inputBits s.readerPos n = some v) ∨
    (∃ t, decodeField n s = .error (.raised .wrongFormat (if s.readerPos = s.inputBits then 2 else 3)) t ∧ ReadFrame s t ∧
      fieldAt s.inputStream s.inputBits s.readerPos n = none) := by
  unfold decodeField
  rcases getField_ready_cases h hn with ⟨v, t, hv, hdone, -, hin, hvalue⟩ | ⟨t, e, k, -, ht, hdone, hcause⟩
  · exact .inl ⟨v, t, by rw [hv], hdone, fieldAt_eq_some hin (hvalue hfresh)⟩
  · have he := getField_error_aligned h hal hn hadm ht
    obtain ⟨-, hout⟩ := hcause.resolve_right fun hbus => by
      rw [hbus.1] at he
      split_ifs at he
    refine .inr ⟨t, ?_, hdone.frame, fieldAt_eq_none hout⟩
    rw [ht, he]
    split_ifs <;> rfl

end Aligned

/-! ### The element count (R188) -/

section Header
variable {s t : State} {base len : Nat}

/-- `GetHeader` is one field, and for a set one more than it. -/
theorem getHeader_run (s : State) :
    getHeader s = (do let c ← decodeField (headerBits s.isList s.elemWidth); pure (if s.isList then c else c + 1) : Rule Nat) s := by
  rw [getHeader, bind_run_ok (get_run s)]
  cases s.isList with
  | true => exact congrFun (bind_pure (decodeField _)).symm s
  | false => rfl

theorem headerBits_le (s : State) : headerBits s.isList s.elemWidth ≤ 64 := by
  unfold headerBits
  split_ifs
  · decide
  · exact elemWidth_le s

/-- The input of a fresh reader is its buffer. -/
theorem readerInitialised_input (hfar : base + len < Config.addressSpace) :
    (s.readerInitialised base len).inputBits = 8 * len ∧ (s.readerInitialised base len).inputStream = memNat s.mem base len := by
  obtain ⟨-, hbase, hend, -, -⟩ := readerInitialised_ready s hfar
  rw [State.inputBits, State.inputStream, hend, hbase, Nat.add_sub_cancel_left]
  exact ⟨rfl, rfl⟩

/-- `GetHeader` of a fresh reader over a buffer (R185, R188): the count that the buffer holds, or `WrongFormat`. -/
theorem getHeader_fresh (hfar : base + len < Config.addressSpace) (hadm : AllAdmitted s.platform base (min 8 len)) :
    (∃ c t, getHeader (s.readerInitialised base len) = .ok c t ∧
      parseHeader s.isList s.elemWidth (memNat s.mem base len) (8 * len) = some c ∧
      ReadDone (headerBits s.isList s.elemWidth) (s.readerInitialised base len) t) ∨
    (∃ t, getHeader (s.readerInitialised base len) = .error (.raised .wrongFormat (if len = 0 then 2 else 3)) t ∧
      parseHeader s.isList s.elemWidth (memNat s.mem base len) (8 * len) = none ∧ ReadFrame (s.readerInitialised base len) t) := by
  obtain ⟨hready, hbase, hend, hpos, hfresh⟩ := readerInitialised_ready s hfar
  obtain ⟨hbits, hstream⟩ := readerInitialised_input (s := s) hfar
  have haddr : (s.readerInitialised base len).loadAddr = base := by
    simpa [loadAddr_eq] using hbase
  have hload : AllAdmitted s.platform (s.readerInitialised base len).loadAddr (loadBytes (s.readerInitialised base len)) := by
    rw [loadBytes, haddr, hend, Nat.add_sub_cancel_left]
    exact hadm
  rw [getHeader_run]
  rcases decodeField_aligned hready hfresh (by rw [hpos]) (headerBits_le _) hload with
    ⟨v, t, hrun, hdone, hfield⟩ | ⟨t, hrun, hframe, hfield⟩
  · rw [hstream, hbits, hpos] at hfield
    exact .inl ⟨_, t, bind_run_ok hrun, congrArg (Option.map _) hfield, hdone⟩
  · rw [hbits, hpos] at hrun
    rw [hstream, hbits, hpos] at hfield
    refine .inr ⟨t, ?_, congrArg (Option.map _) hfield, hframe⟩
    rw [bind_run_error hrun]
    congr 2
    exact if_congr (by omega) rfl rfl

/-- A command that opens a reader over its buffer and goes on with it alone changes no register but the reader's, and its completion
`STATUS` and `RES0`. -/
theorem completed_of_bufferFrame (h : ReadFrame (s.started.readerInitialised s.arg0.toNat s.arg1.toNat) t) (e i : BitVec 8)
    (v : Word) : t.completed e i v = { s with
      rdBase := s.arg0, rdEnd := toWord (s.arg0.toNat + s.arg1.toNat), rdPtr := t.rdPtr, rdLa := t.rdLa, rdLoaded := t.rdLoaded,
      rdCons := t.rdCons, rdOpen := true, err := e, suberr := i, fault := s.fault || e != 0, res0 := v, running := none,
      storeTrace := [] } := by
  have hsame := congrArg (fun u : State => u.completed e i v) h.same
  rw [State.readerInitialised, toWord_self] at hsame
  exact hsame

/-- `BCT.DSIZE` is its check and then the count of a fresh reader (R187). -/
theorem bctDsizeRule_run (s : State) :
    bctDsizeRule s =
      if 2 ^ 64 ≤ s.arg0.toNat + s.arg1.toNat then .error (.raised .badArgument 0) s
      else (do let c ← getHeader; raiseIf (2 ^ 64 ≤ c) .wrongFormat; pure (toWord c) : Rule Word)
        (s.readerInitialised s.arg0.toNat s.arg1.toNat) := by
  rw [bctDsizeRule, bind_run_ok (get_run s), readerInit_check_run]

end Header

/-- Settles O39: past the check, the two ways in which the count is read, and the check of a count of 2^64. -/
theorem decodedSize : Obligations.DecodedSize := by
  refine ⟨by decide, fun s => ?_⟩
  have hrun := bctDsizeRule_run s.started
  by_cases hfar : 2 ^ 64 ≤ s.arg0.toNat + s.arg1.toNat
  · exact (if_pos hfar).mpr (runCommand_of_refused (hrun.trans (if_pos hfar)))
  refine (if_neg hfar).mpr fun hadm => ?_
  replace hrun := hrun.trans (if_neg hfar)
  have hfit : s.arg0.toNat + s.arg1.toNat < Config.addressSpace := Nat.not_le.1 hfar
  have hfirst : AllAdmitted s.started.platform s.arg0.toNat (min 8 s.arg1.toNat) := by
    rw [Nat.min_comm]
    exact admitsRegion_ofBytes.1 hadm
  rcases getHeader_fresh hfit hfirst with ⟨c, t, hc, hparse, hdone⟩ | ⟨t, hc, hparse, hframe⟩
  · have hheader : s.bufferHeader = some c := hparse
    have hpos : t.readerPos = headerBits s.isList s.elemWidth := by
      rw [hdone.pos, (readerInitialised_ready s.started hfit).2.2.2.1, Nat.zero_add]
      rfl
    rw [hheader]
    replace hrun := hrun.trans ((bind_run_ok hc).trans (check_run _ _ _ t))
    by_cases hbig : 2 ^ 64 ≤ c
    · refine ⟨_, runCommand_of_raised (hrun.trans (if_pos (decide_eq_true hbig))), completed_of_bufferFrame hdone.frame _ _ _, hpos, ?_⟩
      exact (if_neg hbig.not_gt).mpr ⟨rfl, rfl, rfl⟩
    · refine ⟨_, runCommand_of_ok (hrun.trans (if_neg (by simpa using hbig))), completed_of_bufferFrame hdone.frame _ _ _, hpos, ?_⟩
      exact (if_pos (Nat.not_le.1 hbig)).mpr ⟨rfl, rfl, toWord_toNat (Nat.not_le.1 hbig)⟩
  · have hheader : s.bufferHeader = none := hparse
    have hlen : s.arg1.toNat = 0 ↔ s.arg1 = 0 := by rw [← BitVec.toNat_inj]; rfl
    rw [hheader]
    exact ⟨_, congrArg complete (hrun.trans (bind_run_error hc)), completed_of_bufferFrame hframe _ _ _, rfl,
      if_congr hlen rfl rfl, rfl⟩

end Sys2Proof.Proofs

/-! PROOFS. What the decoder puts into its output array (45_bct_decoder.md R182, R189), and what it reads (42_bitstream_reader.md R136): the
relation between two states of a walk in which a run of slots has been decoded, and how two neighbouring runs are one. -/

namespace Sys2Proof.Proofs
open Sys2Proof Sys2Proof.Machine Sys2Proof.Format Sys2Proof.Laws

/-! ### Frames of the decoder -/

section Frame
variable {s t u : State} {obase len start n b m : Nat}

theorem decFrame_elemBytes (h : DecFrame obase len s t) : t.elemBytes = s.elemBytes := by rw [h.same]; rfl

theorem decFrame_elemAddr (h : DecFrame obase len s t) (vbase i : Nat) : t.elemAddr vbase i = s.elemAddr vbase i := by rw [h.same]; rfl

theorem decFrame_badConfig (h : DecFrame obase len s t) : t.badConfig = s.badConfig := by rw [h.same]; rfl

theorem decFrame_skipEff (h : DecFrame obase len s t) : t.skipEff = s.skipEff := by rw [h.same]; rfl

theorem decFrame_mcl (h : DecFrame obase len s t) : t.mcl = s.mcl := by rw [h.same]

theorem elemAddr_add (s : State) (vbase i j : Nat) : s.elemAddr vbase (i + j) = s.elemAddr vbase i + s.arrayBytes j := by
  rw [State.elemAddr, State.elemAddr, State.arrayBytes, Nat.add_mul, Nat.add_assoc]

theorem arrayBytes_add (s : State) (i j : Nat) : s.arrayBytes (i + j) = s.arrayBytes i + s.arrayBytes j := Nat.add_mul _ _ _

theorem elemAddr_mono (s : State) (vbase : Nat) {i j : Nat} (h : i ≤ j) : s.elemAddr vbase i ≤ s.elemAddr vbase j :=
  Nat.add_le_add_left (Nat.mul_le_mul_right _ h) _

/-- The addresses of the bytes of `n` slots from `start` on. -/
def slotAddrs (s : State) (obase start n : Nat) : List Nat := List.range' (s.elemAddr obase start) (s.arrayBytes n)

theorem slotAddrs_add (s : State) (obase start m n : Nat) :
    slotAddrs s obase start (m + n) = slotAddrs s obase start m ++ slotAddrs s obase (start + m) n := by
  rw [slotAddrs, slotAddrs, slotAddrs, arrayBytes_add, elemAddr_add, List.range'_append_1]

theorem slotAddrs_of_decFrame (h : DecFrame obase len s t) : slotAddrs t = slotAddrs s := by rw [h.same]; rfl

/-- What stores in a part of an array stores in the array. -/
theorem decFrame_widen (h : DecFrame b m s t) (hlo : obase ≤ b) (hhi : b + s.arrayBytes m ≤ obase + s.arrayBytes len) :
    DecFrame obase len s t := by
  obtain ⟨l, hmem, htrace, hin⟩ := h.stores
  refine ⟨h.same, h.ptr_le, l, hmem, htrace, fun c hc => ?_⟩
  have := hin c hc
  omega

theorem decFrame_slots (h : DecFrame (s.elemAddr obase b) m s t) (hlo : start ≤ b) (hhi : b + m ≤ start + n) :
    DecFrame (s.elemAddr obase start) n s t := by
  refine decFrame_widen h (elemAddr_mono _ _ hlo) ?_
  rw [← elemAddr_add, ← elemAddr_add]
  exact elemAddr_mono _ _ hhi

theorem decFrame_array (h : DecFrame (s.elemAddr obase start) n s t) (hin : start + n ≤ len) : DecFrame obase len s t := by
  have hall := decFrame_slots (start := 0) (n := len) h (Nat.zero_le _) (by omega)
  rwa [State.elemAddr, Nat.zero_mul, Nat.add_zero] at hall

theorem read_of_decFrame (h : DecFrame obase len s t) {a : Nat} (ha : a < obase ∨ obase + s.arrayBytes len ≤ a) :
    t.mem.read a = s.mem.read a := by
  obtain ⟨l, hmem, -, hin⟩ := h.stores
  rw [hmem]
  refine read_applyStores_of_not_mem l a (fun c hc hca => ?_) s.mem
  have := hin c hc
  omega

/-- Slots apart from those that are stored keep their values. -/
theorem slice_kept (h : DecFrame (s.elemAddr obase b) m s t) (hap : start + n ≤ b ∨ b + m ≤ start) :
    slice (elemValue t obase) start n = slice (elemValue s obase) start n := by
  refine List.map_congr_left fun i hi => ?_
  obtain ⟨hlo, hhi⟩ := List.mem_range'_1.1 hi
  rw [elemValue, elemValue, decFrame_elemAddr h, decFrame_elemBytes h]
  have hnext : s.elemAddr obase (i + 1) = s.elemAddr obase i + s.elemBytes := by
    rw [elemAddr_add, State.arrayBytes, Nat.one_mul]
  refine memNat_congr fun x hx1 hx2 => read_of_decFrame h ?_
  rw [← elemAddr_add]
  rcases hap with hap | hap
  · have := elemAddr_mono s obase (show i + 1 ≤ b by omega)
    omega
  · have := elemAddr_mono s obase (show b + m ≤ i by omega)
    omega

end Frame

/-! ### The input of a decoder command (42_bitstream_reader.md R136, 70_reset_and_hazards.md R239, R241) -/

/-- What a walk of the decoder is to do: fill the array of `len` elements at `obase` from a stream of `bits` bits. -/
structure Task where
  obase : Nat
  len : Nat
  stream : Nat
  bits : Nat

/-- The open reader stands over the stream of the task: what it has not passed of the input are the bytes of the stream, the platform admits
them and the output array, and the array holds none of them. -/
structure Source (k : Task) (s : State) : Prop where
  fresh : s.lookaheadFresh
  bits : s.inputBits = k.bits
  unread : memNat s.mem s.rdPtr.toNat (s.rdEnd.toNat - s.rdPtr.toNat) = k.stream >>> (8 * (s.rdPtr.toNat - s.rdBase.toNat))
  readable : AllAdmitted s.platform s.rdPtr.toNat (s.rdEnd.toNat - s.rdPtr.toNat)
  writable : AllAdmitted s.platform k.obase (s.arrayBytes k.len)
  apart : ∀ a, s.rdPtr.toNat ≤ a → a < s.rdEnd.toNat → a < k.obase ∨ k.obase + s.arrayBytes k.len ≤ a

/-- The output array of the task ends below 2^64 under a legal configuration (R184, R186). -/
structure Output (k : Task) (s : State) : Prop where
  config : s.badConfig = false
  array : k.obase + s.arrayBytes k.len < Config.addressSpace
  len_lt : k.len < 2 ^ 64

section Source
variable {k : Task} {s t : State} {obase len n : Nat}

theorem Output.of_frame (h : Output k s) (hf : DecFrame obase len s t) : Output k t :=
  ⟨(decFrame_badConfig hf).trans h.config, by rw [hf.arrayBytes]; exact h.array, h.len_lt⟩

theorem Output.ebw_le (h : Output k s) : s.ebw ≤ 64 := (Laws.ebw_le s h.config).trans (elemWidth_le s)

/-- The bytes from a later address on are the higher bits of those from an earlier one on. -/
theorem memNat_shiftRight (m : Memory) (a i j : Nat) : memNat m (a + i) j = memNat m a (i + j) >>> (8 * i) := by
  rw [memNat_add, Nat.shiftRight_eq_div_pow, Nat.add_mul_div_left _ _ (Nat.two_pow_pos _), Nat.div_eq_of_lt (memNat_lt _ _ _),
    Nat.zero_add]

/-- The unread input is the higher bits of the whole input. -/
theorem unread_eq_inputStream (h : ReaderReady s) :
    memNat s.mem s.rdPtr.toNat (s.rdEnd.toNat - s.rdPtr.toNat) = s.inputStream >>> (8 * (s.rdPtr.toNat - s.rdBase.toNat)) := by
  obtain ⟨d, hd⟩ := Nat.exists_eq_add_of_le h.base_le
  have hle := h.ptr_le
  rw [State.inputStream, hd, Nat.add_sub_cancel_left, memNat_shiftRight, show d + (s.rdEnd.toNat - (s.rdBase.toNat + d)) =
    s.rdEnd.toNat - s.rdBase.toNat by omega]

/-- What the decoder does keeps the rest of its input. -/
theorem Source.of_frame (h : Source k s) (hs : ReaderReady s) (hf : DecFrame k.obase k.len s t) (ht : ReaderReady t)
    (hfresh : t.lookaheadFresh) : Source k t := by
  obtain ⟨-, hbits, hunread, hread, hwrite, hapart⟩ := h
  have hbase := hs.base_le
  have hle := hf.ptr_le
  have hend := ht.ptr_le
  rw [hf.rdEnd] at hend
  refine ⟨hfresh, ?_, ?_, ?_, ?_, fun a h1 h2 => ?_⟩
  · rw [← hbits, State.inputBits, State.inputBits, hf.rdEnd, hf.rdBase]
  · obtain ⟨d, hd⟩ := Nat.exists_eq_add_of_le hle
    have hkept : ∀ x, t.rdPtr.toNat ≤ x → x < t.rdPtr.toNat + (s.rdEnd.toNat - t.rdPtr.toNat) → t.mem.read x = s.mem.read x :=
      fun x h1 h2 => read_of_decFrame hf (hapart x (by omega) (by omega))
    rw [hf.rdEnd, hf.rdBase, memNat_congr hkept, hd, memNat_shiftRight,
      show d + (s.rdEnd.toNat - (s.rdPtr.toNat + d)) = s.rdEnd.toNat - s.rdPtr.toNat by omega, hunread, ← Nat.shiftRight_add,
      ← Nat.mul_add, Nat.sub_add_comm hbase]
  · rw [hf.platform, hf.rdEnd]
    exact hread.mono hle (by omega)
  · rw [hf.platform, hf.arrayBytes]
    exact hwrite
  · rw [hf.rdEnd] at h2
    rw [hf.arrayBytes]
    exact hapart a (by omega) h2

theorem Source.of_read (h : Source k s) (hs : ReaderReady s) (hd : ReadDone n s t) : Source k t :=
  h.of_frame hs (.of_read hd.frame) hd.ready (hd.fresh h.fresh)

/-- The lookahead holds unread bytes only, so what is stored in the array leaves it fresh. -/
theorem Source.of_same_reader (h : Source k s) (hs : ReaderReady s) (hf : DecFrame k.obase k.len s t)
    (hview : readerView t = readerView s) : Source k t := by
  simp only [readerView, Prod.mk.injEq] at hview
  obtain ⟨hla, hloaded, hcons, hbase, hptr, hend, hopen⟩ := hview
  have hle := hs.loaded_eq
  refine h.of_frame hs hf (hs.congr hopen hbase hptr hend hla hloaded hcons) ?_
  rw [State.lookaheadFresh, hla, hptr, hloaded, h.fresh]
  exact (memNat_congr fun x h1 h2 => read_of_decFrame hf (h.apart x h1 (by omega))).symm

/-- A field read over the stream of the task (R136, R185). -/
theorem decodeField_reads (h : ReaderReady s) (hn : n ≤ 64) :
    Finishes (decodeField n) s
      (fun v t => ReadDone n s t ∧ v < 2 ^ n ∧ (Source k s → fieldAt k.stream k.bits s.readerPos n = some v))
      (fun e _ => Source k s → e = .wrongFormat ∧ fieldAt k.stream k.bits s.readerPos n = none) := by
  rcases decodeField_cases h hn with ⟨v, t, hr, hdone, hv, hin, hvalue⟩ | ⟨t, e, i, d, -, hr, -, hcause⟩
  · refine .of_ok hr ⟨hdone, hv, fun hsrc => fieldAt_eq_some (hsrc.bits ▸ hin) ?_⟩
    have hstream := unread_eq_inputStream h
    rw [hsrc.unread] at hstream
    rw [hvalue hsrc.fresh, State.readerPos, Nat.shiftRight_add, Nat.shiftRight_add, hstream]
  · refine .of_raised hr fun hsrc => ?_
    rcases hcause with ⟨he, -, hout⟩ | ⟨-, -, hno⟩
    · exact ⟨he, fieldAt_eq_none (hsrc.bits ▸ hout)⟩
    · exact absurd hsrc.readable hno

end Source

/-! ### Decoded slots (R182, R189) -/

/-- From `s` to `t` the slots from `start` on have got the values `vs`, each byte of them stored once and no other byte. -/
structure Decoded (k : Task) (start : Nat) (vs : List Nat) (s t : State) : Prop where
  ready : ReaderReady t
  frame : DecFrame (s.elemAddr k.obase start) vs.length s t
  values : slice (elemValue t k.obase) start vs.length = vs
  below : ∀ v ∈ vs, v < 2 ^ s.ebw
  trace : ∃ l, t.storeTrace = l ++ s.storeTrace ∧
    (l.map Prod.fst).Perm (slotAddrs s k.obase start vs.length)
  hwm : HwmWithin (s.ebw + 1) s t
  source : Source k s → Source k t

section Decoded
variable {k : Task} {s t u : State} {start a b n v : Nat} {vs ws : List Nat}

/-- Nothing has been stored. -/
theorem Decoded.of_silent (hr : ReaderReady t) (hf : ∀ {obase len}, DecFrame obase len s t) (hhwm : HwmWithin (s.ebw + 1) s t)
    (hsource : Source k s → Source k t) (start : Nat) : Decoded k start [] s t := by
  obtain ⟨l, -, htrace, hin⟩ := (hf (obase := 0) (len := 0)).stores
  have hnil : l = [] := List.eq_nil_iff_forall_not_mem.2 fun c hc => by
    have := hin c hc
    rw [State.arrayBytes, Nat.zero_mul] at this
    omega
  refine ⟨hr, hf, rfl, nofun, ⟨[], by rw [htrace, hnil]; rfl, ?_⟩, hhwm, hsource⟩
  rw [List.length_nil, slotAddrs, State.arrayBytes, Nat.zero_mul]
  exact .nil

theorem Decoded.of_read (hs : ReaderReady s) (hd : ReadDone n s t) (start : Nat) : Decoded k start [] s t :=
  .of_silent hd.ready (.of_read hd.frame) (.of_eq hd.frame.stkHwm) (·.of_read hs hd) start

/-- An update of the stack leaves memory and the reader. -/
theorem Decoded.of_stack (hs : ReaderReady s) (ht : t = { s with stack := t.stack, stkHwm := t.stkHwm })
    (hhwm : HwmWithin (s.ebw + 1) s t) (start : Nat) : Decoded k start [] s t := by
  have hview : readerView t = readerView s := by rw [ht]; rfl
  have hready : ReaderReady t := by rw [ht]; exact hs.congr rfl rfl rfl rfl rfl rfl rfl
  have hf {obase len : Nat} : DecFrame obase len s t := by rw [ht]; exact ⟨rfl, le_rfl, [], rfl, rfl, nofun⟩
  exact .of_silent hready hf hhwm (·.of_same_reader hs hf hview) start

theorem Decoded.of_withStack (hs : ReaderReady s) (l : List BitCluster) (start : Nat) : Decoded k start [] s (s.withStack l) :=
  .of_stack (t := s.withStack l) hs rfl (.of_eq rfl) start

/-- Two runs of slots that make up a third one. -/
theorem Decoded.join {xs ys : List Nat} (h : Decoded k a xs s t) (g : Decoded k b ys t u) (ha : start ≤ a) (hb : start ≤ b)
    (ha' : a + xs.length ≤ start + vs.length) (hb' : b + ys.length ≤ start + vs.length)
    (hvalues : slice (elemValue u k.obase) start vs.length = vs) (hvs : ∀ v ∈ vs, v ∈ xs ∨ v ∈ ys)
    (haddrs : (slotAddrs s k.obase b ys.length ++ slotAddrs s k.obase a xs.length).Perm (slotAddrs s k.obase start vs.length)) :
    Decoded k start vs s u := by
  have hebw := h.frame.ebw
  have hframe := g.frame
  obtain ⟨l, hl, hlperm⟩ := h.trace
  obtain ⟨m, hm, hmperm⟩ := g.trace
  rw [slotAddrs_of_decFrame h.frame] at hmperm
  have hhead := decFrame_slots h.frame ha ha'
  have htail := decFrame_slots g.frame hb hb'
  rw [decFrame_elemAddr h.frame] at htail
  refine ⟨g.ready, hhead.trans htail, hvalues, fun v hv => ?_, ⟨m ++ l, by rw [hm, hl, List.append_assoc], ?_⟩,
    h.hwm.trans (hebw ▸ g.hwm), g.source ∘ h.source⟩
  · exact (hvs v hv).elim (h.below v) fun hv => hebw ▸ g.below v hv
  · rw [List.map_append]
    exact (hmperm.append hlperm).trans haddrs

/-- Two neighbouring runs of slots, the lower one decoded first. -/
theorem Decoded.append (h : Decoded k start vs s t) (g : Decoded k (start + vs.length) ws t u) : Decoded k start (vs ++ ws) s u := by
  have hlen : (vs ++ ws).length = vs.length + ws.length := List.length_append
  refine h.join g le_rfl (by omega) (by omega) (by omega) ?_ (fun _ => List.mem_append.1) ?_
  · rw [slice_split (z := vs.length) (by omega), hlen, Nat.add_sub_cancel_left, g.values, slice_kept g.frame (.inl le_rfl), h.values]
  · rw [hlen, slotAddrs_add]
    exact List.perm_append_comm

/-- Two neighbouring runs of slots, the upper one decoded first. -/
theorem Decoded.append_above (h : Decoded k (start + vs.length) ws s t) (g : Decoded k start vs t u) :
    Decoded k start (vs ++ ws) s u := by
  have hlen : (vs ++ ws).length = vs.length + ws.length := List.length_append
  refine h.join g (by omega) le_rfl (by omega) (by omega) ?_ (fun _ hv => (List.mem_append.1 hv).symm) ?_
  · rw [slice_split (z := vs.length) (by omega), hlen, Nat.add_sub_cancel_left, g.values, slice_kept g.frame (.inr le_rfl), h.values]
  · rw [hlen, slotAddrs_add]

/-- What is decoded after steps that have stored nothing. -/
theorem Decoded.after_silent (h : Decoded k start [] s t) (g : Decoded k start vs t u) : Decoded k start vs s u := h.append g

end Decoded
end Sys2Proof.Proofs

/-! PROOFS. One step of the decoder's walk against the format (45_bct_decoder.md R181, R182): a cluster that is decoded at once, and one
that is split into its two children. -/

namespace Sys2Proof.Proofs
open Sys2Proof Sys2Proof.Machine Sys2Proof.Format Sys2Proof.Laws

/-! ### Storing elements (20_memory.md R64) -/

/-- The elements `vs` go to the slots from index `i` on. -/
def storeList (obase : Nat) : List Nat → Nat → Rule Unit
  | [], _ => pure ()
  | v :: vs, i => do
    storeElem obase i v
    storeList obase vs (i + 1)

theorem fillSlots_eq_storeList (obase v : Nat) : ∀ n i, fillSlots obase v n i = storeList obase (List.replicate n v) i
  | 0, _ => rfl
  | n + 1, i => by rw [fillSlots, fillSlots_eq_storeList obase v n, List.replicate_succ, storeList]

theorem fillRange_eq_storeList (obase start hb : Nat) :
    ∀ n i, fillRange obase start hb n i = storeList obase ((List.range' i n).map (hb ||| ·)) (start + i)
  | 0, _ => rfl
  | n + 1, i => by
    rw [fillRange, fillRange_eq_storeList obase start hb n, List.range'_succ, List.map_cons, storeList, Nat.add_assoc]

section Store
variable {k : Task} {s t : State} {i v w hb : Nat}

/-- A sequence whose first part says of its failures what the whole is to say in other words. -/
theorem Finishes.bind_failing {α β : Type} {r : Rule α} {f : α → Rule β} {M : α → State → Prop} {Q : β → State → Prop}
    {E E' : Err → State → Prop} (h : Finishes r s M E) (hE : ∀ e t, E e t → E' e t) (hf : ∀ a t, M a t → Finishes (f a) t Q E') :
    Finishes (r >>= f) s Q E' := (h.mono (fun _ _ => id) hE).bind hf

/-- A numbered check and what follows it when it passes. -/
theorem Finishes.check {α : Type} {c : Bool} {e : Err} {f : Unit → Rule α} {Q : α → State → Prop} {E : Err → State → Prop}
    (hfail : c = true → E e s) (hpass : c = false → Finishes (f ()) s Q E) : Finishes (raiseIf c e >>= f) s Q E := by
  cases c with
  | true => exact .of_raised rfl (hfail rfl)
  | false => exact hpass rfl

theorem cells_map_fst : ∀ a n v : Nat, (cells a n v).map Prod.fst = List.range' a n
  | _, 0, _ => rfl
  | a, n + 1, v => by rw [cells, List.map_cons, cells_map_fst (a + 1) n, List.range'_succ]

/-- What stands in the array after the bytes of one element have been stored. -/
theorem Decoded.of_store (hr : ReaderReady s) (ho : Output k s) (hi : i < k.len) (hv : v < 2 ^ s.ebw) :
    Decoded k i [v] s (withStores s (elemCells s k.obase i v)) := by
  have hbytes : s.arrayBytes 1 = s.elemBytes := Nat.one_mul _
  have hlt : v < 2 ^ s.elemWidth := hv.trans_le (Nat.pow_le_pow_right (by decide) (ebw_le s ho.config))
  have hframe : DecFrame (s.elemAddr k.obase i) 1 s (withStores s (elemCells s k.obase i v)) :=
    .withStores s _ fun c hc => hbytes ▸ cells_addr _ _ _ c hc
  refine ⟨hr.congr rfl rfl rfl rfl rfl rfl rfl, hframe, ?_, by simpa using hv, ⟨_, rfl, ?_⟩, .of_eq rfl, fun hsrc => ?_⟩
  · have hvalue : elemValue (withStores s (elemCells s k.obase i v)) k.obase i = v := by
      refine (memNat_cells s.mem _ _ _).trans ?_
      rw [← elemWidth_eq, Nat.mod_mod, Nat.mod_eq_of_lt hlt]
    rw [List.length_singleton, slice, List.range'_one, List.map_singleton, hvalue]
  · rw [List.map_reverse, elemCells, cells_map_fst, List.length_singleton, slotAddrs, hbytes]
    exact List.reverse_perm _
  · exact hsrc.of_same_reader hr (decFrame_array hframe hi) rfl

theorem storeElem_decodes (hr : ReaderReady s) (ho : Output k s) (hi : i < k.len) (hv : v < 2 ^ s.ebw) :
    Finishes (storeElem k.obase i v) s (fun _ t => Decoded k i [v] s t ∧ t.readerPos = s.readerPos ∧ t.stack = s.stack)
      (fun _ _ => ¬ Source k s) := by
  have hin := elemAddr_add_le s (vbase := k.obase) hi
  have harr := ho.array
  by_cases hadm : AllAdmitted s.platform (s.elemAddr k.obase i) s.elemBytes
  · exact .of_ok (storeElem_run v (by omega) hadm) ⟨.of_store hr ho hi hv, rfl, rfl⟩
  rcases storeElem_cases s k.obase i v with hrun | ⟨d, -, hrun⟩ | ⟨d, -, -, hspace⟩
  · exact .of_ok hrun ⟨.of_store hr ho hi hv, rfl, rfl⟩
  · exact .of_raised hrun fun hsrc => hadm (hsrc.writable.mono (le_elemAddr _ _ _) hin)
  · omega

theorem storeList_decodes : ∀ (vs : List Nat) (i : Nat) {s : State}, ReaderReady s → Output k s → i + vs.length ≤ k.len →
    (∀ v ∈ vs, v < 2 ^ s.ebw) →
    Finishes (storeList k.obase vs i) s (fun _ t => Decoded k i vs s t ∧ t.readerPos = s.readerPos ∧ t.stack = s.stack)
      (fun _ _ => ¬ Source k s)
  | [], i, s, hr, _, _, _ => .of_ok rfl ⟨.of_withStack hr s.stack i, rfl, rfl⟩
  | v :: vs, i, s, hr, ho, hi, hvs => by
    rw [List.length_cons] at hi
    refine (storeElem_decodes hr ho (by omega) (hvs v List.mem_cons_self)).bind ?_
    rintro _ t ⟨ht, hpos, hstack⟩
    have hvs' : ∀ v ∈ vs, v < 2 ^ t.ebw := ht.frame.ebw ▸ fun v hv => hvs v (List.mem_cons_of_mem _ hv)
    refine (storeList_decodes vs (i + 1) ht.ready (ho.of_frame ht.frame) (by omega) hvs').mono ?_ fun _ _ => mt ht.source
    rintro _ u ⟨hu, hupos, hustack⟩
    exact ⟨ht.append hu, hupos.trans hpos, hustack.trans hstack⟩

theorem fieldsAt_succ (S total w n pos : Nat) :
    fieldsAt S total w (n + 1) pos = (fieldAt S total pos w).bind fun x => (fieldsAt S total w n (pos + w)).map (x :: ·) := by
  rw [fieldsAt]
  cases fieldAt S total pos w <;> rfl

/-- Literals (R182 case 3): each field is read and its element stored before the next one. -/
theorem readLiterals_decodes : ∀ (n i : Nat) {s : State}, ReaderReady s → Output k s → i + n ≤ k.len → w ≤ s.ebw → hb < 2 ^ s.ebw →
    Finishes (readLiterals k.obase w hb n i) s
      (fun _ t => ∃ xs, xs.length = n ∧ Decoded k i (xs.map (hb ||| ·)) s t ∧ t.readerPos = s.readerPos + n * w ∧ t.stack = s.stack ∧
        (Source k s → fieldsAt k.stream k.bits w n s.readerPos = some xs))
      (fun e _ => Source k s → e = .wrongFormat ∧ fieldsAt k.stream k.bits w n s.readerPos = none)
  | 0, i, s, hr, _, _, _, _ => .of_ok rfl ⟨[], rfl, .of_withStack hr s.stack i, by simp, rfl, fun _ => rfl⟩
  | n + 1, i, s, hr, ho, hi, hw, hhb => by
    refine (decodeField_reads (k := k) hr (hw.trans ho.ebw_le)).bind_failing (fun e _ he hsrc => ?_) ?_
    · obtain ⟨herr, hnone⟩ := he hsrc
      exact ⟨herr, by rw [fieldsAt_succ, hnone]; rfl⟩
    rintro x t ⟨hdone, hx, hfield⟩
    have hread : Decoded k i [] s t := .of_read hr hdone i
    have hebw := hread.frame.ebw
    have hvalue : hb ||| x < 2 ^ t.ebw := hebw ▸ Nat.or_lt_two_pow hhb (hx.trans_le (Nat.pow_le_pow_right (by decide) hw))
    refine (storeElem_decodes hread.ready (ho.of_frame hread.frame) (by omega) hvalue).bind_failing
      (fun _ _ he hsrc => absurd (hread.source hsrc) he) ?_
    rintro _ u ⟨hu, hpos, hstack⟩
    have hstored : Decoded k i [hb ||| x] s u := hread.after_silent hu
    have huebw := hstored.frame.ebw
    have hupos : u.readerPos = s.readerPos + w := hpos.trans hdone.pos
    refine (readLiterals_decodes n (i + 1) hstored.ready (ho.of_frame hstored.frame) (by omega) (huebw ▸ hw) (huebw ▸ hhb)).mono
      ?_ fun e _ he hsrc => ?_
    · rintro _ v ⟨xs, hlen, hv, hvpos, hvstack, hfields⟩
      refine ⟨x :: xs, by rw [List.length_cons, hlen], hstored.append hv, ?_, ?_, fun hsrc => ?_⟩
      · rw [hvpos, hupos]; ring
      · rw [hvstack, hstack, hdone.frame.stack]
      · rw [fieldsAt_succ, hfield hsrc, Option.bind_some, ← hupos, hfields (hstored.source hsrc)]
        rfl
    · obtain ⟨herr, hnone⟩ := he (hstored.source hsrc)
      exact ⟨herr, by rw [fieldsAt_succ, hfield hsrc, Option.bind_some, ← hupos, hnone]; rfl⟩

end Store

/-! ### Reading a tree, case by case (R182) -/

section Parse
variable {skipEff : Bool} {mcl S total p n hb pos : Nat}

theorem parseTree_nil : ∀ p, parseTree skipEff mcl S total p 0 hb pos = some ([], pos)
  | 0 => rfl
  | _ + 1 => if_pos rfl

theorem parseTree_full (hfull : (skipEff && isFull n (p + 1)) = true) :
    parseTree skipEff mcl S total (p + 1) n hb pos = some ((List.range n).map (hb ||| ·), pos) := by
  rw [parseTree, if_pos hfull]
  split_ifs with hn
  · rw [hn]; rfl
  · rfl

theorem parseTree_short (hfull : ¬ (skipEff && isFull n (p + 1)) = true) (hshort : n ≤ mcl) :
    parseTree skipEff mcl S total (p + 1) n hb pos =
      (fieldsAt S total (p + 1) n pos).map fun xs => (xs.map (hb ||| ·), pos + n * (p + 1)) := by
  rw [parseTree, if_neg hfull, if_pos hshort]
  split_ifs with hn
  · rw [hn, Nat.zero_mul]; rfl
  · cases fieldsAt S total (p + 1) n pos <;> rfl

theorem parseTree_split (hn : n ≠ 0) (hfull : ¬ (skipEff && isFull n (p + 1)) = true) (hlong : ¬ n ≤ mcl) :
    parseTree skipEff mcl S total (p + 1) n hb pos =
      (fieldAt S total pos (bitsLen64 n)).bind fun z =>
        if n < z then none
        else (parseTree skipEff mcl S total p (n - z) (hb ||| bitMask p) (pos + bitsLen64 n)).bind fun ones =>
          (parseTree skipEff mcl S total p z hb ones.2).map fun zeros => (zeros.1 ++ ones.1, zeros.2) := by
  rw [parseTree, if_neg hn, if_neg hfull, if_neg hlong]
  cases fieldAt S total pos (bitsLen64 n) with
  | none => rfl
  | some z =>
    simp only [Option.bind_some]
    split_ifs
    · rfl
    · cases parseTree skipEff mcl S total p (n - z) (hb ||| bitMask p) (pos + bitsLen64 n) with
      | none => rfl
      | some ones =>
        obtain ⟨ones, pos'⟩ := ones
        simp only [Option.bind_some]
        cases parseTree skipEff mcl S total p z hb pos' <;> rfl

end Parse

/-! ### A cluster that is decoded at once (R182 cases 1 to 3) -/

/-- The tree of `n` elements below bit `p` that the task's stream holds at the position of the reader. -/
def subtreeAt (k : Task) (s : State) (p n hb : Nat) : Option (List Nat × Nat) :=
  parseTree s.skipEff s.mcl.toNat k.stream k.bits p n hb s.readerPos

/-- From `s` to `t` the tree at the position has been decoded into the `n` slots from `start` on, and the stack is as it was. -/
structure SubtreeDone (k : Task) (p start n hb : Nat) (vs : List Nat) (s t : State) : Prop where
  length : vs.length = n
  decoded : Decoded k start vs s t
  stack : t.stack = s.stack
  parsed : Source k s → subtreeAt k s p n hb = some (vs, t.readerPos)

/-- How the decoding of a tree may fail over its stream: the stream does not hold the tree, or the 65th entry of a full 64-bit tree finds no
room on the stack (R185, R191). -/
def SubtreeFailed (k : Task) (p n hb : Nat) (s : State) (e : Err) : Prop :=
  Source k s → (e = .wrongFormat ∧ subtreeAt k s p n hb = none) ∨ (e = .stackOverflow ∧ s.ebw = 64)

/-- From `s` the rule decodes the tree, or fails as the format says. -/
abbrev DecodesSubtree (k : Task) (p start n hb : Nat) (s : State) (r : Rule Unit) : Prop :=
  Finishes r s (fun _ t => ∃ vs, SubtreeDone k p start n hb vs s t) fun e _ => SubtreeFailed k p n hb s e

section Leaf
variable {k : Task} {s t : State} {p start n hb : Nat} {vs : List Nat}

/-- A cluster whose elements are known without reading a bit. -/
theorem storeList_decodesSubtree (hr : ReaderReady s) (ho : Output k s) (hin : start + n ≤ k.len) (hlen : vs.length = n)
    (hvs : ∀ v ∈ vs, v < 2 ^ s.ebw) (hparse : subtreeAt k s p n hb = some (vs, s.readerPos)) :
    DecodesSubtree k p start n hb s (storeList k.obase vs start) := by
  refine (storeList_decodes vs start hr ho (hlen ▸ hin) hvs).mono ?_ fun _ _ he hsrc => absurd hsrc he
  rintro _ t ⟨ht, hpos, hstack⟩
  exact ⟨vs, hlen, ht, hstack, fun _ => hpos ▸ hparse⟩

theorem fillSlots_decodesSubtree (hr : ReaderReady s) (ho : Output k s) (hin : start + n ≤ k.len) (hhb : hb < 2 ^ s.ebw) :
    DecodesSubtree k 0 start n hb s (fillSlots k.obase hb n start) := by
  rw [fillSlots_eq_storeList]
  exact storeList_decodesSubtree hr ho hin List.length_replicate (fun v hv => (List.eq_of_mem_replicate hv).symm ▸ hhb) rfl

theorem fillRange_decodesSubtree (hr : ReaderReady s) (ho : Output k s) (hin : start + n ≤ k.len) (hhb : hb < 2 ^ s.ebw)
    (hp : p + 1 ≤ s.ebw) (hfull : (s.skipEff && isFull n (p + 1)) = true) :
    DecodesSubtree k (p + 1) start n hb s (fillRange k.obase start hb n 0) := by
  have hn : n = 2 ^ (p + 1) := by simp [isFull] at hfull; exact hfull.2.2
  rw [fillRange_eq_storeList, Nat.add_zero, ← List.range_eq_range']
  refine storeList_decodesSubtree hr ho hin (by simp) (fun v hv => ?_) (parseTree_full hfull)
  obtain ⟨i, hi, rfl⟩ := List.mem_map.1 hv
  exact Nat.or_lt_two_pow hhb ((hn ▸ List.mem_range.1 hi).trans_le (Nat.pow_le_pow_right (by decide) hp))

theorem readLiterals_decodesSubtree (hr : ReaderReady s) (ho : Output k s) (hin : start + n ≤ k.len) (hhb : hb < 2 ^ s.ebw)
    (hp : p + 1 ≤ s.ebw) (hfull : ¬ (s.skipEff && isFull n (p + 1)) = true) (hshort : n ≤ s.mcl.toNat) :
    DecodesSubtree k (p + 1) start n hb s (readLiterals k.obase (p + 1) hb n start) := by
  refine (readLiterals_decodes n start hr ho hin hp hhb).mono ?_ fun e _ he hsrc => ?_
  · rintro _ t ⟨xs, hlen, ht, hpos, hstack, hfields⟩
    refine ⟨_, by rw [List.length_map, hlen], ht, hstack, fun hsrc => ?_⟩
    rw [subtreeAt, parseTree_short hfull hshort, hfields hsrc, hpos]
    rfl
  · obtain ⟨herr, hnone⟩ := he hsrc
    refine .inl ⟨herr, ?_⟩
    rw [subtreeAt, parseTree_short hfull hshort, hnone]
    rfl

end Leaf

/-! ### A cluster that is split (R181, R182 case 4) -/

/-- What `AddD(start, length, bit_pos, higher_bits)` puts on the stack (R181). -/
def decEntry (start length bitPos hb : Nat) : List BitCluster := if length = 0 then [] else [child start length bitPos hb]

/-- The count at the head of a long cluster has been read, and the children that it makes stand on the stack, the ones child on top. -/
structure SplitDone (k : Task) (p start n hb z : Nat) (s t : State) : Prop where
  le : z ≤ n
  decoded : ∀ i, Decoded k i [] s t
  stack : t.stack = decEntry (start + z) (n - z) p (hb ||| bitMask p) ++ (decEntry start z p hb ++ s.stack)
  parsed : Source k s → subtreeAt k s (p + 1) n hb =
    (parseTree s.skipEff s.mcl.toNat k.stream k.bits p (n - z) (hb ||| bitMask p) t.readerPos).bind fun ones =>
      (parseTree s.skipEff s.mcl.toNat k.stream k.bits p z hb ones.2).map fun zeros => (zeros.1 ++ ones.1, zeros.2)

section Split
variable {k : Task} {s t : State} {p start n hb E : Nat}

theorem decEntry_length_le (start n p hb : Nat) : (decEntry start n p hb).length ≤ 1 := by
  unfold decEntry
  split_ifs <;> simp

/-- `AddD` with room on the stack (R181). -/
theorem addD_pushed (hroom : s.stkSp < 64) (hE : s.stkSp < E) :
    ∃ t, addD start n p hb s = .ok ⟨⟩ t ∧ Pushed E (decEntry start n p hb) s t := by
  rw [addD_run, if_neg hroom.not_ge]
  unfold decEntry
  split_ifs
  · exact ⟨s, rfl, rfl, .of_eq rfl⟩
  · refine ⟨_, rfl, rfl, ?_⟩
    have hcnt := s.stkHwm.isLt
    have hmax : (toCount (max s.stkHwm.toNat (s.stkSp + 1))).toNat = max s.stkHwm.toNat (s.stkSp + 1) := toCount_toNat (by omega)
    exact ⟨hmax ▸ le_max_left _ _, hmax ▸ max_le_max le_rfl hE⟩

theorem Decoded.of_pushed {l : List BitCluster} (hs : ReaderReady s) (h : Pushed (s.ebw + 1) l s t) (start : Nat) :
    Decoded k start [] s t := .of_stack hs (h.same.trans (by rw [h.same])) h.hwm start

theorem readerPos_of_pushed {l : List BitCluster} (h : Pushed E l s t) : t.readerPos = s.readerPos := by rw [h.same]; rfl

/-- The zeros child goes on the stack first, the ones child on top of it; the second of them may find the stack full (R191). -/
theorem addChildren_decodes {s0 n0 h0 s1 n1 h1 : Nat} (hsp : s.stkSp < E) (hE : E ≤ 64) :
    Finishes (do addD s0 n0 p h0; addD s1 n1 p h1 : Rule Unit) s
      (fun _ t => Pushed (E + 1) (decEntry s1 n1 p h1 ++ decEntry s0 n0 p h0) s t) (fun e _ => e = .stackOverflow ∧ E = 64) := by
  obtain ⟨t, ht, hpt⟩ := addD_pushed (start := s0) (n := n0) (p := p) (hb := h0) (E := E + 1) (hsp.trans_le hE) (Nat.lt_succ_of_lt hsp)
  have hsp' : t.stkSp ≤ s.stkSp + 1 := by
    have := decEntry_length_le s0 n0 p h0
    rw [State.stkSp, hpt.stack, List.length_append, State.stkSp]
    omega
  refine .of_run_eq (bind_run_ok ht) ?_
  by_cases hroom : t.stkSp < 64
  · obtain ⟨u, hu, hpu⟩ := addD_pushed (start := s1) (n := n1) (p := p) (hb := h1) (E := E + 1) hroom (by omega)
    exact .of_ok hu (hpt.trans hpu)
  · have hrun := addD_run s1 n1 p h1 t
    rw [if_pos (Nat.not_lt.1 hroom)] at hrun
    split_ifs at hrun with hn1
    · exact .of_ok hrun (by rw [decEntry, if_pos hn1]; exact ⟨hpt.same, hpt.hwm⟩)
    · exact .of_raised hrun ⟨rfl, by omega⟩

/-- Case 4: the count and its guard, then the two children. -/
theorem decSplit_decodes (hr : ReaderReady s) (ho : Output k s) (hn0 : n ≠ 0) (hn : n < 2 ^ 64)
    (hfull : ¬ (s.skipEff && isFull n (p + 1)) = true) (hlong : ¬ n ≤ s.mcl.toNat) (hsp : s.stkSp + (p + 1) ≤ s.ebw) :
    Finishes (decSplit start n (p + 1) hb) s (fun _ t => ∃ z, SplitDone k p start n hb z s t)
      (fun e _ => SubtreeFailed k (p + 1) n hb s e) := by
  have hparse : subtreeAt k s (p + 1) n hb = _ := parseTree_split hn0 hfull hlong
  refine (decodeField_reads (k := k) hr (bitsLen64_le hn)).bind_failing (fun e _ he hsrc => ?_) ?_
  · obtain ⟨herr, hnone⟩ := he hsrc
    exact .inl ⟨herr, by rw [hparse, hnone]; rfl⟩
  rintro z t ⟨hdone, -, hcount⟩
  have hread (i : Nat) : Decoded k i [] s t := .of_read hr hdone i
  refine .check (fun hz hsrc => .inl ⟨rfl, ?_⟩) fun hz => ?_
  · rw [hparse, hcount hsrc, Option.bind_some, if_pos (of_decide_eq_true hz)]
  replace hz : ¬ n < z := of_decide_eq_false hz
  have hstack := hdone.frame.stack
  have hebw := (hread 0).frame.ebw
  rw [Nat.add_sub_cancel]
  have hroom : t.stkSp < t.ebw := by rw [hebw, State.stkSp, hstack]; rw [State.stkSp] at hsp; omega
  refine (addChildren_decodes hroom (ho.of_frame (hread 0).frame).ebw_le).mono ?_ fun e _ he _ => .inr (hebw ▸ he)
  intro _ u hu
  refine ⟨z, Nat.not_lt.1 hz, fun i => (hread i).append (.of_pushed hdone.ready hu i), ?_, fun hsrc => ?_⟩
  · rw [hu.stack, hstack, List.append_assoc]
  · rw [hparse, hcount hsrc, Option.bind_some, if_neg hz, readerPos_of_pushed hu, hdone.pos]

end Split
end Sys2Proof.Proofs

/-! PROOFS. The decoder's walk against the format (45_bct_decoder.md R183, R185, R189, R191): the loop decodes the tree of the cluster on
top of the stack and comes back to the clusters below it. The induction is that of the format, on the bit position. -/

namespace Sys2Proof.Proofs
open Sys2Proof Sys2Proof.Machine Sys2Proof.Format Sys2Proof.Laws

/-! ### Steps of the loop (R183) -/

/-- Within `n` steps the loop of `DTreeBody` comes from `s` to a state as `Q` says, or raises as `E` says. -/
def Drains (obase n : Nat) (s : State) (Q : State → Prop) (E : Err → Prop) : Prop :=
  ∃ j ≤ n, (∃ t, Q t ∧ ∀ fuel, dTreeLoop obase (j + fuel) s = dTreeLoop obase fuel t) ∨
    ∃ e i t, E e ∧ ∀ fuel, dTreeLoop obase (j + fuel) s = .error (.raised e i) t

section Drains
variable {obase n m fuel : Nat} {s : State} {c : BitCluster} {rest : List BitCluster} {Q M : State → Prop} {E : Err → Prop}

theorem Drains.of_done (h : Q s) : Drains obase n s Q E := ⟨0, Nat.zero_le n, .inl ⟨s, h, fun _ => by rw [Nat.zero_add]⟩⟩

theorem Drains.mono {Q' : State → Prop} {E' : Err → Prop} (h : Drains obase n s Q E) (hn : n ≤ m) (hQ : ∀ t, Q t → Q' t)
    (hE : ∀ e, E e → E' e) : Drains obase m s Q' E' := by
  rcases h with ⟨j, hj, ⟨t, ht, hrun⟩ | ⟨e, i, t, he, hrun⟩⟩
  · exact ⟨j, hj.trans hn, .inl ⟨t, hQ t ht, hrun⟩⟩
  · exact ⟨j, hj.trans hn, .inr ⟨e, i, t, hE e he, hrun⟩⟩

theorem Drains.trans (h : Drains obase n s M E) (hM : ∀ t, M t → Drains obase m t Q E) : Drains obase (n + m) s Q E := by
  rcases h with ⟨j, hj, ⟨t, ht, hrun⟩ | ⟨e, i, t, he, hrun⟩⟩
  · have hfrom (j' fuel : Nat) : dTreeLoop obase (j + j' + fuel) s = dTreeLoop obase (j' + fuel) t := by
      rw [Nat.add_assoc, hrun]
    rcases hM t ht with ⟨j', hj', ⟨u, hu, hrun'⟩ | ⟨e, i, u, he, hrun'⟩⟩
    · exact ⟨j + j', by omega, .inl ⟨u, hu, fun fuel => (hfrom j' fuel).trans (hrun' fuel)⟩⟩
    · exact ⟨j + j', by omega, .inr ⟨e, i, u, he, fun fuel => (hfrom j' fuel).trans (hrun' fuel)⟩⟩
  · exact ⟨j, by omega, .inr ⟨e, i, t, he, hrun⟩⟩

/-- One step: the top cluster is popped and decoded. -/
theorem Drains.of_step (hst : s.stack = c :: rest)
    (h : Finishes (decStep obase c) (s.withStack rest) (fun _ => Q) fun e _ => E e) : Drains obase 1 s Q E := by
  have hpop (fuel : Nat) :
      dTreeLoop obase (1 + fuel) s = (do decStep obase c; dTreeLoop obase fuel : Rule Unit) (s.withStack rest) := by
    rw [Nat.add_comm, dTreeLoop, bind_run_ok (stackPop_some hst)]
  have hstep := h _ rfl
  cases hrun : decStep obase c (s.withStack rest) with
  | ok a t =>
    rw [hrun] at hstep
    exact ⟨1, le_rfl, .inl ⟨t, hstep, fun fuel => (hpop fuel).trans (bind_run_ok hrun)⟩⟩
  | error a t =>
    rw [hrun] at hstep
    cases a with
    | raised e i => exact ⟨1, le_rfl, .inr ⟨e, i, t, hstep, fun fuel => (hpop fuel).trans (bind_run_error hrun)⟩⟩
    | stopped f => exact hstep.elim

theorem dTreeLoop_empty (h : s.stack = []) : ∀ fuel, dTreeLoop obase fuel s = .ok ⟨⟩ s
  | 0 => by rw [dTreeLoop, bind_run_ok (get_run s), if_pos h]; rfl
  | fuel + 1 => by rw [dTreeLoop, bind_run_ok (stackPop_none h)]; rfl

/-- The loop ends where the stack is empty. -/
theorem Drains.finishes (h : Drains obase n s Q E) (hQ : ∀ t, Q t → t.stack = []) (hn : n ≤ fuel) :
    Finishes (dTreeLoop obase fuel) s (fun _ => Q) fun e _ => E e := by
  rcases h with ⟨j, hj, hrun⟩
  obtain ⟨d, rfl⟩ := Nat.exists_eq_add_of_le (hj.trans hn)
  rcases hrun with ⟨t, ht, hrun⟩ | ⟨e, i, t, he, hrun⟩
  · exact .of_ok ((hrun d).trans (dTreeLoop_empty (hQ t ht) d)) ht
  · exact .of_raised (hrun d) he

end Drains

/-! ### The tree of a cluster (R182, R183) -/

section Subtree
variable {k : Task} {p start n hb z : Nat} {s t : State}

/-- `DecStep` on a cluster, its fields as naturals (R182). -/
theorem decStep_child (ho : Output k s) (hin : start + n ≤ k.len) (hp : p ≤ s.ebw) (hhb : hb < 2 ^ s.ebw) :
    decStep k.obase (child start n p hb) s =
      (if p = 0 then fillSlots k.obase hb n start
        else if s.skipEff && isFull n p then fillRange k.obase start hb n 0
        else if n ≤ s.mcl.toNat then readLiterals k.obase p hb n start
        else decSplit start n p hb : Rule Unit) s := by
  have hE := ho.ebw_le
  have hlen := ho.len_lt
  have hstart : (child start n p hb).start.toNat = start := toWord_toNat (by omega)
  have hlength : (child start n p hb).length.toNat = n := toWord_toNat (by omega)
  have hbits : (child start n p hb).higherBits.toNat = hb := toWord_toNat (hhb.trans_le (Nat.pow_le_pow_right (by decide) hE))
  have hbitPos : (child start n p hb).bitPos.toNat = p := toCount_toNat (by omega)
  have hzero : (child start n p hb).bitPos = 0 ↔ p = 0 := by rw [← BitVec.toNat_inj, hbitPos]; rfl
  rw [decStep, bind_run_ok (get_run s)]
  simp only [hstart, hlength, hbits, hbitPos, hzero]

/-- With the cluster of a tree on top of its stack, the loop decodes that tree and comes to the clusters below. -/
def TreesDrain (k : Task) (p : Nat) : Prop :=
  ∀ (start n hb : Nat) (rest : List BitCluster) (s : State), ReaderReady s → Output k s → s.stack = decEntry start n p hb ++ rest →
    start + n ≤ k.len → hb < 2 ^ s.ebw → rest.length + p ≤ s.ebw →
    Drains k.obase (n * (p + 1)) s (fun t => ∃ vs, SubtreeDone k p start n hb vs (s.withStack rest) t)
      (SubtreeFailed k p n hb (s.withStack rest))

/-- What the task's stream holds at the position of a later state. -/
theorem subtreeAt_of_decoded {vs : List Nat} (h : Decoded k start vs s t) (p n hb : Nat) :
    subtreeAt k t p n hb = parseTree s.skipEff s.mcl.toNat k.stream k.bits p n hb t.readerPos := by
  rw [subtreeAt, decFrame_skipEff h.frame, decFrame_mcl h.frame]

/-- The children of a split cluster, one after the other. -/
theorem children_drain (ih : TreesDrain k p) (ho : Output k s) (hin : start + n ≤ k.len) (hhb : hb < 2 ^ s.ebw)
    (hroom : s.stack.length + (p + 1) ≤ s.ebw) (h : SplitDone k p start n hb z s t) :
    Drains k.obase (n * (p + 1)) t (fun u => ∃ vs, SubtreeDone k (p + 1) start n hb vs s u) (SubtreeFailed k (p + 1) n hb s) := by
  have hz := h.le
  have hebw := (h.decoded 0).frame.ebw
  have hones : hb ||| bitMask p < 2 ^ s.ebw := Nat.or_lt_two_pow hhb (Nat.pow_lt_pow_right (by decide) (by omega))
  have hbelow := decEntry_length_le start z p hb
  have hsteps : (n - z) * (p + 1) + z * (p + 1) = n * (p + 1) := by rw [← Nat.add_mul, Nat.sub_add_cancel hz]
  generalize hrest : decEntry start z p hb ++ s.stack = below
  have hbelow' : below.length + p ≤ t.ebw := by rw [← hrest, List.length_append, hebw]; omega
  have htop : Decoded k (start + z) [] s (t.withStack below) := (h.decoded _).append (.of_withStack (h.decoded 0).ready below _)
  rw [← hsteps]
  refine ((ih (start + z) (n - z) _ below t (h.decoded 0).ready (ho.of_frame (h.decoded 0).frame) (hrest ▸ h.stack) (by omega)
    (hebw ▸ hones) hbelow').mono le_rfl (fun _ => id) fun e he hsrc => ?_).trans ?_
  · rw [h.parsed hsrc]
    have he := he (htop.source hsrc)
    rw [subtreeAt_of_decoded htop] at he
    refine he.imp (fun ⟨herr, hnone⟩ => ⟨herr, ?_⟩) fun ⟨herr, hfull⟩ => ⟨herr, htop.frame.ebw ▸ hfull⟩
    exact (congrArg (Option.bind · _) hnone).trans rfl
  rintro u ⟨ones, hu⟩
  have hupper : Decoded k (start + z) ones s u := htop.after_silent hu.decoded
  have hustack : u.stack = decEntry start z p hb ++ s.stack := hu.stack.trans hrest.symm
  have huebw := hupper.frame.ebw
  have hpopped : Decoded k start [] u (u.withStack s.stack) := .of_withStack hu.decoded.ready _ _
  have honesParsed (hsrc : Source k s) : subtreeAt k s (p + 1) n hb =
      (parseTree s.skipEff s.mcl.toNat k.stream k.bits p z hb u.readerPos).map fun zeros => (zeros.1 ++ ones, zeros.2) := by
    have hparsed := hu.parsed (htop.source hsrc)
    rw [subtreeAt_of_decoded htop] at hparsed
    exact (h.parsed hsrc).trans ((congrArg (Option.bind · _) hparsed).trans rfl)
  have hzerosAt (n hb : Nat) : subtreeAt k (u.withStack s.stack) p n hb =
      parseTree s.skipEff s.mcl.toNat k.stream k.bits p n hb u.readerPos := by
    exact subtreeAt_of_decoded hupper p n hb
  refine (ih start z hb s.stack u hu.decoded.ready (ho.of_frame hupper.frame) hustack (by omega) (huebw ▸ hhb)
    (by rw [huebw]; omega)).mono le_rfl ?_ fun e he hsrc => ?_
  · rintro v ⟨zeros, hv⟩
    have hlower : Decoded k start zeros u v := hpopped.after_silent hv.decoded
    refine ⟨zeros ++ ones, ?_, .append_above (hv.length.symm ▸ hupper) hlower, hv.stack, fun hsrc => ?_⟩
    · rw [List.length_append, hv.length, hu.length, Nat.add_sub_cancel' hz]
    · have hparsed := hv.parsed (hpopped.source (hupper.source hsrc))
      rw [hzerosAt] at hparsed
      rw [honesParsed hsrc, hparsed]
      rfl
  · have he := he (hpopped.source (hupper.source hsrc))
    rw [hzerosAt] at he
    refine he.imp (fun ⟨herr, hnone⟩ => ⟨herr, ?_⟩) fun ⟨herr, hfull⟩ => ⟨herr, huebw ▸ hfull⟩
    rw [honesParsed hsrc, hnone]
    rfl

theorem withStack_self {rest : List BitCluster} (h : s.stack = rest) : s.withStack rest = s := h ▸ rfl

/-- It is enough to follow the step on the popped cluster of a tree that is not empty. -/
theorem treesDrain_of_step (h : ∀ (start n hb : Nat) (s : State), ReaderReady s → Output k s → n ≠ 0 → start + n ≤ k.len →
    hb < 2 ^ s.ebw → s.stack.length + p ≤ s.ebw →
    Finishes (decStep k.obase (child start n p hb)) s
      (fun _ t => Drains k.obase (n * (p + 1) - 1) t (fun u => ∃ vs, SubtreeDone k p start n hb vs s u) (SubtreeFailed k p n hb s))
      fun e _ => SubtreeFailed k p n hb s e) : TreesDrain k p := by
  intro start n hb rest s hr ho hst hin hhb hroom
  by_cases hn : n = 0
  · have hst' : s.stack = rest := by rw [hst, decEntry, if_pos hn]; rfl
    rw [withStack_self hst']
    exact .of_done ⟨[], hn.symm, .of_withStack hr s.stack start, rfl, fun _ => hn ▸ parseTree_nil _⟩
  · have hpos : 0 < n * (p + 1) := Nat.mul_pos (Nat.pos_of_ne_zero hn) (Nat.succ_pos p)
    rw [decEntry, if_neg hn] at hst
    rw [← Nat.add_sub_cancel' hpos]
    exact (Drains.of_step hst (h start n hb (s.withStack rest) (hr.congr rfl rfl rfl rfl rfl rfl rfl)
      ⟨ho.config, ho.array, ho.len_lt⟩ hn hin hhb hroom)).trans fun _ ht => ht

/-- A cluster that is decoded at once leaves no step. -/
theorem DecodesSubtree.drains {r : Rule Unit} {m : Nat} (h : DecodesSubtree k p start n hb s r) :
    Finishes r s
      (fun _ t => Drains k.obase m t (fun u => ∃ vs, SubtreeDone k p start n hb vs s u) (SubtreeFailed k p n hb s))
      fun e _ => SubtreeFailed k p n hb s e :=
  Finishes.mono h (fun _ _ ht => .of_done ht) fun _ _ => id

theorem treesDrain (k : Task) : ∀ p, TreesDrain k p
  | 0 => treesDrain_of_step fun start n hb s hr ho _ hin hhb _ => by
    refine .of_run_eq (decStep_child ho hin (Nat.zero_le _) hhb) ?_
    exact (fillSlots_decodesSubtree hr ho hin hhb).drains
  | p + 1 => treesDrain_of_step fun start n hb s hr ho hn hin hhb hroom => by
    have hp : p + 1 ≤ s.ebw := by omega
    have hlen := ho.len_lt
    refine .of_run_eq (decStep_child ho hin hp hhb) ?_
    rw [if_neg (Nat.succ_ne_zero p)]
    split_ifs with hfull hshort
    · exact (fillRange_decodesSubtree hr ho hin hhb hp hfull).drains
    · exact (readLiterals_decodesSubtree hr ho hin hhb hp hfull hshort).drains
    · refine (decSplit_decodes hr ho hn (by omega) hfull hshort hroom).mono ?_ fun _ _ => id
      rintro _ t ⟨z, ht⟩
      have hsteps : n * (p + 1) ≤ n * (p + 1 + 1) - 1 := by rw [Nat.mul_succ n (p + 1)]; omega
      exact (children_drain (treesDrain k p) ho hin hhb hroom ht).mono hsteps (fun _ => id) fun _ => id

end Subtree

/-! ### The whole walk (R183, R189) -/

/-- From `s` to `t` the whole array has been decoded from the tree at the position, and the stack is empty. -/
structure TreeDone (k : Task) (vs : List Nat) (s t : State) : Prop where
  length : vs.length = k.len
  decoded : Decoded k 0 vs s t
  stack : t.stack = []
  parsed : Source k s → s.parsedTree k.stream k.bits k.len s.readerPos = some (vs, t.readerPos)

/-- How `DTreeBody` may fail over the stream of its task (R185, R191). -/
def TreeFailed (k : Task) (s : State) (e : Err) : Prop :=
  Source k s → (e = .wrongFormat ∧ s.parsedTree k.stream k.bits k.len s.readerPos = none) ∨ (e = .stackOverflow ∧ s.ebw = 64)

theorem dTreeBody_decodes {k : Task} {s : State} (hr : ReaderReady s) (ho : Output k s) :
    Finishes (dTreeBody k.obase k.len) s (fun _ t => ∃ vs, TreeDone k vs s t) fun e _ => TreeFailed k s e := by
  have hclear : Decoded k 0 [] s (s.withStack []) := .of_withStack hr [] 0
  obtain ⟨t, ht, hpush⟩ := addD_pushed (s := s.withStack []) (start := 0) (n := k.len) (p := s.ebw) (hb := 0) (E := s.ebw + 1)
    (show 0 < 64 by decide) (Nat.succ_pos _)
  have hroot : Decoded k 0 [] s t := hclear.append (.of_pushed hclear.ready hpush 0)
  have hstart : Decoded k 0 [] s (t.withStack []) := hroot.append (.of_withStack hroot.ready [] 0)
  have hebw := hroot.frame.ebw
  have hpos : (t.withStack []).readerPos = s.readerPos := show t.readerPos = (s.withStack []).readerPos from readerPos_of_pushed hpush
  have hparse : subtreeAt k (t.withStack []) s.ebw k.len 0 = s.parsedTree k.stream k.bits k.len s.readerPos := by
    rw [subtreeAt_of_decoded hstart, hpos]
    rfl
  have hrun : dTreeBody k.obase k.len s = dTreeLoop k.obase (1 + k.len * (s.ebw + 1)) t := by
    rw [dTreeBody, bind_run_ok (stackClear_run s), bind_run_ok (get_run _)]
    exact bind_run_ok ht
  have hwalk := treesDrain k s.ebw 0 k.len 0 [] t hroot.ready (ho.of_frame hroot.frame) hpush.stack (Nat.zero_add _).le
    (Nat.two_pow_pos _) (hebw ▸ (Nat.zero_add _).le)
  refine .of_run_eq hrun ((hwalk.finishes (fun u ⟨_, hu⟩ => hu.stack) (Nat.le_add_left _ _)).mono ?_ fun e _ he hsrc => ?_)
  · rintro _ u ⟨vs, hu⟩
    exact ⟨vs, hu.length, hstart.append hu.decoded, hu.stack, fun hsrc => hparse ▸ hu.parsed (hstart.source hsrc)⟩
  · refine (he (hstart.source hsrc)).imp (fun ⟨herr, hnone⟩ => ⟨herr, hparse ▸ hnone⟩) fun ⟨herr, hfull⟩ => ⟨herr, ?_⟩
    exact hstart.frame.ebw ▸ hfull

end Sys2Proof.Proofs

/-! PROOFS. The decoder's commands against the format (45_bct_decoder.md R184 to R186, R188, R189, R191). -/

namespace Sys2Proof.Proofs
open Sys2Proof Sys2Proof.Machine Sys2Proof.Format Sys2Proof.Laws

/-! ### A decoded array (R189) -/

section Array
variable {k : Task} {vs : List Nat} {s t u : State}

theorem TreeDone.frame (h : TreeDone k vs s t) : DecFrame k.obase k.len s t :=
  decFrame_array h.decoded.frame (by rw [Nat.zero_add, h.length])

theorem TreeDone.arrayValues (h : TreeDone k vs s t) : arrayValues t k.obase k.len = vs := by
  rw [arrayValues_eq_slice, ← h.length]
  exact h.decoded.values

/-- No byte outside the output array has changed. -/
theorem TreeDone.outside (h : TreeDone k vs s t) {a : Nat} (ha : (Region.ofBytes k.obase (s.arrayBytes k.len)).holds a = false) :
    t.mem.read a = s.mem.read a := by
  refine read_of_decFrame h.frame ?_
  by_contra hin
  rw [holds_ofBytes.2 (by omega)] at ha
  cases ha

/-- Every byte of the array has been stored once. -/
theorem TreeDone.stores (h : TreeDone k vs s t) (hs : s.storeTrace = []) :
    (t.storeTrace.map Prod.fst).Perm ((List.range (s.arrayBytes k.len)).map (k.obase + ·)) := by
  obtain ⟨l, htrace, hperm⟩ := h.decoded.trace
  rw [htrace, hs, List.append_nil, ← List.range'_eq_map_range]
  rwa [h.length, slotAddrs, State.elemAddr, Nat.zero_mul, Nat.add_zero] at hperm

/-- The error of a walk over its stream. -/
theorem TreeFailed.err {e : Err} (h : TreeFailed k s e) (hsrc : Source k s) :
    (e.code = 7 ∧ s.parsedTree k.stream k.bits k.len s.readerPos = none) ∨ (s.ebw = 64 ∧ e.code = 13) := by
  rcases h hsrc with ⟨rfl, hnone⟩ | ⟨rfl, hfull⟩
  · exact .inl ⟨rfl, hnone⟩
  · exact .inr ⟨hfull, rfl⟩

/-- A command that completed without error has done what its rule does when it ends. -/
theorem Finishes.completed_ok {r : Rule Word} {Q : Word → State → Prop} {E : Err → State → Prop} (h : Finishes r s.started Q E)
    (hx : runCommand r s = .next t) (herr : t.err = 0) : ∃ v u, Q v u ∧ t = u.completed 0 0 v := by
  rcases h.command with ⟨v, u, hu, hx'⟩ | ⟨e, i, u, -, hx'⟩
  · exact ⟨v, u, hu, Host.Outcome.next.inj (hx.symm.trans hx')⟩
  · obtain rfl := Host.Outcome.next.inj (hx.symm.trans hx')
    exact absurd herr (code_ne_zero e)

end Array

/-! ### `BCT.DTREE` (R184) -/

section Dtree
variable {s t : State}

/-- What the checks of `BCT.DTREE` leave to know (R184). -/
structure DtreeChecked (s : State) : Prop where
  config : s.badConfig = false
  array : s.arg0.toNat + s.arrayBytes s.arg1.toNat < Config.addressSpace
  isOpen : s.rdOpen = true

theorem DtreeChecked.of_check (h : s.dtreeCheck = none) : DtreeChecked s := by
  unfold State.dtreeCheck at h
  split_ifs at h with hconfig hfar hclosed
  exact ⟨Bool.eq_false_iff.2 (mt badConfig_iff.1 hconfig), Nat.not_le.1 hfar, by simpa using hclosed⟩

/-- The walk of `BCT.DTREE`: over the input of the open reader. -/
def dtreeTask (s : State) : Task := ⟨s.arg0.toNat, s.arg1.toNat, s.inputStream, s.inputBits⟩

theorem bctDtreeRule_decodes (hcheck : s.dtreeCheck = none) (hinv : s.readerInv) :
    Finishes bctDtreeRule s (fun v t => v = 0 ∧ ∃ vs, TreeDone (dtreeTask s) vs s t) fun e _ => TreeFailed (dtreeTask s) s e := by
  have hc := DtreeChecked.of_check hcheck
  refine .of_run_eq (bctDtreeRule_past_checks hcheck) ?_
  exact (dTreeBody_decodes (k := dtreeTask s) (.of_inv hinv hc.isOpen) ⟨hc.config, hc.array, s.arg1.isLt⟩).bind
    fun _ _ ht => .of_ok rfl ⟨rfl, ht⟩

/-- `BCT.DTREE` that ends without error has decoded a tree. -/
theorem bctDtreeRule_ends_decoded (hinv : s.readerInv) :
    Finishes bctDtreeRule s (fun _ t => ∃ vs, TreeDone (dtreeTask s) vs s t) fun _ _ => True := by
  cases hcheck : s.dtreeCheck with
  | some e => exact .of_raised (i := 0) (by rw [bctDtreeRule_run, hcheck]) trivial
  | none => exact (bctDtreeRule_decodes hcheck hinv).mono (fun _ _ => And.right) fun _ _ _ => trivial

/-- Two regions without a common byte, one of them the output array. -/
theorem apart_of_disjoint {r : Region} {base n a : Nat} (h : r.disjoint (Region.ofBytes base n)) (hlo : r.first ≤ a) (hhi : a < r.past) :
    a < base ∨ base + n ≤ a := by
  have hout := h a (holds_iff.2 ⟨hlo, hhi⟩)
  by_contra hin
  rw [holds_ofBytes.2 (by omega)] at hout
  cases hout

theorem dtreeTask_source (hc : DtreeChecked s) (hinv : s.readerInv) (hfresh : s.lookaheadFresh)
    (hread : s.admitsRegion (readRegion .bctDtree s)) (hwrite : s.admitsRegion (writeRegion .bctDtree s))
    (hdis : (readRegion .bctDtree s).disjoint (writeRegion .bctDtree s)) : Source (dtreeTask s) s :=
  ⟨hfresh, rfl, unread_eq_inputStream (.of_inv hinv hc.isOpen), allAdmitted_of_readerRegion hread, admitsRegion_ofBytes.1 hwrite,
    fun _ => apart_of_disjoint hdis⟩

/-- What a decoder walk that completes changes besides memory. -/
theorem sameButMemory_of_decFrame {obase len : Nat} (h : DecFrame obase len s.started t) (v : Word) :
    (t.completed 0 0 v).sameButMemory { s.succeeded v with
      rdPtr := t.rdPtr, rdLa := t.rdLa, rdLoaded := t.rdLoaded, rdCons := t.rdCons, stack := t.stack, stkHwm := t.stkHwm } := by
  rw [completed_without_error, h.same]
  rfl

end Dtree

/-- Settles O38: the walk ends with the tree that the input holds, or fails as the format says. -/
theorem treeDecodeMeetsFormat : Obligations.TreeDecodeMeetsFormat := by
  intro s hcheck hinv hfresh hread hwrite hdis
  have hsrc : Source (dtreeTask s.started) s.started :=
    dtreeTask_source (s := s.started) (.of_check hcheck) hinv hfresh hread hwrite hdis
  rcases (bctDtreeRule_decodes (s := s.started) hcheck hinv).command with ⟨v, u, ⟨rfl, vs, hu⟩, hx⟩ | ⟨e, i, u, he, hx⟩
  · have hparsed : s.parsedTree s.inputStream s.inputBits s.arg1.toNat s.readerPos = some (vs, u.readerPos) := hu.parsed hsrc
    refine ⟨_, hx, .inr ?_⟩
    rw [hparsed]
    have hsame := sameButMemory_of_decFrame hu.frame 0
    rw [hu.stack] at hsame
    exact ⟨hsame, rfl, hu.decoded.hwm.le, hu.decoded.hwm.bound, hu.arrayValues, fun a ha => hu.outside ha⟩
  · refine ⟨_, hx, ?_⟩
    rcases he.err hsrc with ⟨hcode, hnone⟩ | hfull
    · refine .inr ?_
      rw [show s.parsedTree s.inputStream s.inputBits s.arg1.toNat s.readerPos = none from hnone]
      exact hcode
    · exact .inl hfull

/-! ### `BCT.DECODE` (R186) -/

section Decode
variable {k : Task} {s t u : State}

/-- What the checks of `BCT.DECODE` leave to know (R186). -/
structure DecodeChecked (s : State) : Prop where
  config : s.badConfig = false
  buffer : s.arg0.toNat + s.arg1.toNat < Config.addressSpace
  array : s.arg2.toNat + s.arrayBytes s.arg3.toNat < Config.addressSpace

theorem DecodeChecked.of_check (h : s.decodeCheck = none) : DecodeChecked s := by
  unfold State.decodeCheck at h
  split_ifs at h with hconfig hfar
  obtain ⟨hbuffer, harray⟩ := not_or.1 hfar
  exact ⟨Bool.eq_false_iff.2 (mt badConfig_iff.1 hconfig), Nat.not_le.1 hbuffer, Nat.not_le.1 harray⟩

/-- The walk of `BCT.DECODE`: over its input buffer. -/
def decodeTask (s : State) : Task := ⟨s.arg2.toNat, s.arg3.toNat, s.bufferStream, 8 * s.arg1.toNat⟩

/-- The reader that `BCT.DECODE` opens. -/
abbrev freshReader (s : State) : State := s.started.readerInitialised s.arg0.toNat s.arg1.toNat

theorem Output.of_read (h : Output k s) (hf : ReadFrame s t) : Output k t := h.of_frame (.of_read (obase := 0) (len := 0) hf)

/-- The walk, and the bytes that it has consumed (R134, R186 steps 6 and 7). -/
theorem dTreeSize_decodes (hr : ReaderReady s) (ho : Output k s) :
    Finishes (do dTreeBody k.obase k.len; readerSize : Rule Word) s
      (fun v t => v = toWord (bytesFor t.readerPos) ∧ ∃ vs, TreeDone k vs s t) fun e _ => TreeFailed k s e := by
  refine (dTreeBody_decodes hr ho).bind ?_
  rintro _ t ⟨vs, ht⟩
  refine .of_ok ((readerSize_run t).trans (if_pos ht.decoded.ready.isOpen)) ⟨?_, vs, ht⟩
  rw [bytesConsumed_eq]

theorem getHeader_finishes (hr : ReaderReady s) :
    Finishes getHeader s (fun _ t => ReadDone (headerBits s.isList s.elemWidth) s t) fun _ _ => True := by
  refine .of_run_eq (getHeader_run s) ?_
  refine (decodeField_reads (k := ⟨0, 0, 0, 0⟩) hr (headerBits_le s)).bind_failing (fun _ _ _ => trivial) ?_
  rintro _ t ⟨hdone, -⟩
  exact .of_ok rfl hdone

theorem freshReader_ready (hc : DecodeChecked s) : ReaderReady (freshReader s) := (readerInitialised_ready _ hc.buffer).1

theorem freshReader_output (hc : DecodeChecked s) : Output (decodeTask s) (freshReader s) := ⟨hc.config, hc.array, s.arg3.isLt⟩

/-- Whatever the input, `BCT.DECODE` that ends without error has decoded a tree after the count. -/
theorem bctDecodeRule_decodes (s : State) :
    Finishes bctDecodeRule s.started
      (fun _ t => ∃ u vs, ReadFrame (freshReader s) u ∧ TreeDone (decodeTask s) vs u t) fun _ _ => True := by
  cases hcheck : s.started.decodeCheck with
  | some e => exact .of_raised (i := 0) (by rw [bctDecodeRule_run, hcheck]) trivial
  | none =>
    have hc : DecodeChecked s := .of_check hcheck
    refine .of_run_eq (bctDecodeRule_past_checks hcheck) ?_
    refine Finishes.bind (getHeader_finishes (freshReader_ready hc)) fun c u hu => .check (fun _ => trivial) fun _ => ?_
    refine (dTreeSize_decodes (k := decodeTask s) hu.ready ((freshReader_output hc).of_read hu.frame)).mono ?_ fun _ _ _ => trivial
    rintro _ t ⟨-, vs, ht⟩
    exact ⟨u, vs, hu.frame, ht⟩

theorem freshReader_source (hc : DecodeChecked s) (hread : s.admitsRegion (readRegion .bctDecode s))
    (hwrite : s.admitsRegion (writeRegion .bctDecode s)) (hdis : (readRegion .bctDecode s).disjoint (writeRegion .bctDecode s)) :
    Source (decodeTask s) (freshReader s) := by
  obtain ⟨hready, hbase, hend, -, hfresh⟩ := readerInitialised_ready s.started hc.buffer
  obtain ⟨hbits, hstream⟩ := readerInitialised_input (s := s.started) hc.buffer
  have hptr : (freshReader s).rdPtr.toNat = s.arg0.toNat := hbase
  refine ⟨hfresh, hbits, ?_, ?_, admitsRegion_ofBytes.1 hwrite, fun a h1 h2 => ?_⟩
  · rw [unread_eq_inputStream hready, hstream]
    rfl
  · rw [hptr, hend, Nat.add_sub_cancel_left]
    exact admitsRegion_ofBytes.1 hread
  · exact apart_of_disjoint hdis (show s.arg0.toNat ≤ a from hptr ▸ h1) (show a < s.arg0.toNat + s.arg1.toNat from hend ▸ h2)

/-- `BCT.DECODE` up to its walk (R186 step 5, R188): no count, a wrong count, or the walk begins after the count. -/
theorem bctDecodeRule_cases (hcheck : s.decodeCheck = none) (hread : s.admitsRegion (readRegion .bctDecode s)) :
    (∃ u, bctDecodeRule s.started = .error (.raised .wrongFormat (if s.arg1 = 0 then 2 else 3)) u ∧ s.bufferHeader = none ∧
      u.mem = s.mem) ∨
    (∃ c u, bctDecodeRule s.started = .error (.raised .wrongFormat 0) u ∧ s.bufferHeader = some c ∧ c ≠ s.arg3.toNat ∧
      u.mem = s.mem) ∨
    (∃ u, bctDecodeRule s.started = (do dTreeBody s.arg2.toNat s.arg3.toNat; readerSize : Rule Word) u ∧
      s.bufferHeader = some s.arg3.toNat ∧ ReadDone (headerBits s.isList s.elemWidth) (freshReader s) u) := by
  have hc := DecodeChecked.of_check hcheck
  have hrun : bctDecodeRule s.started = decodeSession s.arg2.toNat s.arg3.toNat (freshReader s) := bctDecodeRule_past_checks hcheck
  have hfirst := (admitsRegion_ofBytes.1 hread).mono le_rfl (Nat.add_le_add_left (Nat.min_le_right 8 s.arg1.toNat) _)
  rcases getHeader_fresh (s := s.started) hc.buffer hfirst with ⟨c, u, hcount, hparse, hdone⟩ | ⟨u, hcount, hparse, hframe⟩
  · replace hrun := hrun.trans ((bind_run_ok hcount).trans (check_run _ _ _ u))
    by_cases hne : c = s.arg3.toNat
    · exact .inr (.inr ⟨u, hrun.trans (if_neg (by simp [hne])), hne ▸ hparse, hdone⟩)
    · exact .inr (.inl ⟨c, u, hrun.trans (if_pos (bne_iff_ne.2 hne)), hparse, hne, hdone.frame.mem⟩)
  · have hlen : s.arg1.toNat = 0 ↔ s.arg1 = 0 := by rw [← BitVec.toNat_inj]; rfl
    simp only [hlen] at hcount
    exact .inl ⟨u, hrun.trans (bind_run_error hcount), hparse, hframe.mem⟩

/-- What a walk of a fresh reader that completes changes besides memory. -/
theorem sameButMemory_of_freshReader {obase len : Nat} (h : DecFrame obase len (freshReader s) t) (v : Word) :
    (t.completed 0 0 v).sameButMemory { s.succeeded v with
      rdBase := s.arg0, rdEnd := toWord (s.arg0.toNat + s.arg1.toNat), rdPtr := t.rdPtr, rdLa := t.rdLa, rdLoaded := t.rdLoaded,
      rdCons := t.rdCons, rdOpen := true, stack := t.stack, stkHwm := t.stkHwm } := by
  rw [completed_without_error, h.same, freshReader, State.readerInitialised, toWord_self]
  rfl

/-- The tree after the count. -/
theorem parsedTree_after_header (hc : DecodeChecked s) (h : ReadDone (headerBits s.isList s.elemWidth) (freshReader s) u) :
    u.parsedTree s.bufferStream (8 * s.arg1.toNat) s.arg3.toNat u.readerPos =
      s.parsedTree s.bufferStream (8 * s.arg1.toNat) s.arg3.toNat (headerBits s.isList s.elemWidth) := by
  obtain ⟨-, -, -, hpos, -⟩ := readerInitialised_ready s.started hc.buffer
  rw [h.pos, hpos, Nat.zero_add, h.frame.same]
  rfl

end Decode

/-- Settles O37: the count that the buffer holds, or does not hold; then the tree after it. -/
theorem decodeMeetsFormat : Obligations.DecodeMeetsFormat := by
  intro s hcheck hread hwrite hdis
  rcases bctDecodeRule_cases hcheck hread with
    ⟨u, hrun, hheader, hmem⟩ | ⟨c, u, hrun, hheader, hne, hmem⟩ | ⟨u, hrun, hheader, hdone⟩
  · refine ⟨_, congrArg complete hrun, ?_⟩
    rw [hheader]
    exact ⟨rfl, rfl, hmem⟩
  · refine ⟨_, runCommand_of_raised hrun, ?_⟩
    rw [hheader]
    exact (if_pos hne).mpr ⟨rfl, rfl, hmem⟩
  have hc := DecodeChecked.of_check hcheck
  have hsrc : Source (decodeTask s) u := (freshReader_source hc hread hwrite hdis).of_read (freshReader_ready hc) hdone
  have hout : Output (decodeTask s) u := (freshReader_output hc).of_read hdone.frame
  have htree := parsedTree_after_header hc hdone
  have hebw : u.ebw = s.ebw := by rw [hdone.frame.same]; rfl
  have hhwm : u.stkHwm = s.stkHwm := hdone.frame.stkHwm
  have hbytes : u.arrayBytes s.arg3.toNat = s.arrayBytes s.arg3.toNat := arrayBytes_of_readFrame hdone.frame _
  rw [hheader]
  simp only [ne_eq, not_true_eq_false, if_false]
  rw [← htree, ← hebw, ← hhwm]
  rcases (Finishes.of_run_eq hrun (dTreeSize_decodes hdone.ready hout)).command with
    ⟨v, t, ⟨rfl, vs, ht⟩, hx⟩ | ⟨e, i, t, he, hx⟩
  · have hparsed : u.parsedTree s.bufferStream (8 * s.arg1.toNat) s.arg3.toNat u.readerPos = some (vs, t.readerPos) := ht.parsed hsrc
    refine ⟨_, hx, .inr ?_⟩
    rw [hparsed]
    have hsame := sameButMemory_of_freshReader ((DecFrame.of_read hdone.frame).trans ht.frame) (toWord (bytesFor t.readerPos))
    rw [ht.stack] at hsame
    refine ⟨hsame, rfl, ht.decoded.hwm.le, ht.decoded.hwm.bound, ht.arrayValues, fun a ha => ?_⟩
    have houtside : (Region.ofBytes s.arg2.toNat (u.arrayBytes s.arg3.toNat)).holds a = false := by rw [hbytes]; exact ha
    exact (ht.outside houtside).trans (congrArg (Memory.read · a) hdone.frame.mem)
  · refine ⟨_, hx, ?_⟩
    rcases he.err hsrc with ⟨hcode, hnone⟩ | hfull
    · refine .inr ?_
      rw [show u.parsedTree s.bufferStream (8 * s.arg1.toNat) s.arg3.toNat u.readerPos = none from hnone]
      exact hcode
    · exact .inl hfull

/-- Settles O41: the walk stores each byte of the array once, and the array holds what it has decoded. -/
theorem everySlotStoredOnce : Obligations.EverySlotStoredOnce := by
  intro s t hs
  refine ⟨fun hx herr => ?_, fun hx herr => ?_⟩
  · obtain ⟨v, w, ⟨u, vs, hframe, hw⟩, rfl⟩ := (bctDecodeRule_decodes s).completed_ok hx herr
    have htrace : u.storeTrace = [] := by rw [hframe.same]; rfl
    have hbytes : u.arrayBytes s.arg3.toNat = s.arrayBytes s.arg3.toNat := arrayBytes_of_readFrame hframe _
    have hebw : u.ebw = s.ebw := by rw [hframe.same]; rfl
    rw [← hbytes, ← hebw]
    exact ⟨hw.stores htrace, hw.arrayValues.symm ▸ hw.decoded.below⟩
  · obtain ⟨v, w, ⟨vs, hw⟩, rfl⟩ := (bctDtreeRule_ends_decoded (s := s.started) (readerInv_of_inv hs)).completed_ok hx herr
    exact ⟨hw.stores rfl, hw.arrayValues.symm ▸ hw.decoded.below⟩

end Sys2Proof.Proofs

/-! PROOFS. The format is read back as it is written (45_bct_decoder.md R190): a stream that holds the fields of a tree over an ascending array
is read as that array, and the count before it as its length. -/

namespace Sys2Proof.Proofs
open Sys2Proof Sys2Proof.Machine Sys2Proof.Format Sys2Proof.Laws

/-! ### Fields that a stream holds (41_bitstream_writer.md R118, 42_bitstream_reader.md R136) -/

/-- From `pos` on the stream holds the fields, one directly after the other. -/
def HoldsAt (S total : Nat) : (pos : Nat) → List BitField → Prop
  | _, [] => True
  | pos, f :: fs => fieldAt S total pos f.width = some (f.value &&& sizeMask f.width) ∧ HoldsAt S total (pos + f.width) fs

section Holds
variable {S total : Nat}

theorem holdsAt_append (gs : List BitField) : ∀ (fs : List BitField) (pos : Nat),
    HoldsAt S total pos (fs ++ gs) ↔ HoldsAt S total pos fs ∧ HoldsAt S total (pos + streamBits fs) gs
  | [], pos => by simp [HoldsAt, streamBits]
  | f :: fs, pos => by rw [List.cons_append, HoldsAt, HoldsAt, holdsAt_append gs fs, streamBits, Nat.add_assoc, and_assoc]

/-- A stream holds the fields whose stream is a part of it. -/
theorem holdsAt_of_streamValue : ∀ (fs : List BitField) (pos : Nat), pos + streamBits fs ≤ total →
    (S >>> pos) % 2 ^ streamBits fs = streamValue fs → HoldsAt S total pos fs
  | [], _, _, _ => trivial
  | f :: fs, pos, hin, hpart => by
    rw [streamBits] at hin hpart
    rw [Nat.pow_add, streamValue, Nat.shiftLeft_eq] at hpart
    have hfirst : (f.value &&& sizeMask f.width) < 2 ^ f.width := and_sizeMask_lt _ _
    refine ⟨fieldAt_eq_some (by omega) ?_, holdsAt_of_streamValue fs _ (by omega) ?_⟩
    · rw [and_sizeMask (S >>> pos), ← Nat.mod_mul_right_mod _ _ (2 ^ streamBits fs), hpart, Nat.add_mul_mod_self_right,
        Nat.mod_eq_of_lt hfirst]
    · rw [Nat.shiftRight_add, Nat.shiftRight_eq_div_pow _ f.width, ← Nat.mod_mul_right_div_self, hpart,
        Nat.add_mul_div_right _ _ (Nat.two_pow_pos _), Nat.div_eq_of_lt hfirst, Nat.zero_add]

/-- Literals are read back (R162, R182 case 3). -/
theorem fieldsAt_of_holdsAt (w : Nat) : ∀ (vs : List Nat) (pos : Nat),
    HoldsAt S total pos (vs.map fun v => { value := v &&& sizeMask w, width := w }) →
    fieldsAt S total w vs.length pos = some (vs.map (· &&& sizeMask w))
  | [], _, _ => rfl
  | v :: vs, pos, ⟨hfield, hrest⟩ => by
    rw [Nat.and_assoc, Nat.and_self] at hfield
    rw [List.length_cons, fieldsAt_succ, hfield, Option.bind_some, fieldsAt_of_holdsAt w vs _ hrest]
    rfl

theorem streamBits_literals (w : Nat) (vs : List Nat) :
    streamBits (vs.map fun v => { value := v &&& sizeMask w, width := w }) = vs.length * w := by
  induction vs with
  | nil => simp [streamBits]
  | cons v vs ih => rw [List.map_cons, streamBits, ih, List.length_cons]; ring

/-- The element count is read back if it is within the limits of its kind (R165, R166, R188). -/
theorem parseHeader_of_holdsAt {isList : Bool} {width len : Nat} (h : HoldsAt S total 0 [headerField isList width len])
    (hlist : isList = true → len < 2 ^ 57) (hset : isList = false → 0 < len ∧ len ≤ 2 ^ width) :
    parseHeader isList width S total = some len := by
  have hfield := h.1
  cases isList with
  | true =>
    rw [and_sizeMask, headerField, if_pos rfl, Nat.mod_eq_of_lt (hlist rfl)] at hfield
    rw [parseHeader, headerBits, if_pos rfl, hfield]
    rfl
  | false =>
    obtain ⟨hpos, hle⟩ := hset rfl
    rw [and_sizeMask, headerField, if_neg (by decide), Nat.mod_eq_of_lt (show len - 1 < 2 ^ width by omega)] at hfield
    rw [parseHeader, headerBits, if_neg (by decide), hfield]
    exact congrArg some (Nat.sub_add_cancel hpos)

end Holds

/-! ### Clusters of an ascending array -/

/-- The elements below `len` ascend, strictly if full subtrees are skipped (R190; 44_bct_encoder.md R162). -/
structure Ascending (skipEff : Bool) (f : Nat → Nat) (len : Nat) : Prop where
  le : ∀ i j, i ≤ j → j < len → f i ≤ f j
  lt : skipEff = true → ∀ i j, i < j → j < len → f i < f j

/-- The elements `start` to `start + n - 1` all have the bits of `c` from bit `p` on. -/
def TopBits (f : Nat → Nat) (p start n c : Nat) : Prop := ∀ i, start ≤ i → i < start + n → f i / 2 ^ p = c

section Cluster
variable {f : Nat → Nat} {skipEff : Bool} {len p start n z c mcl S total pos : Nat}

theorem TopBits.sharedAbove (h : TopBits f p start n c) : SharedAbove f p start n :=
  fun i j h1 h2 h3 h4 => (h i h1 h2).trans (h j h3 h4).symm

/-- An element is its determined bits and the lower ones. -/
theorem TopBits.eq_or (h : TopBits f p start n c) {i : Nat} (h1 : start ≤ i) (h2 : i < start + n) :
    2 ^ p * c ||| (f i &&& sizeMask p) = f i := by
  rw [and_sizeMask, ← Nat.two_pow_add_eq_or_of_lt (Nat.mod_lt _ (Nat.two_pow_pos p)), ← h i h1 h2, Nat.div_add_mod]

/-- A cluster that ascends splits at some place (43_zero_counter.md R152). -/
theorem exists_splitsAt (ha : Ascending skipEff f len) (hin : start + n ≤ len) (h : TopBits f (p + 1) start n c) :
    ∃ z, SplitsAt f p start n z := by
  have hend : ∃ z, n ≤ z ∨ (f (start + z)).testBit p = true := ⟨n, .inl le_rfl⟩
  have hz : Nat.find hend ≤ n := Nat.find_min' hend (.inl le_rfl)
  refine ⟨Nat.find hend, .of_place (fun i j hij hj => ha.le i j hij (by omega)) h.sharedAbove hz (fun hpos => ?_) fun hlt => ?_⟩
  · have hbefore := Nat.find_min hend (m := Nat.find hend - 1) (by omega)
    simpa using (not_or.1 hbefore).2
  · exact (Nat.find_spec hend).resolve_left hlt.not_ge

/-- The next bit of an element, below its determined ones. -/
theorem div_two_pow_of_testBit (v p : Nat) : v / 2 ^ p = 2 * (v / 2 ^ (p + 1)) + (v.testBit p).toNat := by
  rw [Nat.pow_succ, ← Nat.div_div_eq_div_mul, Nat.toNat_testBit]
  omega

/-- The children of a cluster: the next bit is clear below the split and set from it on. -/
theorem SplitsAt.topBits (h : SplitsAt f p start n z) (htop : TopBits f (p + 1) start n c) :
    TopBits f p start z (2 * c) ∧ TopBits f p (start + z) (n - z) (2 * c + 1) := by
  have hz := h.le
  refine ⟨fun i h1 h2 => ?_, fun i h1 h2 => ?_⟩
  · rw [div_two_pow_of_testBit, htop i h1 (by omega), h.clear i h1 h2]
    rfl
  · rw [div_two_pow_of_testBit, htop i (by omega) (by omega), h.set i h1 (by omega)]
    rfl

/-- Strictly ascending elements are as far apart as their places, at least. -/
theorem Ascending.add_le (ha : Ascending true f len) (i : Nat) : ∀ d, i + d < len → f i + d ≤ f (i + d)
  | 0, _ => le_rfl
  | d + 1, h => by
    have hprev := ha.add_le i d (by omega)
    have hstep := ha.lt rfl (i + d) (i + (d + 1)) (by omega) h
    omega

/-- A full subtree holds every number with its determined bits (R162 case 2, R182 case 2). -/
theorem slice_of_full (ha : Ascending true f len) (hin : start + 2 ^ p ≤ len) (h : TopBits f p start (2 ^ p) c) :
    slice f start (2 ^ p) = (List.range (2 ^ p)).map (2 ^ p * c ||| ·) := by
  have hpos := Nat.two_pow_pos p
  rw [slice, List.range'_eq_map_range, List.map_map]
  refine List.map_congr_left fun i hi => ?_
  have hi := List.mem_range.1 hi
  have hfirst := h start le_rfl (by omega)
  have hlast := h (start + (2 ^ p - 1)) (by omega) (by omega)
  have hbelow := ha.add_le start i (by omega)
  have habove := ha.add_le (start + i) (2 ^ p - 1 - i) (by omega)
  rw [show start + i + (2 ^ p - 1 - i) = start + (2 ^ p - 1) by omega] at habove
  have hge : 2 ^ p * c ≤ f start := hfirst ▸ Nat.mul_div_le _ _
  have hlt : f (start + (2 ^ p - 1)) < 2 ^ p * c + 2 ^ p := by
    rw [← hlast]
    exact Nat.lt_mul_div_succ _ hpos
  rw [← Nat.two_pow_add_eq_or_of_lt hi]
  simp only [Function.comp_apply]
  omega

/-! ### A tree is read back (R167, R182) -/

/-- The determined bits of the ones child. -/
theorem or_bitMask (p c : Nat) : 2 ^ (p + 1) * c ||| bitMask p = 2 ^ p * (2 * c + 1) := by
  rw [bitMask, ← Nat.two_pow_add_eq_or_of_lt (Nat.pow_lt_pow_succ (by decide))]
  ring

/-- Where a stream holds the fields of an ascending cluster, the tree that is read is that cluster. -/
theorem parseTree_treeFields (ha : Ascending skipEff f len) : ∀ (p : Nat) {start n c pos : Nat}, start + n ≤ len → TopBits f p start n c →
    HoldsAt S total pos (treeFields skipEff mcl p (slice f start n)) →
    parseTree skipEff mcl S total p n (2 ^ p * c) pos =
      some (slice f start n, pos + streamBits (treeFields skipEff mcl p (slice f start n)))
  | 0, start, n, c, pos, _, htop, _ => by
    have hall : slice f start n = List.replicate n (2 ^ 0 * c) := by
      refine List.eq_replicate_iff.2 ⟨slice_length .., fun v hv => ?_⟩
      obtain ⟨i, h1, h2, rfl⟩ := mem_slice.1 hv
      simpa using htop i h1 h2
    rw [parseTree, hall]
    rfl
  | p + 1, start, n, c, pos, hin, htop, hheld => by
    by_cases hn : n = 0
    · subst hn
      rw [parseTree_nil, show slice f start 0 = [] from rfl, treeFields_nil]
      rfl
    by_cases hfull : (skipEff && isFull n (p + 1)) = true
    · obtain ⟨rfl, -, rfl⟩ : skipEff = true ∧ p + 1 < 64 ∧ n = 2 ^ (p + 1) := by simpa [isFull] using hfull
      rw [parseTree_full hfull, treeFields_full hfull, slice_of_full ha hin htop]
      rfl
    by_cases hshort : n ≤ mcl
    · rw [treeFields_short hfull hshort] at hheld ⊢
      have hlits := fieldsAt_of_holdsAt (p + 1) _ _ hheld
      rw [slice_length] at hlits
      rw [parseTree_short hfull hshort, hlits, streamBits_literals, slice_length, Option.map_some, List.map_map]
      refine congrArg (fun l => some (l, _)) ((List.map_congr_left fun v hv => ?_).trans (List.map_id _))
      obtain ⟨i, h1, h2, rfl⟩ := mem_slice.1 hv
      exact htop.eq_or h1 h2
    · obtain ⟨z, hz⟩ := exists_splitsAt ha hin htop
      have hle := hz.le
      obtain ⟨hzeros, hones⟩ := hz.topBits htop
      rw [treeFields_split hn hfull hshort hz.le hz.clear hz.set] at hheld ⊢
      obtain ⟨hcount, hchildren⟩ := hheld
      obtain ⟨hheldOnes, hheldZeros⟩ := (holdsAt_append _ _ _).1 hchildren
      rw [and_sizeMask, Nat.mod_eq_of_lt (hle.trans_lt (lt_two_pow_bitsLen64 n))] at hcount
      have hparseOnes := parseTree_treeFields ha p (by omega) hones hheldOnes
      have hparseZeros := parseTree_treeFields ha p (by omega) hzeros hheldZeros
      rw [parseTree_split hn hfull hshort, hcount, Option.bind_some, if_neg hle.not_gt, or_bitMask, hparseOnes, Option.bind_some,
        show 2 ^ (p + 1) * c = 2 ^ p * (2 * c) by ring, hparseZeros, Option.map_some, ← slice_split hle, streamBits, streamBits_append,
        Nat.add_assoc, Nat.add_assoc]

end Cluster
end Sys2Proof.Proofs

/-! PROOFS. The round trip (45_bct_decoder.md R190): the bytes that `BCT.ENCODE` has stored are a buffer from which `BCT.DECODE` reads the count
and the tree of the elements that went in. -/

namespace Sys2Proof.Proofs
open Sys2Proof Sys2Proof.Machine Sys2Proof.Format Sys2Proof.Laws

/-! ### The encoding of an input is read back -/

section Encoding
variable {s : State} {S total : Nat}

/-- The limits on the element count, which encoder and decoder share (44_bct_encoder.md R166, R186). -/
structure CountInLimits (s : State) (len : Nat) : Prop where
  list : s.isList = true → len < 2 ^ 57
  set : s.isList = false → 0 < len ∧ len ≤ 2 ^ s.elemWidth

theorem CountInLimits.of_encodeCheck (h : s.encodeCheck = none) : CountInLimits s s.arg1.toNat := by
  unfold State.encodeCheck at h
  split_ifs at h with _ _ hempty hset hlist _
  refine ⟨fun hkind => ?_, fun hkind => ⟨Nat.pos_of_ne_zero fun h0 => hempty ⟨hkind, h0⟩, ?_⟩⟩
  · have := (not_and.1 hlist) hkind
    omega
  · rcases (elemWidth_le s).eq_or_lt with hfull | hlt
    · rw [hfull]
      exact s.arg1.isLt.le
    · exact Nat.not_lt.1 fun hbig => hset ⟨hkind, hlt, hbig⟩

theorem ascending_of_encodable {vbase len : Nat} (h : s.encodable (arrayValues s vbase len)) :
    Ascending s.skipEff (elemValue s vbase) len := by
  refine ⟨fun i j hij hj => elemValue_mono h hij hj, fun hskip i j hij hj => ?_⟩
  have hset : s.isList = false := by simpa using (Bool.and_eq_true_iff.1 hskip).2
  obtain ⟨-, horder⟩ := h
  rw [if_neg (by simp [hset])] at horder
  have hlength : (arrayValues s vbase len).length = len := by simp [arrayValues]
  simpa [arrayValues] using List.pairwise_iff_getElem.1 horder i j (by omega) (by omega) hij

/-- A stream that holds the encoding of the input holds its count and its tree. -/
theorem parse_encodingOfInput (hcheck : s.encodeCheck = none) (henc : s.encodable s.inputValues)
    (hheld : HoldsAt S total 0 s.encodingOfInput) :
    parseHeader s.isList s.elemWidth S total = some s.arg1.toNat ∧
      s.parsedTree S total s.arg1.toNat (headerBits s.isList s.elemWidth) = some (s.inputValues, streamBits s.encodingOfInput) := by
  obtain ⟨hlist, hset⟩ := CountInLimits.of_encodeCheck hcheck
  have hbits : streamBits [headerField s.isList s.elemWidth s.arg1.toNat] = headerBits s.isList s.elemWidth := by
    rw [headerField, headerBits]
    split_ifs <;> rfl
  rw [encodingOfInput_eq, holdsAt_append, Nat.zero_add, hbits] at hheld
  obtain ⟨hcount, htree⟩ := hheld
  refine ⟨parseHeader_of_holdsAt hcount hlist hset, ?_⟩
  have htop : TopBits (elemValue s s.arg0.toNat) s.ebw 0 s.arg1.toNat 0 := fun i _ hi =>
    Nat.div_eq_of_lt (elemValue_lt_ebw henc (by omega))
  have hparse := parseTree_treeFields (ascending_of_encodable henc) s.ebw (by omega) htop htree
  rw [encodingOfInput_eq, streamBits_append, hbits, State.inputValues, arrayValues_eq_slice]
  exact hparse

end Encoding

/-! ### The stored encoding as a buffer -/

section Buffer
variable {s t u : State} {base n v : Nat}

theorem memNat_of_storedBytes (h : t.storedBytes s base n v) : memNat t.mem base n = v % 2 ^ (8 * n) := by
  rw [← memNat_cells s.mem base n v]
  exact memNat_congr fun x _ _ => by rw [h x, read_applyStores_cells]

theorem streamValue_lt : ∀ fs : List BitField, streamValue fs < 2 ^ streamBits fs
  | [] => Nat.one_pos
  | f :: fs => by
    have hfirst : (f.value &&& sizeMask f.width) < 2 ^ f.width := and_sizeMask_lt _ _
    have hmul := Nat.mul_le_mul_right (2 ^ f.width) (streamValue_lt fs)
    rw [Nat.succ_mul] at hmul
    rw [streamValue, streamBits, Nat.shiftLeft_eq, Nat.pow_add, Nat.mul_comm (2 ^ f.width)]
    omega

/-- Whatever stands after the bytes of a stored stream, a buffer that starts with them holds its fields. -/
theorem holdsAt_of_storedBytes {fs : List BitField} (h : t.storedBytes s base (bytesFor (streamBits fs)) (streamValue fs))
    (hn : bytesFor (streamBits fs) ≤ n) : HoldsAt (memNat t.mem base n) (8 * n) 0 fs := by
  have hbits : streamBits fs ≤ 8 * bytesFor (streamBits fs) := by rw [bytesFor]; omega
  refine holdsAt_of_streamValue fs 0 (by omega) ?_
  obtain ⟨d, rfl⟩ := Nat.exists_eq_add_of_le hn
  have hdvd : 2 ^ streamBits fs ∣ 2 ^ (8 * bytesFor (streamBits fs)) := pow_dvd_pow 2 hbits
  rw [Nat.shiftRight_zero, memNat_add, memNat_of_storedBytes h, Nat.add_mod, Nat.mod_mod_of_dvd _ hdvd,
    Nat.mod_eq_zero_of_dvd (hdvd.mul_right _), Nat.add_zero, Nat.mod_mod, Nat.mod_eq_of_lt (streamValue_lt fs)]

/-- `BCT.ENCODE` that completes without error has passed its checks and stored the whole encoding (R166). -/
theorem encoded_of_completed (henc : s.encodable s.inputValues) (hx : exec .bctEncode s = .next t) (herr : t.err = 0)
    (hdis : (readRegion .bctEncode s).disjoint (writeRegion .bctEncode s)) :
    s.encodeCheck = none ∧ ∃ v u, Encoded s v u ∧ t = u.completed 0 0 v := by
  cases hcheck : s.encodeCheck with
  | some e =>
    obtain rfl := Host.Outcome.next.inj (hx.symm.trans ((encoderChecks.2.2 s e).2 hcheck))
    exact absurd herr (code_ne_zero e)
  | none => exact ⟨rfl, (bctEncodeRule_encodes hcheck henc hdis).completed_ok hx herr⟩

end Buffer

/-! ### Decoding under the configuration of the encoder -/

section SameConfig
variable {s u : State}

/-- What the format depends on, besides the elements: `CFG` and `MCL`. -/
structure SameConfig (s u : State) : Prop where
  cfg : u.cfg = s.cfg
  mcl : u.mcl = s.mcl

theorem Encoded.sameConfig {v : Word} {t : State} (h : Encoded s v t) : SameConfig s (t.completed 0 0 v) := by
  have hcfg := congrArg State.cfg h.same
  have hmcl := congrArg State.mcl h.same
  exact ⟨hcfg, hmcl⟩

theorem SameConfig.isList (h : SameConfig s u) : u.isList = s.isList := by rw [State.isList, h.cfg]; rfl

theorem SameConfig.elemWidth (h : SameConfig s u) : u.elemWidth = s.elemWidth := by
  rw [State.elemWidth, State.wsel, h.cfg]; rfl

theorem SameConfig.bw (h : SameConfig s u) : u.bw = s.bw := by rw [State.bw, h.cfg]; rfl

theorem SameConfig.ebw (h : SameConfig s u) : u.ebw = s.ebw := by rw [State.ebw, h.bw, h.elemWidth]; rfl

theorem SameConfig.parsedTree (h : SameConfig s u) : u.parsedTree = s.parsedTree := by
  funext S total len pos
  rw [State.parsedTree, State.skipEff, State.skip, h.isList, h.cfg, h.mcl, h.ebw]
  rfl

/-- With the count in its limits and both ranges below 2^64 the checks of `BCT.DECODE` pass (R186). -/
theorem decodeCheck_of_limits (hcfg : u.badConfig = false) (hcount : CountInLimits u u.arg3.toNat)
    (hbuffer : u.arg0.toNat + u.arg1.toNat < 2 ^ 64) (harray : u.arg2.toNat + u.arg3.toNat * (u.elemWidth / 8) < 2 ^ 64) :
    u.decodeCheck = none := by
  obtain ⟨hlist, hset⟩ := hcount
  rw [State.decodeCheck, if_neg (mt badConfig_iff.2 (by simp [hcfg])), if_neg (by omega), if_neg, if_neg, if_neg]
  · exact fun h => (hset h.1).1.ne' h.2
  · exact fun h => (hset h.1).2.not_gt h.2.2
  · rintro ⟨hkind, hbig⟩
    have := hlist hkind
    omega

/-- `BCT.DECODE` over a buffer that holds the count and a tree decodes that tree, unless the stack overflows (R186, R191). -/
theorem exec_bctDecode_of_parsed {vs : List Nat} {pos : Nat} (hcheck : u.decodeCheck = none)
    (hread : u.admitsRegion (readRegion .bctDecode u)) (hwrite : u.admitsRegion (writeRegion .bctDecode u))
    (hdis : (readRegion .bctDecode u).disjoint (writeRegion .bctDecode u)) (hheader : u.bufferHeader = some u.arg3.toNat)
    (htree : u.parsedTree u.bufferStream (8 * u.arg1.toNat) u.arg3.toNat (headerBits u.isList u.elemWidth) = some (vs, pos)) :
    ∃ v, exec .bctDecode u = .next v ∧
      ((v.err = 0 ∧ v.res0 = toWord (bytesFor pos) ∧ arrayValues v u.arg2.toNat u.arg3.toNat = vs) ∨ (u.ebw = 64 ∧ v.err = 13)) := by
  obtain ⟨v, hx, hv⟩ := decodeMeetsFormat u hcheck hread hwrite hdis
  simp only [hheader, htree, ne_eq, not_true_eq_false, if_false] at hv
  refine ⟨v, hx, ?_⟩
  rcases hv with hfull | ⟨hsame, -, -, -, hvalues, -⟩
  · exact .inr hfull
  · exact .inl ⟨congrArg State.err hsame, congrArg State.res0 hsame, hvalues⟩

end SameConfig

/-- Settles O40: the buffer starts with the stored encoding, and that is read back as it was written. -/
theorem roundTrip : Obligations.RoundTrip := by
  intro s t ilen dst henc hx herr hdisEnc u hlen hbuffer harray hread hwrite hdis
  obtain ⟨hcheck, v, w, hw, rfl⟩ := encoded_of_completed henc hx herr hdisEnc
  have hc := EncodeChecked.of_check hcheck
  have hconf : SameConfig s u := ⟨hw.sameConfig.cfg, hw.sameConfig.mcl⟩
  have hres : v = toWord (bytesFor (streamBits s.encodingOfInput)) := congrArg State.res0 hw.same
  have hsize : v.toNat = bytesFor (streamBits s.encodingOfInput) := by
    have hfits := hw.fits
    have hend : s.arg2.toNat + s.arg3.toNat < 2 ^ 64 := hc.buffer
    rw [hres]
    refine toWord_toNat ?_
    rw [bytesFor]
    omega
  have hheld : HoldsAt u.bufferStream (8 * u.arg1.toNat) 0 s.encodingOfInput :=
    holdsAt_of_storedBytes (t := u) hw.stored (hsize ▸ hlen)
  obtain ⟨hheader, htree⟩ := parse_encodingOfInput hcheck henc hheld
  have hcount : CountInLimits u u.arg3.toNat := by
    obtain ⟨hlist, hset⟩ := CountInLimits.of_encodeCheck hcheck
    exact ⟨hconf.isList.symm ▸ hlist, hconf.isList.symm ▸ hconf.elemWidth.symm ▸ hset⟩
  have hbad : u.badConfig = false := by
    rw [State.badConfig, hconf.elemWidth, hconf.bw]
    exact hc.config
  have hdecode := decodeCheck_of_limits hbad hcount hbuffer (hconf.elemWidth.symm ▸ harray)
  rw [← hconf.isList, ← hconf.elemWidth] at hheader htree
  rw [← hconf.parsedTree] at htree
  rw [← hconf.ebw, show (w.completed 0 0 v).res0 = v from rfl, hres]
  exact exec_bctDecode_of_parsed hdecode hread hwrite hdis hheader htree

end Sys2Proof.Proofs

/-! PROOFS. Idling, errors and completion (60_exceptions.md R206, R207, R213): a primitive command that fails has changed nothing else, also
where a refused byte ends a write or a close; and what every completion leaves in `STATUS` and `RES0`. -/

namespace Sys2Proof.Proofs
open Sys2Proof Sys2Proof.Machine Sys2Proof.Format Sys2Proof.Laws

/-! ### Idling (R213) -/

theorem step_idle_alone {s : State} (hr : s.running = none) (hi : s.inbox = []) : step s = .next s := by rw [step, stepOnce, hr, hi]

/-- Settles O46: with no action to come the step is the idle one; the passing of time is an action that changes nothing. -/
theorem idleBlockWaits : Obligations.IdleBlockWaits := fun _ _ hr => ⟨step_idle_alone hr, step_idle hr⟩

/-! ### Rules that fail precisely (R207) -/

/-- If the rule raises from `s`, it does so without an info, and has only stored bytes: none of them unless the error is `BusError`. -/
def Precise {α : Type} (r : Rule α) (s : State) : Prop :=
  ∀ e j t, r s = .error (.raised e j) t → j = 0 ∧ ∃ l, t = withStores s l ∧ (e ≠ .busError → l = [])

section Precise
variable {α : Type} {r : Rule α} {s t : State} {e : Err} {n : Nat}

theorem Precise.of_ok {a : α} (h : r s = .ok a t) : Precise r s := fun _ _ _ hr => by rw [h] at hr; cases hr

theorem Precise.of_stopped {f : Fault} (h : r s = .error (.stopped f) t) : Precise r s := fun _ _ _ hr => by rw [h] at hr; cases hr

theorem Precise.of_refused (h : r s = .error (.raised e 0) s) : Precise r s := fun _ _ _ hr => by
  rw [h] at hr
  cases hr
  exact ⟨rfl, [], rfl, fun _ => rfl⟩

/-- A refused byte: the stores before it are made. -/
theorem Precise.of_stored {l : List Host.Cell} (h : r s = .error (.raised .busError 0) (withStores s l)) : Precise r s :=
  fun _ _ _ hr => by
    rw [h] at hr
    cases hr
    exact ⟨rfl, l, rfl, fun hne => absurd rfl hne⟩

/-- What a command answers once its rule has ended does not matter to how the rule fails. -/
theorem Precise.finish {f : α → Word} (h : Precise r s) : Precise (do let a ← r; pure (f a)) s := fun e j t hr => by
  rcases bind_eq_error.1 hr with hr | ⟨a, u, -, hu⟩
  · exact h e j t hr
  · cases hu

/-! ### The primitive commands, rule by rule (R207) -/

theorem writerInit_precise (s : State) (base cap : Nat) : Precise (writerInit base cap) s := by
  have hrun := writerInit_run s base cap
  split_ifs at hrun
  · exact .of_refused hrun
  · exact .of_refused hrun
  · exact .of_ok hrun

theorem writerAppend_precise (s : State) (v n : Nat) : Precise (writerAppend v n) s := by
  have hrun := writerAppend_run s v n
  split_ifs at hrun
  · exact .of_refused hrun
  · exact .of_refused hrun
  · exact .of_ok hrun

theorem writerWrite_precise (s : State) (v n : Nat) : Precise (writerWrite v n) s := by
  rcases writerWrite_cases s v n with ⟨-, hr⟩ | ⟨-, -, hr⟩ | ⟨-, -, -, -, hr⟩ | ⟨-, -, -, -, ⟨hr, -⟩ | ⟨k, -, hr, -⟩ | ⟨k, -, hr, -⟩⟩
  · exact .of_refused hr
  · exact .of_refused hr
  · exact .of_refused hr
  · exact .of_ok hr
  · exact .of_stored hr
  · exact .of_stopped hr

theorem writerFlush_precise (s : State) : Precise writerFlush s := by
  rcases writerFlush_cases s with ⟨-, hr⟩ | ⟨-, -, hr⟩ | ⟨-, -, ⟨hr, -⟩ | ⟨k, -, hr, -⟩ | ⟨k, -, hr, -⟩⟩
  · exact .of_refused hr
  · exact .of_refused hr
  · exact .of_ok hr
  · exact .of_stored hr
  · exact .of_stopped hr

theorem writerClose_precise (s : State) : Precise writerClose s := by
  rcases writerClose_cases s with ⟨-, hr⟩ | ⟨-, -, hr⟩ | ⟨-, -, hr | ⟨k, -, hr, -⟩ | ⟨t, hr, -⟩⟩
  · exact .of_refused hr
  · exact .of_refused hr
  · exact .of_ok hr
  · exact .of_stored hr
  · exact .of_stopped hr

theorem readerInit_precise (s : State) (base len : Nat) : Precise (readerInit base len) s := by
  have hrun := readerInit_run s base len
  split_ifs at hrun
  · exact .of_refused hrun
  · exact .of_ok hrun

theorem readerLoad_precise (s : State) : Precise readerLoad s := by
  cases ho : s.rdOpen with
  | false => exact .of_refused (readerLoad_closed ho)
  | true =>
    have hrun : readerLoad s = loadBody s := readerLoad_open ho
    rcases loadBody_cases s with ⟨-, hr⟩ | ⟨-, -, hr⟩ | ⟨-, -, hr⟩
    · exact .of_refused (hrun.trans hr)
    · exact .of_refused (hrun.trans hr)
    · exact .of_ok (hrun.trans hr)

/-- The exception of R133 and R207: the reload stays beside `NotEnoughBits`. -/
theorem readerRead_precise_or (s : State) (n : Nat) :
    Precise (readerRead n) s ∨
      s.rdOpen = true ∧ s.loadAddr < s.rdEnd.toNat ∧ readerRead n s = .error (.raised .notEnoughBits 0) (afterLoad s) := by
  cases ho : s.rdOpen with
  | false => exact .inl (.of_refused (readerRead_refused.1 ho))
  | true =>
    by_cases hn : 57 < n
    · exact .inl (.of_refused (readerRead_refused.2 ho hn))
    have hrun := readerRead_run ho (Nat.not_lt.1 hn)
    rcases ensureBits_cases s n with ⟨-, -, he⟩ | ⟨-, -, -, he⟩ | ⟨-, hlt, -, he⟩ | ⟨-, -, he⟩
    · rw [he] at hrun; exact .inl (.of_refused hrun)
    · rw [he] at hrun; exact .inl (.of_refused hrun)
    · rw [he] at hrun; exact .inr ⟨rfl, hlt, hrun⟩
    · rw [he] at hrun; exact .inl (.of_ok hrun)

theorem readerSize_precise (s : State) : Precise readerSize s := by
  have hrun := readerSize_run s
  split_ifs at hrun
  · exact .of_ok hrun
  · exact .of_refused hrun

theorem zcCountRule_precise (s : State) (bit : Nat) : Precise (zcCountRule bit) s := by
  by_cases h : s.elemWidth ≤ bit ∨ Config.addressSpace ≤ s.arg0.toNat + s.arrayBytes s.arg1.toNat
  · exact .of_refused (zcCountRule_refused h)
  obtain ⟨hbit, hin⟩ := not_or.1 h
  have hrun := zcCountRule_counts hbit hin
  rcases zeroCount_cases s s.arg0.toNat s.arg1.toNat bit (Nat.not_le.1 hin).le with ⟨z, -, hr, -⟩ | ⟨hr, -⟩
  · exact .of_ok (hrun.trans (bind_run_ok hr))
  · exact .of_refused (hrun.trans (bind_run_error hr))

/-- Every primitive command fails precisely, but for a `BSR.READ` that meets the end of the stream within its field. -/
theorem commandRule_precise_or {i : Instr} (hi : isPrimitive i = true) (s : State) :
    Precise (commandRule i s) s.started ∨
      ∃ n, i = .bsrRead n ∧ s.rdOpen = true ∧ s.loadAddr < s.rdEnd.toNat ∧
        readerRead n s.started = .error (.raised .notEnoughBits 0) (afterLoad s.started) := by
  cases i with
  | sysNop => exact .inl (.of_ok rfl)
  | sysReset => exact .inl (.of_ok rfl)
  | utlBlen => exact .inl (.of_ok rfl)
  | bswInit => exact .inl (writerInit_precise _ _ _).finish
  | bswAppend n => exact .inl (writerAppend_precise _ _ n).finish
  | bswWrite n => exact .inl (writerWrite_precise _ _ n).finish
  | bswFlush => exact .inl (writerFlush_precise _).finish
  | bswClose => exact .inl (writerClose_precise _)
  | bsrInit => exact .inl (readerInit_precise _ _ _).finish
  | bsrRead n =>
    rcases readerRead_precise_or s.started n with h | h
    · exact .inl h.finish
    · exact .inr ⟨n, rfl, h⟩
  | bsrLoad => exact .inl (readerLoad_precise _).finish
  | bsrSize => exact .inl (readerSize_precise _)
  | zcCount bit => exact .inl (zcCountRule_precise _ bit)
  | bctEtree | bctEncode | bctDtree | bctDecode | bctDsize => cases hi

end Precise

/-! ### The primitive commands that fail (R207) -/

theorem code_eq_fourteen {e : Err} : e.code = 14 ↔ e = .busError := by cases e <;> decide

theorem Precise.failed {r : Rule Word} {s t : State} (h : Precise r s.started) (hx : runCommand r s = .next t) (ht : t.err ≠ 0) :
    (t.err ≠ 14 → t.mem = s.mem) ∧ t.sameButMemory (s.failed t.err 0) := by
  rcases complete_eq_next.1 hx with ⟨v, u, -, rfl⟩ | ⟨e, j, u, hr, rfl⟩
  · exact absurd rfl ht
  · obtain ⟨rfl, l, rfl, hl⟩ := h e j u hr
    refine ⟨fun hne => ?_, withStores_raised_same s l e⟩
    rw [hl fun he => hne (code_eq_fourteen.2 he)]
    rfl

/-- How a primitive command fails, from any state: precisely, or as the exception of `BSR.READ`. -/
theorem exec_primitive_failed {i : Instr} {s t : State} (hi : isPrimitive i = true) (hx : exec i s = .next t) (ht : t.err ≠ 0) :
    ((t.err ≠ 14 → t.mem = s.mem) ∧ t.sameButMemory (s.failed t.err 0)) ∨
      (∃ n, i = .bsrRead n) ∧ s.rdOpen = true ∧ s.loadAddr < s.rdEnd.toNat ∧ t = (afterLoad s.started).completed 3 0 0 := by
  rcases commandRule_precise_or hi s with h | ⟨n, rfl, hopen, hlt, hr⟩
  · rw [exec_eq_runCommand] at hx
    exact .inl (h.failed hx ht)
  · rw [exec_bsrRead_of_raised hr] at hx
    cases hx
    exact .inr ⟨⟨n, rfl⟩, hopen, hlt, rfl⟩

theorem faultAfter_code (b : Bool) (e : Err) : faultAfter b e.code = true := by
  rw [faultAfter, bne_iff_ne.2 (code_ne_zero e), Bool.or_true]

/-- A reader operation that raises has changed four of the reader's registers at most, and its completion `STATUS` and `RES0`. -/
theorem raised_of_readFrame {s u : State} (h : ReadFrame s.started u) (e : Err) :
    u.completed e.code 0 0 =
      { s.failed e.code 0 with rdLa := u.rdLa, rdLoaded := u.rdLoaded, rdCons := u.rdCons, rdPtr := u.rdPtr } := by
  rw [completed_of_readFrame h, show (s.fault || e.code != 0) = true from faultAfter_code s.fault e]
  rfl

/-- Settles O9: the one command that fails after a change is a `BSR.READ` that has reloaded, and a reload keeps the position. -/
theorem primitiveCommandsPrecise : Obligations.PrimitiveCommandsPrecise := by
  intro i s t hs hi hx ht
  rcases exec_primitive_failed hi hx ht with ⟨hmem, hsame⟩ | ⟨hread, hopen, hlt, rfl⟩
  · exact ⟨hmem, .inl hsame⟩
  · obtain ⟨-, hframe, hpos, hfresh, -⟩ := afterLoad_ready (s := s.started) (.of_inv (readerInv_of_inv hs) hopen) hlt
    refine ⟨fun _ => hframe.mem, .inr ⟨rfl, hread, hpos, hfresh, ?_⟩⟩
    exact raised_of_readFrame hframe .notEnoughBits

/-! ### Every completion (R206) -/

section Completion
variable {i : Instr} {s t : State}

/-- The completion step clears `BUSY`, and `RES0` beside an error. -/
theorem exec_busy_res0 (hx : exec i s = .next t) : t.running = none ∧ (t.err ≠ 0 → t.res0 = 0) := by
  rcases exec_reason (A := fun _ => True) (fun _ _ => trivial) (fun _ => trivial) (fun _ _ => trivial) (fun _ => trivial) hx with
    ⟨u, v, rfl⟩ | ⟨u, e, j, -, rfl⟩
  · exact ⟨rfl, fun h => absurd rfl h⟩
  · exact ⟨rfl, fun _ => rfl⟩

/-- `FAULT` is sticky: no rule but that of `SYS.RESET` touches it, and the completion step only sets it (R244). -/
theorem exec_fault (hi : i ≠ .sysReset) (hx : exec i s = .next t) : t.fault = faultAfter s.fault t.err := by
  have allows : Allows (SameIn State.fault) fun _ => True :=
    ⟨fun _ => rfl, fun h k => k.trans h, fun _ _ _ _ => rfl, fun _ _ => trivial, fun _ => trivial⟩
  cases exec_completed allows (fun _ => ⟨fun _ _ _ => rfl, fun _ _ _ _ => rfl, fun _ => rfl⟩)
    (fun _ => ⟨fun _ _ _ => rfl, fun _ _ _ _ => rfl, fun _ _ => rfl, trivial, trivial⟩)
    (fun _ => ⟨fun _ _ => rfl, fun _ _ => rfl, trivial⟩) (fun h => absurd h hi) hx with
  | ok v u hu ht => rw [ht, completed_fault, completed_err, hu, started_fault]
  | raised e j u hu _ ht => rw [ht, completed_fault, completed_err, hu, started_fault]

theorem faultAfter_eq_true {b : Bool} {e : BitVec 8} : faultAfter b e = true ↔ b = true ∨ e ≠ 0 := by
  rw [faultAfter, Bool.or_eq_true, bne_iff_ne]

/-- The reason of an abort gives no info (45_bct_decoder.md R185). -/
def NoInfo : Abort → Prop
  | .raised _ j => j = 0
  | .stopped _ => True

/-- A command that does not own the reader has no reader error to report as an info (R185). -/
theorem exec_suberr_of_no_reader (hi : writesReader i = false) (hx : exec i s = .next t) : t.suberr = 0 := by
  have allows : Allows (fun _ _ => True) NoInfo :=
    ⟨fun _ => trivial, fun _ _ => trivial, fun _ _ _ _ => trivial, fun _ _ => rfl, fun _ => trivial⟩
  cases exec_completed allows (fun _ => ⟨fun _ _ _ => trivial, fun _ _ _ _ => trivial, fun _ => trivial⟩)
    (fun h => absurd (hi.symm.trans h) Bool.false_ne_true) (fun _ => ⟨fun _ _ => trivial, fun _ _ => trivial, rfl⟩)
    (fun _ _ => trivial) hx with
  | ok v u _ ht => rw [ht, completed_suberr]
  | raised e j u _ hj ht => rw [ht, completed_suberr]; exact hj

theorem exec_suberr_of_primitive (hi : isPrimitive i = true) (hx : exec i s = .next t) (ht : t.err ≠ 0) : t.suberr = 0 := by
  rcases exec_primitive_failed hi hx ht with ⟨-, hsame⟩ | ⟨-, -, -, rfl⟩
  · exact congrArg State.suberr hsame
  · rfl

/-- The decode-class commands are the ones that are neither primitive nor without the reader. -/
theorem decodeClass_of_not {i : Instr} (hp : isPrimitive i ≠ true) (hr : writesReader i ≠ false) :
    i = .bctDtree ∨ i = .bctDecode ∨ i = .bctDsize := by
  cases i with
  | bctDtree => exact .inl rfl
  | bctDecode => exact .inr (.inl rfl)
  | bctDsize => exact .inr (.inr rfl)
  | bctEtree | bctEncode => exact absurd rfl hr
  | sysNop | sysReset | utlBlen | bswInit | bswAppend n | bswWrite n | bswFlush | bswClose | bsrInit | bsrRead n | bsrLoad
  | bsrSize | zcCount bit => exact absurd rfl hp

theorem exec_info (hx : exec i s = .next t) (hinfo : t.suberr ≠ 0) :
    t.err = 7 ∧ (t.suberr = 2 ∨ t.suberr = 3) ∧ (i = .bctDtree ∨ i = .bctDecode ∨ i = .bctDsize) := by
  obtain ⟨-, hsub, -⟩ := exec_statusInv hx
  obtain ⟨herr, hvalue⟩ := hsub.resolve_left hinfo
  have hne : t.err ≠ 0 := by rw [herr]; decide
  exact ⟨herr, hvalue, decodeClass_of_not (fun hp => hinfo (exec_suberr_of_primitive hp hx hne))
    fun hr => hinfo (exec_suberr_of_no_reader hr hx)⟩

end Completion

/-- Settles O5: the completion step sets `STATUS` and `RES0`; only a decode-class command gives an info; `SYS.RESET` completes without an
error from the reset registers. -/
theorem completionStep : Obligations.CompletionStep := by
  intro i s t hx
  obtain ⟨hbusy, hres0⟩ := exec_busy_res0 hx
  obtain ⟨hcode, -, -⟩ := exec_statusInv hx
  refine ⟨hbusy, hcode, hres0, exec_info hx, ?_⟩
  by_cases hi : i = .sysReset
  · subst hi
    rw [exec_sysReset_eq] at hx
    cases hx
    exact ⟨nofun, fun h => h.elim (fun hs => absurd rfl hs.2) (absurd rfl)⟩
  · rw [exec_fault hi hx, faultAfter_eq_true, and_iff_left hi]

/-! ### A refused byte in a write or a close (R207, 20_memory.md R62; log 12) -/

section BusError
variable {s : State} {k n : Nat}

/-- `MemWrite` of bytes that exist stores those before the first refused one. -/
theorem memWrite_refused {a v : Nat} (hk : k < n) (hspace : a + n ≤ Config.addressSpace) (hall : AllAdmitted s.platform a k)
    (hrefused : admitted s.platform (a + k) = false) :
    memWrite a n v s = .error (.raised .busError 0) (withStores s (cells a k v)) := by
  rcases memWrite_cases s a n v with ⟨-, hadm, -⟩ | ⟨j, -, hr, hj, hj', -⟩ | ⟨j, hj, -, -, hstop⟩
  · exact absurd hadm (not_allAdmitted hk hrefused)
  · rwa [first_refused_unique hj hall hj' hrefused] at hr
  · omega

theorem flushBody_refused (hk : k < s.wrCnt.toNat / 8) (hspace : s.wrPtr.toNat + s.wrCnt.toNat / 8 ≤ Config.addressSpace)
    (hall : AllAdmitted s.platform s.wrPtr.toNat k) (hrefused : admitted s.platform (s.wrPtr.toNat + k) = false) :
    flushBody s = .error (.raised .busError 0) (withStores s (cells s.wrPtr.toNat k s.wrAcc.toNat)) := by
  rw [← wholeBytes_eq] at hk hspace
  rw [flushBody, bind_run_ok (get_run s), bind_run_error (memWrite_refused hk hspace hall hrefused)]

theorem flushBody_run (hspace : s.wrPtr.toNat + s.wrCnt.toNat / 8 ≤ Config.addressSpace)
    (hall : AllAdmitted s.platform s.wrPtr.toNat (s.wrCnt.toNat / 8)) : flushBody s = .ok ⟨⟩ (afterFlush s) := by
  rw [← wholeBytes_eq] at hspace hall
  rw [flushBody, bind_run_ok (get_run s), bind_run_ok (memWrite_run _ hspace hall)]
  rfl

theorem raiseIfWriterClosed_open (ho : s.wrOpen = true) : raiseIfWriterClosed s = .ok () s := by
  rw [raiseIfWriterClosed_run, if_pos ho]

theorem raiseIfPastLimit_within (hlim : s.wrPtr.toNat ≤ s.wrLimit.toNat) : raiseIfPastLimit s = .ok () s := by
  rw [raiseIfPastLimit_run, if_neg hlim.not_gt]

/-- `BSW.CLOSE` past its checks, a complete pending byte refused. -/
theorem writerClose_flush_refused {e : Err} {t : State} (ho : s.wrOpen = true) (hlim : s.wrPtr.toNat ≤ s.wrLimit.toNat)
    (h : flushBody s = .error (.raised e 0) t) :
    writerClose s = .error (.raised e 0) (t.withWriter s.wrPtr s.wrAcc s.wrCnt) := by
  rw [writerClose, bind_run_ok (raiseIfWriterClosed_open ho), bind_run_ok (raiseIfPastLimit_within hlim)]
  exact keepWriterOnRaise_raised (bind_run_error h)

/-- `BSW.CLOSE` past its checks and its flush, the trailing partial byte refused. -/
theorem writerClose_tail_refused {e : Err} {t u : State} (ho : s.wrOpen = true) (hlim : s.wrPtr.toNat ≤ s.wrLimit.toNat)
    (hflush : flushBody s = .ok ⟨⟩ t) (hcnt : t.wrCnt ≠ 0)
    (h : memWrite t.wrPtr.toNat 1 (t.wrAcc.toNat % 256) t = .error (.raised e 0) u) :
    writerClose s = .error (.raised e 0) (u.withWriter s.wrPtr s.wrAcc s.wrCnt) := by
  rw [writerClose, bind_run_ok (raiseIfWriterClosed_open ho), bind_run_ok (raiseIfPastLimit_within hlim)]
  refine keepWriterOnRaise_raised ?_
  rw [bind_run_ok hflush, bind_run_ok (get_run t), if_neg hcnt, bind_run_error h]

/-- A refused byte in `BSW.CLOSE`, a complete one or the partial last one: the pending bytes before it are stored, the writer registers
are as before (R116). -/
theorem writerClose_refused (ho : s.wrOpen = true) (hlim : s.wrPtr.toNat ≤ s.wrLimit.toNat)
    (hspace : s.wrPtr.toNat + bytesFor s.wrCnt.toNat ≤ Config.addressSpace) (hk : k < bytesFor s.wrCnt.toNat)
    (hall : AllAdmitted s.platform s.wrPtr.toNat k) (hrefused : admitted s.platform (s.wrPtr.toNat + k) = false) :
    writerClose s = .error (.raised .busError 0) (withStores s (cells s.wrPtr.toNat k s.wrAcc.toNat)) := by
  rw [bytesFor] at hk hspace
  by_cases hwhole : k < s.wrCnt.toNat / 8
  · exact writerClose_flush_refused ho hlim (flushBody_refused hwhole (by omega) hall hrefused)
  · obtain rfl : k = s.wrCnt.toNat / 8 := by omega
    have hflush := flushBody_run (by omega) hall
    have hptr : (afterFlush s).wrPtr.toNat = s.wrPtr.toNat + s.wrCnt.toNat / 8 :=
      afterFlush_wrPtr_toNat (by simp only [Config.addressSpace] at hspace; omega)
    have hcnt : (afterFlush s).wrCnt ≠ 0 := fun h => by have := afterFlush_wrCnt_eq_zero.1 h; omega
    have htail := memWrite_refused (s := afterFlush s) (a := (afterFlush s).wrPtr.toNat) (k := 0) (n := 1)
      (v := (afterFlush s).wrAcc.toNat % 256) Nat.one_pos (by rw [hptr]; omega) (.zero _ _) (by rw [hptr]; exact hrefused)
    rw [writerClose_tail_refused ho hlim hflush hcnt htail, ← flushCells_eq]
    rfl

/-- A refused byte in `BSW.WRITE`: the complete bytes of the merged accumulator before it are stored, the writer registers are as before
the merge (R115). -/
theorem writerWrite_refused {v : Nat} (ho : s.wrOpen = true) (hlim : s.wrPtr.toNat ≤ s.wrLimit.toNat) (hn : n ≤ 57)
    (hfits : s.wrCnt.toNat + n ≤ 64) (hspace : s.wrPtr.toNat + (s.wrCnt.toNat + n) / 8 ≤ Config.addressSpace)
    (hk : k < (s.wrCnt.toNat + n) / 8) (hall : AllAdmitted s.platform s.wrPtr.toNat k)
    (hrefused : admitted s.platform (s.wrPtr.toNat + k) = false) :
    writerWrite v n s = .error (.raised .busError 0)
      (withStores s (cells s.wrPtr.toNat k (s.wrAcc.toNat ||| ((v &&& sizeMask n) <<< s.wrCnt.toNat)))) := by
  rcases writerWrite_cases s v n with ⟨hclosed, -⟩ | ⟨-, hbad, -⟩ | ⟨-, -, -, hpast, -⟩ | ⟨-, -, -, -, hend⟩
  · exact absurd (ho.symm.trans hclosed) Bool.false_ne_true.symm
  · omega
  · omega
  · rw [wholeBytes_eq, merged_wrCnt_toNat hfits] at hend
    rcases hend with ⟨-, hadm⟩ | ⟨j, -, hr, hrefused', hall'⟩ | ⟨-, -, -, hstop⟩
    · exact absurd hadm (not_allAdmitted hk hrefused)
    · obtain rfl := first_refused_unique hall' hall hrefused' hrefused
      rw [hr, flushCells_eq, merged_wrCnt_toNat hfits, cells_take _ _ _ _ hk.le, merged_wrAcc_toNat_or hfits]
      rfl
    · omega

/-- The end of a command that has stored `k` bytes of `v` before it met a refused one. -/
theorem busError_completed (s : State) (base k v : Nat) :
    ((withStores s.started (cells base k v)).completed 14 0 0).sameButMemory (s.failed 14 0) ∧
      ((withStores s.started (cells base k v)).completed 14 0 0).storedBytes s base k v :=
  ⟨withStores_raised_same s _ .busError, storedBytes_of_cells rfl⟩

end BusError

/-- Settles O22: the first refused byte is one of the pending bytes, so the command ends there, the bytes before it stored. -/
theorem writerBusError : Obligations.WriterBusError := by
  intro s k n hinv hopen hlim hadm hrefused
  obtain ⟨-, hcnt, -, -, hlimit⟩ := hinv hopen
  have hall : AllAdmitted s.platform s.wrPtr.toNat k := admitsRegion_ofBytes.1 hadm
  refine ⟨fun hk => ?_, fun hn hfits hk => ?_⟩
  · have hr := writerClose_refused (s := s.started) hopen hlim (by rw [bytesFor, started_wrPtr, started_wrCnt]; omega) hk hall hrefused
    exact ⟨_, runCommand_of_raised hr, busError_completed s _ k _⟩
  · have hr := writerWrite_refused (s := s.started) (v := s.arg0.toNat) hopen hlim hn hfits
      (by rw [started_wrPtr, started_wrCnt]; omega) hk hall hrefused
    exact ⟨_, runSilent_of_raised hr, busError_completed s _ k _⟩

end Sys2Proof.Proofs

/-! PROOFS. Reset (10_state.md R44, 70_reset_and_hazards.md R230, R231): the values of the registers, and the reset input at any time. -/

namespace Sys2Proof.Proofs
open Sys2Proof Sys2Proof.Machine

/-- Settles O15: the reset state is a literal, and so is every value derived from it. -/
theorem resetValues : Obligations.ResetValues := by
  unfold Obligations.ResetValues
  decide

section ResetInput
variable {s u : State} {w : Word}

/-- From a state with the invariants a value written to `CMD` completes, whether it is a command or not (30_encoding.md R85, R89). -/
theorem issue_completes (hs : s.Inv) (w : Word) : ∃ t, issue w s = .next t := by
  by_cases h : ∃ i, decode w = .ok i
  · obtain ⟨i, hi⟩ := h
    rw [issue_decoded hi]
    exact everyCommandCompletes i s hs
  · exact ⟨_, issue_undecoded h⟩

/-- A reset while a command runs that would complete: the registers reset, the first of its stores made (R230; log 9). -/
theorem abandon_of_issue (hu : issue w s = .next u) (k : Nat) :
    abandon w k s = .next { s.registersReset with
      mem := applyStores s.mem (u.storeTrace.reverse.take k), storeTrace := (u.storeTrace.reverse.take k).reverse } := by
  rw [abandon, hu]

end ResetInput

/-- Settles O51: an idle block resets where it stands; a running command completes, so its trace has a prefix of the length that the
action asks for. -/
theorem resetInput : Obligations.ResetInput := by
  intro s k rest hs hi
  obtain hr | ⟨w, hr⟩ := Option.eq_none_or_eq_some s.running
  · refine ⟨_, step_idle hr hi, rfl, fun _ => rfl, fun w u hw _ => ?_⟩
    cases hr.symm.trans hw
  · obtain ⟨u, hu⟩ := issue_completes (s := s.withInbox rest) hs w
    refine ⟨_, (step_busy hr hi).trans (abandon_of_issue hu k), rfl, fun hidle => ?_, fun w' u' hw hu' => ?_⟩
    · cases hr.symm.trans hidle
    · cases hr.symm.trans hw
      cases hu.symm.trans hu'
      exact ⟨u.storeTrace.reverse.take k, List.take_prefix _ _, by rw [List.length_take, List.length_reverse], rfl⟩

end Sys2Proof.Proofs

/-! PROOFS. A capacity that suffices for `BCT.ENCODE` on any input (70_reset_and_hazards.md R236, 44_bct_encoder.md R170): the walk emits at
most two bits for each element and bit position, so a failure for want of room contradicts the capacity. -/

namespace Sys2Proof.Proofs
open Sys2Proof Sys2Proof.Machine Sys2Proof.Format Sys2Proof.Laws

section Capacity
variable {s t u : State} {vbase len b bits : Nat} {e : Err}

/-- The most bits that `BCT.ENCODE` puts into its stream: the count and two bits for each element and bit position (R236). -/
def encodeBitsBound (s : State) : Nat := headerBits s.isList s.elemWidth + 2 * s.arg1.toNat * s.ebw

/-- The count takes the bits of the prefix (R165, R188). -/
theorem streamBits_headerField (isList : Bool) (width count : Nat) :
    streamBits [headerField isList width count] = headerBits isList width := by cases isList <;> rfl

/-- A failure after at most `bits - b` bits have been emitted, in an operation of at most `b` bits. -/
theorem emitFailed_within (hf : EncFrame s t) (hpos : streamPos t + b ≤ streamPos s + bits)
    (h : EmitFailed b vbase len e t u) : EmitFailed bits vbase len e s u := by
  refine ⟨h.ready, hf.trans h.frame, ?_⟩
  rcases h.cause with ⟨he, hroom⟩ | ⟨he, hrefused⟩
  · rw [hf.wrLimit, hf.wrBase] at hroom
    exact .inl ⟨he, hroom.trans_le (Nat.add_le_add_left (Nat.div_le_div_right hpos) _)⟩
  · rw [BufferAdmitted.of_frame hf, hf.platform, hf.arrayBytes] at hrefused
    exact .inr ⟨he, hrefused⟩

/-- The walk over an array in any order emits at most two bits for each element and bit position (R236). -/
theorem eTreeBody_bounded (hready : WriterReady s) (hcfg : s.badConfig = false) (hhwm : s.stkHwm.toNat ≤ 64)
    (harr : vbase + s.arrayBytes len < Config.addressSpace) (hlen : len < 2 ^ 64) :
    Finishes (eTreeBody vbase len) s
      (fun _ t => WriterReady t ∧ EncFrame s t ∧ streamPos t ≤ streamPos s + 2 * (len * s.ebw))
      (EmitFailed (2 * (len * s.ebw)) vbase len · s ·) := by
  rcases eTreeBody_cases hready hcfg hhwm harr hlen with ⟨t, ht, hw, -, hframe, hpos⟩ | ⟨t, e, ht, hf, -⟩
  · exact .of_ok ht ⟨hw.ready, hframe, hpos⟩
  · exact .of_raised ht hf

/-- The close of a ready writer answers the bytes of its stream (41_bitstream_writer.md R116, R118). -/
theorem closeResult_of_ready (h : WriterReady s) (hle : s.wrPtr.toNat ≤ s.wrLimit.toNat) :
    closeResult s = bytesFor (streamPos s) := by
  have hcnt := h.cnt_le
  have hlimit : s.wrLimit.toNat + 8 < 2 ^ 64 := h.limit_lt
  rw [closeResult_eq h.base_le (by omega), bytesFor, bytesFor, streamPos]
  omega

/-- Past its checks `BCT.ENCODE` closes a stream of at most the bound, or fails as an operation of that many bits would. -/
theorem bctEncodeRule_bounded (hcheck : s.encodeCheck = none) (hhwm : s.stkHwm.toNat ≤ 64) :
    Finishes bctEncodeRule s (fun v t => t.wrOpen = false ∧ v.toNat ≤ bytesFor (encodeBitsBound s))
      (EmitFailed (encodeBitsBound s) s.arg0.toNat s.arg1.toNat · (s.writerInitialised s.arg2.toNat s.arg3.toNat) ·) := by
  have hc := EncodeChecked.of_check hcheck
  obtain ⟨hready, -, -, hstart, -⟩ := writerInitialised_ready s hc.buffer hc.cap_ge
  have hbound : encodeBitsBound s = headerBits s.isList s.elemWidth + 2 * (s.arg1.toNat * s.ebw) := by
    rw [encodeBitsBound, Nat.mul_assoc]
  have hheader := putHeader_wrote hready s.arg1.toNat s.arg0.toNat s.arg1.toNat
  simp only [streamBits_headerField] at hheader
  refine .of_run_eq (bctEncodeRule_past_checks hcheck) ?_
  refine .bind_emitted hbound.ge hheader (fun _ _ ht => ?_) ?_
  · have hem := ht.1.toEmitted
    rwa [streamBits_headerField] at hem
  rintro _ t ⟨ht, hview⟩
  have hhwm' : t.stkHwm.toNat ≤ 64 := (congrArg (fun p => p.2.toNat) hview).trans_le hhwm
  have htree := eTreeBody_bounded (vbase := s.arg0.toNat) ht.ready ((badConfig_of_encFrame ht.frame).trans hc.config) hhwm'
    (by rw [ht.frame.arrayBytes]; exact hc.array) s.arg1.isLt
  rw [ht.frame.ebw] at htree
  refine htree.bind ?_
  rintro _ u ⟨hu, hframe, hpos⟩
  refine (writerClose_finishes hu s.arg0.toNat s.arg1.toNat).mono ?_ fun _ _ hf => emitFailed_within hframe hpos hf
  rintro v _ ⟨hle, rfl, rfl⟩
  have htotal : streamPos u ≤ encodeBitsBound s := by
    have hprefix := ht.pos
    rw [streamBits_headerField, hstart] at hprefix
    rw [hbound]
    simp only [writerInitialised_isList, writerInitialised_elemWidth, writerInitialised_ebw] at hprefix hpos
    omega
  refine ⟨rfl, ?_⟩
  rw [closeResult_of_ready hu hle, BitVec.toNat_ofNat]
  exact (Nat.mod_le _ _).trans (Nat.div_le_div_right (Nat.add_le_add_right htotal 7))

end Capacity

/-- Settles O35: a failure would be for want of room, and the capacity has room for all the bits that the command can emit. -/
theorem capacityAlwaysSuffices : Obligations.CapacityAlwaysSuffices := by
  intro s hhwm hcheck hread hwrite hroom
  have hc := EncodeChecked.of_check hcheck
  rcases (bctEncodeRule_bounded (s := s.started) hcheck hhwm).command with ⟨v, u, ⟨hclosed, hsize⟩, hx⟩ | ⟨e, i, u, hf, -⟩
  · exact ⟨_, hx, rfl, hclosed, hsize⟩
  · obtain ⟨-, hfull⟩ := endOfStream_of_admitted hf ((EncodeChecked.of_check (s := s.started) hcheck).bufferAdmitted hwrite)
      (admitsRegion_ofBytes.1 hread)
    obtain ⟨-, hbase, hlimit, hstart, -⟩ := writerInitialised_ready s.started hc.buffer hc.cap_ge
    have hbits : encodeBitsBound s.started / 8 + 8 ≤ s.arg3.toNat := hroom
    simp only [started_arg2, started_arg3, hbase, hlimit, hstart, Nat.zero_add] at hfull
    omega

end Sys2Proof.Proofs
